-- ==== Sys2Proof/Word.lean ====
section
/-! DEFINITION. Word.lean: the number types of the part. -/

namespace Sys2Proof

/-- A byte of a window, a buffer or a page payload. -/
abbrev Byte := BitVec 8

/-- A host port, P0 to P3 (0.3.2). -/
abbrev Port := Fin 4

/-- A claim slot, 0 to 7 (R84). -/
abbrev SlotNo := Fin 8

end Sys2Proof
end

