-- ==== Sys2Proof/Syntax.lean ====
section
/-! DEFINITION. Syntax.lean: the commands of the part, one constructor for each row of
spec/opcode_table.json. The table gives no fields; the operands are what the rule of the row says
comes from outside the part at that step. -/

namespace Sys2Proof

/-- What the error-correcting code of one part of a page answers on a read (R105). -/
inductive Ecc where
  | clean
  | corrected
  | uncorrectable
deriving DecidableEq, Repr

/-- The outcome of one page read, for the tag and for the payload (R105). -/
structure ReadOutcome where
  tag : Ecc
  payload : Ecc
deriving DecidableEq, Repr

/-- What happens on a port's link and has no row of the table (R171): the select line, a valid access
byte, an offset byte, and a data byte of a read transaction or of one whose rest is ignored. -/
inductive LinkEvent where
  | select
  | deselect
  | readAccess
  | writeAccess
  | offset (value : Byte)
  | dataByte
deriving DecidableEq, Repr

/-- Where a data byte stands: what has happened on its port's link, in order, since the port's last byte
that has a row (log 11). -/
structure LinkByte where
  before : List LinkEvent
deriving DecidableEq, Repr

/-- The first data byte of a new write transaction at an offset (R171). -/
def LinkByte.first (offset : Byte) : LinkByte := ⟨[.deselect, .select, .writeAccess, .offset offset]⟩

/-- The next data byte of the transaction in progress. -/
def LinkByte.following : LinkByte := ⟨[]⟩

/-- The commands of the block, in the order of the table. -/
inductive Instr where
  | powerOn
  | resetNAssert
  | resetNDeassert
  | powerLoss
  /-- `success`: how the program or erase in progress, which the engine finishes first, ends (R135). -/
  | pfwNAssert (success : Bool)
  | pfwNDeassert
  | configLoadPageRead (outcome : ReadOutcome)
  | scanPageRead (outcome : ReadOutcome)
  | invalidAccessByte (port : Port) (access : Byte)
  | windowWrite (port : Port) (place : LinkByte) (value : Byte)
  | launch (port : Port) (place : LinkByte) (tag : Byte)
  | attentionCauseWrite (port : Port) (place : LinkByte) (value : Byte)
  | stickyFlagWrite (port : Port) (place : LinkByte) (value : Byte)
  | lookup
  | describe
  | list
  | read
  | create
  | write
  | raise
  | retire
  | claimForUpdate
  | claimWithPreload
  | claimWithCreate
  /-- `maintEn`: MAINT_EN_N is asserted at the moment of taking (R46). -/
  | claimWithConfig (maintEn : Bool)
  | stage
  | fetch
  | renew
  /-- `maintEn`: as for `claimWithConfig`; it counts for a configuration claim alone (R46, R55). -/
  | commit (maintEn : Bool)
  | abandon
  | watch
  | unwatch
  | takeChanges
  | restrict
  | readConfig
  | status
  | detach
  | restart
  | restartDrainEnd
  | leaseExpiry (slot : SlotNo)
  | patrolTimerExpiry
  | jobSelect
  | readJobPageRead (outcome : ReadOutcome)
  | copySourcePageRead (outcome : ReadOutcome)
  | repairSourcePageRead (outcome : ReadOutcome)
  | patrolPageRead (outcome : ReadOutcome)
  | dataPageProgramDone (success : Bool)
  | commitPoint
  | copy2Installed
  | retirementCommitPoint
  | repairPageProgramDone (success : Bool)
  | eraseComplete (success : Bool)
  | configPageOperationDone (success : Bool)
  | configurationCommitPoint
  | unknownCommandCode
  | headerProgramFailure
deriving DecidableEq, Repr

end Sys2Proof
end

