-- ==== Sys2Proof/WellFormed.lean ====
section
/-! DEFINITION. WellFormed.lean: the commands whose operands are of the row they name. An operand is
already in its range by its type; what is left to check is which window location a link byte goes to. -/

namespace Sys2Proof

/-- The read access byte and the write access byte of R171. -/
def readAccess : Byte := 0x3C
def writeAccess : Byte := 0xC3

/-- The three window locations whose writes have behaviour of their own (R172). -/
def goOffset : Byte := 0x80
def causesOffset : Byte := 0x82
def stickyOffset : Byte := 0x84

/-- A place that begins a write transaction is of a given kind of location when its offset is. -/
def LinkByte.fits (ok : Byte → Bool) (place : LinkByte) : Bool :=
  match place.before.reverse with
  | .offset offset :: .writeAccess :: _ => ok offset
  | _ => true

/-- A location with no behaviour of its own (the row WINDOW_WRITE). -/
def plainOffset (offset : Byte) : Bool :=
  offset != goOffset && offset != causesOffset && offset != stickyOffset

/-- The check on each command. A byte further on in a transaction is placed by the transaction in
progress, so its check is made when the command is taken. -/
def Instr.wellFormed : Instr → Bool
  | .invalidAccessByte _ access => access != readAccess && access != writeAccess
  | .windowWrite _ place _ => place.fits plainOffset
  | .launch _ place _ => place.fits (· == goOffset)
  | .attentionCauseWrite _ place _ => place.fits (· == causesOffset)
  | .stickyFlagWrite _ place _ => place.fits (· == stickyOffset)
  | .powerOn | .resetNAssert | .resetNDeassert | .powerLoss | .pfwNAssert _ | .pfwNDeassert
  | .configLoadPageRead _ | .scanPageRead _ | .lookup | .describe | .list | .read | .create
  | .write | .raise | .retire | .claimForUpdate | .claimWithPreload | .claimWithCreate
  | .claimWithConfig _ | .stage | .fetch | .renew | .commit _ | .abandon | .watch | .unwatch
  | .takeChanges | .restrict | .readConfig | .status | .detach | .restart | .restartDrainEnd
  | .leaseExpiry _ | .patrolTimerExpiry | .jobSelect | .readJobPageRead _ | .copySourcePageRead _
  | .repairSourcePageRead _ | .patrolPageRead _ | .dataPageProgramDone _ | .commitPoint
  | .copy2Installed | .retirementCommitPoint | .repairPageProgramDone _ | .eraseComplete _
  | .configPageOperationDone _ | .configurationCommitPoint | .unknownCommandCode
  | .headerProgramFailure => true

end Sys2Proof
end

