-- ==== Sys2Proof/Machine/Page.lean ====
section
/-! DEFINITION. Page.lean: keys, classes, levels, and what a page of the array holds (R1, R7, R9, R53,
R104 to R107). -/

namespace Sys2Proof.Machine

/-- A record key: namespace 0 to 7, item 0 to 65535 (R1). -/
structure Key where
  ns : Nat
  item : Nat
deriving DecidableEq, Repr, Inhabited

/-- SINGLE or MIRRORED (R7). -/
inductive RecordClass where
  | single
  | mirrored
deriving DecidableEq, Repr, Inhabited

/-- The protection levels OPEN, OWNED, FROZEN and PERMANENT, ascending (R9). -/
inductive Level where
  | opened
  | owned
  | frozen
  | permanent
deriving DecidableEq, Repr, Inhabited

/-- Copy number 1 or 2 of a record; copy A or B of the configuration (R7, R53). -/
inductive CopyNo where
  | one
  | two
deriving DecidableEq, Repr, Inhabited

/-- The four kinds of tag (R106). -/
inductive TagKind where
  | header
  | data
  | retire
  | config
deriving DecidableEq, Repr, Inhabited

/-- A tag (R106). The key, copy number and data index are numbers, since a page of undefined content
may bear any (R153); class and level are `none` where the table of R106 says 0. -/
structure Tag where
  kind : TagKind
  key : Key
  version : Nat
  copyNumber : Nat
  dataIndex : Option Nat
  cls : Option RecordClass
  level : Option Level
deriving DecidableEq, Repr, Inhabited

/-- The payload of a record header page (R107). -/
structure HeaderPayload where
  key : Key
  version : Nat
  copyNumber : Nat
  cls : RecordClass
  level : Level
  owner : Option Port
  length : Nat
  dataPageCount : Nat
  dataPages : List Nat
  crc : BitVec 32
  sequence : Nat
deriving DecidableEq, Repr, Inhabited

/-- The payload of a page, held as the fields R53 and R107 name: the spec gives no byte layout for
headers. -/
inductive Payload where
  /-- 64 bytes of record content or of the configuration image. -/
  | data (bytes : List Byte)
  | header (h : HeaderPayload)
  /-- Retirement header: key, retired version, write sequence number. -/
  | retire (key : Key) (version : Nat) (sequence : Nat)
  /-- Configuration header: copy number, write sequence number, image CRC. -/
  | config (copyNumber : Nat) (sequence : Nat) (crc : BitVec 32)
deriving DecidableEq, Repr, Inhabited

/-- One of the two parts of a page as the array holds it: erased, holding content, or left by a cut
operation so that it reads UNCORRECTABLE (R104, R105). -/
inductive Part (α : Type) where
  | erased
  | holds (content : α)
  | unreadable
deriving DecidableEq, Repr, Inhabited

/-- A page of the array: a tag and a payload (R103). -/
structure PageCell where
  tag : Part Tag
  payload : Part Payload
deriving DecidableEq, Repr, Inhabited

/-- The ERASED state of a page: both parts erased (R105). -/
def PageCell.blank : PageCell := ⟨.erased, .erased⟩

/-- What R104 allows a cut program or erase to leave: the page reads ERASED, or reads the content the
program intended (the former content, for an erase), or reads with its tag, its payload or both
UNCORRECTABLE. -/
inductive CutResult where
  | erased
  | whole
  | tagUnreadable
  | payloadUnreadable
  | bothUnreadable
deriving DecidableEq, Repr, Inhabited

end Sys2Proof.Machine
end

