-- ==== Sys2Proof/Config.lean ====
section
/-! DEFINITION. Config.lean: the fixed sizes of the part, and the two values the spec leaves open, as
constants without a body: nothing can evaluate them. -/

namespace Sys2Proof.Config

/-- The highest version and the highest write sequence number (R2, R107). -/
def maxNumber : Nat := 4294967295
/-- The directory's places (R21). -/
def directoryPlaces : Nat := 512
/-- Pages of the array, and the first page of the record area (R103). -/
def pages : Nat := 4096
def firstRecordPage : Nat := 8
/-- Payload bytes of a page, and of a port's data area (R103, R172). -/
def pageBytes : Nat := 64
/-- The repair reserve (R116). -/
def repairReserve : Nat := 34
/-- Bytes of a configuration image, and the first offset of its label (R50). -/
def imageBytes : Nat := 128
def labelOffset : Nat := 88
/-- Bytes of a staging buffer (R84). -/
def bufferBytes : Nat := 1024
/-- Places of the Repair List (R137), the Watch Table, in all and for a port (R162), and a Change Set
(R167). -/
def repairPlaces : Nat := 1024
def watchPlaces : Nat := 64
def watchPlacesPerPort : Nat := 16
def changeSetPlaces : Nat := 24
/-- Entries a LIST and a TAKE CHANGES return at most (R35, R168). -/
def entriesPerAnswer : Nat := 8
/-- The units of the lease length and of the patrol period, and the latest lease expiry after the
expiry time, in milliseconds (R40, R41, R97). -/
def leaseUnit : Nat := 20
def patrolUnit : Nat := 100
def leaseGrace : Nat := 20

/-- FREE VALUE (log 5): what a page holds after its program or erase has failed: "content that is not
defined" (R104). The index is the state's `freeIndex`, so that each failure has a value of its own. -/
opaque undefinedPage : Nat → Machine.PageCell

/-- FREE VALUE (log 6): which of the results R104 allows a cut program or erase leaves. -/
opaque cutResult : Nat → Machine.CutResult

end Sys2Proof.Config
end

