-- ==== Sys2Proof/Machine/State.lean ====
section
/-! DEFINITION. State.lean: everything the spec gives the part to hold, as plain data, and its value at
the first entry to STARTING after power-on. -/

namespace Sys2Proof.Machine

/-- A command of this block always has its effect: no rule of the spec stops the machine. So there is
no fault to raise (safe). -/
inductive Fault where
deriving DecidableEq, Repr

/-- Reasons a command has no meaning. -/
inductive Refusal where
  /-- The command has no meaning in the model yet. Raised by no arm of `exec`: every command of the
  table has its meaning (safe). -/
  | notModelled (mnemonic : String)
deriving DecidableEq, Repr

/-- A byte memory (a window, a staging buffer) in canonical form: addresses strictly rising, no byte
equal to 0 listed; an unlisted byte reads 0. -/
abbrev Memory := List Host.Cell

/-- The page array in canonical form: page numbers strictly rising, no ERASED page listed; an unlisted
page is ERASED. -/
abbrev PageArray := List (Nat × PageCell)

/-! ## The Record Directory (section 2) -/

/-- Lifecycle states (1.8). -/
inductive Lifecycle where
  | forming
  | live
  | writing
  | retiring
deriving DecidableEq, Repr

/-- Integrity states (1.9). -/
inductive Integrity where
  | sound
  | degraded
  | damaged
deriving DecidableEq, Repr

/-- A claim handle: slot and generation (5.1.1). -/
structure Handle where
  slot : SlotNo
  generation : BitVec 8
deriving DecidableEq, Repr

/-- A copy descriptor (R23); its copy number is the field of the entry it stands in. -/
structure CopyDescriptor where
  header : Nat
  dataPages : List Nat
  valid : Bool
  corrections : Nat
deriving DecidableEq, Repr

/-- A directory entry (R22). -/
structure Entry where
  key : Key
  lifecycle : Lifecycle
  integrity : Integrity
  cls : RecordClass
  level : Level
  owner : Option Port
  length : Nat
  version : Nat
  claim : Option Handle
  copy1 : Option CopyDescriptor
  copy2 : Option CopyDescriptor
deriving DecidableEq, Repr

/-! ## The effective configuration and the Start-up Unit (sections 3 and 9) -/

/-- The five rights (R42). -/
structure Rights where
  read : Bool
  create : Bool
  write : Bool
  retire : Bool
  watch : Bool
deriving DecidableEq, Repr

/-- An entry of the Effective Namespace Table (R39). -/
structure NamespaceEntry where
  isOpen : Bool
  mirrorRequired : Bool
  floor : Level
  quota : Nat
  rights : Vector Rights 4
deriving DecidableEq, Repr

/-- Port roles (R40). -/
inductive Role where
  | host
  | maintenance
deriving DecidableEq, Repr

/-- The effective settings of a port (R40). -/
structure PortSettings where
  role : Role
  leaseLength : Nat
  claimLimit : Nat
deriving DecidableEq, Repr

/-- The effective configuration (R38 to R41), with the label of the loaded image (R52). -/
structure EffectiveConfig where
  namespaces : Vector NamespaceEntry 8
  portSettings : Vector PortSettings 4
  patrolPeriod : Nat
  refreshThreshold : Nat
  locked : Bool
  label : List Byte
deriving DecidableEq, Repr

/-- Device states (R149). -/
inductive DeviceState where
  | starting
  | ready
  | halted
deriving DecidableEq, Repr

/-- Reset causes (R150). -/
inductive ResetCause where
  | powerOn
  | pin
  | restart
deriving DecidableEq, Repr

/-- Configuration states (R51). -/
inductive ConfigState where
  | configured
  | unconfigured
  | configFault
deriving DecidableEq, Repr

/-- The state of a configuration copy (R51). -/
inductive CopyState where
  | erased
  | valid (sequence : Nat)
  | invalid
deriving DecidableEq, Repr

/-- What a page read reports (R105): ERASED as a whole, or an outcome for each part, with its content
where it is readable; `true` beside a content says CORRECTED. -/
inductive PageReport where
  | erased
  | parts (tag : Option (Tag × Bool)) (payload : Option (Payload × Bool))
deriving DecidableEq, Repr

/-- The scan record of a record-area page (R153). -/
inductive ScanRecord where
  | erased
  | unreadable
  | tagged (tag : Tag) (corrected : Bool) (payload : Option Payload)
deriving DecidableEq, Repr

/-- The phase of the start-up sequence (R151): CONFIG LOAD with the reports of the pages read so far,
SCAN with the scan records made so far, or no start-up running. `highest` is the highest write sequence
number seen (R157), 0 when none. -/
inductive Startup where
  | idle
  | configLoad (reports : List PageReport)
  | scan (records : List (Nat × ScanRecord)) (highest : Nat)
deriving DecidableEq, Repr

/-! ## The Claim Unit (section 5) -/

/-- Slot states (R84). -/
inductive SlotState where
  | free
  | preloading
  | held
  | committing
deriving DecidableEq, Repr

/-- What a claim slot or an engine job is about: a record, or the configuration (R84, R120). -/
inductive Target where
  | record (key : Key)
  | config
deriving DecidableEq, Repr

/-- The kind of a claim (R84). -/
inductive ClaimKind where
  | update
  | create
deriving DecidableEq, Repr

/-- A slot of the Claim Table (R84). `lease` is the expiry time of a running lease timer; `lapsed` is
the release record. -/
structure Slot where
  state : SlotState
  generation : BitVec 8
  holder : Option Port
  target : Option Target
  kind : Option ClaimKind
  base : Nat
  buffer : Memory
  staged : Nat
  lease : Option Nat
  lapsed : Option (BitVec 8 × Port)
deriving DecidableEq, Repr

/-- Release causes (R87). -/
inductive ReleaseCause where
  | committed
  | abandoned
  | lapsed
  | detached
  | halted
  | failed
deriving DecidableEq, Repr

/-! ## The Watch Unit (section 10) -/

/-- A Watch Table entry (R162); an absent item watches every key of the namespace. -/
structure Watch where
  port : Port
  ns : Nat
  item : Option Nat
  includeOwn : Bool
deriving DecidableEq, Repr

/-- Notice kinds (R165). -/
inductive NoticeKind where
  | created
  | updated
  | retired
  | damaged
deriving DecidableEq, Repr

/-- An entry of a Change Set (R167). -/
structure Change where
  key : Key
  kind : NoticeKind
  version : Nat
deriving DecidableEq, Repr

/-- A Change Set with its overflow flag (R167), oldest entry first. -/
structure ChangeSet where
  entries : List Change
  overflow : Bool
deriving DecidableEq, Repr

/-! ## The Host Port Units (section 11) -/

/-- Port states (R172, R174). -/
inductive PortState where
  | idle
  | queued
  | active
deriving DecidableEq, Repr

/-- The link transaction of a port (R171): none; selected, with its access byte to come; a read or a write
with its offset byte to come; a read or a write at its current offset; or one whose access byte was
invalid, so that the rest is ignored. -/
inductive Link where
  | deselected
  | selected
  | accessed (write : Bool)
  | reading (offset : Byte)
  | writing (offset : Byte)
  | ignored
deriving DecidableEq, Repr

/-- A Host Port Unit. `window` holds the locations 0x00 to 0x7F: command, data and result areas (R172). -/
structure PortUnit where
  window : Memory
  go : Byte
  state : PortState
  complete : Bool
  lapse : Bool
  ready : Bool
  mask : BitVec 5
  framing : Bool
  launchRejected : Bool
  windowLocked : Bool
  link : Link
deriving DecidableEq, Repr

/-! ## The Array Engine (sections 6 and 7) -/

/-- Engine states (R119). -/
inductive EngineState where
  | free
  | running
  | stopped
deriving DecidableEq, Repr

/-- The page operation in progress (R104). -/
inductive PageOperation where
  | read (page : Nat)
  | program (page : Nat) (tag : Tag) (payload : Payload)
  | erase (page : Nat)
deriving DecidableEq, Repr

/-- Job kinds (R120, R121). -/
inductive JobKind where
  | read
  | preload
  | writeCopy
  | retire
  | configWrite
  | repair
  | erase
  | patrol
deriving DecidableEq, Repr

/-- The command that caused a job (R120). -/
inductive JobCause where
  | read
  | create
  | write
  | raise
  | retire
  | claimPreload
  | commitRecord
  | commitCreate
  | commitConfig
deriving DecidableEq, Repr

/-- The parameters a job carries (R120): offset and count of a READ; level, length, class and content of
a write; the image of a CONFIG WRITE (in `content`); the copy number of a REPAIR. -/
structure JobParams where
  offset : Nat := 0
  count : Nat := 0
  cls : RecordClass := .single
  level : Level := .opened
  length : Nat := 0
  content : List Byte := []
  copy : CopyNo := .one
deriving DecidableEq, Repr

/-- An entry of the Job Queue (R120). Background jobs have no causing port and no cause. -/
structure Job where
  kind : JobKind
  port : Option Port
  target : Option Target
  cause : Option JobCause
  handle : Option Handle
  params : JobParams
  need : Nat
deriving DecidableEq, Repr

/-- The phase of a job (R122). -/
inductive Phase where
  | beforeCommit
  | afterCommit
deriving DecidableEq, Repr

/-- The role of a drawn page (R122). -/
inductive PageRole where
  | data (copy : CopyNo) (index : Nat)
  | header (copy : CopyNo)
  | retirement
deriving DecidableEq, Repr

/-- A drawn page, its role, and whether its program has succeeded (R122). -/
structure DrawnPage where
  page : Nat
  role : PageRole
  programmed : Bool
deriving DecidableEq, Repr

/-- Where the running job stands in its sequence (the model's own field).
`reading`: a READ job, reading the head of `left`. `source`: a whole-copy read (PRELOAD, RAISE source,
REPAIR source, PATROL STEP) of copy `copy`, reading the head of `left`, the header page first. `drawing`:
an on-demand erase of a draw of `count` pages, the allocation (`role` none) or a replacement. `config`:
step 0 to 3 the erases, 4 and 5 the data pages, 6 the header. -/
inductive Stage where
  | reading (copy : CopyNo) (left : List Nat) (got : List Byte)
  | source (copy : CopyNo) (header : Option HeaderPayload) (left : List Nat) (got : List Byte)
  | drawing (count : Nat) (role : Option PageRole)
  | programming
  | erasing
  | config (step : Nat)
deriving DecidableEq, Repr

/-- The running-job record (R122), with the entry given at the job's start (R67, R125, R126, R142). -/
structure RunningJob where
  job : Job
  entry : Option Entry
  versionWritten : Option Nat
  phase : Phase
  drawn : List DrawnPage
  failures : Nat
  content : List Byte
  crc : BitVec 32
  stage : Stage
deriving DecidableEq, Repr

/-- A Retirement List entry (R114). -/
structure RetirementEntry where
  key : Key
  header : Nat
  version : Nat
  outstanding : Nat
  released : Bool
deriving DecidableEq, Repr

/-! ## The Repair Unit (section 8) -/

/-- Repair causes (R137). -/
inductive RepairCause where
  | lost
  | refresh
deriving DecidableEq, Repr

/-- A Repair List entry (R137). -/
structure RepairEntry where
  key : Key
  version : Nat
  copy : CopyNo
  cause : RepairCause
  superseded : Bool
  running : Bool
deriving DecidableEq, Repr

/-! ## The whole part -/

/-- The state of the part. -/
structure State where
  -- pins and power
  powered : Bool
  resetAsserted : Bool
  coldStart : Bool
  pfwAsserted : Bool
  maintEnAsserted : Bool
  -- Start-up Unit
  device : DeviceState
  resetCause : ResetCause
  startup : Startup
  configState : Option ConfigState
  storedImage : Option (List Byte)
  storedSequence : Nat
  effectiveSequence : Nat
  copyStateA : CopyState
  copyStateB : CopyState
  -- Record Controller
  effective : EffectiveConfig
  directory : List Entry
  -- Claim Unit
  claims : Vector Slot 8
  -- Watch Unit
  watches : List Watch
  changeSets : Vector ChangeSet 4
  -- Host Port Units
  ports : Vector PortUnit 4
  -- Command Dispatcher
  dispatchQueue : List Port
  restarting : Option Port
  -- Array Engine
  array : PageArray
  operation : Option PageOperation
  engine : EngineState
  running : Option RunningJob
  jobQueue : List Job
  erased : List Nat
  inWrite : List Nat
  live : List Nat
  eraseList : List (Nat × Option Key)
  bad : List (Nat × Option Key)
  retirementList : List RetirementEntry
  reservation : Nat
  sequenceCounter : Option Nat
  -- Repair Unit
  repairList : List RepairEntry
  patrolCursor : Option Key
  patrolTimer : Option Nat
  patrolDue : Bool
  -- the model's own
  now : Nat
  freeIndex : Nat
  pending : List Instr
deriving DecidableEq, Repr

/-! ## Values at entry to STARTING -/

def Rights.none : Rights := ⟨false, false, false, false, false⟩
def Rights.all : Rights := ⟨true, true, true, true, true⟩

/-- The effective configuration while it is discarded, before CONFIG LOAD sets it (R38): no namespace is
open and no port holds a right. DESIGN CHOICE (log 22). -/
def EffectiveConfig.discarded : EffectiveConfig where
  namespaces := Vector.replicate 8 ⟨false, false, .opened, 0, Vector.replicate 4 Rights.none⟩
  portSettings := Vector.replicate 4 ⟨.host, 25, 2⟩
  patrolPeriod := 0
  refreshThreshold := 8
  locked := false
  label := List.replicate 40 0

/-- A slot after power-on, RESET_N or RESTART (R84). -/
def Slot.reset : Slot where
  state := .free
  generation := 0
  holder := none
  target := none
  kind := none
  base := 0
  buffer := []
  staged := 0
  lease := none
  lapsed := none

/-- A port unit at entry to STARTING (R150, R172, R175, R179). -/
def PortUnit.reset : PortUnit where
  window := []
  go := 0
  state := .idle
  complete := false
  lapse := false
  ready := false
  mask := 0
  framing := false
  launchRejected := false
  windowLocked := false
  link := .deselected

/-- The part at its first entry to STARTING after power-on (R150): the read of page 0 has begun
(R151, R152). -/
def State.reset : State where
  powered := true
  resetAsserted := false
  coldStart := false
  pfwAsserted := false
  maintEnAsserted := false
  device := .starting
  resetCause := .powerOn
  startup := .configLoad []
  configState := none
  storedImage := none
  storedSequence := 0
  effectiveSequence := 0
  copyStateA := .erased
  copyStateB := .erased
  effective := EffectiveConfig.discarded
  directory := []
  claims := Vector.replicate 8 Slot.reset
  watches := []
  changeSets := Vector.replicate 4 ⟨[], false⟩
  ports := Vector.replicate 4 PortUnit.reset
  dispatchQueue := []
  restarting := none
  array := []
  operation := some (.read 0)
  engine := .stopped
  running := none
  jobQueue := []
  erased := []
  inWrite := []
  live := []
  eraseList := []
  bad := []
  retirementList := []
  reservation := 0
  sequenceCounter := some 1
  repairList := []
  patrolCursor := none
  patrolTimer := none
  patrolDue := false
  now := 0
  freeIndex := 0
  pending := []

end Sys2Proof.Machine
end

