-- ==== Sys2Proof/Machine/Ops.lean ====
section
/-! DEFINITION. Ops.lean: the named operations over memories, the page array, port units, free values and
ordered collections. -/

namespace Sys2Proof.Machine

/-! ## Sparse stores in canonical form -/

/-- What a store holds at an address; `blank` is what an unlisted address holds. -/
def storeRead {α : Type} (blank : α) : List (Nat × α) → Nat → α
  | [], _ => blank
  | (k, v) :: rest, a => if a = k then v else storeRead blank rest a

/-- Write one address. Writing the blank value removes the entry. -/
def storeWrite {α : Type} [DecidableEq α] (blank : α) :
    List (Nat × α) → Nat → α → List (Nat × α)
  | [], a, v => if v = blank then [] else [(a, v)]
  | (k, x) :: rest, a, v =>
    if a < k then (if v = blank then (k, x) :: rest else (a, v) :: (k, x) :: rest)
    else if a = k then (if v = blank then rest else (a, v) :: rest)
    else (k, x) :: storeWrite blank rest a v

/-- The canonical form: addresses strictly rising, no blank entry. -/
abbrev StoreWf {α : Type} [DecidableEq α] (blank : α) (m : List (Nat × α)) : Prop :=
  (m.map Prod.fst).Pairwise (· < ·) ∧ ∀ c ∈ m, c.2 ≠ blank

/-- The canonical form of a byte memory. -/
abbrev Memory.wf (m : Memory) : Prop := StoreWf (0 : Byte) m

def Memory.read (m : Memory) (a : Nat) : Byte := storeRead 0 m a

def Memory.write (m : Memory) (a : Nat) (v : Byte) : Memory := storeWrite 0 m a v

/-- `count` bytes from address `a`. -/
def Memory.readRange (m : Memory) (a count : Nat) : List Byte :=
  (List.range count).map fun i => m.read (a + i)

/-- The bytes in order from address `a`. -/
def Memory.writeRange (m : Memory) (a : Nat) : List Byte → Memory
  | [] => m
  | b :: rest => Memory.writeRange (m.write a b) (a + 1) rest

/-- The canonical form of the page array. -/
abbrev PageArray.wf (m : PageArray) : Prop := StoreWf PageCell.blank m

/-- What the array holds in a page (R103). -/
def State.page (s : State) (n : Nat) : PageCell := storeRead PageCell.blank s.array n

def State.setPage (s : State) (n : Nat) (c : PageCell) : State :=
  { s with array := storeWrite PageCell.blank s.array n c }

/-- Bytes at `a` and after, most significant first, as a number (0.5). -/
def beNat : List Byte → Nat
  | bs => bs.foldl (fun n b => n * 256 + b.toNat) 0

def Memory.readNat (m : Memory) (a count : Nat) : Nat := beNat (m.readRange a count)

/-- A number in `count` bytes, most significant first (0.5). -/
def beBytes : (count n : Nat) → List Byte
  | 0, _ => []
  | count + 1, n => BitVec.ofNat 8 (n / 256 ^ count) :: beBytes count n

/-- A list of bytes brought to exactly `n` places, 0 in the places beyond it. -/
def padTo (n : Nat) (bs : List Byte) : List Byte :=
  bs.take n ++ List.replicate (n - bs.length) 0

/-! ## Per-port state -/

def State.port (s : State) (p : Port) : PortUnit := s.ports[p]

def State.setPort (s : State) (p : Port) (u : PortUnit) : State :=
  { s with ports := s.ports.set p u }

def State.slot (s : State) (i : SlotNo) : Slot := s.claims[i]

def State.setSlot (s : State) (i : SlotNo) (x : Slot) : State :=
  { s with claims := s.claims.set i x }

def State.changes (s : State) (p : Port) : ChangeSet := s.changeSets[p]

def State.setChanges (s : State) (p : Port) (c : ChangeSet) : State :=
  { s with changeSets := s.changeSets.set p c }

/-! ## Power and readiness -/

/-- The part runs: it is powered and RESET_N is not asserted (R149). -/
def State.active (s : State) : Bool := s.powered && !s.resetAsserted

/-- The part runs and its device state is READY (R149). -/
def State.isReady (s : State) : Bool := s.active && s.device == .ready

/-- The part runs and its device state is STARTING. -/
def State.isStarting (s : State) : Bool := s.active && s.device == .starting

/-! ## Free values (logs 5 and 6) -/

/-- A page whose program or erase failed holds content that is not defined (R104). -/
def State.spoilPage (s : State) (n : Nat) : State :=
  { s.setPage n (Config.undefinedPage s.freeIndex) with freeIndex := s.freeIndex + 1 }

/-- What a cut operation leaves of the cell it was making or unmaking (R104). -/
def cutCell (c : PageCell) : CutResult → PageCell
  | .erased => PageCell.blank
  | .whole => c
  | .tagUnreadable => { c with tag := .unreadable }
  | .payloadUnreadable => { c with payload := .unreadable }
  | .bothUnreadable => ⟨.unreadable, .unreadable⟩

/-- The results of a cut on page `n`. A configuration header (pages 0 and 4) never reads as intended, nor as
before: the next CONFIG LOAD finds the copy ERASED or INVALID (R57). -/
def cutResultOn (n : Nat) (r : CutResult) : CutResult :=
  if (n == 0 || n == 4) && r == .whole then .bothUnreadable else r

/-- Page `n` after a cut operation whose whole effect, or whose absence, would show `c`. -/
def State.cutPage (s : State) (n : Nat) (c : PageCell) : State :=
  { s.setPage n (cutCell c (cutResultOn n (Config.cutResult s.freeIndex))) with
    freeIndex := s.freeIndex + 1 }

/-! ## Page operations -/

/-- A page programmed with a whole tag and a whole payload (R104). -/
def programmedCell (tag : Tag) (payload : Payload) : PageCell := ⟨.holds tag, .holds payload⟩

/-- One part of a page as a read reports it: its content, with whether it was CORRECTED, or `none` for
UNCORRECTABLE (R105). A part in the erased state beside one that is not reads UNCORRECTABLE. -/
def readPart {α : Type} : Part α → Ecc → Option (α × Bool)
  | .holds content, .clean => some (content, false)
  | .holds content, .corrected => some (content, true)
  | .holds _, .uncorrectable => none
  | .erased, _ => none
  | .unreadable, _ => none

/-- What a page read reports (R105). A page whose two parts are erased reports ERASED as a whole. -/
def readCell (c : PageCell) (o : ReadOutcome) : PageReport :=
  if c = PageCell.blank then .erased
  else .parts (readPart c.tag o.tag) (readPart c.payload o.payload)

/-- Some part of the page read CORRECTED (R26). -/
def PageReport.corrected : PageReport → Bool
  | .erased => false
  | .parts tag payload => tag.any (·.2) || payload.any (·.2)

/-- The page reads UNCORRECTABLE: some part does (R105). -/
def PageReport.uncorrectable : PageReport → Bool
  | .erased => false
  | .parts tag payload => tag.isNone || payload.isNone

/-- The payload of a page that reads CLEAN or CORRECTED. -/
def PageReport.readable : PageReport → Option Payload
  | .parts (some _) (some (payload, _)) => some payload
  | _ => none

/-! ## Ordered collections -/

/-- Keys are ordered by namespace and then by item, both ascending (R1). -/
def Key.before (a b : Key) : Bool := a.ns < b.ns || (a.ns == b.ns && a.item < b.item)

/-- Insert a number into a rising list, once. -/
def insertNat (n : Nat) : List Nat → List Nat
  | [] => [n]
  | m :: rest => if n < m then n :: m :: rest else if n = m then m :: rest else m :: insertNat n rest

/-- The union of a rising list with more numbers. -/
def insertAll (ns : List Nat) (l : List Nat) : List Nat := ns.foldl (fun acc n => insertNat n acc) l

/-- A list without the numbers of another. -/
def without (l ns : List Nat) : List Nat := l.filter fun n => !ns.contains n

/-- Insert a key into a rising list, once. -/
def insertKey (k : Key) : List Key → List Key
  | [] => [k]
  | m :: rest =>
    if k.before m then k :: m :: rest else if k = m then m :: rest else m :: insertKey k rest

/-- The number of data pages of a copy of `length` bytes (R6): ceil(length / 64). -/
def dataPageCount (length : Nat) : Nat := (length + 63) / 64

/-- The copies of a class (R7). -/
def RecordClass.copies : RecordClass → Nat
  | .single => 1
  | .mirrored => 2

/-- The pages of one copy (R6): a header and its data pages. -/
def pagesOfCopy (length : Nat) : Nat := 1 + dataPageCount length

/-- The pages of a write (R7). -/
def pagesOfWrite (cls : RecordClass) (length : Nat) : Nat := cls.copies * pagesOfCopy length

/-! ## The data CRC (R107) -/

/-- One bit of the reflected division by 0x04C11DB7. -/
def crcBit (r : BitVec 32) : BitVec 32 :=
  if r.getLsbD 0 then (r >>> 1) ^^^ 0xEDB88320#32 else r >>> 1

/-- One byte, least significant bit first. -/
def crcByte (r : BitVec 32) (b : Byte) : BitVec 32 :=
  crcBit (crcBit (crcBit (crcBit (crcBit (crcBit (crcBit (crcBit (r ^^^ b.setWidth 32))))))))

/-- The 32-bit CRC of R107: register preset to all ones, result reflected and complemented. -/
def crc32 (bytes : List Byte) : BitVec 32 := ~~~(bytes.foldl crcByte 0xFFFFFFFF#32)

end Sys2Proof.Machine
end

