-- ==== Sys2Proof/Machine/Operands.lean ====
section
/-! DEFINITION. Operands.lean: the command area's fields (R173), the codes of every table (R9, R178, R182),
and the layouts of the result area and of the data answers (R35, R168, R178). -/

namespace Sys2Proof.Machine

/-! ## The command area (R173) -/

/-- The parameter fields of the command area, as numbers, and the flag bits. -/
structure CommandFields where
  code : Nat
  preload : Bool
  create : Bool
  config : Bool
  itemScope : Bool
  includeOwn : Bool
  ns : Nat
  level : Nat
  cls : Nat
  item : Nat
  slot : Nat
  generation : BitVec 8
  offset : Nat
  length : Nat
  expected : Nat
  target : Nat
  rights : Nat
  quota : Nat
  mirror : Nat
  isOpen : Nat
deriving DecidableEq, Repr

/-- The fields as they stand in a window (R62, R173). -/
def commandFields (w : Memory) : CommandFields where
  code := w.readNat 0x00 1
  preload := (w.read 0x01).getLsbD 0
  create := (w.read 0x01).getLsbD 1
  config := (w.read 0x01).getLsbD 2
  itemScope := (w.read 0x01).getLsbD 3
  includeOwn := (w.read 0x01).getLsbD 4
  ns := w.readNat 0x02 1
  level := w.readNat 0x03 1
  cls := w.readNat 0x04 1
  item := w.readNat 0x05 2
  slot := w.readNat 0x07 1
  generation := w.read 0x08
  offset := w.readNat 0x09 2
  length := w.readNat 0x0B 2
  expected := w.readNat 0x0D 4
  target := w.readNat 0x11 1
  rights := w.readNat 0x12 1
  quota := w.readNat 0x13 2
  mirror := w.readNat 0x15 1
  isOpen := w.readNat 0x16 1

/-- The key a command names. -/
def CommandFields.key (f : CommandFields) : Key := ⟨f.ns, f.item⟩

/-- The first `n` places of a data area (R62). -/
def dataBytes (w : Memory) (n : Nat) : List Byte := w.readRange 0x20 n

/-! ## Codes -/

/-- Command codes (R182). -/
def codeLookup : Nat := 0x10
def codeDescribe : Nat := 0x11
def codeList : Nat := 0x12
def codeRead : Nat := 0x20
def codeCreate : Nat := 0x21
def codeWrite : Nat := 0x22
def codeRaise : Nat := 0x23
def codeRetire : Nat := 0x24
def codeClaim : Nat := 0x30
def codeStage : Nat := 0x31
def codeFetch : Nat := 0x32
def codeRenew : Nat := 0x33
def codeCommit : Nat := 0x34
def codeAbandon : Nat := 0x35
def codeWatch : Nat := 0x40
def codeUnwatch : Nat := 0x41
def codeTakeChanges : Nat := 0x42
def codeRestrict : Nat := 0x50
def codeReadConfig : Nat := 0x51
def codeStatus : Nat := 0x60
def codeDetach : Nat := 0x61
def codeRestart : Nat := 0x62

/-- Every command code of R182. -/
def commandCodes : List Nat :=
  [codeLookup, codeDescribe, codeList, codeRead, codeCreate, codeWrite, codeRaise, codeRetire,
    codeClaim, codeStage, codeFetch, codeRenew, codeCommit, codeAbandon, codeWatch, codeUnwatch,
    codeTakeChanges, codeRestrict, codeReadConfig, codeStatus, codeDetach, codeRestart]

/-- Completion codes by name (R182). -/
inductive Completion where
  | done
  | notReady
  | halted
  | badCommand
  | badParam
  | noRight
  | locked
  | notFound
  | keyExists
  | busyRecord
  | claimed
  | levelProtected
  | damaged
  | stale
  | noClaim
  | claimLapsed
  | claimsFull
  | directoryFull
  | quotaFull
  | noSpace
  | watchesFull
  | notNarrower
  | arrayFault
  | exhausted
deriving DecidableEq, Repr

/-- Completion codes as numbers (R182). -/
def completionCode : Completion → Nat
  | .done => 0x00
  | .notReady => 0x01
  | .halted => 0x02
  | .badCommand => 0x03
  | .badParam => 0x04
  | .noRight => 0x05
  | .locked => 0x06
  | .notFound => 0x07
  | .keyExists => 0x08
  | .busyRecord => 0x09
  | .claimed => 0x0A
  | .levelProtected => 0x0B
  | .damaged => 0x0C
  | .stale => 0x0D
  | .noClaim => 0x0E
  | .claimLapsed => 0x0F
  | .claimsFull => 0x10
  | .directoryFull => 0x11
  | .quotaFull => 0x12
  | .noSpace => 0x13
  | .watchesFull => 0x14
  | .notNarrower => 0x15
  | .arrayFault => 0x16
  | .exhausted => 0x17

/-- Level codes, and the place of a level on the ladder (R9). -/
def levelCode : Level → Nat
  | .opened => 1
  | .owned => 2
  | .frozen => 3
  | .permanent => 4

def levelOf : Nat → Option Level
  | 1 => some .opened
  | 2 => some .owned
  | 3 => some .frozen
  | 4 => some .permanent
  | _ => none

/-- The higher of two levels. -/
def Level.max (a b : Level) : Level := if levelCode a < levelCode b then b else a

/-- Class codes (R71, R178). -/
def classCode : RecordClass → Nat
  | .single => 1
  | .mirrored => 2

def classOf : Nat → Option RecordClass
  | 1 => some .single
  | 2 => some .mirrored
  | _ => none

/-- The numbers of the two copies (R7). -/
def copyNumber : CopyNo → Nat
  | .one => 1
  | .two => 2

/-- Lifecycle codes (R178). -/
def lifecycleCode : Lifecycle → Nat
  | .forming => 1
  | .live => 2
  | .writing => 3
  | .retiring => 4

/-- Integrity codes (R178). -/
def integrityCode : Integrity → Nat
  | .sound => 1
  | .degraded => 2
  | .damaged => 3

/-- Change kinds (R168). -/
def noticeCode : NoticeKind → Nat
  | .created => 1
  | .updated => 2
  | .retired => 3
  | .damaged => 4

/-- Device states, reset causes and configuration states (R172). -/
def deviceCode : DeviceState → Nat
  | .starting => 1
  | .ready => 2
  | .halted => 3

def resetCauseCode : ResetCause → Nat
  | .powerOn => 1
  | .pin => 2
  | .restart => 3

def configStateCode : Option ConfigState → Nat
  | none => 0
  | some .configured => 1
  | some .unconfigured => 2
  | some .configFault => 3

/-- Port states (R172). -/
def portStateCode : PortState → Nat
  | .idle => 0
  | .queued => 1
  | .active => 2

/-- A bit as a number at a bit position. -/
def bitAt (b : Bool) (position : Nat) : Nat := if b then 2 ^ position else 0

/-- The rights byte (R50). -/
def rightsCode (r : Rights) : Nat :=
  bitAt r.read 0 + bitAt r.create 1 + bitAt r.write 2 + bitAt r.retire 3 + bitAt r.watch 4

def rightsOf (n : Nat) : Rights :=
  ⟨n.testBit 0, n.testBit 1, n.testBit 2, n.testBit 3, n.testBit 4⟩

/-! ## The result area (R178) -/

/-- The fields of the result area after the tag and the completion code. A field that serves several
commands is named after its offset. Fields a command does not report stay 0 (R177). -/
structure Result where
  committed : Bool := false
  copyPending : Bool := false
  more : Bool := false
  overflow : Bool := false
  updated : Bool := false
  lifecycle : Nat := 0
  integrity : Nat := 0
  cls : Nat := 0
  level : Nat := 0
  version : Nat := 0
  length : Nat := 0
  count : Nat := 0
  slot : Nat := 0
  generation : Nat := 0
  base : Nat := 0
  at75 : Nat := 0
  at76 : Nat := 0
  at77 : Nat := 0
  at78 : Nat := 0
  at79 : Nat := 0
  at7A : Nat := 0
  at7C : Nat := 0
  at7D : Nat := 0
  at7E : Nat := 0
deriving DecidableEq, Repr

/-- The result flags byte at 0x62. -/
def resultFlags (r : Result) : Nat :=
  bitAt r.committed 0 + bitAt r.copyPending 1 + bitAt r.more 2 + bitAt r.overflow 3 +
    bitAt r.updated 4

/-- The 32 bytes of the result area, from 0x60 to 0x7F. `at7A` and `at7E` are two-byte fields. -/
def resultBytes (tag : Byte) (c : Completion) (r : Result) : List Byte :=
  [tag] ++ beBytes 1 (completionCode c) ++ beBytes 1 (resultFlags r) ++ beBytes 1 r.lifecycle ++
    beBytes 1 r.integrity ++ beBytes 1 r.cls ++ beBytes 1 r.level ++ beBytes 4 r.version ++
    beBytes 2 r.length ++ beBytes 2 r.count ++ beBytes 1 r.slot ++ beBytes 1 r.generation ++
    beBytes 4 r.base ++ beBytes 1 r.at75 ++ beBytes 1 r.at76 ++ beBytes 1 r.at77 ++
    beBytes 1 r.at78 ++ beBytes 1 r.at79 ++ beBytes 2 r.at7A ++ beBytes 1 r.at7C ++
    beBytes 1 r.at7D ++ beBytes 2 r.at7E

/-! ## Data answers -/

/-- A LIST entry: 8 bytes (R178). -/
def listBytes (e : Entry) : List Byte :=
  beBytes 2 e.key.item ++
    beBytes 1 (lifecycleCode e.lifecycle * 16 + integrityCode e.integrity) ++
    beBytes 1 (levelCode e.level * 16 + classCode e.cls) ++ beBytes 4 e.version

/-- A Change Set entry: 8 bytes (R168). -/
def changeBytes (c : Change) : List Byte :=
  beBytes 1 c.key.ns ++ beBytes 2 c.key.item ++ beBytes 1 (noticeCode c.kind) ++
    beBytes 4 c.version

/-- A data page list in the sixteen two-byte places of DESCRIBE (R34). -/
def pageListBytes (c : Option CopyDescriptor) : List Byte :=
  padTo 32 ((c.map (·.dataPages)).getD [] |>.flatMap (beBytes 2))

end Sys2Proof.Machine
end

