-- ==== Sys2Proof/Machine/Flags.lean ====
section
/-! DEFINITION. Flags.lean: attention causes, sticky flags, the outputs, what a host reads in its window,
and how integrity follows from the valid flags (R17, R149, R172, R175, R179, R180). -/

namespace Sys2Proof.Machine

/-- The CHANGES level of a port (R169). -/
def changesLevel (s : State) (p : Port) : Bool :=
  !(s.changes p).entries.isEmpty || (s.changes p).overflow

/-- The HALT level (R149, R179). -/
def haltLevel (s : State) : Bool := s.device == .halted

/-- The attention causes of a port, as the byte at 0x82 (R179). -/
def attentionCauses (s : State) (p : Port) : Byte :=
  BitVec.ofNat 8 (bitAt (s.port p).complete 0 + bitAt (changesLevel s p) 1 +
    bitAt (s.port p).lapse 2 + bitAt (s.port p).ready 3 + bitAt (haltLevel s) 4)

/-- The sticky flags of a port, as the byte at 0x84 (R175). -/
def stickyFlags (u : PortUnit) : Byte :=
  BitVec.ofNat 8 (bitAt u.framing 0 + bitAt u.launchRejected 1 + bitAt u.windowLocked 2)

/-- ATTNn_N is asserted (R180); while RESET_N is asserted, or without power, it is not (R149). -/
def attentionOutput (s : State) (p : Port) : Bool :=
  s.active && (attentionCauses s p &&& (s.port p).mask.setWidth 8) != 0

/-- The READY pin is asserted (R149). -/
def readyPin (s : State) : Bool := s.isReady

/-- What a read transaction returns for a window location (R171, R172). Reading changes nothing. -/
def windowRead (s : State) (p : Port) (offset : Byte) : Byte :=
  if offset.toNat < 0x80 then (s.port p).window.read offset.toNat
  else match offset.toNat with
    | 0x80 => (s.port p).go
    | 0x81 => BitVec.ofNat 8 (portStateCode (s.port p).state)
    | 0x82 => attentionCauses s p
    | 0x83 => (s.port p).mask.setWidth 8
    | 0x84 => stickyFlags (s.port p)
    | 0x85 => BitVec.ofNat 8 (deviceCode s.device)
    | 0x86 => BitVec.ofNat 8 (resetCauseCode s.resetCause)
    | 0x87 => BitVec.ofNat 8 (configStateCode s.configState)
    | _ => 0

/-- Integrity from the class and the number of valid copies (R17). -/
def integrityOf : RecordClass → Nat → Integrity
  | _, 0 => .damaged
  | .single, _ => .sound
  | .mirrored, 1 => .degraded
  | .mirrored, _ => .sound

/-- The valid copies of an entry. -/
def Entry.validCopies (e : Entry) : Nat :=
  (if e.copy1.any (·.valid) then 1 else 0) + (if e.copy2.any (·.valid) then 1 else 0)

/-- An entry whose integrity is set from its valid flags by the table of R17 (R25). -/
def Entry.judged (e : Entry) : Entry := { e with integrity := integrityOf e.cls e.validCopies }

/-- The copy descriptor of a copy number. -/
def Entry.copy (e : Entry) : CopyNo → Option CopyDescriptor
  | .one => e.copy1
  | .two => e.copy2

def Entry.setCopy (e : Entry) (c : CopyNo) (d : Option CopyDescriptor) : Entry :=
  match c with
  | .one => { e with copy1 := d }
  | .two => { e with copy2 := d }

/-- The copy is present and valid. -/
def Entry.copyValid (e : Entry) (c : CopyNo) : Bool := (e.copy c).any (·.valid)

def CopyNo.other : CopyNo → CopyNo
  | .one => .two
  | .two => .one

/-- The stored sequence differs from the effective sequence (R51). -/
def configurationPending (s : State) : Bool := s.storedSequence != s.effectiveSequence

end Sys2Proof.Machine
end

