-- ==== Sys2Proof/Machine/Posting.lean ====
section
/-! DEFINITION. Posting.lean: posting a completion (R177) and taking a command from the Dispatch Queue
(R176), the shared frame of every Record Controller command. -/

namespace Sys2Proof.Machine

/-- A port unit after a completion is posted to it (R177): the result area whole, the data area whole
where the command returns data, IDLE, COMPLETE. -/
def postUnit (u : PortUnit) (c : Completion) (r : Result) (data : Option (List Byte)) : PortUnit :=
  let w := Memory.writeRange u.window 0x60 (resultBytes u.go c r)
  let w := match data with
    | none => w
    | some bytes => Memory.writeRange w 0x20 (padTo Config.pageBytes bytes)
  { u with window := w, state := .idle, complete := true }

/-- Post a completion to a port (R177). -/
def post (s : State) (p : Port) (c : Completion) (r : Result) (data : Option (List Byte)) : State :=
  s.setPort p (postUnit (s.port p) c r data)

/-- The Record Controller takes commands: READY, and no RESTART accepted (R160, R176). -/
def State.takesCommands (s : State) : Bool := s.isReady && s.restarting.isNone

/-- The head of the queue taken: it leaves the queue and its port goes ACTIVE (R176). -/
def takeHead (s : State) (p : Port) (rest : List Port) : State :=
  { s.setPort p { s.port p with state := .active } with dispatchQueue := rest }

/-- The Record Controller takes the head of the Dispatch Queue, when its command is one that `mine`
picks out, and `body` judges it (R176). Otherwise the event cannot arise (log 1). -/
def takeCommand (s : State) (mine : CommandFields → Bool)
    (body : State → Port → CommandFields → State) : State :=
  if s.takesCommands then
    match s.dispatchQueue with
    | [] => s
    | p :: rest =>
      let f := commandFields (s.port p).window
      if mine f then body (takeHead s p rest) p f else s
  else s

/-- The first check that a command fails, in the order of the acceptance checks (R44): each check is
its completion code and whether the command fails it. -/
def firstFailure : List (Completion × Bool) → Option Completion
  | [] => none
  | (c, fails) :: rest => if fails then some c else firstFailure rest

/-- A command judged (R44): refused with the code of the first check it fails, or accepted. -/
def judge (s : State) (p : Port) (checks : List (Completion × Bool)) (accepted : State) : State :=
  match firstFailure checks with
  | some c => post s p c {} none
  | none => accepted

end Sys2Proof.Machine
end

