-- ==== Sys2Proof/Machine/Directory.lean ====
section
/-! DEFINITION. Directory.lean: the Record Directory (section 2), notices (section 10), repair requests
(section 8) and the changes a fault or a correction makes (R18, R26). -/

namespace Sys2Proof.Machine

/-! ## Entries -/

/-- The entry of a key (R21). -/
def State.entry (s : State) (k : Key) : Option Entry := s.directory.find? (·.key = k)

/-- Insert an entry in key order (R21). -/
def insertEntry (e : Entry) : List Entry → List Entry
  | [] => [e]
  | x :: rest => if e.key.before x.key then e :: x :: rest else x :: insertEntry e rest

/-- Change the entry of a key. -/
def State.modifyEntry (s : State) (k : Key) (f : Entry → Entry) : State :=
  { s with directory := s.directory.map fun e => if e.key = k then f e else e }

/-- Make an entry (R27). -/
def State.addEntry (s : State) (e : Entry) : State :=
  { s with directory := insertEntry e s.directory }

/-- Remove the entry of a key (R28). -/
def State.removeEntry (s : State) (k : Key) : State :=
  { s with directory := s.directory.filter fun e => decide (e.key ≠ k) }

/-- The entries in a namespace (R21). -/
def namespaceCount (s : State) (ns : Nat) : Nat := (s.directory.filter (·.key.ns == ns)).length

/-- The FORMING entries (R21). -/
def formingCount (s : State) : Nat := (s.directory.filter (·.lifecycle == .forming)).length

/-- An entry as it is made (R27): version 0, length 0, no copies, SOUND. -/
def newEntry (k : Key) (lc : Lifecycle) (cls : RecordClass) (level : Level) (owner : Port)
    (claim : Option Handle) : Entry where
  key := k
  lifecycle := lc
  integrity := .sound
  cls := cls
  level := level
  owner := some owner
  length := 0
  version := 0
  claim := claim
  copy1 := none
  copy2 := none

/-- The pages a descriptor names, header first (R112). -/
def descriptorPages : Option CopyDescriptor → List Nat
  | none => []
  | some d => d.header :: d.dataPages

/-- The pages of every descriptor, in the order of R112. -/
def entryPages (e : Entry) : List Nat := descriptorPages e.copy1 ++ descriptorPages e.copy2

/-! ## Notices (R165 to R167) -/

/-- A watch matches a key (R166). -/
def Watch.covers (w : Watch) (k : Key) : Bool :=
  w.ns == k.ns && (w.item == none || w.item == some k.item)

/-- A notice is delivered to a port (R166). -/
def delivered (watches : List Watch) (k : Key) (cause : Option Port) (p : Port) : Bool :=
  let matching := watches.filter fun w => w.port == p && w.covers k
  !matching.isEmpty && (cause != some p || matching.any (·.includeOwn))

/-- The kind after a notice reaches an entry (R167): an UPDATED notice leaves CREATED. -/
def combineKinds : NoticeKind → NoticeKind → NoticeKind
  | .created, .updated => .created
  | _, incoming => incoming

/-- A notice delivered to a Change Set (R167). -/
def deliver (c : ChangeSet) (n : Change) : ChangeSet :=
  if c.entries.any (·.key == n.key) then
    { c with
      entries := c.entries.map fun e =>
        if e.key = n.key then { n with kind := combineKinds e.kind n.kind } else e }
  else if c.entries.length < Config.changeSetPlaces then
    { c with entries := c.entries ++ [n] }
  else { c with overflow := true }

/-- The Watch Unit takes a notice and delivers it to every port it reaches (R166). -/
def notify (s : State) (kind : NoticeKind) (k : Key) (version : Nat) (cause : Option Port) : State :=
  { s with
    changeSets := Vector.ofFn fun p : Port =>
      if delivered s.watches k cause p then deliver (s.changes p) ⟨k, kind, version⟩
      else s.changes p }

/-! ## Repair requests (R138, R139) -/

/-- The Repair List entry of a pair. -/
def RepairEntry.isFor (e : RepairEntry) (k : Key) (c : CopyNo) : Bool := e.key == k && e.copy == c

/-- The Repair List with a new entry at its tail, purged first when it is full (R139). -/
def repairListAdd (l : List RepairEntry) (e : RepairEntry) : List RepairEntry :=
  (if Config.repairPlaces ≤ l.length then l.filter fun x => !x.superseded || x.running else l) ++ [e]

/-- A repair request applied (R138). A request that replaces its pair's superseded entry takes that entry off
the list first, so that the full list is not purged of others (DESIGN CHOICE, log 29). -/
def repairRequest (s : State) (k : Key) (version : Nat) (c : CopyNo) (cause : RepairCause) : State :=
  let new : RepairEntry := ⟨k, version, c, cause, false, false⟩
  match s.repairList.find? (·.isFor k c) with
  | none => { s with repairList := repairListAdd s.repairList new }
  | some e =>
    if e.running then s
    else if e.superseded then
      { s with repairList := repairListAdd (s.repairList.filter fun x => !x.isFor k c) new }
    else match cause with
      | .refresh => s
      | .lost =>
        { s with
          repairList := s.repairList.map fun x =>
            if x.isFor k c then { x with cause := .lost, version := version } else x }

/-- A LOST entry placed where the list holds no entry for the pair (R31, R145). -/
def placeLost (s : State) (k : Key) (version : Nat) (c : CopyNo) : State :=
  if s.repairList.any (·.isFor k c) then s else repairRequest s k version c .lost

/-- The repair pending indication of DESCRIBE (R34, R140): 0 none, 1 LOST, 2 REFRESH. -/
def repairPendingCode (s : State) (k : Key) (c : CopyNo) : Nat :=
  match s.repairList.find? (·.isFor k c) with
  | none => 0
  | some e => if e.superseded then 0 else match e.cause with
    | .lost => 1
    | .refresh => 2

/-! ## Reports of page reads -/

/-- A corrected page read is charged to a copy (R26): the count saturates at 255, and at or above the
threshold a refresh is requested, unless the same page also makes the copy invalid (log 9). -/
def chargeCorrection (s : State) (k : Key) (c : CopyNo) (faulty : Bool) : State :=
  match s.entry k with
  | none => s
  | some e =>
    match e.copy c with
    | none => s
    | some d =>
      if !d.valid then s
      else
        let count := min 255 (d.corrections + 1)
        let s := s.modifyEntry k fun e => e.setCopy c (some { d with corrections := count })
        if s.effective.refreshThreshold ≤ count && !faulty then
          repairRequest s k e.version c .refresh
        else s

/-- A copy is reported faulty (R18, R25): its flag becomes no, integrity follows, a record that becomes
DEGRADED has a LOST entry placed for the copy, and one that becomes DAMAGED is notified. -/
def copyFault (s : State) (k : Key) (c : CopyNo) : State :=
  match s.entry k with
  | none => s
  | some e =>
    match e.copy c with
    | none => s
    | some d =>
      if !d.valid then s
      else
        let e' := (e.setCopy c (some { d with valid := false })).judged
        let s := s.modifyEntry k fun _ => e'
        match e'.integrity with
        | .sound => s
        | .degraded => repairRequest s k e.version c .lost
        | .damaged =>
          if e.integrity = .damaged then s else notify s .damaged k e.version none

end Sys2Proof.Machine
end

