-- ==== Sys2Proof/Machine/Pools.lean ====
section
/-! DEFINITION. Pools.lean: the page pools, the Erase List and the Retirement List (section 6). -/

namespace Sys2Proof.Machine

/-- The Retirement List entry of a key (R114). -/
def State.retirement (s : State) (k : Key) : Option RetirementEntry :=
  s.retirementList.find? (·.key = k)

/-- Change the Retirement List entry of a key. -/
def State.modifyRetirement (s : State) (k : Key) (f : RetirementEntry → RetirementEntry) : State :=
  { s with retirementList := s.retirementList.map fun e => if e.key = k then f e else e }

/-- Add pages to the Erase List tail with a key, in the order given (R112); the outstanding count of the
key's Retirement List entry rises by one for each (R115). -/
def addDirty (s : State) (pages : List Nat) (k : Key) : State :=
  { s.modifyRetirement k fun e => { e with outstanding := e.outstanding + pages.length } with
    eraseList := s.eraseList ++ pages.map fun p => (p, some k) }

/-- Pages move from LIVE to the Erase List with the key (R109, R112). -/
def liveToDirty (s : State) (pages : List Nat) (k : Key) : State :=
  addDirty { s with live := without s.live pages } pages k

/-- Pages move from IN_WRITE to LIVE (R109). -/
def inWriteToLive (s : State) (pages : List Nat) : State :=
  { s with inWrite := without s.inWrite pages, live := insertAll pages s.live }

/-- One page moves from IN_WRITE to the Erase List with the key of its job (R130). -/
def inWritePageToDirty (s : State) (page : Nat) (k : Key) : State :=
  addDirty { s with inWrite := without s.inWrite [page] } [page] k

/-- Every IN_WRITE page moves to the Erase List with the job's key, in ascending page number (R112);
the pool is a rising list and belongs to the running job alone. -/
def inWriteToDirty (s : State) (k : Key) : State :=
  addDirty { s with inWrite := [] } s.inWrite k

/-- The erase of the page at the Erase List head reports (R113): on success the page joins the ERASED
tail and its key's outstanding count falls by one; on failure it joins BAD with its key. -/
def eraseHeadDone (s : State) (success : Bool) : State :=
  match s.eraseList with
  | [] => s
  | (page, k) :: rest =>
    let s := { s with eraseList := rest }
    if success then
      let s := { s.setPage page PageCell.blank with erased := s.erased ++ [page] }
      match k with
      | none => s
      | some k => s.modifyRetirement k fun e => { e with outstanding := e.outstanding - 1 }
    else { s.spoilPage page with bad := s.bad ++ [(page, k)] }

/-- The pages bearing a key among the Erase List entries and the BAD pages (R114). -/
def pagesBearing (s : State) (k : Key) : Nat :=
  ((s.eraseList ++ s.bad).filter fun x => x.2 == some k).length

/-- A Retirement List entry that a count of 0 releases at a job's end (R115). -/
def RetirementEntry.dueRelease (e : RetirementEntry) : Bool := e.outstanding == 0 && !e.released

/-- A Retirement List entry that a count of 0 removes at a job's end (R115). -/
def RetirementEntry.dueRemoval (e : RetirementEntry) : Bool := e.outstanding == 0 && e.released

/-- The end of a job settles the Retirement List (R115, R133): entries not released whose count is 0 are
released, their header pages going to the Erase List with their keys and their counts rising to 1;
released entries whose count is 0 are removed. The headers of several entries join the tail in Retirement
List order (DESIGN CHOICE, log 27). -/
def settleRetirements (s : State) : State :=
  let due := s.retirementList.filter (·.dueRelease)
  { s with
    retirementList := (s.retirementList.filter fun e => !e.dueRemoval).map fun e =>
      if e.dueRelease then { e with released := true, outstanding := 1 } else e
    live := without s.live (due.map (·.header))
    eraseList := s.eraseList ++ due.map fun e => (e.header, some e.key) }

/-- The sum of ERASED and DIRTY (R116). -/
def drawablePages (s : State) : Nat := s.erased.length + s.eraseList.length

/-- The space test of a write-bearing command (R116). -/
def spaceFor (s : State) (need : Nat) : Bool :=
  s.reservation + Config.repairReserve + need ≤ drawablePages s

/-- The version a first write under a key would install (R3): above the retired version, else 1. -/
def firstVersion (s : State) (k : Key) : Nat :=
  match s.retirement k with
  | some r => r.version + 1
  | none => 1

end Sys2Proof.Machine
end

