-- ==== Sys2Proof/Machine/Claims.lean ====
section
/-! DEFINITION. Claims.lean: the Claim Table (section 5): handles, grants, leases and releases. -/

namespace Sys2Proof.Machine

/-- The slot numbers in ascending order. -/
def slotNumbers : List SlotNo := [0, 1, 2, 3, 4, 5, 6, 7]

def Slot.isFree (x : Slot) : Bool := x.state == .free

/-- The lowest-numbered FREE slot (R91). -/
def lowestFree (s : State) : Option SlotNo := slotNumbers.find? fun i => (s.slot i).isFree

/-- The non-FREE slots a port holds (R84). -/
def claimsHeldBy (s : State) (p : Port) : Nat :=
  (slotNumbers.filter fun i => !(s.slot i).isFree && (s.slot i).holder == some p).length

/-- The non-FREE slots (R84). -/
def claimsInUse (s : State) : Nat := (slotNumbers.filter fun i => !(s.slot i).isFree).length

/-- Some non-FREE slot targets the configuration (R54). -/
def configClaimed (s : State) : Bool :=
  slotNumbers.any fun i => !(s.slot i).isFree && (s.slot i).target == some .config

/-- The lease length of a port, in units of 20 ms (R40). -/
def leaseLengthOf (s : State) (p : Port) : Nat := s.effective.portSettings[p].leaseLength

/-- The expiry time of a lease started or restarted now (R97). -/
def leaseExpiryTime (s : State) (p : Port) : Nat :=
  s.now + leaseLengthOf s p * Config.leaseUnit

/-- The slot of a handle field, in range (R86). -/
def slotOf (n : Nat) : Option SlotNo := if h : n < 8 then some ⟨n, h⟩ else none

/-- How a handle stands when it is judged (R86). -/
inductive HandleStatus where
  | current (slot : SlotNo)
  | lapsed
  | unknown
deriving DecidableEq, Repr

/-- The judgement of a handle against the slot as it stands (R86). -/
def handleStatus (s : State) (p : Port) (f : CommandFields) : HandleStatus :=
  match slotOf f.slot with
  | none => .unknown
  | some i =>
    let x := s.slot i
    if !x.isFree && x.generation == f.generation && x.holder == some p then .current i
    else if x.isFree && x.lapsed == some (f.generation, p) then .lapsed
    else .unknown

/-- The slot of a current handle. -/
def HandleStatus.slot : HandleStatus → Option SlotNo
  | .current i => some i
  | _ => none

/-- The two checks of position 8 on a handle (R86). -/
def handleChecks (h : HandleStatus) : List (Completion × Bool) :=
  [(.noClaim, h == .unknown), (.claimLapsed, h == .lapsed)]

/-- Grant a slot (R91): the generation advances, from 255 to 0, the buffer is zero-filled, and the lease
starts unless the claim preloads. -/
def grantSlot (s : State) (i : SlotNo) (p : Port) (target : Target) (kind : ClaimKind) (base : Nat)
    (preload : Bool) : State :=
  s.setSlot i
    { state := if preload then .preloading else .held
      generation := (s.slot i).generation + 1
      holder := some p
      target := some target
      kind := some kind
      base := base
      buffer := []
      staged := 0
      lease := if preload then none else some (leaseExpiryTime s p)
      lapsed := none }

/-- The handle a grant of a slot issues (R86). -/
def nextHandle (s : State) (i : SlotNo) : Handle := ⟨i, (s.slot i).generation + 1⟩

/-- Restart the lease of a slot held by a port (R97). -/
def restartLease (s : State) (i : SlotNo) (p : Port) : State :=
  s.setSlot i { s.slot i with lease := some (leaseExpiryTime s p) }

/-- The causes whose release of a create-claim removes its FORMING entry (R87). -/
def ReleaseCause.removesForming : ReleaseCause → Bool
  | .abandoned | .lapsed | .detached | .halted => true
  | .committed | .failed => false

/-- The Record Controller's part of a release (R28, R30, R87): the FORMING entry of a create-claim is
removed where the cause calls for it; else the claim field is cleared, when it names this handle. -/
def releaseEntry (s : State) (k : Key) (h : Handle) (kind : Option ClaimKind) (cause : ReleaseCause) :
    State :=
  match s.entry k with
  | none => s
  | some e =>
    if e.claim != some h then s
    else if kind == some .create && e.lifecycle == .forming && cause.removesForming then
      s.removeEntry k
    else s.modifyEntry k fun e => { e with claim := none }

/-- A slot after its release (R87): FREE, the lease stopped, and the release record set for LAPSED. -/
def releasedSlot (x : Slot) (cause : ReleaseCause) : Slot :=
  { x with
    state := .free
    lease := none
    lapsed := match cause, x.holder with
      | .lapsed, some p => some (x.generation, p)
      | _, _ => none }

/-- Release a slot (R87). A lapse sets the holder's LAPSE attention (R98, R179), that of a configuration claim
too, though R54 and R87 give such a release no effect outside the Claim Unit (DESIGN CHOICE, log 34). -/
def releaseSlot (s : State) (i : SlotNo) (cause : ReleaseCause) : State :=
  let x := s.slot i
  let s := s.setSlot i (releasedSlot x cause)
  let s := match cause, x.holder with
    | .lapsed, some p => s.setPort p { s.port p with lapse := true }
    | _, _ => s
  match x.target with
  | some (.record k) => releaseEntry s k ⟨i, x.generation⟩ x.kind cause
  | _ => s

/-- The holder port of the handle in a claim field, as DESCRIBE reports it (R34). -/
def claimHolder (s : State) (e : Entry) : Option Port :=
  e.claim.bind fun h => (s.slot h.slot).holder

/-- A HELD slot whose lease timer's expiry time has passed (R98). -/
def leaseExpired (s : State) (i : SlotNo) : Bool :=
  (s.slot i).state == .held && (s.slot i).lease.any (· ≤ s.now)

/-- A HELD slot whose lease may run no longer: it expires not later than 20 ms after its expiry time
(R97). -/
def leaseOverdue (s : State) (i : SlotNo) : Bool :=
  (s.slot i).state == .held && (s.slot i).lease.any (· + Config.leaseGrace ≤ s.now)

end Sys2Proof.Machine
end

