-- ==== Sys2Proof/Machine/Image.lean ====
section
/-! DEFINITION. Image.lean: the configuration image (R50), the effective configurations of R60, and the
target of a configuration write (R56). -/

namespace Sys2Proof.Machine

/-- The byte of an image at an offset, as a number. -/
def imageAt (img : List Byte) (offset : Nat) : Nat := (img.getD offset 0).toNat

/-- The two-byte field of an image at an offset. -/
def imageAt2 (img : List Byte) (offset : Nat) : Nat :=
  imageAt img offset * 256 + imageAt img (offset + 1)

/-- The field that begins at an offset holds a valid value (R50). The quota is judged at its first byte;
its second byte and the label begin no field. -/
def imageFieldValid (img : List Byte) (offset : Nat) : Bool :=
  let b := imageAt img offset
  if offset = 0 then b == 1
  else if offset = 1 then b ≤ 1
  else if offset = 2 then true
  else if offset = 3 then 1 ≤ b
  else if offset < 0x10 then
    match (offset - 4) % 3 with
    | 0 => b ≤ 1
    | 1 => 1 ≤ b
    | _ => 1 ≤ b && b ≤ 8
  else if offset < Config.labelOffset then
    match (offset - 0x10) % 9 with
    | 0 => b ≤ 1
    | 1 => b ≤ 1
    | 2 => 1 ≤ b && b ≤ 4
    | 3 => imageAt2 img offset ≤ 512
    | 4 => true
    | _ => b < 32
  else true

/-- The first bad byte of an image, if it is invalid (R50). -/
def firstBadByte (img : List Byte) : Option Nat :=
  (List.range Config.labelOffset).find? fun o => !imageFieldValid img o

def imageValid (img : List Byte) : Bool := (firstBadByte img).isNone

/-- The effective configuration an image gives (R60). -/
def effectiveOfImage (img : List Byte) : EffectiveConfig where
  namespaces := Vector.ofFn fun n : Fin 8 =>
    let o := 0x10 + 9 * n.val
    { isOpen := imageAt img o == 1
      mirrorRequired := imageAt img (o + 1) == 1
      floor := (levelOf (imageAt img (o + 2))).getD .opened
      quota := imageAt2 img (o + 3)
      rights := Vector.ofFn fun p : Port => rightsOf (imageAt img (o + 5 + p.val)) }
  portSettings := Vector.ofFn fun p : Port =>
    let o := 4 + 3 * p.val
    { role := if imageAt img o = 1 then .maintenance else .host
      leaseLength := imageAt img (o + 1)
      claimLimit := imageAt img (o + 2) }
  patrolPeriod := imageAt img 2
  refreshThreshold := imageAt img 3
  locked := imageAt img 1 == 1
  label := img.drop Config.labelOffset

/-- The UNCONFIGURED defaults (R60). -/
def defaultConfig : EffectiveConfig where
  namespaces := Vector.ofFn fun n : Fin 8 =>
    if n.val = 0 then ⟨true, false, .opened, 512, Vector.replicate 4 Rights.all⟩
    else ⟨false, false, .opened, 0, Vector.replicate 4 Rights.none⟩
  portSettings := Vector.ofFn fun p : Port =>
    ⟨if p.val = 0 then .maintenance else .host, 25, 2⟩
  patrolPeriod := 50
  refreshThreshold := 8
  locked := false
  label := List.replicate 40 0

/-- The CONFIG_FAULT fault set (R60). -/
def faultConfig : EffectiveConfig where
  namespaces := Vector.replicate 8
    ⟨true, false, .opened, 0, Vector.replicate 4 ⟨true, false, false, false, true⟩⟩
  portSettings := Vector.replicate 4 ⟨.host, 25, 2⟩
  patrolPeriod := 50
  refreshThreshold := 8
  locked := false
  label := List.replicate 40 0

/-- The nine bytes of a namespace group (R50). -/
def namespaceBytes (n : NamespaceEntry) : List Byte :=
  beBytes 1 (bitAt n.isOpen 0) ++ beBytes 1 (bitAt n.mirrorRequired 0) ++
    beBytes 1 (levelCode n.floor) ++ beBytes 2 n.quota ++
    n.rights.toList.flatMap fun r => beBytes 1 (rightsCode r)

/-- The three bytes of a port group (R50). -/
def portBytes (x : PortSettings) : List Byte :=
  beBytes 1 (match x.role with | .host => 0 | .maintenance => 1) ++ beBytes 1 x.leaseLength ++
    beBytes 1 x.claimLimit

/-- The image composed from the effective configuration (R52). -/
def composeImage (c : EffectiveConfig) : List Byte :=
  beBytes 1 1 ++ beBytes 1 (bitAt c.locked 0) ++ beBytes 1 c.patrolPeriod ++
    beBytes 1 c.refreshThreshold ++ c.portSettings.toList.flatMap portBytes ++
    c.namespaces.toList.flatMap namespaceBytes ++ padTo 40 c.label

/-- The copy whose state is VALID with the higher sequence (R51); of equal sequences copy A (DESIGN CHOICE,
log 26). -/
def newestValid (a b : CopyState) : Option CopyNo :=
  match a, b with
  | .valid x, .valid y => if y ≤ x then some .one else some .two
  | .valid _, _ => some .one
  | _, .valid _ => some .two
  | _, _ => none

/-- The target copy of a CONFIG WRITE (R56): B when A is the newest valid copy, else A. -/
def configTarget (s : State) : CopyNo :=
  match newestValid s.copyStateA s.copyStateB with
  | some .one => .two
  | _ => .one

/-- The header page of a configuration copy (R53). -/
def configBase : CopyNo → Nat
  | .one => 0
  | .two => 4

/-- Set the state of a configuration copy. -/
def setCopyState (s : State) (c : CopyNo) (x : CopyState) : State :=
  match c with
  | .one => { s with copyStateA := x }
  | .two => { s with copyStateB := x }

/-- The stored image exists and its lock field is LOCKED (R46). -/
def storedLocked (s : State) : Bool := s.storedImage.any fun img => imageAt img 1 == 1

end Sys2Proof.Machine
end

