-- ==== Sys2Proof/Machine/Checks.lean ====
section
/-! DEFINITION. Checks.lean: the conditions the acceptance checks test (R8, R10, R39, R42, R44 to R46, R65). -/

namespace Sys2Proof.Machine

/-- The entry of the Effective Namespace Table of a namespace in range (R39). -/
def namespaceEntry (s : State) (ns : Nat) : Option NamespaceEntry := s.effective.namespaces[ns]?

/-- The namespace is closed (R39). -/
def namespaceClosed (s : State) (ns : Nat) : Bool := !(namespaceEntry s ns).any (·.isOpen)

/-- Position 5 for a command that needs a right (R39, R42): refused where the namespace is closed or the
caller does not hold the right in it. -/
def lacksRight (s : State) (ns : Nat) (p : Port) (right : Rights → Bool) : Bool :=
  !(namespaceEntry s ns).any fun n => n.isOpen && right n.rights[p]

/-- The namespace's effective floor (R39). -/
def floorOf (s : State) (ns : Nat) : Level := ((namespaceEntry s ns).map (·.floor)).getD .opened

/-- The class a new record takes (R7): MIRRORED where the namespace requires it. -/
def classTaken (s : State) (ns cls : Nat) : RecordClass :=
  if (namespaceEntry s ns).any (·.mirrorRequired) then .mirrored else (classOf cls).getD .single

/-- The caller's effective role is MAINTENANCE (R40). -/
def isMaintenance (s : State) (p : Port) : Bool :=
  s.effective.portSettings[p].role == .maintenance

/-- The owner test (R8). -/
def ownerTest (s : State) (p : Port) (e : Entry) : Bool := e.owner == some p || isMaintenance s p

/-- The update column of R10 refuses. -/
def updateProtected (s : State) (p : Port) (e : Entry) : Bool :=
  match e.level with
  | .opened => false
  | .owned => !ownerTest s p e
  | .frozen | .permanent => true

/-- The RAISE column of R10 refuses; a PERMANENT record is refused earlier, at position 3 (R78). -/
def raiseProtected (s : State) (p : Port) (e : Entry) : Bool :=
  match e.level with
  | .opened => false
  | .owned | .frozen => !ownerTest s p e
  | .permanent => true

/-- The RETIRE column of R10 refuses. -/
def retireProtected (s : State) (p : Port) (e : Entry) : Bool :=
  match e.level with
  | .opened => false
  | .owned | .frozen => !ownerTest s p e
  | .permanent => true

/-- The lifecycles that position 7 refuses BUSY_RECORD (R75, R78, R81, R89). -/
def Lifecycle.busy : Lifecycle → Bool
  | .live => false
  | .forming | .writing | .retiring => true

/-- A non-zero expected version differs from the present one (R5). -/
def staleVersion (expected present : Nat) : Bool := expected != 0 && expected != present

/-- The write sequence counter is exhausted (R157). -/
def counterExhausted (s : State) : Bool := s.sequenceCounter.isNone

/-- EXHAUSTED for a write-bearing command on a committed record (R4, R65). -/
def recordExhausted (s : State) (e : Entry) : Bool :=
  Config.maxNumber ≤ e.version || counterExhausted s

/-- EXHAUSTED for the first write under a key (R4, R65). -/
def createExhausted (s : State) (k : Key) : Bool :=
  Config.maxNumber < firstVersion s k || counterExhausted s

/-- CLAIMS_FULL (R88): no slot is FREE, or the caller is at its claim limit. -/
def claimsFull (s : State) (p : Port) : Bool :=
  (lowestFree s).isNone || s.effective.portSettings[p].claimLimit ≤ claimsHeldBy s p

/-- DIRECTORY_FULL (R27). -/
def directoryFull (s : State) : Bool := Config.directoryPlaces ≤ s.directory.length

/-- QUOTA_FULL (R27, R39). -/
def quotaFull (s : State) (ns : Nat) : Bool :=
  ((namespaceEntry s ns).map (·.quota)).getD 0 ≤ namespaceCount s ns

/-- Position 4 for a configuration claim and its COMMIT (R46): the role and the lock, or in CONFIG_FAULT
the strap and port P0. -/
def configRoleChecks (s : State) (p : Port) (maintEn : Bool) : List (Completion × Bool) :=
  match s.configState with
  | some .configFault => [(.noRight, !(p == 0 && maintEn))]
  | _ => [(.noRight, !isMaintenance s p), (.locked, storedLocked s)]

/-- A job placed at the Job Queue tail with its need reserved (R44, R62, R116, R120). -/
def enqueue (s : State) (j : Job) : State :=
  { s with jobQueue := s.jobQueue ++ [j], reservation := s.reservation + j.need }

end Sys2Proof.Machine
end

