-- ==== Sys2Proof/Machine/RecordCommands.lean ====
section
/-! DEFINITION. RecordCommands.lean: LOOKUP, DESCRIBE and LIST (section 2); READ, CREATE, WRITE, RAISE and
RETIRE (section 4). -/

namespace Sys2Proof.Machine

/-! ## Commands answered from the directory -/

/-- The fields LOOKUP reports (R33). -/
def lookupResult (e : Entry) : Result where
  lifecycle := lifecycleCode e.lifecycle
  integrity := integrityCode e.integrity
  cls := classCode e.cls
  level := levelCode e.level
  version := e.version
  length := e.length

/-- The checks of a reporting command on a key (R32). -/
def reportChecks (s : State) (p : Port) (f : CommandFields) : List (Completion × Bool) :=
  [(.badParam, 7 < f.ns), (.noRight, lacksRight s f.ns p (·.read)),
    (.notFound, (s.entry f.key).isNone)]

def lookupBody (s : State) (p : Port) (f : CommandFields) : State :=
  judge s p (reportChecks s p f)
    (match s.entry f.key with
      | some e => post s p .done (lookupResult e) none
      | none => s)

/-- LOOKUP (R33). -/
def execLookup (s : State) : Host.Outcome State Fault Refusal :=
  .next (takeCommand s (·.code == codeLookup) lookupBody)

/-- The state of a copy as DESCRIBE codes it (R178). -/
def copyStateCode : Option CopyDescriptor → Nat
  | none => 0
  | some d => if d.valid then 1 else 2

/-- A port, or 0xFF for none (R178). -/
def portOrNone : Option Port → Nat
  | none => 0xFF
  | some p => p.val

/-- The fields DESCRIBE reports in the result area (R34). -/
def describeResult (s : State) (e : Entry) : Result :=
  { lookupResult e with
    at76 := portOrNone e.owner
    at77 := portOrNone (claimHolder s e)
    at78 := copyStateCode e.copy1 + 16 * repairPendingCode s e.key .one
    at79 := (e.copy1.map (·.corrections)).getD 0
    at7A := (e.copy1.map (·.header)).getD 0
    at7C := copyStateCode e.copy2 + 16 * repairPendingCode s e.key .two
    at7D := (e.copy2.map (·.corrections)).getD 0
    at7E := (e.copy2.map (·.header)).getD 0 }

def describeBody (s : State) (p : Port) (f : CommandFields) : State :=
  judge s p (reportChecks s p f)
    (match s.entry f.key with
      | some e =>
        post s p .done (describeResult s e) (some (pageListBytes e.copy1 ++ pageListBytes e.copy2))
      | none => s)

/-- DESCRIBE (R34). -/
def execDescribe (s : State) : Host.Outcome State Fault Refusal :=
  .next (takeCommand s (·.code == codeDescribe) describeBody)

/-- The entries a LIST returns (R35): up to 8 of the namespace, from the start item. -/
def listed (s : State) (f : CommandFields) : List Entry :=
  (s.directory.filter fun e => e.key.ns == f.ns && f.item ≤ e.key.item).take Config.entriesPerAnswer

/-- The "more" indication of LIST (R35). -/
def listMore (s : State) (f : CommandFields) : Bool :=
  (listed s f).getLast?.any fun last =>
    s.directory.any fun e => e.key.ns == f.ns && last.key.item < e.key.item

def listBody (s : State) (p : Port) (f : CommandFields) : State :=
  judge s p [(.badParam, 7 < f.ns), (.noRight, lacksRight s f.ns p (·.read))]
    (post s p .done { count := (listed s f).length, more := listMore s f }
      (some ((listed s f).flatMap listBytes)))

/-- LIST (R35). -/
def execList (s : State) : Host.Outcome State Fault Refusal :=
  .next (takeCommand s (·.code == codeList) listBody)

/-! ## READ -/

/-- READ's checks (R66). -/
def readChecks (s : State) (p : Port) (f : CommandFields) : List (Completion × Bool) :=
  let e := s.entry f.key
  [(.badParam, 7 < f.ns || 1023 < f.offset || f.length == 0 || 64 < f.length ||
      e.any fun e => e.version != 0 && e.length != 0 && e.length ≤ f.offset),
    (.noRight, lacksRight s f.ns p (·.read)),
    (.notFound, !e.any fun e => e.version != 0),
    (.damaged, e.any fun e => e.integrity == .damaged)]

def readBody (s : State) (p : Port) (f : CommandFields) : State :=
  judge s p (readChecks s p f)
    (enqueue s
      { kind := .read, port := some p, target := some (.record f.key), cause := some .read,
        handle := none, params := { offset := f.offset, count := f.length }, need := 0 })

/-- READ (R66). -/
def execRead (s : State) : Host.Outcome State Fault Refusal :=
  .next (takeCommand s (·.code == codeRead) readBody)

/-! ## CREATE -/

/-- CREATE's checks (R71). -/
def createChecks (s : State) (p : Port) (f : CommandFields) : List (Completion × Bool) :=
  [(.badParam, 7 < f.ns || (classOf f.cls).isNone || (levelOf f.level).isNone || f.length == 0 ||
      64 < f.length),
    (.noRight, lacksRight s f.ns p (·.create)),
    (.keyExists, (s.entry f.key).isSome),
    (.directoryFull, directoryFull s),
    (.quotaFull, quotaFull s f.ns),
    (.noSpace, !spaceFor s (pagesOfWrite (classTaken s f.ns f.cls) f.length)),
    (.exhausted, createExhausted s f.key)]

/-- The level a new record takes (R11): the requested one, or the floor where it is higher. -/
def levelTaken (s : State) (ns level : Nat) : Level :=
  ((levelOf level).getD .opened).max (floorOf s ns)

def createBody (s : State) (p : Port) (f : CommandFields) : State :=
  let cls := classTaken s f.ns f.cls
  let level := levelTaken s f.ns f.level
  judge s p (createChecks s p f)
    (enqueue (s.addEntry (newEntry f.key .writing cls level p none))
      { kind := .writeCopy, port := some p, target := some (.record f.key), cause := some .create,
        handle := none,
        params :=
          { cls := cls, level := level, length := f.length,
            content := dataBytes (s.port p).window f.length },
        need := pagesOfWrite cls f.length })

/-- CREATE (R71, R72). -/
def execCreate (s : State) : Host.Outcome State Fault Refusal :=
  .next (takeCommand s (·.code == codeCreate) createBody)

/-! ## WRITE -/

/-- WRITE's checks (R75). -/
def writeChecks (s : State) (p : Port) (f : CommandFields) : List (Completion × Bool) :=
  let e := s.entry f.key
  [(.badParam, 7 < f.ns || f.length == 0 || 64 < f.length),
    (.noRight, lacksRight s f.ns p (·.write)),
    (.notFound, e.isNone),
    (.busyRecord, e.any (·.lifecycle.busy)),
    (.claimed, e.any (·.claim.isSome)),
    (.levelProtected, e.any (updateProtected s p)),
    (.stale, e.any fun e => staleVersion f.expected e.version),
    (.noSpace, e.any fun e => !spaceFor s (pagesOfWrite e.cls f.length)),
    (.exhausted, e.any (recordExhausted s))]

/-- An entry goes to WRITING, no other field changing (R29). -/
def toWriting (e : Entry) : Entry := { e with lifecycle := .writing }

def writeBody (s : State) (p : Port) (f : CommandFields) : State :=
  judge s p (writeChecks s p f)
    (match s.entry f.key with
      | some e =>
        enqueue (s.modifyEntry f.key toWriting)
          { kind := .writeCopy, port := some p, target := some (.record f.key), cause := some .write,
            handle := none,
            params :=
              { cls := e.cls, level := e.level, length := f.length,
                content := dataBytes (s.port p).window f.length },
            need := pagesOfWrite e.cls f.length }
      | none => s)

/-- WRITE (R75, R76). -/
def execWrite (s : State) : Host.Outcome State Fault Refusal :=
  .next (takeCommand s (·.code == codeWrite) writeBody)

/-! ## RAISE -/

/-- RAISE's checks (R78). -/
def raiseChecks (s : State) (p : Port) (f : CommandFields) : List (Completion × Bool) :=
  let e := s.entry f.key
  [(.badParam, 7 < f.ns || (levelOf f.level).isNone || e.any fun e => f.level ≤ levelCode e.level),
    (.noRight, lacksRight s f.ns p (·.write)),
    (.notFound, e.isNone),
    (.busyRecord, e.any (·.lifecycle.busy)),
    (.levelProtected, e.any (raiseProtected s p)),
    (.damaged, e.any fun e => e.integrity == .damaged),
    (.noSpace, e.any fun e => !spaceFor s (pagesOfWrite e.cls e.length)),
    (.exhausted, e.any (recordExhausted s))]

def raiseBody (s : State) (p : Port) (f : CommandFields) : State :=
  judge s p (raiseChecks s p f)
    (match s.entry f.key with
      | some e =>
        enqueue (s.modifyEntry f.key toWriting)
          { kind := .writeCopy, port := some p, target := some (.record f.key), cause := some .raise,
            handle := none,
            params :=
              { cls := e.cls, level := (levelOf f.level).getD .opened, length := e.length },
            need := pagesOfWrite e.cls e.length }
      | none => s)

/-- RAISE (R78, R79). -/
def execRaise (s : State) : Host.Outcome State Fault Refusal :=
  .next (takeCommand s (·.code == codeRaise) raiseBody)

/-! ## RETIRE -/

/-- RETIRE's checks (R81). -/
def retireChecks (s : State) (p : Port) (f : CommandFields) : List (Completion × Bool) :=
  let e := s.entry f.key
  [(.badParam, 7 < f.ns),
    (.noRight, lacksRight s f.ns p (·.retire)),
    (.notFound, e.isNone),
    (.busyRecord, e.any (·.lifecycle.busy)),
    (.claimed, e.any (·.claim.isSome)),
    (.levelProtected, e.any (retireProtected s p)),
    (.stale, e.any fun e => staleVersion f.expected e.version),
    (.noSpace, !spaceFor s 1),
    (.exhausted, e.any (recordExhausted s))]

def retireBody (s : State) (p : Port) (f : CommandFields) : State :=
  judge s p (retireChecks s p f)
    (enqueue (s.modifyEntry f.key fun e => { e with lifecycle := .retiring })
      { kind := .retire, port := some p, target := some (.record f.key), cause := some .retire,
        handle := none, params := {}, need := 1 })

/-- RETIRE (R81, R82). -/
def execRetire (s : State) : Host.Outcome State Fault Refusal :=
  .next (takeCommand s (·.code == codeRetire) retireBody)

end Sys2Proof.Machine
end

