-- ==== Sys2Proof/Machine/ClaimCommands.lean ====
section
/-! DEFINITION. ClaimCommands.lean: the four CLAIM rows, STAGE, FETCH, RENEW, ABANDON and COMMIT
(sections 3 and 5). -/

namespace Sys2Proof.Machine

/-! ## CLAIM -/

/-- The fields a CLAIM that completes DONE reports (R91). -/
def claimResult (s : State) (p : Port) (h : Handle) (base length staged cls level : Nat) : Result where
  slot := h.slot.val
  generation := h.generation.toNat
  base := base
  length := length
  count := staged
  cls := cls
  level := level
  at75 := leaseLengthOf s p

/-- The checks of a CLAIM for update (R89). -/
def updateClaimChecks (s : State) (p : Port) (f : CommandFields) (preload : Bool) :
    List (Completion × Bool) :=
  let e := s.entry f.key
  [(.badParam, 7 < f.ns),
    (.noRight, lacksRight s f.ns p (·.write)),
    (.notFound, e.isNone),
    (.busyRecord, e.any (·.lifecycle.busy)),
    (.claimed, e.any (·.claim.isSome)),
    (.levelProtected, e.any (updateProtected s p)),
    (.damaged, preload && e.any fun e => e.integrity == .damaged),
    (.stale, e.any fun e => staleVersion f.expected e.version),
    (.claimsFull, claimsFull s p)]

/-- The grant of an update claim on an entry (R91): the slot, and the entry's claim field. -/
def grantUpdate (s : State) (i : SlotNo) (p : Port) (e : Entry) (preload : Bool) : State :=
  (grantSlot s i p (.record e.key) .update e.version preload).modifyEntry e.key fun e =>
    { e with claim := some (nextHandle s i) }

def claimForUpdateBody (s : State) (p : Port) (f : CommandFields) : State :=
  judge s p (updateClaimChecks s p f false)
    (match s.entry f.key, lowestFree s with
      | some e, some i =>
        post (grantUpdate s i p e false) p .done
          (claimResult s p (nextHandle s i) e.version e.length 0 (classCode e.cls) (levelCode e.level))
          none
      | _, _ => s)

/-- CLAIM with no options (R89, R91). -/
def execClaimForUpdate (s : State) : Host.Outcome State Fault Refusal :=
  .next (takeCommand s
    (fun f => f.code == codeClaim && !f.config && !f.create && !f.preload) claimForUpdateBody)

def claimWithPreloadBody (s : State) (p : Port) (f : CommandFields) : State :=
  judge s p (updateClaimChecks s p f true)
    (match s.entry f.key, lowestFree s with
      | some e, some i =>
        enqueue (grantUpdate s i p e true)
          { kind := .preload, port := some p, target := some (.record f.key),
            cause := some .claimPreload, handle := some (nextHandle s i), params := {}, need := 0 }
      | _, _ => s)

/-- CLAIM with the PRELOAD option (R89, R91, R92). -/
def execClaimWithPreload (s : State) : Host.Outcome State Fault Refusal :=
  .next (takeCommand s
    (fun f => f.code == codeClaim && !f.config && !f.create && f.preload) claimWithPreloadBody)

/-- The checks of a CLAIM with the CREATE option (R88, R90). -/
def createClaimChecks (s : State) (p : Port) (f : CommandFields) : List (Completion × Bool) :=
  [(.badParam, 7 < f.ns || f.preload || (classOf f.cls).isNone),
    (.noRight, lacksRight s f.ns p (·.create)),
    (.keyExists, (s.entry f.key).isSome),
    (.claimsFull, claimsFull s p),
    (.directoryFull, directoryFull s),
    (.quotaFull, quotaFull s f.ns)]

def claimWithCreateBody (s : State) (p : Port) (f : CommandFields) : State :=
  let cls := classTaken s f.ns f.cls
  let level := floorOf s f.ns
  judge s p (createClaimChecks s p f)
    (match lowestFree s with
      | some i =>
        let h := nextHandle s i
        post ((grantSlot s i p (.record f.key) .create 0 false).addEntry
            (newEntry f.key .forming cls level p (some h))) p .done
          (claimResult s p h 0 0 0 (classCode cls) (levelCode level)) none
      | none => s)

/-- CLAIM with the CREATE option (R90, R91). -/
def execClaimWithCreate (s : State) : Host.Outcome State Fault Refusal :=
  .next (takeCommand s
    (fun f => f.code == codeClaim && !f.config && f.create) claimWithCreateBody)

/-- The checks of a CLAIM with the CONFIG option (R54). -/
def configClaimChecks (s : State) (p : Port) (f : CommandFields) (maintEn : Bool) :
    List (Completion × Bool) :=
  [(.badParam, f.preload || f.create)] ++ configRoleChecks s p maintEn ++
    [(.claimed, configClaimed s), (.stale, staleVersion f.expected s.storedSequence),
      (.claimsFull, claimsFull s p)]

def claimWithConfigBody (maintEn : Bool) (s : State) (p : Port) (f : CommandFields) : State :=
  let s := { s with maintEnAsserted := maintEn }
  judge s p (configClaimChecks s p f maintEn)
    (match lowestFree s with
      | some i =>
        post (grantSlot s i p .config .update s.storedSequence false) p .done
          (claimResult s p (nextHandle s i) s.storedSequence 0 0 0 0) none
      | none => s)

/-- CLAIM with the CONFIG option (R54). MAINT_EN_N is sampled at the taking (R46). -/
def execClaimWithConfig (maintEn : Bool) (s : State) : Host.Outcome State Fault Refusal :=
  .next (takeCommand s (fun f => f.code == codeClaim && f.config) (claimWithConfigBody maintEn))

/-! ## Staging -/

/-- The handle names a record target whose namespace is closed (R39, R93). -/
def targetClosed (s : State) (h : HandleStatus) : Bool :=
  match h.slot with
  | none => false
  | some i => match (s.slot i).target with
    | some (.record k) => namespaceClosed s k.ns
    | _ => false

/-- The checks of STAGE and FETCH (R93, R94). -/
def stagingChecks (s : State) (p : Port) (f : CommandFields) : List (Completion × Bool) :=
  let h := handleStatus s p f
  [(.badParam, 7 < f.slot || 1023 < f.offset || f.length == 0 || 64 < f.length ||
      Config.bufferBytes < f.offset + f.length),
    (.noRight, targetClosed s h)] ++ handleChecks h

def stageBody (s : State) (p : Port) (f : CommandFields) : State :=
  judge s p (stagingChecks s p f)
    (match (handleStatus s p f).slot with
      | some i =>
        let x := s.slot i
        let staged := max x.staged (f.offset + f.length)
        let bytes := dataBytes (s.port p).window f.length
        let x' := { x with buffer := Memory.writeRange x.buffer f.offset bytes, staged := staged }
        post (restartLease (s.setSlot i x') i p) p .done { count := staged } none
      | none => s)

/-- STAGE (R93). -/
def execStage (s : State) : Host.Outcome State Fault Refusal :=
  .next (takeCommand s (·.code == codeStage) stageBody)

def fetchBody (s : State) (p : Port) (f : CommandFields) : State :=
  judge s p (stagingChecks s p f)
    (match (handleStatus s p f).slot with
      | some i =>
        post (restartLease s i p) p .done { count := (s.slot i).staged }
          (some (Memory.readRange (s.slot i).buffer f.offset f.length))
      | none => s)

/-- FETCH (R94). -/
def execFetch (s : State) : Host.Outcome State Fault Refusal :=
  .next (takeCommand s (·.code == codeFetch) fetchBody)

def renewBody (s : State) (p : Port) (f : CommandFields) : State :=
  let h := handleStatus s p f
  judge s p ([(.badParam, decide (7 < f.slot)), (.noRight, targetClosed s h)] ++ handleChecks h)
    (match h.slot with
      | some i => post (restartLease s i p) p .done { at75 := leaseLengthOf s p } none
      | none => s)

/-- RENEW (R95). -/
def execRenew (s : State) : Host.Outcome State Fault Refusal :=
  .next (takeCommand s (·.code == codeRenew) renewBody)

def abandonBody (s : State) (p : Port) (f : CommandFields) : State :=
  let h := handleStatus s p f
  judge s p ([(.badParam, decide (7 < f.slot))] ++ handleChecks h)
    (match h.slot with
      | some i => post (releaseSlot s i .abandoned) p .done {} none
      | none => s)

/-- ABANDON (R96). -/
def execAbandon (s : State) : Host.Outcome State Fault Refusal :=
  .next (takeCommand s (·.code == codeAbandon) abandonBody)

/-! ## COMMIT -/

/-- The slot of an accepted COMMIT: COMMITTING, its lease stopped (R97, R100). -/
def toCommitting (s : State) (i : SlotNo) : State :=
  s.setSlot i { s.slot i with state := .committing, lease := none }

/-- The handle a slot's claim has now. -/
def handleOf (s : State) (i : SlotNo) : Handle := ⟨i, (s.slot i).generation⟩

/-- The byte a configuration COMMIT refused BAD_PARAM reports (R55): 255 for a command field or an empty
buffer (log 15), else the first bad byte of the image. -/
def configCommitBad (s : State) (i : SlotNo) (f : CommandFields) : Option Nat :=
  if f.level != 0 || (f.length != 0 && f.length != Config.imageBytes) || (s.slot i).staged == 0 then
    some 255
  else firstBadByte (Memory.readRange (s.slot i).buffer 0 Config.imageBytes)

/-- The COMMIT of a configuration claim (R55). -/
def commitConfigBody (maintEn : Bool) (s : State) (p : Port) (f : CommandFields) (i : SlotNo) :
    State :=
  let s := { s with maintEnAsserted := maintEn }
  match configCommitBad s i f with
  | some offset => post s p .badParam { at75 := offset } none
  | none =>
    judge s p (configRoleChecks s p maintEn ++ [(.exhausted, counterExhausted s)])
      (enqueue (toCommitting s i)
        { kind := .configWrite, port := some p, target := some .config, cause := some .commitConfig,
          handle := some (handleOf s i),
          params :=
            { length := Config.imageBytes,
              content := Memory.readRange (s.slot i).buffer 0 Config.imageBytes },
          need := 0 })

/-- The effective length of a COMMIT (R99). -/
def effectiveLength (x : Slot) (f : CommandFields) : Nat :=
  if f.length = 0 then x.staged else f.length

/-- The checks of the COMMIT of a record claim or create-claim (R99). -/
def commitChecks (s : State) (p : Port) (f : CommandFields) (i : SlotNo) (k : Key) :
    List (Completion × Bool) :=
  let x := s.slot i
  let e := s.entry k
  let create := x.kind == some .create
  let length := effectiveLength x f
  [(.badParam, Config.bufferBytes < f.length || 4 < f.level || length == 0 ||
      (!create && f.level != 0 && e.any fun e => f.level < levelCode e.level)),
    (.noRight, lacksRight s k.ns p (·.write)),
    (.busyRecord, e.any fun e => e.lifecycle == .writing),
    (.levelProtected, !create && e.any (updateProtected s p)),
    (.noSpace, e.any fun e => !spaceFor s (pagesOfWrite e.cls length)),
    (.exhausted, if create then createExhausted s k else e.any (recordExhausted s))]

/-- The level a COMMIT installs (R11): a create-claim's new level (0 taken as OPEN) or the floor where it
is higher; a record claim's new level, or the present level for 0. -/
def commitLevel (s : State) (x : Slot) (e : Entry) (f : CommandFields) : Level :=
  if x.kind == some .create then levelTaken s e.key.ns f.level
  else (levelOf f.level).getD e.level

/-- The COMMIT of a record claim or create-claim (R99, R100). -/
def commitRecordBody (s : State) (p : Port) (f : CommandFields) (i : SlotNo) (k : Key) : State :=
  judge s p (commitChecks s p f i k)
    (match s.entry k with
      | some e =>
        let x := s.slot i
        let length := effectiveLength x f
        enqueue ((toCommitting s i).modifyEntry k toWriting)
          { kind := .writeCopy, port := some p, target := some (.record k),
            cause := some (if x.kind == some .create then .commitCreate else .commitRecord),
            handle := some (handleOf s i),
            params :=
              { cls := e.cls, level := commitLevel s x e f, length := length,
                content := Memory.readRange x.buffer 0 length },
            need := pagesOfWrite e.cls length }
      | none => s)

def commitBody (maintEn : Bool) (s : State) (p : Port) (f : CommandFields) : State :=
  let h := handleStatus s p f
  match h.slot.bind fun i => (s.slot i).target.map fun t => (i, t) with
  | some (i, .config) => commitConfigBody maintEn s p f i
  | some (i, .record k) => commitRecordBody s p f i k
  | none =>
    judge s p
      ([(.badParam, 7 < f.slot || Config.bufferBytes < f.length || 4 < f.level)] ++ handleChecks h) s

/-- COMMIT (R55, R99). MAINT_EN_N is sampled where the claim is a configuration claim (R46). -/
def execCommit (maintEn : Bool) (s : State) : Host.Outcome State Fault Refusal :=
  .next (takeCommand s (·.code == codeCommit) (commitBody maintEn))

end Sys2Proof.Machine
end

