-- ==== Sys2Proof/Machine/DeviceCommands.lean ====
section
/-! DEFINITION. DeviceCommands.lean: WATCH, UNWATCH, TAKE CHANGES (section 10), RESTRICT, READ CONFIG
(section 3), STATUS (section 9), DETACH (section 11) and the command code that names no command (R182). -/

namespace Sys2Proof.Machine

/-! ## Watches -/

/-- The item a WATCH or UNWATCH names: absent with scope 0 (R163). -/
def watchItem (f : CommandFields) : Option Nat := if f.itemScope then some f.item else none

/-- The entry is the caller's and equal to the request (R162). -/
def Watch.equals (w : Watch) (p : Port) (f : CommandFields) : Bool :=
  w.port == p && w.ns == f.ns && w.item == watchItem f

/-- The Watch Table entries a port holds. -/
def watchesOf (ws : List Watch) (p : Port) : Nat := (ws.filter (·.port == p)).length

/-- WATCHES_FULL (R163). -/
def watchesFull (s : State) (p : Port) : Bool :=
  Config.watchPlaces ≤ s.watches.length || Config.watchPlacesPerPort ≤ watchesOf s.watches p

def watchBody (s : State) (p : Port) (f : CommandFields) : State :=
  let present := s.watches.any (·.equals p f)
  let ws :=
    if present then
      s.watches.map fun w => if w.equals p f then { w with includeOwn := f.includeOwn } else w
    else s.watches ++ [⟨p, f.ns, watchItem f, f.includeOwn⟩]
  judge s p
    [(.badParam, 7 < f.ns), (.noRight, lacksRight s f.ns p (·.watch)),
      (.watchesFull, !present && watchesFull s p)]
    (post { s with watches := ws } p .done { updated := present, count := watchesOf ws p } none)

/-- WATCH (R163). -/
def execWatch (s : State) : Host.Outcome State Fault Refusal :=
  .next (takeCommand s (·.code == codeWatch) watchBody)

def unwatchBody (s : State) (p : Port) (f : CommandFields) : State :=
  let ws := s.watches.filter fun w => !w.equals p f
  judge s p
    [(.badParam, 7 < f.ns), (.noRight, namespaceClosed s f.ns),
      (.notFound, !s.watches.any (·.equals p f))]
    (post { s with watches := ws } p .done { count := watchesOf ws p } none)

/-- UNWATCH (R164). -/
def execUnwatch (s : State) : Host.Outcome State Fault Refusal :=
  .next (takeCommand s (·.code == codeUnwatch) unwatchBody)

/-- The Change Set after up to 8 entries are taken (R168): an empty set has its overflow flag cleared. -/
def changesAfterTaking (c : ChangeSet) : ChangeSet :=
  let rest := c.entries.drop Config.entriesPerAnswer
  { entries := rest, overflow := c.overflow && !rest.isEmpty }

def takeChangesBody (s : State) (p : Port) (_f : CommandFields) : State :=
  let c := s.changes p
  let taken := c.entries.take Config.entriesPerAnswer
  let c' := changesAfterTaking c
  post (s.setChanges p c') p .done
    { count := taken.length, more := !c'.entries.isEmpty, overflow := c.overflow }
    (some (taken.flatMap changeBytes))

/-- TAKE CHANGES (R168). -/
def execTakeChanges (s : State) : Host.Outcome State Fault Refusal :=
  .next (takeCommand s (·.code == codeTakeChanges) takeChangesBody)

/-! ## RESTRICT -/

/-- RESTRICT's parameter ranges (R47). -/
def restrictOutOfRange (f : CommandFields) : Bool :=
  7 < f.ns || 3 < f.target || 31 < f.rights || 512 < f.quota || (levelOf f.level).isNone ||
    1 < f.mirror || 1 < f.isOpen

/-- The request touches a namespace-wide field (R47). -/
def touchesNamespace (n : NamespaceEntry) (f : CommandFields) : Bool :=
  f.quota != n.quota || f.level != levelCode n.floor || f.mirror != bitAt n.mirrorRequired 0 ||
    f.isOpen != bitAt n.isOpen 0

/-- Every right of the first is a right of the second. -/
def Rights.within (a b : Rights) : Bool :=
  (!a.read || b.read) && (!a.create || b.create) && (!a.write || b.write) &&
    (!a.retire || b.retire) && (!a.watch || b.watch)

/-- Every field is narrower or equal (R48). -/
def narrowerOrEqual (n : NamespaceEntry) (t : Port) (f : CommandFields) : Bool :=
  (rightsOf f.rights).within n.rights[t] && f.quota ≤ n.quota && levelCode n.floor ≤ f.level &&
    (f.mirror == 1 || !n.mirrorRequired)

/-- The namespace entry a RESTRICT leaves (R48). -/
def restrictedEntry (n : NamespaceEntry) (t : Port) (f : CommandFields) : NamespaceEntry where
  isOpen := f.isOpen == 1
  mirrorRequired := f.mirror == 1
  floor := (levelOf f.level).getD n.floor
  quota := f.quota
  rights := n.rights.set t (rightsOf f.rights)

/-- Set an entry of the Effective Namespace Table. -/
def setNamespace (s : State) (ns : Fin 8) (n : NamespaceEntry) : State :=
  { s with effective := { s.effective with namespaces := s.effective.namespaces.set ns n } }

/-- The fields RESTRICT reports (R48): the quota's two bytes stand at 0x77 and 0x78. -/
def restrictResult (n : NamespaceEntry) (t : Port) : Result where
  level := levelCode n.floor
  at76 := rightsCode n.rights[t]
  at77 := n.quota / 256
  at78 := n.quota % 256
  at79 := bitAt n.mirrorRequired 0
  at7A := bitAt n.isOpen 0 * 256

/-- A port number in range. -/
def portOf (n : Nat) : Option Port := if h : n < 4 then some ⟨n, h⟩ else none

/-- RESTRICT's checks and its effect (R47, R48). The state of the namespace is reported with DONE alone; a refusal
reports zeros (DESIGN CHOICE, log 31). -/
def restrictBody (s : State) (p : Port) (f : CommandFields) : State :=
  if restrictOutOfRange f then post s p .badParam {} none
  else
    match slotOf f.ns, portOf f.target with
    | some ns, some t =>
      let n := s.effective.namespaces[ns]
      judge s p
        [(.noRight, !isMaintenance s p && (t != p || touchesNamespace n f)),
          (.noRight, !n.isOpen),
          (.notNarrower, !narrowerOrEqual n t f)]
        (post (setNamespace s ns (restrictedEntry n t f)) p .done
          (restrictResult (restrictedEntry n t f) t) none)
    | _, _ => post s p .badParam {} none

/-- RESTRICT (R47, R48). -/
def execRestrict (s : State) : Host.Outcome State Fault Refusal :=
  .next (takeCommand s (·.code == codeRestrict) restrictBody)

/-! ## READ CONFIG -/

/-- The image and the sequence READ CONFIG returns (R52): the effective image, or the stored one. -/
def configImageFor (s : State) (source : Nat) : Option (List Byte × Nat) :=
  if source = 0 then some (composeImage s.effective, s.effectiveSequence)
  else s.storedImage.map fun img => (img, s.storedSequence)

def readConfigBody (s : State) (p : Port) (f : CommandFields) : State :=
  judge s p
    [(.badParam, 1 < f.target || (f.offset != 0 && f.offset != 64)),
      (.notFound, (configImageFor s f.target).isNone)]
    (match configImageFor s f.target with
      | some (img, sequence) =>
        post s p .done { version := sequence, at75 := configStateCode s.configState }
          (some ((img.drop f.offset).take 64))
      | none => s)

/-- READ CONFIG (R52). -/
def execReadConfig (s : State) : Host.Outcome State Fault Refusal :=
  .next (takeCommand s (·.code == codeReadConfig) readConfigBody)

/-! ## STATUS -/

/-- The bytes STATUS places in the data area (R161, R178). -/
def statusBytes (s : State) : List Byte :=
  beBytes 1 (deviceCode s.device) ++ beBytes 1 (resetCauseCode s.resetCause) ++
    beBytes 1 (configStateCode s.configState) ++ beBytes 1 (bitAt (configurationPending s) 0) ++
    beBytes 4 s.effectiveSequence ++ beBytes 4 s.storedSequence ++
    beBytes 2 s.directory.length ++ beBytes 1 (formingCount s) ++ beBytes 1 (claimsInUse s) ++
    beBytes 1 s.watches.length ++ beBytes 2 s.erased.length ++ beBytes 2 s.live.length ++
    beBytes 2 s.eraseList.length ++ beBytes 2 s.bad.length ++ beBytes 2 s.reservation ++
    beBytes 2 s.repairList.length ++ beBytes 2 s.retirementList.length ++
    beBytes 4 (s.sequenceCounter.getD 0)

def statusBody (s : State) (p : Port) (_f : CommandFields) : State :=
  post s p .done {} (some (statusBytes s))

/-- STATUS (R161). -/
def execStatus (s : State) : Host.Outcome State Fault Refusal :=
  .next (takeCommand s (·.code == codeStatus) statusBody)

/-! ## DETACH -/

/-- Release a slot DETACHED when the port holds it HELD (R102). -/
def detachSlot (p : Port) (s : State) (i : SlotNo) : State :=
  if (s.slot i).state == .held && (s.slot i).holder == some p then releaseSlot s i .detached else s

/-- The HELD slots of a port released in ascending slot order (R102). -/
def detachSlots (s : State) (p : Port) : State := slotNumbers.foldl (detachSlot p) s

/-- The Watch Unit's part of DETACH (R170). -/
def detachWatches (s : State) (p : Port) : State :=
  { s.setChanges p ⟨[], false⟩ with watches := s.watches.filter fun w => w.port != p }

/-- The port unit's part of DETACH (R181): LAPSE and the three sticky flags. -/
def detachUnit (u : PortUnit) : PortUnit :=
  { u with lapse := false, framing := false, launchRejected := false, windowLocked := false }

def detachBody (s : State) (p : Port) (_f : CommandFields) : State :=
  let s := detachWatches (detachSlots s p) p
  post (s.setPort p (detachUnit (s.port p))) p .done {} none

/-- DETACH (R102, R170, R181). -/
def execDetach (s : State) : Host.Outcome State Fault Refusal :=
  .next (takeCommand s (·.code == codeDetach) detachBody)

/-! ## No command -/

def unknownBody (s : State) (p : Port) (_f : CommandFields) : State := post s p .badCommand {} none

/-- A command code that names no command (R44, R182). -/
def execUnknownCommandCode (s : State) : Host.Outcome State Fault Refusal :=
  .next (takeCommand s (fun f => !commandCodes.contains f.code) unknownBody)

end Sys2Proof.Machine
end

