-- ==== Sys2Proof/Machine/Jobs.lean ====
section
/-! DEFINITION. Jobs.lean: how the Array Engine's jobs draw, program and end (sections 6 to 8). -/

namespace Sys2Proof.Machine

/-! ## The running job -/

/-- The record key a job works on. -/
def Job.key (j : Job) : Option Key :=
  match j.target with
  | some (.record k) => some k
  | _ => none

/-- The key of the running job, for the pages it draws (R109). A job that draws has a record target. -/
def RunningJob.key (r : RunningJob) : Key := r.job.key.getD ⟨0, 0⟩

/-- The running-job record as it is made at a job's start (R122). -/
def newRun (j : Job) (e : Option Entry) : RunningJob where
  job := j
  entry := e
  versionWritten := none
  phase := .beforeCommit
  drawn := []
  failures := 0
  content := []
  crc := 0
  stage := .programming

/-- The class of the entry the job was given (R126). -/
def RunningJob.cls (r : RunningJob) : RecordClass := (r.entry.map (·.cls)).getD .single

/-- The roles of an allocation, in the order of the draw, which is the order of programming (R126, R127,
R131, R144). -/
def copyRoles (c : CopyNo) (length : Nat) : List PageRole :=
  (List.range (dataPageCount length)).map (PageRole.data c) ++ [.header c]

def allocationRoles (r : RunningJob) : List PageRole :=
  match r.job.kind with
  | .retire => [.retirement]
  | .repair => copyRoles r.job.params.copy r.job.params.length
  | _ => match r.cls with
    | .single => copyRoles .one r.job.params.length
    | .mirrored => copyRoles .one r.job.params.length ++ copyRoles .two r.job.params.length

/-- The next page to program: the first, in order, whose Programmed field is no (R127). -/
def currentPage (r : RunningJob) : Option DrawnPage := r.drawn.find? fun d => !d.programmed

/-- A page's Programmed field set to yes. -/
def markProgrammed (r : RunningJob) (d : DrawnPage) : RunningJob :=
  { r with drawn := r.drawn.map fun x => if x.role = d.role then { x with programmed := true } else x }

/-- The role is that of a data page of a copy. -/
def PageRole.isDataOf (role : PageRole) (c : CopyNo) : Bool :=
  match role with
  | .data c' _ => c' == c
  | _ => false

/-- A copy's data page list as it stands (R127). -/
def dataPagesOf (r : RunningJob) (c : CopyNo) : List Nat :=
  (r.drawn.filter fun d => d.role.isDataOf c).map (·.page)

/-- The header page of a copy. -/
def headerPageOf (r : RunningJob) (c : CopyNo) : Nat :=
  ((r.drawn.find? fun d => d.role == .header c).map (·.page)).getD 0

/-- The descriptor of a copy the job has programmed (R29, R31). -/
def descriptorOf (r : RunningJob) (c : CopyNo) : CopyDescriptor :=
  ⟨headerPageOf r c, dataPagesOf r c, true, 0⟩

/-! ## The ends of jobs -/

/-- The end of every job: the record is discarded, the engine is FREE, and the Retirement List is settled
(R115, R119, R122). -/
def finishJob (s : State) : State :=
  settleRetirements { s with running := none, operation := none, engine := .free }

/-- The base version of the claim a job's handle names. -/
def baseVersionOf (s : State) (j : Job) : Nat := (j.handle.map fun h => (s.slot h.slot).base).getD 0

/-- The fields a job's completion reports (R63, R73, R79, R82, R101; logs 13 to 15). -/
def jobResult (s : State) (r : RunningJob) (committed copyPending : Bool) : Result :=
  let version := if committed then r.versionWritten.getD 0 else 0
  let level := if committed then levelCode r.job.params.level else 0
  match r.job.cause with
  | some .create =>
    { committed, copyPending, version, cls := classCode r.job.params.cls,
      level := levelCode r.job.params.level }
  | some .write | some .retire => { committed, copyPending, version }
  | some .raise => { committed, copyPending, version, level }
  | some .commitRecord | some .commitCreate =>
    { committed, copyPending, version, level, base := baseVersionOf s r.job,
      cls := classCode r.job.params.cls, length := r.job.params.length }
  | some .commitConfig => { committed, version := if committed then s.storedSequence else 0 }
  | some .read | some .claimPreload | none => { committed }

/-- The completion of a foreground job's command (R63). -/
def completeJob (s : State) (r : RunningJob) (c : Completion) (res : Result)
    (data : Option (List Byte)) : State :=
  match r.job.port with
  | some p => post s p c res data
  | none => s

/-- The release of the claim slot of a job (R92, R101). -/
def releaseJobSlot (s : State) (r : RunningJob) (cause : ReleaseCause) : State :=
  match r.job.handle with
  | some h => releaseSlot s h.slot cause
  | none => s

/-- The entry of a job's key returns to LIVE (R15, R29). -/
def backToLive (s : State) (k : Key) : State :=
  s.modifyEntry k fun e => { e with lifecycle := .live }

/-- A write that ends with every copy written (R63, R101, R129). -/
def endWriteDone (s : State) (r : RunningJob) : State :=
  let s := releaseJobSlot (backToLive s r.key) r .committed
  finishJob (completeJob s r .done (jobResult s r true false) none)

/-- A write that ends after its commit point with copy 2 lost (R29, R117, R124, R129): DEGRADED, a LOST
entry for copy 2, copy 2's pages to the Erase List. -/
def endCopyPending (s : State) (r : RunningJob) : State :=
  let k := r.key
  let s := (inWriteToDirty s k).modifyEntry k fun e =>
    { e with lifecycle := .live, integrity := .degraded }
  let s := repairRequest s k (r.versionWritten.getD 0) .two .lost
  let s := releaseJobSlot s r .committed
  finishJob (completeJob s r .done (jobResult s r true true) none)

/-- The directory after a write or a retirement that ended before its commit point (R15, R16, R28): the
version 0 entry of a write is removed, and any other returns to LIVE. A version 0 entry that the start-up rebuilt
with descriptors (log 30) has its pages moved out of LIVE as it goes (R109, R110), after the job's own pages
(DESIGN CHOICE, log 30). -/
def undoEntry (s : State) (r : RunningJob) : State :=
  match s.entry r.key with
  | none => s
  | some e =>
    if e.version = 0 && r.job.kind != .retire then
      liveToDirty (s.removeEntry r.key) (entryPages e) r.key
    else backToLive s r.key

/-- A write or a retirement that ends before its commit point (R117, R124, R129, R131). -/
def endBeforeCommit (s : State) (r : RunningJob) (c : Completion) : State :=
  let s := undoEntry (inWriteToDirty s r.key) r
  let s := releaseJobSlot s r .failed
  finishJob (completeJob s r c (jobResult s r false false) none)

/-- The invalid or absent copy of a MIRRORED record that is DEGRADED (R145). -/
def missingCopy (e : Entry) : CopyNo := if e.copyValid .one then .two else .one

/-- Step 3 of the end of a REPAIR job (R145). -/
def replaceLost (s : State) (k : Key) (version : Nat) : State :=
  match s.entry k with
  | none => s
  | some e =>
    if e.version = version && e.cls == .mirrored && e.integrity == .degraded then
      placeLost s k version (missingCopy e)
    else s

/-- The Repair List without the entry of a pair. -/
def dropRepair (s : State) (k : Key) (c : CopyNo) : State :=
  { s with repairList := s.repairList.filter fun x => !x.isFor k c }

/-- Steps 2 and 3 of the end of a REPAIR job, and the end itself (R145). -/
def closeRepair (s : State) (r : RunningJob) : State :=
  finishJob (replaceLost (dropRepair s r.key r.job.params.copy) r.key (r.versionWritten.getD 0))

/-- A REPAIR job that ends without a programmed copy (R144): its IN_WRITE pages go to the Erase List. -/
def endRepairWithout (s : State) (r : RunningJob) : State := closeRepair (inWriteToDirty s r.key) r

/-- The install of a repaired or refreshed copy (R31): the new descriptor, the pages of the replaced one
to the Erase List, the integrity by R17, and a LOST entry for an invalid other copy. -/
def installRepair (s : State) (r : RunningJob) : State :=
  let k := r.key
  let c := r.job.params.copy
  match s.entry k with
  | none => s
  | some e =>
    let d := descriptorOf r c
    let e' := (e.setCopy c (some d)).judged
    let s := s.modifyEntry k fun _ => e'
    let s := liveToDirty s (descriptorPages (e.copy c)) k
    let s := inWriteToLive s (d.header :: d.dataPages)
    if e'.cls == .mirrored && e'.integrity == .degraded then placeLost s k e'.version c.other else s

/-- A REPAIR job that ends with its copy programmed (R145). -/
def endRepairInstalled (s : State) (r : RunningJob) : State := closeRepair (installRepair s r) r

/-- A job that cannot go on: a failed draw, the third failed program, or an exhausted counter at a header
(R117, R124, R129 to R131, R144). -/
def failJob (s : State) (r : RunningJob) (c : Completion) : State :=
  match r.job.kind, r.phase with
  | .repair, _ => endRepairWithout s r
  | _, .beforeCommit => endBeforeCommit s r c
  | _, .afterCommit => endCopyPending s r

/-! ## Programming -/

/-- The counter after a number is drawn from it (R124). -/
def nextSequence (n : Nat) : Option Nat := if Config.maxNumber ≤ n then none else some (n + 1)

/-- The tag of a page of the job (R106). -/
def jobTag (r : RunningJob) (kind : TagKind) (copy : Nat) (index : Option Nat) : Tag where
  kind := kind
  key := r.key
  version := r.versionWritten.getD 0
  copyNumber := copy
  dataIndex := index
  cls := some r.cls
  level := some r.job.params.level

/-- The payload of the data page of an index (R127): 64 bytes, 0 at and beyond the length. -/
def contentChunk (content : List Byte) (index : Nat) : List Byte :=
  padTo Config.pageBytes ((content.drop (Config.pageBytes * index)).take Config.pageBytes)

/-- The payload of a copy header (R107, R127). -/
def headerPayload (r : RunningJob) (c : CopyNo) (sequence : Nat) : HeaderPayload where
  key := r.key
  version := r.versionWritten.getD 0
  copyNumber := copyNumber c
  cls := r.cls
  level := r.job.params.level
  owner := r.entry.bind (·.owner)
  length := r.job.params.length
  dataPageCount := dataPageCount r.job.params.length
  dataPages := dataPagesOf r c
  crc := r.crc
  sequence := sequence

/-- The program of a page begins (R127). -/
def beginProgram (s : State) (r : RunningJob) (page : Nat) (tag : Tag) (payload : Payload) : State :=
  { s with operation := some (.program page tag payload),
           running := some { r with stage := .programming } }

/-- The program of a header begins with a write sequence number drawn for it; while the counter is
exhausted the job cannot go on (R124). -/
def beginHeader (s : State) (r : RunningJob) (page : Nat) (tag : Tag) (payload : Nat → Payload) :
    State :=
  match s.sequenceCounter with
  | none => failJob s r .exhausted
  | some n =>
    beginProgram { s with sequenceCounter := nextSequence n } r page tag (payload n)

/-- The job goes on to program its next page (R127, R131). -/
def programNext (s : State) (r : RunningJob) : State :=
  match currentPage r with
  | none => { s with running := some r }
  | some d =>
    match d.role with
    | .data c i =>
      beginProgram s r d.page (jobTag r .data (copyNumber c) (some i))
        (.data (contentChunk r.content i))
    | .header c =>
      beginHeader s r d.page (jobTag r .header (copyNumber c) none)
        fun n => .header (headerPayload r c n)
    | .retirement =>
      beginHeader s r d.page (jobTag r .retire 1 none)
        fun n => .retire r.key (r.versionWritten.getD 0) n

/-! ## Drawing (R111) -/

/-- The pages of an allocation with their roles (R126). -/
def withRoles (roles : List PageRole) (pages : List Nat) : List DrawnPage :=
  List.zipWith (fun role page => ⟨page, role, false⟩) roles pages

/-- The draw is made: pages leave the ERASED head for IN_WRITE. An allocation takes the job's need from
the reservation count (R116); a replacement takes over the failed page's role (R130). -/
def drawNow (s : State) (r : RunningJob) (count : Nat) (role : Option PageRole) : State :=
  let pages := s.erased.take count
  let s := { s with erased := s.erased.drop count, inWrite := insertAll pages s.inWrite }
  match role with
  | none =>
    programNext { s with reservation := s.reservation - r.job.need }
      { r with drawn := withRoles (allocationRoles r) pages }
  | some role =>
    programNext s
      { r with
        drawn := r.drawn.map fun d =>
          if d.role = role then { d with page := pages.headD 0 } else d }

/-- The draw goes on (R111): made when ERASED holds enough, after an on-demand erase of the Erase List
head when it does not, and failed when nothing is left to erase (R117). -/
def continueDraw (s : State) (r : RunningJob) (count : Nat) (role : Option PageRole) : State :=
  if count ≤ s.erased.length then drawNow s r count role
  else
    match s.eraseList with
    | (page, _) :: _ =>
      { s with operation := some (.erase page),
               running := some { r with stage := .drawing count role } }
    | [] =>
      match role with
      | none => failJob { s with reservation := s.reservation - r.job.need } r .noSpace
      | some _ => failJob s r .noSpace

/-- The job draws its allocation (R126, R131, R144). -/
def beginDraw (s : State) (r : RunningJob) : State :=
  continueDraw s r (allocationRoles r).length none

/-- The program of a page reports failure (R130): the page goes to the Erase List, the failure count rises,
and a replacement is drawn, or at the third failure the job ends. -/
def programFailed (s : State) (r : RunningJob) (d : DrawnPage) : State :=
  let s := inWritePageToDirty (s.spoilPage d.page) d.page r.key
  let r := { r with failures := r.failures + 1 }
  if 3 ≤ r.failures then failJob s r .arrayFault else continueDraw s r 1 (some d.role)

/-! ## Reading whole copies (R79, R92, R125, R143, R148) -/

/-- The copy that a READ, a PRELOAD or a RAISE source reads first (R68). -/
def chooseCopy (e : Entry) : Option CopyNo :=
  if e.copyValid .one then some .one else if e.copyValid .two then some .two else none

/-- The read of a whole copy begins with its header page (R125). -/
def beginSource (s : State) (r : RunningJob) (c : CopyNo) (d : CopyDescriptor) : State :=
  { s with operation := some (.read d.header),
           running := some { r with stage := .source c none (d.header :: d.dataPages) [] } }

/-- What one page of a whole-copy read brings. `faulty`: the copy is faulty, and whether by this page
itself or by the CRC. -/
inductive SourceStep where
  | more (stage : Stage)
  | faulty (byPage : Bool)
  | complete (bytes : List Byte)
deriving DecidableEq, Repr

/-- A whole-copy read after a page: the next page, or, after the last, the CRC check. -/
def sourceNext (e : Entry) (c : CopyNo) (h : HeaderPayload) (left : List Nat) (got : List Byte) :
    SourceStep :=
  if left.isEmpty then
    let bytes := got.take e.length
    if crc32 bytes = h.crc then .complete bytes else .faulty false
  else .more (.source c (some h) left got)

/-- One page of a whole-copy read (R125, R143). The header payload is checked against the entry and the
descriptor. -/
def sourceAdvance (e : Entry) (d : CopyDescriptor) (c : CopyNo) (header : Option HeaderPayload)
    (left : List Nat) (got : List Byte) (report : PageReport) : SourceStep :=
  match report.readable, header with
  | some (.header h), none =>
    if h.key = e.key && h.version == e.version && h.copyNumber == copyNumber c &&
        h.dataPages == d.dataPages then
      sourceNext e c h left.tail got
    else .faulty true
  | some (.data bytes), some h => sourceNext e c h left.tail (got ++ bytes)
  | _, _ => .faulty true

/-- The report of a page read, applied: a correction charged, then a fault (R18, R26). -/
def reportPage (s : State) (k : Key) (c : CopyNo) (report : PageReport) (pageFaulty copyFaulty : Bool) :
    State :=
  let s := if report.corrected then chargeCorrection s k c pageFaulty else s
  if copyFaulty then copyFault s k c else s

end Sys2Proof.Machine
end

