-- ==== Sys2Proof/Machine/JobStart.lean ====
section
/-! DEFINITION. JobStart.lean: JOB_SELECT (R121) and the start of each kind of job. -/

namespace Sys2Proof.Machine

/-! ## READ -/

/-- The end of a READ job (R63, R69): the fields it reports and the bytes for the data area. -/
def endRead (s : State) (r : RunningJob) (c : Completion) (res : Result) (data : List Byte) : State :=
  finishJob (completeJob s r c res (some data))

/-- The count a READ returns (R67): trimmed to what the record holds from the offset. -/
def trimmedCount (params : JobParams) (e : Entry) : Nat := min params.count (e.length - params.offset)

/-- The data pages of a copy that hold the bytes a READ returns (R68). -/
def readPages (params : JobParams) (e : Entry) (d : CopyDescriptor) : List Nat :=
  let first := params.offset / Config.pageBytes
  let last := (params.offset + trimmedCount params e - 1) / Config.pageBytes
  (d.dataPages.drop first).take (last - first + 1)

/-- A READ job begins to read a copy (R68, R125); a copy that names no such page cannot be read. -/
def beginRead (s : State) (r : RunningJob) (e : Entry) (c : CopyNo) : State :=
  match (e.copy c).map (readPages r.job.params e) with
  | some (page :: rest) =>
    { s with operation := some (.read page),
             running := some { r with stage := .reading c (page :: rest) [] } }
  | _ => endRead s r .damaged {} []

/-- The start of a READ job (R67). -/
def startRead (s : State) (j : Job) (k : Key) : State :=
  let r := newRun j (s.entry k)
  match s.entry k with
  | none => endRead s r .notFound {} []
  | some e =>
    if e.version = 0 then endRead s r .notFound {} []
    else if e.integrity = .damaged then endRead s r .damaged {} []
    else if e.length ≤ j.params.offset then
      endRead s r .done { version := e.version, length := e.length } []
    else
      match chooseCopy e with
      | some c => beginRead s r e c
      | none => endRead s r .damaged {} []

/-! ## PRELOAD -/

/-- A PRELOAD that finds no readable copy (R92). -/
def endPreloadDamaged (s : State) (r : RunningJob) : State :=
  finishJob (completeJob (releaseJobSlot s r .failed) r .damaged {} none)

/-- A whole-copy read begins with the copy `chooseCopy` gives, or `failed` when there is none. -/
def beginChosenSource (s : State) (r : RunningJob) (e : Entry) (failed : State) : State :=
  match chooseCopy e with
  | none => failed
  | some c =>
    match e.copy c with
    | none => failed
    | some d => beginSource s r c d

/-- The start of a PRELOAD job (R92). -/
def startPreload (s : State) (j : Job) (k : Key) : State :=
  let r := newRun j (s.entry k)
  match s.entry k with
  | none => endPreloadDamaged s r
  | some e =>
    if e.integrity = .damaged then endPreloadDamaged s r
    else beginChosenSource s r e (endPreloadDamaged s r)

/-! ## WRITE COPY and RETIRE -/

/-- A RAISE whose source read finds no readable copy (R79): the need is withdrawn, nothing is drawn. -/
def endRaiseDamaged (s : State) (r : RunningJob) : State :=
  endBeforeCommit { s with reservation := s.reservation - r.job.need } r .damaged

/-- The version a WRITE COPY job writes (R3, R126). -/
def versionToWrite (s : State) (e : Entry) : Nat :=
  if e.version = 0 then firstVersion s e.key else e.version + 1

/-- The start of a WRITE COPY job (R126). A job whose key has no entry cannot arise (log 18). -/
def startWriteCopy (s : State) (j : Job) (k : Key) : State :=
  match s.entry k with
  | none => endBeforeCommit s (newRun j none) .notFound
  | some e =>
    let r := { newRun j (some e) with versionWritten := some (versionToWrite s e) }
    if j.cause = some .raise then
      let r := { r with job := { j with params := { j.params with length := e.length } } }
      beginChosenSource s r e (endRaiseDamaged s r)
    else
      let content := j.params.content
      beginDraw s { r with content := content, crc := crc32 content }

/-- The start of a RETIRE job (R131); the level of its tag is the entry's. -/
def startRetire (s : State) (j : Job) (k : Key) : State :=
  match s.entry k with
  | none => endBeforeCommit s (newRun j none) .notFound
  | some e =>
    let j := { j with params := { j.params with level := e.level } }
    beginDraw s { newRun j (some e) with versionWritten := some (e.version + 1) }

/-! ## CONFIG WRITE -/

/-- The end of a CONFIG WRITE job (R55 to R57). -/
def endConfig (s : State) (r : RunningJob) (c : Completion) (committed : Bool) : State :=
  let s := releaseJobSlot s r (if committed then .committed else .failed)
  finishJob (completeJob s r c (jobResult s r committed false) none)

/-- The tag of a configuration page (R53). -/
def configTag (c : CopyNo) (index : Option Nat) : Tag :=
  ⟨.config, ⟨0, 0⟩, 0, copyNumber c, index, none, none⟩

/-- A step of a CONFIG WRITE job begins (R56): the four erases in ascending page order, the two data
pages, the header. -/
def beginConfigStep (s : State) (r : RunningJob) (step : Nat) : State :=
  let c := r.job.params.copy
  let base := configBase c
  let r := { r with stage := .config step }
  match step with
  | 4 =>
    { s with operation := some (.program (base + 1) (configTag c (some 0))
               (.data (contentChunk r.content 0))),
             running := some r }
  | 5 =>
    { s with operation := some (.program (base + 2) (configTag c (some 1))
               (.data (contentChunk r.content 1))),
             running := some r }
  | 6 =>
    match s.sequenceCounter with
    | none => endConfig s r .exhausted false
    | some n =>
      { s with sequenceCounter := nextSequence n,
               operation := some (.program base (configTag c none)
                 (.config (copyNumber c) n r.crc)),
               running := some r }
  | _ => { s with operation := some (.erase (base + step)), running := some r }

/-- The start of a CONFIG WRITE job (R56): the target copy is set INVALID. The version written is absent
(DESIGN CHOICE, log 28). -/
def startConfigWrite (s : State) (j : Job) : State :=
  let c := configTarget s
  let j := { j with params := { j.params with copy := c } }
  beginConfigStep (setCopyState s c .invalid)
    { newRun j none with content := j.params.content, crc := crc32 j.params.content } 0

/-! ## REPAIR -/

/-- The need of the Repair List head (R141). -/
def repairNeed (s : State) (x : RepairEntry) : Nat :=
  match s.entry x.key with
  | none => 0
  | some e =>
    if x.superseded || e.version != x.version || e.integrity == .damaged then 0
    else pagesOfCopy e.length

/-- The head is selectable (R116, R141). -/
def repairSelectable (s : State) (x : RepairEntry) : Bool :=
  s.reservation + repairNeed s x ≤ drawablePages s

/-- The source copy of a REPAIR job (R142): the other copy for LOST, the copy itself for REFRESH. -/
def repairSource (x : RepairEntry) : CopyNo :=
  match x.cause with
  | .lost => x.copy.other
  | .refresh => x.copy

/-- The job of a Repair List entry. -/
def repairJob (x : RepairEntry) (e : Option Entry) : Job where
  kind := .repair
  port := none
  target := some (.record x.key)
  cause := none
  handle := none
  params :=
    { copy := x.copy
      cls := (e.map (·.cls)).getD .single
      level := (e.map (·.level)).getD .opened
      length := (e.map (·.length)).getD 0 }
  need := 0

/-- The running field of a pair's entry set to yes (R141). -/
def markRunning (s : State) (k : Key) (c : CopyNo) : State :=
  { s with
    repairList := s.repairList.map fun (y : RepairEntry) =>
      if y.isFor k c then { y with running := true } else y }

/-- The start of a REPAIR job (R141, R142): discarded, ended without a source, or its source read begun. -/
def startRepair (s : State) (x : RepairEntry) : State :=
  let s := { markRunning s x.key x.copy with engine := .running }
  let r := { newRun (repairJob x (s.entry x.key)) (s.entry x.key) with
    versionWritten := some x.version }
  match s.entry x.key with
  | none => endRepairWithout s r
  | some e =>
    if x.superseded || e.version != x.version || e.integrity == .damaged then endRepairWithout s r
    else
      match e.copy (repairSource x) with
      | none => endRepairWithout s r
      | some d => beginSource s r (repairSource x) d

/-! ## ERASE and PATROL STEP -/

/-- A background job without a host. -/
def backgroundJob (kind : JobKind) (target : Option Target) : Job :=
  ⟨kind, none, target, none, none, {}, 0⟩

/-- The start of an ERASE job (R133). The Target of its running-job record, which R122 only says is from the
background selection, is the key on the page's Erase List entry, or none (DESIGN CHOICE, log 32). -/
def startErase (s : State) (page : Nat) (k : Option Key) : State :=
  { s with
    engine := .running
    operation := some (.erase page)
    running := some { newRun (backgroundJob .erase (k.map Target.record)) none with
      stage := .erasing } }

/-- An entry that patrol does not pass over (R147). -/
def patrolled (e : Entry) : Bool := e.lifecycle == .live && e.integrity != .damaged

/-- The record a PATROL STEP visits (R147): the first not passed over above the cursor, wrapping. -/
def patrolChoice (s : State) : Option Entry :=
  let es := s.directory.filter patrolled
  match s.patrolCursor with
  | none => es.head?
  | some c => (es.find? fun e => c.before e.key).or es.head?

/-- A PATROL STEP goes on to the first of the given copies that is valid now (R148), and ends when there
is none. -/
def patrolFrom (s : State) (r : RunningJob) : List CopyNo → State
  | [] => finishJob s
  | c :: rest =>
    match (s.entry r.key).bind (·.copy c) with
    | some d => if d.valid then beginSource s r c d else patrolFrom s r rest
    | none => patrolFrom s r rest

/-- The start of a PATROL STEP (R146, R147). -/
def startPatrol (s : State) : State :=
  let s := { s with engine := .running, patrolDue := false }
  match patrolChoice s with
  | none => finishJob s
  | some e =>
    patrolFrom { s with patrolCursor := some e.key }
      (newRun (backgroundJob .patrol (some (.record e.key))) (some e)) [.one, .two]

/-! ## Selection (R121) -/

/-- The start of a foreground job. A job without a record target, other than CONFIG WRITE, cannot arise
(log 18). -/
def startJob (s : State) (j : Job) : State :=
  match j.kind, j.key with
  | .configWrite, _ => startConfigWrite s j
  | .read, some k => startRead s j k
  | .preload, some k => startPreload s j k
  | .writeCopy, some k => startWriteCopy s j k
  | .retire, some k => startRetire s j k
  | _, _ => finishJob s

/-- Orders 3 and 4 of R121. -/
def selectEraseOrPatrol (s : State) : State :=
  match s.eraseList with
  | (page, k) :: _ => startErase s page k
  | [] => if s.patrolDue then startPatrol s else s

/-- Orders 2 to 4 of R121. -/
def selectBackground (s : State) : State :=
  match s.repairList with
  | x :: _ => if repairSelectable s x then startRepair s x else selectEraseOrPatrol s
  | [] => selectEraseOrPatrol s

/-- The FREE engine selects its next job (R121); during the drain of a RESTART no background job (R160). -/
def selectJob (s : State) : State :=
  match s.jobQueue with
  | j :: rest => startJob { s with jobQueue := rest, engine := .running } j
  | [] => if s.restarting.isSome then s else selectBackground s

/-- JOB_SELECT (R121). -/
def execJobSelect (s : State) : Host.Outcome State Fault Refusal :=
  .next (if s.isReady && s.engine == .free then selectJob s else s)

end Sys2Proof.Machine
end

