-- ==== Sys2Proof/Machine/JobReads.lean ====
section
/-! DEFINITION. JobReads.lean: the ends of the page reads of READ, PRELOAD, RAISE, REPAIR and PATROL STEP
jobs (R68, R79, R92, R125, R143, R148). -/

namespace Sys2Proof.Machine

/-- An event of the running job, in READY (R119, R123). Without a running job it cannot arise (log 1). -/
def jobEvent (s : State) (body : RunningJob → State) : State :=
  if s.isReady then
    match s.running with
    | some r => body r
    | none => s
  else s

/-- The bytes of a data page that could be read (R105). -/
def PageReport.dataBytes (report : PageReport) : Option (List Byte) :=
  match report.readable with
  | some (.data bytes) => some bytes
  | _ => none

/-- Copy 2 takes over from a faulty copy 1 of a MIRRORED record where copy 2 is valid (R68, R125). -/
def fallback (s : State) (k : Key) (c : CopyNo) : Option Entry :=
  (s.entry k).filter fun e => c == .one && e.cls == .mirrored && e.copyValid .two

/-! ## READ -/

/-- The end of a READ job that has its bytes (R69). -/
def endReadDone (s : State) (r : RunningJob) (e : Entry) (c : CopyNo) (got : List Byte) : State :=
  let n := trimmedCount r.job.params e
  endRead s r .done
    { version := e.version, length := e.length, count := n, at75 := copyNumber c }
    ((got.drop (r.job.params.offset % Config.pageBytes)).take n)

/-- A page read of a READ job whose page could not be read: begin again on copy 2, or end DAMAGED (R68). -/
def readFaulty (s : State) (r : RunningJob) (c : CopyNo) : State :=
  match fallback s r.key c with
  | some e => beginRead s r e .two
  | none => endRead s r .damaged {} []

/-- A page read of a READ job (R68, R125). -/
def readPageDone (outcome : ReadOutcome) (s : State) (r : RunningJob) : State :=
  match r.job.kind, r.stage, r.entry with
  | .read, .reading c (page :: left) got, some e =>
    if s.operation = some (.read page) then
      let report := readCell (s.page page) outcome
      let faulty := report.dataBytes.isNone
      let s := reportPage s r.key c report faulty faulty
      match report.dataBytes, left with
      | none, _ => readFaulty s r c
      | some bytes, [] => endReadDone s r e c (got ++ bytes)
      | some bytes, next :: rest =>
        { s with operation := some (.read next),
                 running := some { r with stage := .reading c (next :: rest) (got ++ bytes) } }
    else s
  | _, _, _ => s

/-- READ_JOB_PAGE_READ (R68). -/
def execReadJobPageRead (outcome : ReadOutcome) (s : State) : Host.Outcome State Fault Refusal :=
  .next (jobEvent s (readPageDone outcome s))

/-! ## Whole copies -/

/-- The page a whole-copy read is at. -/
def Stage.sourcePage : Stage → Option Nat
  | .source _ _ (page :: _) _ => some page
  | _ => none

/-- The next page of a whole-copy read. -/
def continueSource (s : State) (r : RunningJob) (stage : Stage) : State :=
  { s with operation := stage.sourcePage.map PageOperation.read,
           running := some { r with stage := stage } }

/-- A page of a whole-copy read: its report is applied, and `next` goes on from what it brings. -/
def sourcePageDone (outcome : ReadOutcome) (s : State) (r : RunningJob)
    (next : State → CopyNo → SourceStep → State) : State :=
  match r.stage, s.entry r.key with
  | .source c header (page :: left) got, some e =>
    match e.copy c with
    | none => s
    | some d =>
      if s.operation = some (.read page) then
        let report := readCell (s.page page) outcome
        let step := sourceAdvance e d c header (page :: left) got report
        let byPage := step == .faulty true
        let s := reportPage s r.key c report byPage (byPage || step == .faulty false)
        next s c step
      else s
  | _, _ => s

/-- Copy 1 of a MIRRORED record is faulty: begin again on copy 2 from its header, or `failed` (R79). -/
def sourceFaulty (s : State) (r : RunningJob) (c : CopyNo) (failed : State) : State :=
  match fallback s r.key c with
  | none => failed
  | some e =>
    match e.copy2 with
    | some d => beginSource s r .two d
    | none => failed

/-- The slot of a PRELOAD that has its bytes (R92): the buffer holds the content, the staged length is the
record's, HELD, the lease started. -/
def preloadSlot (s : State) (x : Slot) (p : Port) (bytes : List Byte) (length : Nat) : Slot :=
  { x with
    state := .held
    buffer := Memory.writeRange x.buffer 0 bytes
    staged := length
    lease := some (leaseExpiryTime s p) }

/-- The end DONE of a PRELOAD job (R91, R92). -/
def endPreloadDone (s : State) (r : RunningJob) (e : Entry) (bytes : List Byte) : State :=
  match r.job.handle, r.job.port with
  | some h, some p =>
    let x := s.slot h.slot
    let res := claimResult s p h x.base e.length e.length (classCode e.cls) (levelCode e.level)
    finishJob (post (s.setSlot h.slot (preloadSlot s x p bytes e.length)) p .done res none)
  | _, _ => finishJob s

/-- What a page of a PRELOAD brings (R92). -/
def preloadStep (r : RunningJob) (s : State) (c : CopyNo) : SourceStep → State
  | .more stage => continueSource s r stage
  | .faulty _ => sourceFaulty s r c (endPreloadDamaged s r)
  | .complete bytes =>
    match s.entry r.key with
    | some e => endPreloadDone s r e bytes
    | none => endPreloadDamaged s r

/-- What a page of a RAISE's source read brings (R79, R126). -/
def raiseStep (r : RunningJob) (s : State) (c : CopyNo) : SourceStep → State
  | .more stage => continueSource s r stage
  | .faulty _ => sourceFaulty s r c (endRaiseDamaged s r)
  | .complete bytes => beginDraw s { r with content := bytes, crc := crc32 bytes }

/-- COPY_SOURCE_PAGE_READ (R125): a page of a PRELOAD or of a RAISE's source. -/
def copySourcePageDone (outcome : ReadOutcome) (s : State) (r : RunningJob) : State :=
  match r.job.kind with
  | .preload => sourcePageDone outcome s r (preloadStep r)
  | .writeCopy => sourcePageDone outcome s r (raiseStep r)
  | _ => s

def execCopySourcePageRead (outcome : ReadOutcome) (s : State) :
    Host.Outcome State Fault Refusal :=
  .next (jobEvent s (copySourcePageDone outcome s))

/-- What a page of a REPAIR source brings (R143, R144). -/
def repairStep (r : RunningJob) (s : State) (_c : CopyNo) : SourceStep → State
  | .more stage => continueSource s r stage
  | .faulty _ => endRepairWithout s r
  | .complete bytes => beginDraw s { r with content := bytes, crc := crc32 bytes }

/-- REPAIR_SOURCE_PAGE_READ (R143). -/
def repairSourcePageDone (outcome : ReadOutcome) (s : State) (r : RunningJob) : State :=
  match r.job.kind with
  | .repair => sourcePageDone outcome s r (repairStep r)
  | _ => s

def execRepairSourcePageRead (outcome : ReadOutcome) (s : State) :
    Host.Outcome State Fault Refusal :=
  .next (jobEvent s (repairSourcePageDone outcome s))

/-- The copies a PATROL STEP reads after a copy (R148). -/
def copiesAfter : CopyNo → List CopyNo
  | .one => [.two]
  | .two => []

/-- What a page of a PATROL STEP brings (R148): after a copy, whatever it yielded, the next one. -/
def patrolStep (r : RunningJob) (s : State) (c : CopyNo) : SourceStep → State
  | .more stage => continueSource s r stage
  | .faulty _ => patrolFrom s r (copiesAfter c)
  | .complete _ => patrolFrom s r (copiesAfter c)

/-- PATROL_PAGE_READ (R148). -/
def patrolPageDone (outcome : ReadOutcome) (s : State) (r : RunningJob) : State :=
  match r.job.kind with
  | .patrol => sourcePageDone outcome s r (patrolStep r)
  | _ => s

def execPatrolPageRead (outcome : ReadOutcome) (s : State) : Host.Outcome State Fault Refusal :=
  .next (jobEvent s (patrolPageDone outcome s))

end Sys2Proof.Machine
end

