-- ==== Sys2Proof/Machine/JobPrograms.lean ====
section
/-! DEFINITION. JobPrograms.lean: the ends of page programs and erases: data pages, commit points, copy 2,
retirements, repairs, erases and the configuration write (R56, R113, R127 to R132, R144). -/

namespace Sys2Proof.Machine

/-- The program in progress for the job's current page: the page, its tag and its payload. -/
def currentProgram (s : State) (r : RunningJob) : Option (DrawnPage × Tag × Payload) :=
  match currentPage r, s.operation with
  | some d, some (.program page tag payload) =>
    if page = d.page && r.stage == .programming then some (d, tag, payload) else none
  | _, _ => none

/-- The page holds what was programmed (R104). -/
def pageProgrammed (s : State) (d : DrawnPage) (tag : Tag) (payload : Payload) : State :=
  s.setPage d.page (programmedCell tag payload)

/-! ## Data pages -/

/-- The program of a data page of a WRITE COPY job ends (R127, R130). -/
def dataPageDone (success : Bool) (s : State) (r : RunningJob) : State :=
  match r.job.kind, currentProgram s r with
  | .writeCopy, some (⟨page, .data c i, done⟩, tag, payload) =>
    let d : DrawnPage := ⟨page, .data c i, done⟩
    if success then programNext (pageProgrammed s d tag payload) (markProgrammed r d)
    else programFailed s r d
  | _, _ => s

/-- DATA_PAGE_PROGRAM_DONE (R127). -/
def execDataPageProgramDone (success : Bool) (s : State) : Host.Outcome State Fault Refusal :=
  .next (jobEvent s (dataPageDone success s))

/-! ## The commit point -/

/-- Remove the Retirement List entry of a key; a header not released goes to the Erase List (R115). -/
def dropRetirement (s : State) (k : Key) : State :=
  match s.retirement k with
  | none => s
  | some x =>
    let s := { s with retirementList := s.retirementList.filter fun y => decide (y.key ≠ k) }
    if x.released then s else liveToDirty s [x.header] k

/-- Repair List entries of a key below a new version are marked superseded (R140). -/
def supersedeBelow (s : State) (k : Key) (version : Nat) : State :=
  { s with
    repairList := s.repairList.map fun (x : RepairEntry) =>
      if x.key = k && x.version < version then { x with superseded := true } else x }

/-- Every Repair List entry of a key is marked superseded (R140). -/
def supersedeKey (s : State) (k : Key) : State :=
  { s with
    repairList := s.repairList.map fun (x : RepairEntry) =>
      if x.key = k then { x with superseded := true } else x }

/-- The entry a commit point leaves (R29, R128). -/
def committedEntry (e : Entry) (r : RunningJob) : Entry :=
  { e with
    version := r.versionWritten.getD 0
    length := r.job.params.length
    level := r.job.params.level
    integrity := .sound
    copy1 := some (descriptorOf r .one)
    copy2 := none }

/-- The report of a commit point, applied in the order of R128. -/
def applyCommit (s : State) (r : RunningJob) : State :=
  let k := r.key
  match s.entry k with
  | none => s
  | some e =>
    let version := r.versionWritten.getD 0
    let s := s.modifyEntry k fun _ => committedEntry e r
    let s := liveToDirty s (entryPages e) k
    let s := inWriteToLive s (descriptorPages (some (descriptorOf r .one)))
    let s := if e.version = 0 then dropRetirement s k else s
    let s := supersedeBelow s k version
    notify s (if e.version = 0 then .created else .updated) k version r.job.port

/-- Copy 1's header program completes with success (R128); a SINGLE record's job then ends (R129). -/
def commitPointDone (s : State) (r : RunningJob) : State :=
  match r.job.kind, currentProgram s r with
  | .writeCopy, some (⟨page, .header .one, done⟩, tag, payload) =>
    let d : DrawnPage := ⟨page, .header .one, done⟩
    let r := { markProgrammed r d with phase := .afterCommit }
    let s := applyCommit (pageProgrammed s d tag payload) r
    match r.cls with
    | .single => endWriteDone s r
    | .mirrored => programNext s r
  | _, _ => s

/-- COMMIT_POINT (R128). -/
def execCommitPoint (s : State) : Host.Outcome State Fault Refusal :=
  .next (jobEvent s (commitPointDone s))

/-- The report "copy 2 installed", applied (R129). -/
def applyCopy2 (s : State) (r : RunningJob) : State :=
  let d := descriptorOf r .two
  inWriteToLive (s.modifyEntry r.key fun e => { e with copy2 := some d }) (descriptorPages (some d))

/-- Copy 2's header program completes with success, and the job ends (R129). -/
def copy2Done (s : State) (r : RunningJob) : State :=
  match r.job.kind, currentProgram s r with
  | .writeCopy, some (⟨page, .header .two, done⟩, tag, payload) =>
    let d : DrawnPage := ⟨page, .header .two, done⟩
    let r := markProgrammed r d
    endWriteDone (applyCopy2 (pageProgrammed s d tag payload) r) r
  | _, _ => s

/-- COPY_2_INSTALLED (R129). -/
def execCopy2Installed (s : State) : Host.Outcome State Fault Refusal :=
  .next (jobEvent s (copy2Done s))

/-! ## Retirement -/

/-- The report of a retirement's commit point, applied in the order of R132. -/
def applyRetirement (s : State) (r : RunningJob) (page : Nat) : State :=
  let k := r.key
  match s.entry k with
  | none => s
  | some e =>
    let version := r.versionWritten.getD 0
    let s := liveToDirty (s.removeEntry k) (entryPages e) k
    let s :=
      { s with retirementList :=
          s.retirementList ++ [⟨k, page, version, pagesBearing s k, false⟩] }
    let s := inWriteToLive s [page]
    notify (supersedeKey s k) .retired k version r.job.port

/-- The retirement header's program completes with success, and the job ends DONE (R132). -/
def retirementDone (s : State) (r : RunningJob) : State :=
  match r.job.kind, currentProgram s r with
  | .retire, some (d, tag, payload) =>
    let r := { markProgrammed r d with phase := .afterCommit }
    let s := applyRetirement (pageProgrammed s d tag payload) r d.page
    finishJob (completeJob s r .done (jobResult s r true false) none)
  | _, _ => s

/-- RETIREMENT_COMMIT_POINT (R132). -/
def execRetirementCommitPoint (s : State) : Host.Outcome State Fault Refusal :=
  .next (jobEvent s (retirementDone s))

/-! ## Repair -/

/-- A page program of a REPAIR job ends (R144): after the header, the copy is installed at the job's end. -/
def repairPageDone (success : Bool) (s : State) (r : RunningJob) : State :=
  match r.job.kind, currentProgram s r with
  | .repair, some (d, tag, payload) =>
    if success then
      let s := pageProgrammed s d tag payload
      let r := markProgrammed r d
      match currentPage r with
      | none => endRepairInstalled s r
      | some _ => programNext s r
    else programFailed s r d
  | _, _ => s

/-- REPAIR_PAGE_PROGRAM_DONE (R144). -/
def execRepairPageProgramDone (success : Bool) (s : State) : Host.Outcome State Fault Refusal :=
  .next (jobEvent s (repairPageDone success s))

/-! ## Erases -/

/-- A record-area page erase ends (R111, R113, R133): the ERASE job ends, or the draw goes on. -/
def eraseDone (success : Bool) (s : State) (r : RunningJob) : State :=
  match s.operation, r.stage with
  | some (.erase _), .erasing => finishJob (eraseHeadDone s success)
  | some (.erase _), .drawing count role => continueDraw (eraseHeadDone s success) r count role
  | _, _ => s

/-- ERASE_COMPLETE (R113). -/
def execEraseComplete (success : Bool) (s : State) : Host.Outcome State Fault Refusal :=
  .next (jobEvent s (eraseDone success s))

/-! ## The configuration write -/

/-- The page of a page operation. -/
def PageOperation.page : PageOperation → Nat
  | .read page => page
  | .program page _ _ => page
  | .erase page => page

/-- What a page holds after an operation succeeds (R104). -/
def PageOperation.outcome (op : PageOperation) (before : PageCell) : PageCell :=
  match op with
  | .read _ => before
  | .program _ tag payload => programmedCell tag payload
  | .erase _ => PageCell.blank

/-- An erase or a data page program of a CONFIG WRITE job ends (R56, R57). -/
def configPageDone (success : Bool) (s : State) (r : RunningJob) : State :=
  match r.job.kind, r.stage, s.operation with
  | .configWrite, .config step, some op =>
    if 6 ≤ step then s
    else if success then
      beginConfigStep (s.setPage op.page (op.outcome (s.page op.page))) r (step + 1)
    else endConfig (s.spoilPage op.page) r .arrayFault false
  | _, _, _ => s

/-- CONFIG_PAGE_OPERATION_DONE (R56). -/
def execConfigPageOperationDone (success : Bool) (s : State) : Host.Outcome State Fault Refusal :=
  .next (jobEvent s (configPageDone success s))

/-- The configuration commit point (R56): the target copy VALID with the sequence number its header
carries, the stored image and the stored sequence replaced. -/
def applyConfigCommit (s : State) (r : RunningJob) (sequence : Nat) : State :=
  { setCopyState s r.job.params.copy (.valid sequence) with
    storedImage := some r.content
    storedSequence := sequence }

/-- The configuration header's program completes with success (R56). -/
def configCommitDone (s : State) (r : RunningJob) : State :=
  match r.job.kind, r.stage, s.operation with
  | .configWrite, .config 6, some (.program page tag (.config n sequence crc)) =>
    let s := s.setPage page (programmedCell tag (.config n sequence crc))
    endConfig (applyConfigCommit s r sequence) r .done true
  | _, _, _ => s

/-- CONFIGURATION_COMMIT_POINT (R56). -/
def execConfigurationCommitPoint (s : State) : Host.Outcome State Fault Refusal :=
  .next (jobEvent s (configCommitDone s))

/-! ## Header failure -/

/-- The role is a header's. -/
def PageRole.isHeader : PageRole → Bool
  | .data _ _ => false
  | .header _ | .retirement => true

/-- The program of a copy header, a retirement header or a configuration header reports failure (R57,
R130, R131). -/
def headerFailed (s : State) (r : RunningJob) : State :=
  match r.job.kind, r.stage, s.operation with
  | .configWrite, .config 6, some (.program page _ _) =>
    endConfig (s.spoilPage page) r .arrayFault false
  | .writeCopy, _, _ | .retire, _, _ =>
    match currentProgram s r with
    | some (d, _, _) => if d.role.isHeader then programFailed s r d else s
    | none => s
  | _, _, _ => s

/-- HEADER_PROGRAM_FAILURE (R130). -/
def execHeaderProgramFailure (s : State) : Host.Outcome State Fault Refusal :=
  .next (jobEvent s (headerFailed s))

end Sys2Proof.Machine
end

