-- ==== Sys2Proof/Machine/Link.lean ====
section
/-! DEFINITION. Link.lean: the host link and the port window (R171, R172, R174, R175, R179). -/

namespace Sys2Proof.Machine

/-- A link event that has no row of the table (R171). A read's data byte advances the current offset by
one, from 255 to 0; an event that cannot arise changes nothing (log 1). -/
def linkStep : Link → LinkEvent → Link
  | _, .deselect => .deselected
  | .deselected, .select => .selected
  | .selected, .readAccess => .accessed false
  | .selected, .writeAccess => .accessed true
  | .accessed false, .offset offset => .reading offset
  | .accessed true, .offset offset => .writing offset
  | .reading offset, .dataByte => .reading (offset + 1)
  | link, _ => link

/-- The link after events in order. -/
def linkAfter (link : Link) (events : List LinkEvent) : Link := events.foldl linkStep link

/-- What SDOn shifts out during the next byte of a port's link (R171): the window byte at the current
offset in a read's data bytes, 0 in every other byte, and nothing (high impedance) while the port is
deselected. -/
def serialOut (s : State) (p : Port) : Option Byte :=
  match (s.port p).link with
  | .deselected => none
  | .reading offset => some (windowRead s p offset)
  | .selected | .accessed _ | .writing _ | .ignored => some 0

/-- A data byte of a write transaction takes effect alone, and the current offset advances by one, from
255 to 0 (R171). At a location that is not `mine` it is another row's event (log 1). In a read, and where
the rest is ignored, nothing is written. -/
def linkEvent (s : State) (p : Port) (place : LinkByte) (mine : Byte → Bool)
    (body : State → Byte → State) : State :=
  if s.active then
    match linkAfter (s.port p).link place.before with
    | .writing offset =>
      if mine offset then
        body (s.setPort p { s.port p with link := .writing (offset + 1) }) offset
      else s
    | link => s.setPort p { s.port p with link := linkStep link .dataByte }
  else s

/-- An access byte that is neither 0x3C nor 0xC3 (R171, R175): FRAMING, and the rest is ignored. -/
def execInvalidAccessByte (p : Port) (access : Byte) (s : State) : Host.Outcome State Fault Refusal :=
  .next
    (if s.active && access != readAccess && access != writeAccess then
      s.setPort p { s.port p with framing := true, link := .ignored }
    else s)

/-- A byte written to a window location with no behaviour of its own (R172, R175). -/
def windowByte (u : PortUnit) (offset value : Byte) : PortUnit :=
  if offset.toNat < 0x60 then
    match u.state with
    | .idle => { u with window := u.window.write offset.toNat value }
    | .queued | .active => { u with windowLocked := true }
  else if offset.toNat = 0x83 then { u with mask := value.setWidth 5 }
  else u

/-- WINDOW_WRITE (R172, R175). -/
def execWindowWrite (p : Port) (place : LinkByte) (value : Byte) (s : State) :
    Host.Outcome State Fault Refusal :=
  .next (linkEvent s p place plainOffset fun s offset => s.setPort p (windowByte (s.port p) offset value))

/-- A launch in IDLE (R174): captured, and queued in READY; in STARTING and HALTED it completes at once. -/
def launchIdle (s : State) (p : Port) (tag : Byte) : State :=
  let s := s.setPort p { s.port p with go := tag }
  match s.device with
  | .starting => post s p .notReady {} none
  | .halted => post s p .halted {} none
  | .ready =>
    { s.setPort p { s.port p with state := .queued } with dispatchQueue := s.dispatchQueue ++ [p] }

/-- A byte written to GO (R174). -/
def launchByte (s : State) (p : Port) (tag : Byte) : State :=
  if tag = 0 then s
  else match (s.port p).state with
    | .idle => launchIdle s p tag
    | .queued | .active => s.setPort p { s.port p with launchRejected := true }

/-- LAUNCH (R174, R176). -/
def execLaunch (p : Port) (place : LinkByte) (tag : Byte) (s : State) :
    Host.Outcome State Fault Refusal :=
  .next (linkEvent s p place (· == goOffset) fun s _ => launchByte s p tag)

/-- A byte written to the attention causes (R179): a 1 clears COMPLETE, LAPSE or READY. -/
def clearCauses (u : PortUnit) (value : Byte) : PortUnit :=
  { u with
    complete := u.complete && !value.getLsbD 0
    lapse := u.lapse && !value.getLsbD 2
    ready := u.ready && !value.getLsbD 3 }

/-- ATTENTION_CAUSE_WRITE (R179). -/
def execAttentionCauseWrite (p : Port) (place : LinkByte) (value : Byte) (s : State) :
    Host.Outcome State Fault Refusal :=
  .next (linkEvent s p place (· == causesOffset) fun s _ => s.setPort p (clearCauses (s.port p) value))

/-- A byte written to the sticky flags (R175): a 1 clears the flag. -/
def clearSticky (u : PortUnit) (value : Byte) : PortUnit :=
  { u with
    framing := u.framing && !value.getLsbD 0
    launchRejected := u.launchRejected && !value.getLsbD 1
    windowLocked := u.windowLocked && !value.getLsbD 2 }

/-- STICKY_FLAG_WRITE (R175). -/
def execStickyFlagWrite (p : Port) (place : LinkByte) (value : Byte) (s : State) :
    Host.Outcome State Fault Refusal :=
  .next (linkEvent s p place (· == stickyOffset) fun s _ => s.setPort p (clearSticky (s.port p) value))

end Sys2Proof.Machine
end

