-- ==== Sys2Proof/Machine/Startup.lean ====
section
/-! DEFINITION. Startup.lean: entry to STARTING (R150) and the start-up sequence: CONFIG LOAD (R152), SCAN
(R153), RESOLVE (R154 to R156), the page accounting (R157) and entry to READY (R158). -/

namespace Sys2Proof.Machine

/-! ## Entry to STARTING -/

/-- Entry to STARTING (R150): every volatile structure takes its start-up value and the cause is recorded;
the array, the levels of the pins, the link transactions in progress (R171) and the model's own fields
stay. -/
def startingState (s : State) (cause : ResetCause) : State :=
  { State.reset with
    pfwAsserted := s.pfwAsserted
    maintEnAsserted := s.maintEnAsserted
    resetCause := cause
    ports := s.ports.map fun u => { PortUnit.reset with link := u.link }
    array := s.array
    now := s.now
    freeIndex := s.freeIndex
    pending := s.pending }

/-- The start-up ends in HALTED (R151, R159): no page read is begun and none of what it built counts. -/
def haltStartup (s : State) : State :=
  { s with device := .halted, startup := .idle, operation := none }

/-- The device enters STARTING; with PFW_N found asserted it goes on to HALTED (R149, R151). -/
def enterStarting (s : State) (cause : ResetCause) : State :=
  if s.pfwAsserted then haltStartup (startingState s cause) else startingState s cause

/-! ## CONFIG LOAD -/

/-- The image half a data page of a configuration copy holds, where it reads and its tag is right (R53). -/
def configHalf (reports : List PageReport) (c : CopyNo) (index : Nat) : Option (List Byte) :=
  match reports.getD (configBase c + 1 + index) .erased with
  | .parts (some (tag, _)) (some (.data bytes, _)) =>
    if tag.kind = .config && tag.copyNumber == copyNumber c && tag.dataIndex == some index then
      some bytes
    else none
  | _ => none

/-- The image and the sequence number of a configuration copy that is VALID (R53). -/
def configCopyFound (reports : List PageReport) (c : CopyNo) : Option (List Byte × Nat) :=
  match reports.getD (configBase c) .erased, configHalf reports c 0, configHalf reports c 1 with
  | .parts (some (tag, _)) (some (.config _ sequence crc, _)), some first, some second =>
    if tag.kind = .config && crc32 (first ++ second) == crc && imageValid (first ++ second) then
      some (first ++ second, sequence)
    else none
  | _, _, _ => none

/-- The page of an offset from a copy's header page reads ERASED. -/
def configPageErased (reports : List PageReport) (c : CopyNo) (offset : Nat) : Bool :=
  reports.getD (configBase c + offset) .erased == .erased

/-- The copy state found for a configuration copy (R53). -/
def configCopyState (reports : List PageReport) (c : CopyNo) : CopyState :=
  match configCopyFound reports c with
  | some (_, sequence) => .valid sequence
  | none =>
    if configPageErased reports c 0 && configPageErased reports c 1 && configPageErased reports c 2
    then .erased
    else .invalid

/-- The write sequence number a configuration header contributes: its payload is readable (R53, R152). -/
def configSequence (reports : List PageReport) (c : CopyNo) : Nat :=
  match reports.getD (configBase c) .erased with
  | .parts _ (some (.config _ sequence _, _)) => sequence
  | _ => 0

/-- The configuration state chosen from what CONFIG LOAD read (R59). -/
def configStateFound (reports : List PageReport) : ConfigState :=
  let a := configCopyState reports .one
  let b := configCopyState reports .two
  if (newestValid a b).isSome then .configured
  else if a == .erased && b == .erased && configPageErased reports .one 3 &&
      configPageErased reports .two 3 then .unconfigured
  else .configFault

/-- The stored image and sequence found (R59): the newest valid copy's. -/
def storedFound (reports : List PageReport) : Option (List Byte × Nat) :=
  (newestValid (configCopyState reports .one) (configCopyState reports .two)).bind
    (configCopyFound reports)

/-- The effective configuration of R60. -/
def effectiveFound (reports : List PageReport) : EffectiveConfig :=
  match configStateFound reports, storedFound reports with
  | .configured, some (img, _) => effectiveOfImage img
  | .unconfigured, _ => defaultConfig
  | _, _ => faultConfig

/-- The end of CONFIG LOAD (R59, R60, R152), and the first page read of SCAN (R153). -/
def endConfigLoad (s : State) (reports : List PageReport) : State :=
  let sequence := ((storedFound reports).map (·.2)).getD 0
  { s with
    copyStateA := configCopyState reports .one
    copyStateB := configCopyState reports .two
    configState := some (configStateFound reports)
    storedImage := (storedFound reports).map (·.1)
    storedSequence := sequence
    effective := effectiveFound reports
    effectiveSequence := sequence
    startup := .scan [] (max (configSequence reports .one) (configSequence reports .two))
    operation := some (.read Config.firstRecordPage) }

/-- A page read of CONFIG LOAD ends (R152); the next page, or the end of the phase. -/
def configLoadRead (s : State) (outcome : ReadOutcome) : State :=
  match s.startup, s.operation with
  | .configLoad reports, some (.read page) =>
    let reports := reports ++ [readCell (s.page page) outcome]
    if page + 1 < Config.firstRecordPage then
      { s with startup := .configLoad reports, operation := some (.read (page + 1)) }
    else endConfigLoad s reports
  | _, _ => s

/-- CONFIG_LOAD_PAGE_READ (R53, R152). -/
def execConfigLoadPageRead (outcome : ReadOutcome) (s : State) : Host.Outcome State Fault Refusal :=
  .next (if s.isStarting then configLoadRead s outcome else s)

/-! ## SCAN -/

/-- The tag is of a kind of the record area, with its key, copy number and data index in range (R106,
R153). R153 tests no version, and neither does this, though R2 and R22 bound it (DESIGN CHOICE, logs 30
and 33). -/
def Tag.inRange (t : Tag) : Bool :=
  t.key.ns ≤ 7 && t.key.item ≤ 65535 &&
    match t.kind with
    | .header => (t.copyNumber == 1 || t.copyNumber == 2) && t.dataIndex.isNone
    | .data => (t.copyNumber == 1 || t.copyNumber == 2) && t.dataIndex.any (· ≤ 15)
    | .retire => t.copyNumber == 1 && t.dataIndex.isNone
    | .config => false

/-- The scan record of a page that reports so (R153). -/
def scanRecordOf : PageReport → ScanRecord
  | .erased => .erased
  | .parts none _ => .unreadable
  | .parts (some (tag, tagCorrected)) payload =>
    if tag.inRange then
      .tagged tag (match payload with
        | some (_, payloadCorrected) => tagCorrected || payloadCorrected
        | none => false) (payload.map (·.1))
    else .unreadable

/-- The write sequence number of a readable header or retirement header payload (R153). -/
def headSequence (t : Tag) (payload : Option Payload) : Option Nat :=
  match t.kind, payload with
  | .header, some (.header h) => some h.sequence
  | .retire, some (.retire _ _ sequence) => some sequence
  | _, _ => none

/-- What a scan record contributes to the highest sequence seen (R153). -/
def ScanRecord.sequence : ScanRecord → Nat
  | .tagged tag _ payload => (headSequence tag payload).getD 0
  | _ => 0

/-! ## RESOLVE -/

/-- A page with a readable tag, as the scan found it. -/
structure Found where
  page : Nat
  tag : Tag
  corrected : Bool
  payload : Option Payload
deriving DecidableEq, Repr

/-- The pages with a readable tag, in ascending page number. -/
def foundPages (records : List (Nat × ScanRecord)) : List Found :=
  records.filterMap fun x =>
    match x.2 with
    | .tagged tag corrected payload => some ⟨x.1, tag, corrected, payload⟩
    | _ => none

def Found.sequence (x : Found) : Option Nat := headSequence x.tag x.payload

/-- The page with the highest readable sequence, the earliest of equals (log 16). -/
def highestReadable (l : List Found) : Option Found :=
  l.foldl (fun best x =>
    match x.sequence, best.bind (·.sequence) with
    | none, _ => best
    | some _, none => some x
    | some n, some m => if m < n then some x else best) none

/-- The page named among candidates: the highest readable sequence, or the lowest page number when no
payload is readable (R154, R156). -/
def named (l : List Found) : Option Found := (highestReadable l).or l.head?

/-- The HEADER and RETIRE pages of a key's pages (R154). -/
def headPages (pages : List Found) : List Found :=
  pages.filter fun x => x.tag.kind == .header || x.tag.kind == .retire

/-- V: the highest version among them (R154). A V of 0, which only a HEADER tag of undefined content can bear
(R153 tests no version), is taken as any other: the key gets a LIVE entry of version 0 that keeps its descriptors,
though R2 and R22 give version 0 none (DESIGN CHOICE, log 30). A V above 4,294,967,295, the bound of R2 and R22, is
taken as it reads too (DESIGN CHOICE, log 33). -/
def topVersion (pages : List Found) : Nat :=
  (headPages pages).foldl (fun v x => max v x.tag.version) 0

/-- The HEADER and RETIRE pages that bear V. -/
def topHeads (pages : List Found) : List Found :=
  (headPages pages).filter fun x => x.tag.version == topVersion pages

/-- The kind at V is HEADER (R154): where the kinds differ, the highest readable sequence decides, and
RETIRE prevails when none is readable. -/
def topIsHeader (pages : List Found) : Bool :=
  let heads := topHeads pages
  if heads.all fun x => x.tag.kind == .header then true
  else if heads.all fun x => x.tag.kind == .retire then false
  else (highestReadable heads).any fun x => x.tag.kind == .header

/-! ### Candidates -/

/-- The candidates for a copy number (R155). -/
def candidates (pages : List Found) (c : CopyNo) : List Found :=
  (topHeads pages).filter fun x => x.tag.kind == .header && x.tag.copyNumber == copyNumber c

/-- The page a candidate's list names at an index, where its tag is the one condition 3 of R155 asks for. -/
def listedPage (pages : List Found) (t : Tag) (page index : Nat) : Option Found :=
  pages.find? fun x =>
    x.page == page && x.tag.kind == .data && x.tag.key == t.key && x.tag.version == t.version &&
      x.tag.copyNumber == t.copyNumber && x.tag.dataIndex == some index

/-- The content of a data page whose payload reads. -/
def Found.bytes (x : Found) : Option (List Byte) :=
  match x.payload with
  | some (.data bytes) => some bytes
  | _ => none

/-- The content of the pages a candidate lists, when condition 3 of R155 holds. -/
def listedContent (pages : List Found) (t : Tag) (list : List Nat) : Option (List Byte) :=
  if list.Nodup then
    (list.zipIdx.mapM fun (page, index) => (listedPage pages t page index).bind Found.bytes).map
      List.flatten
  else none

/-- The header payload of a candidate that conditions 1 to 4 of R155 make valid. -/
def validHeader (pages : List Found) (x : Found) : Option HeaderPayload :=
  match x.payload with
  | some (.header h) =>
    if h.key = x.tag.key && h.version == x.tag.version && h.copyNumber == x.tag.copyNumber &&
        some h.cls == x.tag.cls && some h.level == x.tag.level && 1 ≤ h.length &&
        h.length ≤ Config.bufferBytes && h.dataPageCount == dataPageCount h.length &&
        h.dataPages.length == h.dataPageCount &&
        (listedContent pages x.tag h.dataPages).any fun bytes => crc32 (bytes.take h.length) == h.crc
    then some h
    else none
  | _ => none

/-- A chosen candidate and its header payload. -/
structure Chosen where
  found : Found
  header : HeaderPayload
deriving DecidableEq, Repr

/-- The candidate chosen for a copy number among the valid ones that list none of the taken pages
(R155). -/
def choose (pages : List Found) (c : CopyNo) (taken : List Nat) : Option Chosen :=
  let valid := (candidates pages c).filter fun x =>
    (validHeader pages x).any fun h => h.dataPages.all fun page => !taken.contains page
  (highestReadable valid).bind fun x => (validHeader pages x).map fun h => ⟨x, h⟩

/-- The pages a chosen candidate names. -/
def Chosen.pages (x : Chosen) : List Nat := x.found.page :: x.header.dataPages

/-- The chosen copies 1 and 2 (R155): copy 2 none where the class is SINGLE. -/
def chosenCopies (pages : List Found) : Option Chosen × Option Chosen :=
  let one := choose pages .one []
  let two := choose pages .two ((one.map Chosen.pages).getD [])
  match one.or two with
  | some x => if x.header.cls = .single then (one, none) else (one, two)
  | none => (none, none)

/-! ### Entries -/

/-- The number of a copy's pages whose scan record shows CORRECTED, at most 17 (R156). -/
def correctionsFound (pages : List Found) (list : List Nat) : Nat :=
  min 17 (pages.filter fun x => x.corrected && list.contains x.page).length

/-- The descriptor of a chosen copy (R156). -/
def chosenDescriptor (pages : List Found) (x : Chosen) : CopyDescriptor :=
  ⟨x.found.page, x.header.dataPages, true, correctionsFound pages x.pages⟩

/-- The data page list of an invalid descriptor (R24, R156): the candidate's readable list without the
pages that do not bear its tags, or the pages the tags show, one for each data index. -/
def invalidList (pages : List Found) (x : Found) : List Nat :=
  match x.payload with
  | some (.header h) =>
    h.dataPages.zipIdx.filterMap fun (page, index) =>
      (listedPage pages x.tag page index).map (·.page)
  | _ =>
    (List.range 16).filterMap fun index =>
      (pages.find? fun y =>
        y.tag.kind == .data && y.tag.version == x.tag.version &&
          y.tag.copyNumber == x.tag.copyNumber && y.tag.dataIndex == some index).map (·.page)

/-- The invalid descriptor of a copy number that has a candidate (R156). -/
def invalidDescriptor (pages : List Found) (c : CopyNo) : Option CopyDescriptor :=
  (named (candidates pages c)).map fun x =>
    let list := invalidList pages x
    ⟨x.page, list, false, correctionsFound pages (x.page :: list)⟩

/-- The entry of a DAMAGED record without a chosen copy (R156). Where R22, R24 and R156 leave it open (DESIGN
CHOICE, log 25): an invalid descriptor stands for each copy number with a candidate, in a SINGLE record too;
the length is the payload's as it reads; of equal highest sequences copy 1's payload gives the attributes;
and where no payload reads, the tag of the first copy 1 candidate, else of the first copy 2 one. -/
def damagedEntry (k : Key) (pages : List Found) : Entry :=
  let heads := candidates pages .one ++ candidates pages .two
  let best : Option HeaderPayload := (highestReadable heads).bind fun x =>
    match x.payload with
    | some (.header h) => some h
    | _ => none
  { key := k
    lifecycle := .live
    integrity := .damaged
    cls := ((best.map (·.cls)).or (heads.findSome? (·.tag.cls))).getD .single
    level := ((best.map (·.level)).or (heads.findSome? (·.tag.level))).getD .opened
    owner := best.bind (·.owner)
    length := (best.map (·.length)).getD 0
    version := topVersion pages
    claim := none
    copy1 := invalidDescriptor pages .one
    copy2 := invalidDescriptor pages .two }

/-- The entry of a record with chosen copies; `x` gives its attributes (R156). -/
def rebuiltEntry (k : Key) (pages : List Found) (x : Chosen) (one two : Option Chosen) : Entry :=
  Entry.judged
    { key := k
      lifecycle := .live
      integrity := .sound
      cls := x.header.cls
      level := x.header.level
      owner := x.header.owner
      length := x.header.length
      version := topVersion pages
      claim := none
      copy1 := one.map (chosenDescriptor pages)
      copy2 := two.map (chosenDescriptor pages) }

/-- The entry of a HEADER key (R156), at version 0 too (DESIGN CHOICE, log 30). -/
def headerEntry (k : Key) (pages : List Found) : Entry :=
  match chosenCopies pages with
  | (one, two) =>
    match one.or two with
    | some x => rebuiltEntry k pages x one two
    | none => damagedEntry k pages

/-- The Retirement List entry of a RETIRE key (R154): released, with count 1, where no other page of the
key remains. -/
def retiredEntry (k : Key) (pages : List Found) : Option RetirementEntry :=
  (named ((topHeads pages).filter fun x => x.tag.kind == .retire)).map fun kept =>
    let others := (pages.filter fun x => x.page != kept.page).length
    { key := k
      header := kept.page
      version := topVersion pages
      outstanding := if others = 0 then 1 else others
      released := others == 0 }

/-- What RESOLVE decides for a key. -/
inductive Resolution where
  | nothing
  | retired (entry : RetirementEntry)
  | record (entry : Entry)
deriving DecidableEq, Repr

/-- The resolution of a key from its pages (R154). -/
def resolveKey (k : Key) (pages : List Found) : Resolution :=
  if (headPages pages).isEmpty then .nothing
  else if topIsHeader pages then .record (headerEntry k pages)
  else
    match retiredEntry k pages with
    | some x => .retired x
    | none => .nothing

/-- The resolutions of every key, in ascending key order. -/
def resolutions (records : List (Nat × ScanRecord)) : List Resolution :=
  let found := foundPages records
  let keys := found.foldl (fun ks x => insertKey x.tag.key ks) []
  keys.map fun k => resolveKey k (found.filter fun x => x.tag.key = k)

/-! ## Page accounting -/

/-- The directory entries (R157): the first 512 in key order. -/
def rebuiltDirectory (rs : List Resolution) : List Entry :=
  (rs.filterMap fun r => match r with
    | .record e => some e
    | _ => none).take Config.directoryPlaces

/-- The Retirement List (R154). -/
def rebuiltRetirements (rs : List Resolution) : List RetirementEntry :=
  rs.filterMap fun r => match r with
    | .retired x => some x
    | _ => none

/-- The LIVE pages (R157). -/
def rebuiltLive (directory : List Entry) (retirements : List RetirementEntry) : List Nat :=
  insertAll
    (directory.flatMap entryPages ++ (retirements.filter fun x => !x.released).map (·.header)) []

/-- The ERASED pool (R157): the pages whose scan record is erased, in ascending page number. -/
def rebuiltErased (records : List (Nat × ScanRecord)) : List Nat :=
  (records.filter fun x => x.2 == .erased).map (·.1)

/-- The key of a readable tag. -/
def ScanRecord.key : ScanRecord → Option Key
  | .tagged tag _ _ => some tag.key
  | _ => none

/-- The Erase List (R157): every other page, in ascending page number, with the key of its readable tag. -/
def rebuiltEraseList (records : List (Nat × ScanRecord)) (live : List Nat) : List (Nat × Option Key) :=
  (records.filter fun x => !(x.2 == .erased) && !live.contains x.1).map fun x => (x.1, x.2.key)

/-- The LOST entries of the DEGRADED records (R156, R157). -/
def rebuiltRepairs (directory : List Entry) : List RepairEntry :=
  (directory.filter fun e => e.integrity == .degraded).map fun e =>
    ⟨e.key, e.version, if e.copy1.isNone then .one else .two, .lost, false, false⟩

/-- The write sequence counter at READY (R157). -/
def counterFrom (highest : Nat) : Option Nat :=
  if Config.maxNumber ≤ highest then none else some (highest + 1)

/-- RESOLVE and the accounting of its end (R154 to R157). -/
def accounted (s : State) (records : List (Nat × ScanRecord)) (highest : Nat) : State :=
  let rs := resolutions records
  let directory := rebuiltDirectory rs
  let retirements := rebuiltRetirements rs
  let live := rebuiltLive directory retirements
  { s with
    directory := directory
    retirementList := retirements
    live := live
    erased := rebuiltErased records
    eraseList := rebuiltEraseList records live
    inWrite := []
    bad := []
    reservation := 0
    repairList := rebuiltRepairs directory
    sequenceCounter := counterFrom highest }

/-! ## READY -/

/-- The patrol timer's expiry time when it is started or restarted at a time (R146). -/
def patrolExpiryFrom (s : State) (t : Nat) : Option Nat :=
  if s.effective.patrolPeriod = 0 then none
  else some (t + s.effective.patrolPeriod * Config.patrolUnit)

/-- Entry to READY (R158). -/
def enterReady (s : State) : State :=
  { s with
    device := .ready
    startup := .idle
    operation := none
    engine := .free
    ports := s.ports.map fun u => { u with ready := true }
    patrolTimer := patrolExpiryFrom s s.now
    patrolDue := false }

/-- A page read of SCAN ends (R153); the next page, or RESOLVE and entry to READY. -/
def scanRead (s : State) (outcome : ReadOutcome) : State :=
  match s.startup, s.operation with
  | .scan records highest, some (.read page) =>
    let x := scanRecordOf (readCell (s.page page) outcome)
    let records := records ++ [(page, x)]
    let highest := max highest x.sequence
    if page + 1 < Config.pages then
      { s with startup := .scan records highest, operation := some (.read (page + 1)) }
    else enterReady (accounted s records highest)
  | _, _ => s

/-- SCAN_PAGE_READ (R153 to R158). -/
def execScanPageRead (outcome : ReadOutcome) (s : State) : Host.Outcome State Fault Refusal :=
  .next (if s.isStarting then scanRead s outcome else s)

end Sys2Proof.Machine
end

