-- ==== Sys2Proof/Machine/Pins.lean ====
section
/-! DEFINITION. Pins.lean: power, RESET_N and PFW_N (R104, R135, R136, R149 to R151, R159). -/

namespace Sys2Proof.Machine

/-! ## Power and RESET_N -/

/-- The entry to STARTING at power-on or at the deassertion of RESET_N (R150): the cause is POWER_ON for
the first entry after power is applied, and PIN after that. -/
def startFromPins (s : State) : State :=
  enterStarting s (if s.coldStart then .powerOn else .pin)

/-- POWER_ON (R150): the part enters STARTING, unless RESET_N holds it (log 17). -/
def execPowerOn (s : State) : Host.Outcome State Fault Refusal :=
  .next
    (if s.powered then s
    else
      let s := { s with powered := true, coldStart := true }
      if s.resetAsserted then s else startFromPins s)

/-- The page operation in progress is cut (R104, R136). -/
def cutOperation (s : State) : State :=
  match s.operation with
  | some (.program page tag payload) => s.cutPage page (programmedCell tag payload)
  | some (.erase page) => s.cutPage page (s.page page)
  | _ => s

/-- The part held by RESET_N (R149): no page operation and no link transaction goes on. -/
def heldInReset (s : State) : State :=
  { s with
    resetAsserted := true
    startup := .idle
    operation := none
    engine := .stopped
    running := none
    ports := s.ports.map fun u => { u with link := .deselected } }

/-- RESET_N asserted (R136, R149). -/
def execResetNAssert (s : State) : Host.Outcome State Fault Refusal :=
  .next
    (if s.resetAsserted then s
    else if s.powered then heldInReset (cutOperation s)
    else { s with resetAsserted := true })

/-- RESET_N deasserted (R149, R150). -/
def execResetNDeassert (s : State) : Host.Outcome State Fault Refusal :=
  .next
    (if s.resetAsserted then
      let s := { s with resetAsserted := false }
      if s.powered then startFromPins s else s
    else s)

/-- The part without power (R103, R136, R150): the array and the pins stay; the rest is lost (log 17). -/
def unpowered (s : State) : State :=
  { State.reset with
    powered := false
    resetAsserted := s.resetAsserted
    pfwAsserted := s.pfwAsserted
    maintEnAsserted := s.maintEnAsserted
    startup := .idle
    operation := none
    array := s.array
    now := s.now
    freeIndex := s.freeIndex
    pending := s.pending }

/-- Power lost (R103, R104, R136). -/
def execPowerLoss (s : State) : Host.Outcome State Fault Refusal :=
  .next (if s.powered then unpowered (cutOperation s) else s)

/-! ## The power-fail halt -/

/-- The phase a job reaches when the program of a page it drew has succeeded (R128, R131, R135). -/
def phaseAfter (r : RunningJob) (d : DrawnPage) : Phase :=
  match r.job.kind, d.role with
  | .writeCopy, .header .one => .afterCommit
  | .retire, _ => .afterCommit
  | _, _ => r.phase

/-- The program in progress is finished with success (R135): a configuration header's commit point is
applied to the stored state (R56); a record's or a retirement's is not applied to the directory. -/
def finishProgram (s : State) (r : RunningJob) (page : Nat) (tag : Tag) (payload : Payload) :
    State × RunningJob :=
  let s := s.setPage page (programmedCell tag payload)
  match r.job.kind, payload, currentPage r with
  | .configWrite, .config _ sequence _, _ =>
    (applyConfigCommit s r sequence, { r with phase := .afterCommit })
  | .configWrite, _, _ => (s, r)
  | _, _, some d => (s, { markProgrammed r d with phase := phaseAfter r d })
  | _, _, none => (s, r)

/-- The program in progress is finished and fails (R57, R130, R135): no replacement is drawn. -/
def finishFailedProgram (s : State) (r : RunningJob) (page : Nat) : State :=
  match r.job.kind with
  | .configWrite => s.spoilPage page
  | _ => inWritePageToDirty (s.spoilPage page) page r.key

/-- The erase in progress is finished (R57, R113, R135). -/
def finishErase (s : State) (r : RunningJob) (page : Nat) (success : Bool) : State :=
  match r.job.kind with
  | .configWrite => if success then s.setPage page PageCell.blank else s.spoilPage page
  | _ => eraseHeadDone s success

/-- Step 1 of R135: the page operation in progress is finished. A read's report is not applied (log 20). -/
def finishOperation (s : State) (r : RunningJob) (success : Bool) : State × RunningJob :=
  match s.operation with
  | some (.program page tag payload) =>
    if success then finishProgram s r page tag payload else (finishFailedProgram s r page, r)
  | some (.erase page) => (finishErase s r page success, r)
  | _ => (s, r)

/-- A foreground job ends HALTED (R63, R135). -/
def completeHalted (s : State) (r : RunningJob) : State :=
  completeJob s r .halted (jobResult s r (r.phase == .afterCommit) false) none

/-- Steps 1 and 2 of R135. -/
def haltRunning (s : State) (success : Bool) : State :=
  match s.running with
  | none => s
  | some r =>
    match finishOperation s r success with
    | (s, r) => completeHalted s r

/-- Step 3 of R135: every queued job ends HALTED, in queue order. -/
def haltQueued (s : State) : State :=
  s.jobQueue.foldl (fun s j => completeHalted s (newRun j none)) s

/-- Every command on the Dispatch Queue completes HALTED, committed no (R159). -/
def haltDispatch (s : State) : State :=
  s.dispatchQueue.foldl (fun s p => post s p .halted {} none) s

/-- An accepted RESTART completes HALTED, and no restart follows (R160). -/
def haltRestart (s : State) : State :=
  match s.restarting with
  | some p => { post s p .halted {} none with restarting := none }
  | none => s

/-- A slot that is not FREE is released HALTED (R102). -/
def haltSlot (s : State) (i : SlotNo) : State :=
  if (s.slot i).isFree then s else releaseSlot s i .halted

/-- Every non-FREE slot is released HALTED (R102). -/
def haltSlots (s : State) : State := slotNumbers.foldl haltSlot s

/-- The power-fail halt in READY (R135, R159). -/
def haltReady (s : State) (success : Bool) : State :=
  let s := haltSlots (haltRestart (haltDispatch (haltQueued (haltRunning s success))))
  { s with
    device := .halted
    operation := none
    engine := .stopped
    running := none
    jobQueue := []
    dispatchQueue := []
    patrolTimer := none }

/-- PFW_N asserted (R135, R151, R159). `success` is how the program or erase in progress ends. -/
def execPfwNAssert (success : Bool) (s : State) : Host.Outcome State Fault Refusal :=
  .next
    (let t := { s with pfwAsserted := true }
    if s.isReady then haltReady t success
    else if s.isStarting then haltStartup t
    else t)

/-- PFW_N deasserted (R135, R149, R159): HALTED stays and nothing restarts. -/
def execPfwNDeassert (s : State) : Host.Outcome State Fault Refusal :=
  .next { s with pfwAsserted := false }

end Sys2Proof.Machine
end

