-- ==== Sys2Proof/Machine/Timers.lean ====
section
/-! DEFINITION. Timers.lean: lease expiry (R97, R98), the patrol timer (R146), RESTART and the end of its
drain (R160), and what an idle step does. -/

namespace Sys2Proof.Machine

/-- The lease of a slot expires (R98). -/
def expireLease (s : State) (i : SlotNo) : State := releaseSlot s i .lapsed

/-- LEASE_EXPIRY (R98). -/
def execLeaseExpiry (i : SlotNo) (s : State) : Host.Outcome State Fault Refusal :=
  .next (if s.isReady && leaseExpired s i then expireLease s i else s)

/-- The patrol timer's expiry time has come (R146). -/
def patrolExpired (s : State) : Bool := s.patrolTimer.any (· ≤ s.now)

/-- The patrol timer expires (R146): a step is due, and the timer runs on from its expiry. -/
def expirePatrol (s : State) : State :=
  { s with patrolDue := true, patrolTimer := s.patrolTimer.bind (patrolExpiryFrom s) }

/-- PATROL_TIMER_EXPIRY (R146). -/
def execPatrolTimerExpiry (s : State) : Host.Outcome State Fault Refusal :=
  .next (if s.isReady && patrolExpired s then expirePatrol s else s)

/-! ## RESTART -/

/-- Every foreground job has ended: the engine is FREE and the Job Queue is empty (R160). -/
def drained (s : State) : Bool := s.engine == .free && s.jobQueue.isEmpty

/-- A RESTART accepted (R160): no completion, and STARTING at once when nothing is to be drained
(log 12). -/
def acceptRestart (s : State) (p : Port) : State :=
  if drained s then enterStarting s .restart else { s with restarting := some p }

def restartBody (s : State) (p : Port) (_f : CommandFields) : State :=
  judge s p [(.noRight, !isMaintenance s p)] (acceptRestart s p)

/-- RESTART (R160). -/
def execRestart (s : State) : Host.Outcome State Fault Refusal :=
  .next (takeCommand s (·.code == codeRestart) restartBody)

/-- RESTART_DRAIN_END (R160). -/
def execRestartDrainEnd (s : State) : Host.Outcome State Fault Refusal :=
  .next (if s.isReady && s.restarting.isSome && drained s then enterStarting s .restart else s)

/-! ## Time -/

/-- The lowest slot whose lease may run no longer (R97). -/
def overdueSlot (s : State) : Option SlotNo := slotNumbers.find? fun i => leaseOverdue s i

/-- A step with no command waiting (log 2): in READY a lease that may run no longer expires, or else the
patrol timer whose time has come; otherwise a millisecond passes. -/
def idle (s : State) : State :=
  if s.isReady then
    match overdueSlot s with
    | some i => expireLease s i
    | none => if patrolExpired s then expirePatrol s else { s with now := s.now + 1 }
  else { s with now := s.now + 1 }

end Sys2Proof.Machine
end

