-- ==== Sys2Proof/Machine/Dispatch.lean ====
section
/-! DEFINITION. Dispatch.lean: one arm for each command of the table. -/

namespace Sys2Proof.Machine

/-- The effect of a command on everything but the queue of waiting commands. -/
def exec (i : Instr) (s : State) : Host.Outcome State Fault Refusal :=
  match i with
  | .powerOn => Sys2Proof.Machine.execPowerOn s
  | .resetNAssert => Sys2Proof.Machine.execResetNAssert s
  | .resetNDeassert => Sys2Proof.Machine.execResetNDeassert s
  | .powerLoss => Sys2Proof.Machine.execPowerLoss s
  | .pfwNAssert success => Sys2Proof.Machine.execPfwNAssert success s
  | .pfwNDeassert => Sys2Proof.Machine.execPfwNDeassert s
  | .configLoadPageRead outcome => Sys2Proof.Machine.execConfigLoadPageRead outcome s
  | .scanPageRead outcome => Sys2Proof.Machine.execScanPageRead outcome s
  | .invalidAccessByte port access => Sys2Proof.Machine.execInvalidAccessByte port access s
  | .windowWrite port place value => Sys2Proof.Machine.execWindowWrite port place value s
  | .launch port place tag => Sys2Proof.Machine.execLaunch port place tag s
  | .attentionCauseWrite port place value => Sys2Proof.Machine.execAttentionCauseWrite port place value s
  | .stickyFlagWrite port place value => Sys2Proof.Machine.execStickyFlagWrite port place value s
  | .lookup => Sys2Proof.Machine.execLookup s
  | .describe => Sys2Proof.Machine.execDescribe s
  | .list => Sys2Proof.Machine.execList s
  | .read => Sys2Proof.Machine.execRead s
  | .create => Sys2Proof.Machine.execCreate s
  | .write => Sys2Proof.Machine.execWrite s
  | .raise => Sys2Proof.Machine.execRaise s
  | .retire => Sys2Proof.Machine.execRetire s
  | .claimForUpdate => Sys2Proof.Machine.execClaimForUpdate s
  | .claimWithPreload => Sys2Proof.Machine.execClaimWithPreload s
  | .claimWithCreate => Sys2Proof.Machine.execClaimWithCreate s
  | .claimWithConfig maintEn => Sys2Proof.Machine.execClaimWithConfig maintEn s
  | .stage => Sys2Proof.Machine.execStage s
  | .fetch => Sys2Proof.Machine.execFetch s
  | .renew => Sys2Proof.Machine.execRenew s
  | .commit maintEn => Sys2Proof.Machine.execCommit maintEn s
  | .abandon => Sys2Proof.Machine.execAbandon s
  | .watch => Sys2Proof.Machine.execWatch s
  | .unwatch => Sys2Proof.Machine.execUnwatch s
  | .takeChanges => Sys2Proof.Machine.execTakeChanges s
  | .restrict => Sys2Proof.Machine.execRestrict s
  | .readConfig => Sys2Proof.Machine.execReadConfig s
  | .status => Sys2Proof.Machine.execStatus s
  | .detach => Sys2Proof.Machine.execDetach s
  | .restart => Sys2Proof.Machine.execRestart s
  | .restartDrainEnd => Sys2Proof.Machine.execRestartDrainEnd s
  | .leaseExpiry slot => Sys2Proof.Machine.execLeaseExpiry slot s
  | .patrolTimerExpiry => Sys2Proof.Machine.execPatrolTimerExpiry s
  | .jobSelect => Sys2Proof.Machine.execJobSelect s
  | .readJobPageRead outcome => Sys2Proof.Machine.execReadJobPageRead outcome s
  | .copySourcePageRead outcome => Sys2Proof.Machine.execCopySourcePageRead outcome s
  | .repairSourcePageRead outcome => Sys2Proof.Machine.execRepairSourcePageRead outcome s
  | .patrolPageRead outcome => Sys2Proof.Machine.execPatrolPageRead outcome s
  | .dataPageProgramDone success => Sys2Proof.Machine.execDataPageProgramDone success s
  | .commitPoint => Sys2Proof.Machine.execCommitPoint s
  | .copy2Installed => Sys2Proof.Machine.execCopy2Installed s
  | .retirementCommitPoint => Sys2Proof.Machine.execRetirementCommitPoint s
  | .repairPageProgramDone success => Sys2Proof.Machine.execRepairPageProgramDone success s
  | .eraseComplete success => Sys2Proof.Machine.execEraseComplete success s
  | .configPageOperationDone success => Sys2Proof.Machine.execConfigPageOperationDone success s
  | .configurationCommitPoint => Sys2Proof.Machine.execConfigurationCommitPoint s
  | .unknownCommandCode => Sys2Proof.Machine.execUnknownCommandCode s
  | .headerProgramFailure => Sys2Proof.Machine.execHeaderProgramFailure s

end Sys2Proof.Machine
end

