-- ==== Sys2Proof/Safety.lean ====
section
/-! DEFINITION. Safety.lean: the terms the statements use: what a taking leaves alone, what a host reads
after it, and the invariants of the part. -/

namespace Sys2Proof.Machine

/-! ## A command at the head of the Dispatch Queue -/

/-- The Record Controller is about to take the command of port `p`, whose parameter fields are `f`
(R173, R176). -/
structure Taking (s : State) (p : Port) (rest : List Port) (f : CommandFields) : Prop where
  ready : s.isReady = true
  noRestart : s.restarting = none
  head : s.dispatchQueue = p :: rest
  fields : f = commandFields (s.port p).window

/-- The namespace is open and the port holds the right in it (R39, R42). -/
def HoldsRight (s : State) (ns : Nat) (p : Port) (right : Rights → Bool) : Prop :=
  ∃ n, namespaceEntry s ns = some n ∧ n.isOpen = true ∧ right n.rights[p] = true

/-- The 32 bytes of a port's result area, 0x60 to 0x7F. -/
def resultArea (s : State) (p : Port) : List Byte := (s.port p).window.readRange 0x60 32

/-- The 64 bytes of a port's data area, 0x20 to 0x5F. -/
def dataArea (s : State) (p : Port) : List Byte := (s.port p).window.readRange 0x20 64

/-- What a posting to port `p` does and leaves alone (R177): the other ports; of the port all but its
window, state and COMPLETE; the command area; and the data area where no data is returned. -/
structure PortAnswered (s t : State) (p : Port) (returnsData : Bool) : Prop where
  others : ∀ q, q ≠ p → t.port q = s.port q
  unit : t.port p = { s.port p with window := (t.port p).window, state := .idle, complete := true }
  commandArea : ∀ a, a < 0x20 → (t.port p).window.read a = (s.port p).window.read a
  data : returnsData = false →
    ∀ a, 0x20 ≤ a → a < 0x60 → (t.port p).window.read a = (s.port p).window.read a

/-- The whole effect of a command that is taken and answered at once: the queue moves on, and the caller's
port is answered. -/
structure AnsweredOnly (s t : State) (p : Port) (rest : List Port) (returnsData : Bool) : Prop where
  frame : t = { s with ports := t.ports, dispatchQueue := rest }
  answer : PortAnswered s t p returnsData

/-- A taken command's port, waiting for its job (R176). -/
def activePorts (s : State) (p : Port) : Vector PortUnit 4 :=
  s.ports.set p { s.port p with state := .active }

/-- A data byte of a write transaction of port `p` goes to `offset` (R171). -/
def ByteAt (s : State) (p : Port) (place : LinkByte) (offset : Byte) : Prop :=
  linkAfter (s.port p).link place.before = .writing offset

/-- The lowest-numbered FREE slot (R91). -/
structure LowestFree (s : State) (i : SlotNo) : Prop where
  free : (s.slot i).state = .free
  lowest : ∀ j, j < i → (s.slot j).state ≠ .free

/-- The handle fields of a command name a current claim of the caller (R86). -/
structure CurrentHandle (s : State) (p : Port) (f : CommandFields) (i : SlotNo) : Prop where
  slot : f.slot = i.val
  claimed : (s.slot i).state ≠ .free
  generation : (s.slot i).generation = f.generation
  holder : (s.slot i).holder = some p

/-- The namespace of the record a slot targets is open; a configuration claim has none (R39, R93). -/
def TargetOpen (s : State) (i : SlotNo) : Prop :=
  ∀ k, (s.slot i).target = some (.record k) →
    ∃ n, namespaceEntry s k.ns = some n ∧ n.isOpen = true

/-- The role, lock and strap a configuration claim and its COMMIT call for at position 4 (R46). -/
def ConfigAllowed (s : State) (p : Port) (maintEn : Bool) : Prop :=
  (s.configState ≠ some .configFault ∧ isMaintenance s p = true ∧ storedLocked s = false) ∨
  (s.configState = some .configFault ∧ p = 0 ∧ maintEn = true)

/-- Position 4 lets a RESTRICT pass (R47): from a MAINTENANCE port, or from the target port itself with no
namespace-wide field touched. -/
def MayRestrict (s : State) (p : Port) (f : CommandFields) (n : NamespaceEntry) (target : Port) : Prop :=
  isMaintenance s p = true ∨
  (target = p ∧ f.quota = n.quota ∧ f.level = levelCode n.floor ∧
    f.mirror = (if n.mirrorRequired then 1 else 0) ∧ f.isOpen = (if n.isOpen then 1 else 0))

/-- Every field of a RESTRICT is narrower or equal (R48): no right the target does not hold, no larger
quota, no lower floor, and mirror required not cleared. -/
def NarrowerOrEqual (f : CommandFields) (n : NamespaceEntry) (target : Port) : Prop :=
  (∀ i, i < 5 → f.rights.testBit i = true → (rightsCode n.rights[target]).testBit i = true) ∧
  f.quota ≤ n.quota ∧ levelCode n.floor ≤ f.level ∧ (f.mirror = 1 ∨ n.mirrorRequired = false)

/-- What the release of the slots `freed` picks out does to the directory (R28, R30, R87, R102): the FORMING
entry of a create-claim is gone, the claim field that names a released claim is cleared, and every other
key stands as it was. -/
structure ClaimsReleased (s t : State) (freed : SlotNo → Prop) : Prop where
  released : ∀ i k e, freed i → (s.slot i).target = some (.record k) → s.entry k = some e →
    e.claim = some ⟨i, (s.slot i).generation⟩ →
    t.entry k =
      if (s.slot i).kind = some .create ∧ e.lifecycle = .forming then none
      else some { e with claim := none }
  kept : ∀ k, (∀ i e, freed i → (s.slot i).target = some (.record k) → s.entry k = some e →
      e.claim ≠ some ⟨i, (s.slot i).generation⟩) →
    t.entry k = s.entry k

/-! ## The rebuild (R153 to R156) -/

/-- The scan found a page with a readable tag of a kind, of the key at the version; `sequence` is the write
sequence number of its payload, where that is readable (R153, R154). -/
def HeadAt (scan : List (Nat × ScanRecord)) (k : Key) (version : Nat) (kind : TagKind) (page : Nat)
    (sequence : Option Nat) : Prop :=
  ∃ tag corrected payload, (page, .tagged tag corrected payload) ∈ scan ∧ tag.key = k ∧
    tag.version = version ∧ tag.kind = kind ∧ sequence = headSequence tag payload

/-- V (R154): the highest version among the key's HEADER and RETIRE pages whose tags are readable. -/
def HighestVersion (scan : List (Nat × ScanRecord)) (k : Key) (version : Nat) : Prop :=
  (∃ page n, HeadAt scan k version .header page n ∨ HeadAt scan k version .retire page n) ∧
  ∀ v page n, HeadAt scan k v .header page n ∨ HeadAt scan k v .retire page n → v ≤ version

/-- The kind at V is RETIRE (R154): where the kinds differ, a RETIRE page has the highest readable sequence
number, or none is readable. Equal sequence numbers of both kinds are left out (log 16). -/
def RetiredAt (scan : List (Nat × ScanRecord)) (k : Key) (version : Nat) : Prop :=
  (∃ page n, HeadAt scan k version .retire page n) ∧
  ∀ page m, HeadAt scan k version .header page (some m) →
    ∃ page' n, m < n ∧ HeadAt scan k version .retire page' (some n)

/-- The kind at V is HEADER (R154). -/
def RecordAt (scan : List (Nat × ScanRecord)) (k : Key) (version : Nat) : Prop :=
  (∃ page n, HeadAt scan k version .header page n) ∧
  ((∀ page n, ¬HeadAt scan k version .retire page n) ∨
    ∃ page m, HeadAt scan k version .header page (some m) ∧
      ∀ page' n, HeadAt scan k version .retire page' (some n) → n < m)

/-- A candidate for copy `c` of the key at V, whose payload reads as `h` (R155). -/
def Candidate (scan : List (Nat × ScanRecord)) (k : Key) (version : Nat) (c : CopyNo) (page : Nat)
    (tag : Tag) (payload : Option Payload) : Prop :=
  tag.key = k ∧ tag.version = version ∧ tag.kind = .header ∧ tag.copyNumber = copyNumber c ∧
    ∃ corrected, (page, .tagged tag corrected payload) ∈ scan

/-- The page a header lists at an index is the DATA page it should be, and reads as `bytes` (condition 3 of
R155). -/
def Listed (scan : List (Nat × ScanRecord)) (k : Key) (version : Nat) (c : CopyNo) (index page : Nat)
    (bytes : List Byte) : Prop :=
  ∃ tag corrected, (page, .tagged tag corrected (some (.data bytes))) ∈ scan ∧ tag.kind = .data ∧
    tag.key = k ∧ tag.version = version ∧ tag.copyNumber = copyNumber c ∧ tag.dataIndex = some index

/-- A valid candidate (conditions 1 to 4 of R155). -/
structure ValidCandidate (scan : List (Nat × ScanRecord)) (k : Key) (version : Nat) (c : CopyNo)
    (page : Nat) (h : HeaderPayload) : Prop where
  agrees : ∃ tag, Candidate scan k version c page tag (some (.header h)) ∧ h.key = tag.key ∧
    h.version = tag.version ∧ h.copyNumber = tag.copyNumber ∧ some h.cls = tag.cls ∧
    some h.level = tag.level
  length : 1 ≤ h.length ∧ h.length ≤ 1024
  count : h.dataPageCount = (h.length + 63) / 64 ∧ h.dataPages.length = h.dataPageCount
  once : h.dataPages.Nodup
  content : ∃ contents : List (List Byte), contents.length = h.dataPages.length ∧
    (∀ index p bytes, h.dataPages[index]? = some p → contents[index]? = some bytes →
      Listed scan k version c index p bytes) ∧
    crc32 (contents.flatten.take h.length) = h.crc

/-- The entry's class, level, owner and length are a header payload's (R156). -/
def TakesAttributes (e : Entry) (h : HeaderPayload) : Prop :=
  e.cls = h.cls ∧ e.level = h.level ∧ e.owner = h.owner ∧ e.length = h.length

/-- The page's readable tag is that of the DATA page at the index of the copy (R24, R156). -/
def BearsTags (scan : List (Nat × ScanRecord)) (k : Key) (version : Nat) (c : CopyNo) (index page : Nat) :
    Prop :=
  ∃ tag corrected payload, (page, .tagged tag corrected payload) ∈ scan ∧ tag.kind = .data ∧
    tag.key = k ∧ tag.version = version ∧ tag.copyNumber = copyNumber c ∧ tag.dataIndex = some index

/-- How many pages of the key among those listed have a scan record that shows CORRECTED (R156). -/
def pagesCorrected (scan : List (Nat × ScanRecord)) (k : Key) (pages : List Nat) : Nat :=
  (scan.filter fun x => match x.2 with
    | .tagged tag true _ => tag.key == k && pages.contains x.1
    | _ => false).length

/-- The invalid descriptor of copy `c` of a DAMAGED record (R24, R156): it names the candidate of the highest
readable sequence number, or, where no payload reads, that of the lowest page number. Its list is the readable
one, without the pages that do not bear the tags of their places, or has, for each data index, the lowest page
that bears the tags. -/
structure InvalidCopy (scan : List (Nat × ScanRecord)) (e : Entry) (c : CopyNo) (d : CopyDescriptor) :
    Prop where
  invalid : d.valid = false
  readable : ∀ page tag h, Candidate scan e.key e.version c page tag (some (.header h)) →
    ∃ tag' h', Candidate scan e.key e.version c d.header tag' (some (.header h')) ∧
      h.sequence ≤ h'.sequence ∧
      ∀ p, p ∈ d.dataPages ↔ ∃ index, h'.dataPages[index]? = some p ∧
        BearsTags scan e.key e.version c index p
  unreadable : (∀ page tag h, ¬Candidate scan e.key e.version c page tag (some (.header h))) →
    (∃ tag payload, Candidate scan e.key e.version c d.header tag payload) ∧
    (∀ page tag payload, Candidate scan e.key e.version c page tag payload → d.header ≤ page) ∧
    ∀ p, p ∈ d.dataPages ↔ ∃ index, index ≤ 15 ∧ BearsTags scan e.key e.version c index p ∧
      ∀ q, BearsTags scan e.key e.version c index q → p ≤ q

/-- The copies of a rebuilt entry (R155, R156): the valid candidate of the highest sequence number for each copy
number, copy 2's not listing a page of copy 1's, and none for a SINGLE record; copy 1's payload, or else copy
2's, gives the attributes; a MIRRORED copy 2 alone makes the record DEGRADED; without a chosen copy it is DAMAGED,
with an invalid descriptor for each copy number that has a candidate. -/
structure RebuiltCopies (scan : List (Nat × ScanRecord)) (e : Entry) : Prop where
  one : e.copyValid .one = true ↔ ∃ page h, ValidCandidate scan e.key e.version .one page h
  chosenOne : ∀ d, e.copy1 = some d → d.valid = true →
    ∃ h, ValidCandidate scan e.key e.version .one d.header h ∧ h.dataPages = d.dataPages ∧
      TakesAttributes e h ∧
      ∀ page h', ValidCandidate scan e.key e.version .one page h' → h'.sequence ≤ h.sequence
  chosenTwo : ∀ d, e.copy2 = some d → d.valid = true → e.cls = .mirrored ∧
    ∃ h, ValidCandidate scan e.key e.version .two d.header h ∧ h.dataPages = d.dataPages ∧
      (e.copyValid .one = false → TakesAttributes e h) ∧
      (∀ p ∈ h.dataPages, p ∉ descriptorPages e.copy1) ∧
      ∀ page h', ValidCandidate scan e.key e.version .two page h' →
        (∀ p ∈ h'.dataPages, p ∉ descriptorPages e.copy1) → h'.sequence ≤ h.sequence
  two : ∀ d page h, e.copy1 = some d → d.valid = true → e.cls = .mirrored →
    ValidCandidate scan e.key e.version .two page h →
    (∀ p ∈ h.dataPages, p ∉ descriptorPages e.copy1) → e.copyValid .two = true
  lone : ∀ page h, (∀ p h', ¬ValidCandidate scan e.key e.version .one p h') →
    ValidCandidate scan e.key e.version .two page h →
    (∀ p h', ValidCandidate scan e.key e.version .two p h' → h.sequence ≤ h'.sequence →
      h'.cls = .mirrored) →
    e.copyValid .two = true ∧ e.integrity = .degraded ∧
      ∃ p h', ValidCandidate scan e.key e.version .two p h' ∧ h.sequence ≤ h'.sequence ∧
        TakesAttributes e h'
  absent : e.integrity ≠ .damaged → ∀ c, e.copyValid c = false → e.copy c = none
  damaged : e.integrity = .damaged → ∀ c,
    (e.copy c = none → ∀ page tag payload, ¬Candidate scan e.key e.version c page tag payload) ∧
      ∀ d, e.copy c = some d → InvalidCopy scan e c d
  corrections : ∀ c d, e.copy c = some d →
    d.corrections = min 17 (pagesCorrected scan e.key (d.header :: d.dataPages))

/-! ## Refusals (R44) -/

/-- Of conditions in the order of the acceptance checks, the first that holds gives the code (R44). -/
def FirstFailing : List (Completion × Prop) → Completion → Prop
  | [], _ => False
  | (code, fails) :: later, refusal =>
    fails ∧ refusal = code ∨ ¬fails ∧ FirstFailing later refusal

/-- The key has an entry with a property. -/
def Named (s : State) (k : Key) (property : Entry → Prop) : Prop :=
  ∃ e, s.entry k = some e ∧ property e

/-- The pages of a write (R7, R65). -/
def writeNeed (cls : RecordClass) (length : Nat) : Nat :=
  (match cls with | .single => 1 | .mirrored => 2) * (1 + (length + 63) / 64)

/-- The reservation test fails for a need (R116). -/
def LacksSpace (s : State) (need : Nat) : Prop :=
  s.erased.length + s.eraseList.length < s.reservation + 34 + need

/-- The port is neither the record's owner nor a MAINTENANCE port (R8). -/
def FailsOwnerTest (s : State) (p : Port) (e : Entry) : Prop :=
  e.owner ≠ some p ∧ isMaintenance s p = false

/-- The update column of R10 refuses. -/
def UpdateBarred (s : State) (p : Port) (e : Entry) : Prop :=
  e.level = .frozen ∨ e.level = .permanent ∨ e.level = .owned ∧ FailsOwnerTest s p e

/-- The RETIRE column of R10 refuses, and the RAISE column below PERMANENT, which R78 refuses earlier. -/
def RetireBarred (s : State) (p : Port) (e : Entry) : Prop :=
  e.level = .permanent ∨ (e.level = .owned ∨ e.level = .frozen) ∧ FailsOwnerTest s p e

/-- A non-zero expected version differs from the version that stands (R5). -/
def Differs (expected present : Nat) : Prop := expected ≠ 0 ∧ expected ≠ present

/-- A write or a retirement of the record is EXHAUSTED (R4, R65). -/
def Exhausted (s : State) (e : Entry) : Prop := 4294967295 ≤ e.version ∨ s.sequenceCounter = none

/-- A first write under the key is EXHAUSTED (R4, R65). -/
def CreateExhausted (s : State) (k : Key) : Prop :=
  (∃ r, s.retirement k = some r ∧ 4294967295 ≤ r.version) ∨ s.sequenceCounter = none

/-- No claim can be granted to the port (R88). -/
def NoClaimLeft (s : State) (p : Port) : Prop :=
  (∀ i, (s.slot i).state ≠ .free) ∨
    s.effective.portSettings[p].claimLimit ≤ claimsHeldBy s p

/-- The namespace has no place left (R27). -/
def NoQuotaLeft (s : State) (ns : Nat) : Prop :=
  ∃ n, namespaceEntry s ns = some n ∧ n.quota ≤ namespaceCount s ns

/-- The checks of LOOKUP and DESCRIBE (R32). -/
def reportRefusals (s : State) (p : Port) (f : CommandFields) : List (Completion × Prop) :=
  [(.badParam, 7 < f.ns), (.noRight, ¬HoldsRight s f.ns p (·.read)),
    (.notFound, s.entry f.key = none)]

/-- The checks of READ (R66). -/
def readRefusals (s : State) (p : Port) (f : CommandFields) : List (Completion × Prop) :=
  [(.badParam, 7 < f.ns ∨ 1023 < f.offset ∨ f.length = 0 ∨ 64 < f.length ∨
      Named s f.key fun e => e.version ≠ 0 ∧ e.length ≠ 0 ∧ e.length ≤ f.offset),
    (.noRight, ¬HoldsRight s f.ns p (·.read)),
    (.notFound, s.entry f.key = none ∨ Named s f.key fun e => e.version = 0),
    (.damaged, Named s f.key fun e => e.integrity = .damaged)]

/-- The checks of CREATE (R71). -/
def createRefusals (s : State) (p : Port) (f : CommandFields) : List (Completion × Prop) :=
  [(.badParam, 7 < f.ns ∨ classOf f.cls = none ∨ levelOf f.level = none ∨ f.length = 0 ∨
      64 < f.length),
    (.noRight, ¬HoldsRight s f.ns p (·.create)),
    (.keyExists, s.entry f.key ≠ none),
    (.directoryFull, 512 ≤ s.directory.length),
    (.quotaFull, NoQuotaLeft s f.ns),
    (.noSpace, ∃ n cls, namespaceEntry s f.ns = some n ∧ classOf f.cls = some cls ∧
      LacksSpace s (writeNeed (if n.mirrorRequired then .mirrored else cls) f.length)),
    (.exhausted, CreateExhausted s f.key)]

/-- The checks of WRITE (R75). -/
def writeRefusals (s : State) (p : Port) (f : CommandFields) : List (Completion × Prop) :=
  [(.badParam, 7 < f.ns ∨ f.length = 0 ∨ 64 < f.length),
    (.noRight, ¬HoldsRight s f.ns p (·.write)),
    (.notFound, s.entry f.key = none),
    (.busyRecord, Named s f.key fun e => e.lifecycle ≠ .live),
    (.claimed, Named s f.key fun e => e.claim ≠ none),
    (.levelProtected, Named s f.key (UpdateBarred s p)),
    (.stale, Named s f.key fun e => Differs f.expected e.version),
    (.noSpace, Named s f.key fun e => LacksSpace s (writeNeed e.cls f.length)),
    (.exhausted, Named s f.key (Exhausted s))]

/-- The checks of RAISE (R78). -/
def raiseRefusals (s : State) (p : Port) (f : CommandFields) : List (Completion × Prop) :=
  [(.badParam, 7 < f.ns ∨ levelOf f.level = none ∨
      Named s f.key fun e => f.level ≤ levelCode e.level),
    (.noRight, ¬HoldsRight s f.ns p (·.write)),
    (.notFound, s.entry f.key = none),
    (.busyRecord, Named s f.key fun e => e.lifecycle ≠ .live),
    (.levelProtected, Named s f.key (RetireBarred s p)),
    (.damaged, Named s f.key fun e => e.integrity = .damaged),
    (.noSpace, Named s f.key fun e => LacksSpace s (writeNeed e.cls e.length)),
    (.exhausted, Named s f.key (Exhausted s))]

/-- The checks of RETIRE (R81). -/
def retireRefusals (s : State) (p : Port) (f : CommandFields) : List (Completion × Prop) :=
  [(.badParam, 7 < f.ns),
    (.noRight, ¬HoldsRight s f.ns p (·.retire)),
    (.notFound, s.entry f.key = none),
    (.busyRecord, Named s f.key fun e => e.lifecycle ≠ .live),
    (.claimed, Named s f.key fun e => e.claim ≠ none),
    (.levelProtected, Named s f.key (RetireBarred s p)),
    (.stale, Named s f.key fun e => Differs f.expected e.version),
    (.noSpace, LacksSpace s 1),
    (.exhausted, Named s f.key (Exhausted s))]

/-- The checks of a CLAIM for update (R89); with PRELOAD the integrity is checked too. -/
def updateClaimRefusals (s : State) (p : Port) (f : CommandFields) : List (Completion × Prop) :=
  [(.badParam, 7 < f.ns),
    (.noRight, ¬HoldsRight s f.ns p (·.write)),
    (.notFound, s.entry f.key = none),
    (.busyRecord, Named s f.key fun e => e.lifecycle ≠ .live),
    (.claimed, Named s f.key fun e => e.claim ≠ none),
    (.levelProtected, Named s f.key (UpdateBarred s p)),
    (.damaged, f.preload = true ∧ Named s f.key fun e => e.integrity = .damaged),
    (.stale, Named s f.key fun e => Differs f.expected e.version),
    (.claimsFull, NoClaimLeft s p)]

/-- The checks of a CLAIM with CREATE (R88, R90). -/
def createClaimRefusals (s : State) (p : Port) (f : CommandFields) : List (Completion × Prop) :=
  [(.badParam, 7 < f.ns ∨ f.preload = true ∨ classOf f.cls = none),
    (.noRight, ¬HoldsRight s f.ns p (·.create)),
    (.keyExists, s.entry f.key ≠ none),
    (.claimsFull, NoClaimLeft s p),
    (.directoryFull, 512 ≤ s.directory.length),
    (.quotaFull, NoQuotaLeft s f.ns)]

/-- Position 4 for a configuration claim and its COMMIT (R46). -/
def configRefusals (s : State) (p : Port) (maintEn : Bool) : List (Completion × Prop) :=
  [(.noRight, s.configState ≠ some .configFault ∧ isMaintenance s p = false ∨
      s.configState = some .configFault ∧ ¬(p = 0 ∧ maintEn = true)),
    (.locked, s.configState ≠ some .configFault ∧ storedLocked s = true)]

/-- The checks of a CLAIM with CONFIG (R54). -/
def configClaimRefusals (s : State) (p : Port) (f : CommandFields) (maintEn : Bool) :
    List (Completion × Prop) :=
  [(.badParam, f.preload = true ∨ f.create = true)] ++ configRefusals s p maintEn ++
    [(.claimed, ∃ i, (s.slot i).state ≠ .free ∧ (s.slot i).target = some .config),
      (.stale, Differs f.expected s.storedSequence), (.claimsFull, NoClaimLeft s p)]

/-- Position 8 for a handle (R86). -/
def handleRefusals (s : State) (p : Port) (f : CommandFields) : List (Completion × Prop) :=
  [(.claimLapsed, ∃ i : SlotNo, f.slot = i.val ∧ (s.slot i).state = .free ∧
      (s.slot i).lapsed = some (f.generation, p)),
    (.noClaim, ∀ i, ¬CurrentHandle s p f i)]

/-- Position 5 for a handle: its record's namespace is closed (R39, R45). -/
def targetRefusals (s : State) (p : Port) (f : CommandFields) : List (Completion × Prop) :=
  [(.noRight, ∃ i, CurrentHandle s p f i ∧ ¬TargetOpen s i)]

/-- The checks of STAGE and FETCH (R93, R94). -/
def stagingRefusals (s : State) (p : Port) (f : CommandFields) : List (Completion × Prop) :=
  [(.badParam, 7 < f.slot ∨ 1023 < f.offset ∨ f.length = 0 ∨ 64 < f.length ∨
      1024 < f.offset + f.length)] ++ targetRefusals s p f ++ handleRefusals s p f

/-- The checks of the COMMIT of a claim on the record `k`, at slot `i` (R99). -/
def commitRefusals (s : State) (p : Port) (f : CommandFields) (i : SlotNo) (k : Key) (length : Nat) :
    List (Completion × Prop) :=
  [(.badParam, 1024 < f.length ∨ 4 < f.level ∨ length = 0 ∨
      (s.slot i).kind ≠ some .create ∧ f.level ≠ 0 ∧ Named s k fun e => f.level < levelCode e.level),
    (.noRight, ¬HoldsRight s k.ns p (·.write)),
    (.busyRecord, Named s k fun e => e.lifecycle = .writing),
    (.levelProtected, (s.slot i).kind ≠ some .create ∧ Named s k (UpdateBarred s p)),
    (.noSpace, Named s k fun e => LacksSpace s (writeNeed e.cls length)),
    (.exhausted, (s.slot i).kind = some .create ∧ CreateExhausted s k ∨
      (s.slot i).kind ≠ some .create ∧ Named s k (Exhausted s))]

/-! ## Engine events -/

/-- The Repair List gives the engine no job (R121, R141): it is empty, or its head waits for pages. -/
def NoRepair (s : State) : Prop :=
  s.repairList = [] ∨
  (s.repairList ≠ [] ∧ s.erased.length + s.eraseList.length < s.reservation) ∨
  ∃ x others e, s.repairList = x :: others ∧ s.entry x.key = some e ∧ x.superseded = false ∧
    e.version = x.version ∧ e.integrity ≠ .damaged ∧
    s.erased.length + s.eraseList.length < s.reservation + (1 + (e.length + 63) / 64)

/-- Patrol does not pass the entry over (R147). -/
def Visited (e : Entry) : Prop := e.lifecycle = .live ∧ e.integrity ≠ .damaged

/-- The record a PATROL STEP visits (R147): the first in key order above the cursor that is not passed
over, or, where there is none or the cursor is absent, the first of all. -/
def PatrolNext (s : State) (e : Entry) : Prop :=
  e ∈ s.directory ∧ Visited e ∧
  ((∃ cursor, s.patrolCursor = some cursor ∧ cursor.before e.key = true ∧
      ∀ x ∈ s.directory, Visited x → cursor.before x.key = true → x.key.before e.key = false) ∨
    ((∀ cursor, s.patrolCursor = some cursor →
        ∀ x ∈ s.directory, Visited x → cursor.before x.key = false) ∧
      ∀ x ∈ s.directory, Visited x → x.key.before e.key = false))

/-- A page of a whole-copy read makes its copy faulty (R79, R92, R143): it reads UNCORRECTABLE, or it is a
header that disagrees with the entry or the descriptor, or it is the last and the CRC does not match. -/
def SourceFails (s : State) (e : Entry) (d : CopyDescriptor) (c : CopyNo)
    (header : Option HeaderPayload) (page : Nat) (left : List Nat) (got : List Byte)
    (o : ReadOutcome) : Prop :=
  (s.page page ≠ PageCell.blank ∧ o.tag ≠ .corrected ∧ o.payload ≠ .corrected ∧
    (o.tag = .uncorrectable ∨ o.payload = .uncorrectable)) ∨
  (∃ tag h, s.page page = ⟨.holds tag, .holds (.header h)⟩ ∧ o = ⟨.clean, .clean⟩ ∧ header = none ∧
    ¬(h.key = e.key ∧ h.version = e.version ∧ h.copyNumber = copyNumber c ∧
      h.dataPages = d.dataPages)) ∨
  (∃ tag bytes h, s.page page = ⟨.holds tag, .holds (.data bytes)⟩ ∧ o = ⟨.clean, .clean⟩ ∧
    header = some h ∧ left = [] ∧ crc32 ((got ++ bytes).take e.length) ≠ h.crc)

/-- The entry after its copy `c`, described by `d`, has been found faulty (R17, R18, R25). -/
def faultyEntry (e : Entry) (c : CopyNo) (d : CopyDescriptor) : Entry :=
  (e.setCopy c (some { d with valid := false })).judged

/-- The notices of a fault (R18, R166): a record that becomes DAMAGED is notified, with no causing port. -/
def FaultNotified (s t : State) (k : Key) (e e' : Entry) : Prop :=
  ∀ p, t.changes p =
    if e'.integrity = .damaged ∧ e.integrity ≠ .damaged ∧ delivered s.watches k none p = true
    then deliver (s.changes p) ⟨k, .damaged, e.version⟩ else s.changes p

/-- The Retirement List `l`, LIVE and the Erase List, settled at the end of a job (R115): an entry whose
outstanding count is 0 is released, its header going from LIVE to the Erase List tail with its key and its
count to 1; a released one whose count is 0 is removed; nothing else changes. Several headers go in the order
of the list (log 27). -/
structure Settled (l : List RetirementEntry) (live : List Nat) (dirty : List (Nat × Option Key))
    (t : State) : Prop where
  list : t.retirementList = l.filterMap fun x =>
    if x.outstanding = 0 then
      if x.released then none else some { x with released := true, outstanding := 1 }
    else some x
  live : t.live = live.filter fun n =>
    !l.any fun x => x.outstanding == 0 && !x.released && x.header == n
  dirty : t.eraseList = dirty ++
    (l.filter fun x => x.outstanding == 0 && !x.released).map fun x => (x.header, some x.key)

/-- The Retirement List after an erase of a page that bears the key `k` (R113, R115): the outstanding count of
the key's entry falls by one. -/
def loweredFor (k : Option Key) (l : List RetirementEntry) : List RetirementEntry :=
  l.map fun x => if k = some x.key then { x with outstanding := x.outstanding - 1 } else x

/-- The program in progress of the running job's next page (R104, R122, R127). -/
structure Programming (s : State) (r : RunningJob) (d : DrawnPage) (tag : Tag) (payload : Payload) :
    Prop where
  ready : s.isReady = true
  running : s.running = some r
  stage : r.stage = .programming
  page : currentPage r = some d
  operation : s.operation = some (.program d.page tag payload)

/-- The whole-copy read in progress: copy `c`, described by `d`, of the record `e` (R125). -/
structure Sourcing (s : State) (r : RunningJob) (e : Entry) (d : CopyDescriptor) (c : CopyNo)
    (header : Option HeaderPayload) (page : Nat) (left : List Nat) (got : List Byte) : Prop where
  ready : s.isReady = true
  running : s.running = some r
  stage : r.stage = .source c header (page :: left) got
  entry : s.entry r.key = some e
  descriptor : e.copy c = some d
  operation : s.operation = some (.read page)

/-- The event that ends a page read of a whole copy, by the kind of the job (R125, R143, R148). -/
def SourceEvent (r : RunningJob) (o : ReadOutcome) (command : Instr) : Prop :=
  command = .copySourcePageRead o ∧ (r.job.kind = .preload ∨ r.job.kind = .writeCopy) ∨
  command = .repairSourcePageRead o ∧ r.job.kind = .repair ∨
  command = .patrolPageRead o ∧ r.job.kind = .patrol

/-- An event at which a write can program no further page of copy `c`: its third failed program, ARRAY_FAULT
(R130), or a header to program while the counter is exhausted, EXHAUSTED (R124). -/
def WriteEnds (s : State) (r : RunningJob) (d : DrawnPage) (c : CopyNo) (command : Instr)
    (refusal : Completion) : Prop :=
  r.failures = 2 ∧ refusal = .arrayFault ∧
    (command = .dataPageProgramDone false ∧ (∃ i, d.role = .data c i) ∨
      command = .headerProgramFailure ∧ d.role = .header c) ∨
  s.sequenceCounter = none ∧ refusal = .exhausted ∧
    (command = .dataPageProgramDone true ∧ (∃ i, d.role = .data c i) ∧
        (∃ d', currentPage (markProgrammed r d) = some d' ∧ d'.role = .header c) ∨
      command = .headerProgramFailure ∧ d.role = .header c ∧ r.failures < 2 ∧ s.erased ≠ [])

/-- The fields a CREATE, WRITE, RAISE or COMMIT reports at its job's end (R63, R73, R79, R101): `version` is the
version installed, 0 where committed is no. That the level of an uncommitted RAISE or COMMIT is 0 is log 14. -/
def Reports (s : State) (r : RunningJob) (committed copyPending : Bool) (version : Nat)
    (result : Result) : Prop :=
  r.job.cause = some .write ∧ result = { committed, copyPending, version } ∨
  r.job.cause = some .create ∧ result =
    { committed, copyPending, version, cls := classCode r.job.params.cls,
      level := levelCode r.job.params.level } ∨
  r.job.cause = some .raise ∧ result =
    { committed, copyPending, version, level := if committed then levelCode r.job.params.level else 0 } ∨
  (r.job.cause = some .commitRecord ∨ r.job.cause = some .commitCreate) ∧
    ∃ hd, r.job.handle = some hd ∧ result =
      { committed, copyPending, version, base := (s.slot hd.slot).base,
        cls := classCode r.job.params.cls, length := r.job.params.length,
        level := if committed then levelCode r.job.params.level else 0 }

/-- The claim of a COMMIT's job (R100): the handle that the entry's claim field and the slot have. -/
def ClaimOf (s : State) (k : Key) (e : Entry) (hd : Handle) : Prop :=
  e.claim = some hd ∧ (s.slot hd.slot).generation = hd.generation ∧
    (s.slot hd.slot).target = some (.record k)

/-- The Claim Table after the slot of a job is released, COMMITTED or FAILED (R87). -/
def released (s : State) (hd : Handle) : Vector Slot 8 :=
  s.claims.set hd.slot { s.slot hd.slot with state := .free, lease := none, lapsed := none }

/-- The job has ended (R119, R122): no record of it, no page operation, the engine FREE. -/
structure JobEnded (t : State) : Prop where
  running : t.running = none
  operation : t.operation = none
  engine : t.engine = .free

/-- A CREATE, WRITE, RAISE or COMMIT whose job `r` on the record `e` ends before its commit point (R15, R28, R63,
R73, R87, R101, R129): the caller at `p` is answered `refusal`, committed no; the job's pages go to the Erase List
with the key; a committed record is as it stood, LIVE, and the entry of a first write is gone; a COMMIT's slot is
released FAILED and the claim field cleared. A version 0 entry that the start-up gave copies (log 30) leaves their
pages to the Erase List (R110). -/
structure WriteUndone (s t : State) (r : RunningJob) (e : Entry) (p : Port) (refusal : Completion) :
    Prop where
  ended : JobEnded t
  answer : PortAnswered s t p false
  result : ∀ result, Reports s r false false 0 result →
    resultArea t p = resultBytes (s.port p).go refusal result
  inWrite : t.inWrite = []
  dirty : ∀ page ∈ s.inWrite, (page, some r.key) ∈ t.eraseList
  notices : t.changeSets = s.changeSets
  repairs : t.repairList = s.repairList
  moved : e.version = 0 → ∀ page ∈ entryPages e, page ∉ t.live ∧ (page, some r.key) ∈ t.eraseList
  unclaimed : r.job.handle = none → t.claims = s.claims ∧
    (e.version ≠ 0 → t.entry r.key = some { e with lifecycle := .live }) ∧
    (e.version = 0 → t.directory = s.directory.filter fun x => x.key ≠ r.key)
  claimed : ∀ hd, r.job.handle = some hd → ClaimOf s r.key e hd → t.claims = released s hd ∧
    (e.version ≠ 0 → t.entry r.key = some { e with lifecycle := .live, claim := none }) ∧
    (e.version = 0 → t.directory = s.directory.filter fun x => x.key ≠ r.key)

/-- A CREATE, WRITE, RAISE or COMMIT whose job ends after its commit point with copy 2 lost (R29, R63, R87, R101,
R117, R129): DONE, committed yes, copy pending, with version `v`; copy 2's pages go to the Erase List; the record
is LIVE and DEGRADED; a LOST entry for copy 2 is on the Repair List, unless a running entry of the pair keeps it
off (R138); a COMMIT's slot is released COMMITTED. -/
structure CopyPending (s t : State) (r : RunningJob) (e : Entry) (p : Port) (v : Nat) : Prop where
  ended : JobEnded t
  answer : PortAnswered s t p false
  result : ∀ result, Reports s r true true v result →
    resultArea t p = resultBytes (s.port p).go .done result
  inWrite : t.inWrite = []
  dirty : ∀ page ∈ s.inWrite, (page, some r.key) ∈ t.eraseList
  notices : t.changeSets = s.changeSets
  lost : (∀ x ∈ s.repairList, x.isFor r.key .two = true → x.running = false) →
    ⟨r.key, v, .two, .lost, false, false⟩ ∈ t.repairList
  unclaimed : r.job.handle = none → t.claims = s.claims ∧
    t.entry r.key = some { e with lifecycle := .live, integrity := .degraded }
  claimed : ∀ hd, r.job.handle = some hd → ClaimOf s r.key e hd → t.claims = released s hd ∧
    t.entry r.key = some { e with lifecycle := .live, integrity := .degraded, claim := none }

/-- A RETIRE of the record `e` under `k` whose job ends before its commit point (R16, R63, R82, R131): the caller is
answered `refusal`, committed no; the job's page goes to the Erase List; the record is as it stood, LIVE. -/
structure RetireUndone (s t : State) (k : Key) (e : Entry) (p : Port) (refusal : Completion) : Prop where
  ended : JobEnded t
  answer : PortAnswered s t p false
  result : resultArea t p = resultBytes (s.port p).go refusal {}
  inWrite : t.inWrite = []
  dirty : ∀ page ∈ s.inWrite, (page, some k) ∈ t.eraseList
  entry : t.entry k = some { e with lifecycle := .live }
  others : ∀ k', k' ≠ k → t.entry k' = s.entry k'
  notices : t.changeSets = s.changeSets

/-- A REPAIR that ends without a programmed copy (R144, R145): its pages go to the Erase List; nothing else of the
record changes; its Repair List entry is gone, and the pair's entry then, if any, is a LOST one that waits. -/
structure RepairUndone (s t : State) (r : RunningJob) : Prop where
  ended : JobEnded t
  inWrite : t.inWrite = []
  dirty : ∀ page ∈ s.inWrite, (page, some r.key) ∈ t.eraseList
  directory : t.directory = s.directory
  ports : t.ports = s.ports
  notices : t.changeSets = s.changeSets
  repairs : ∀ y ∈ t.repairList, y.isFor r.key r.job.params.copy = true →
    y.cause = .lost ∧ y.running = false

/-- A job that cannot go on ends by its kind and its phase (R117, R124, R129 to R131, R144). -/
structure JobFails (s t : State) (r : RunningJob) (refusal : Completion) : Prop where
  undone : ∀ p e, r.job.kind = .writeCopy → r.phase = .beforeCommit → r.job.port = some p →
    s.entry r.key = some e → WriteUndone s t r e p refusal
  pending : ∀ p e v, r.job.kind = .writeCopy → r.phase = .afterCommit → r.job.port = some p →
    s.entry r.key = some e → r.versionWritten = some v → CopyPending s t r e p v
  retirement : ∀ p e, r.job.kind = .retire → r.phase = .beforeCommit → r.job.port = some p →
    r.job.cause = some .retire → r.job.handle = none → s.entry r.key = some e →
    RetireUndone s t r.key e p refusal
  repair : r.job.kind = .repair → RepairUndone s t r

/-! ## The power-fail halt -/

/-- The command of a port has completed HALTED (R63, R135, R159). -/
structure CompletedHalted (s t : State) (p : Port) (committed : Bool) : Prop where
  idle : (t.port p).state = .idle
  complete : (t.port p).complete = true
  tag : windowRead t p 0x60 = (s.port p).go
  code : windowRead t p 0x61 = 0x02
  flags : windowRead t p 0x62 = if committed then 1 else 0

/-- The operation in progress is the program that ends with the commit point of the job (R56, R128, R131). -/
def AtCommitPoint (s : State) (r : RunningJob) : Prop :=
  ∃ page tag payload, s.operation = some (.program page tag payload) ∧
    (r.job.kind = .writeCopy ∧ (∃ d, currentPage r = some d ∧ d.role = .header .one) ∨
      r.job.kind = .retire ∧ (∃ d, currentPage r = some d) ∨
      r.job.kind = .configWrite ∧ ∃ n sequence crc, payload = .config n sequence crc)

/-- The pools and the Retirement List stand as they were (R108, R135). -/
structure PoolsKept (s t : State) : Prop where
  erased : t.erased = s.erased
  inWrite : t.inWrite = s.inWrite
  live : t.live = s.live
  dirty : t.eraseList = s.eraseList
  bad : t.bad = s.bad
  retirements : t.retirementList = s.retirementList

/-! ## What the Array Engine leaves alone -/

/-- What no event of the Array Engine touches: the pins, the Start-up Unit's state but for the stored
configuration, the effective configuration, the watches, the Dispatch Queue, the patrol timer, the clock
and the commands that wait. -/
def EngineFrame (s t : State) : Prop :=
  t = { s with
    storedImage := t.storedImage, storedSequence := t.storedSequence,
    copyStateA := t.copyStateA, copyStateB := t.copyStateB, directory := t.directory,
    claims := t.claims, changeSets := t.changeSets, ports := t.ports, array := t.array,
    operation := t.operation, engine := t.engine, running := t.running, jobQueue := t.jobQueue,
    erased := t.erased, inWrite := t.inWrite, live := t.live, eraseList := t.eraseList, bad := t.bad,
    retirementList := t.retirementList, reservation := t.reservation,
    sequenceCounter := t.sequenceCounter, repairList := t.repairList,
    patrolCursor := t.patrolCursor, patrolDue := t.patrolDue, freeIndex := t.freeIndex }

/-! ## Entry to STARTING -/

/-- Every volatile structure has its value at entry to STARTING (R150), and the array its content. -/
structure EntersStarting (s t : State) (cause : ResetCause) : Prop where
  device : t.device = .starting
  recorded : t.resetCause = cause
  phase : t.startup = .configLoad []
  firstRead : t.operation = some (.read 0)
  array : t.array = s.array
  windows : ∀ p offset, windowRead t p offset =
    if offset = 0x85 then 1 else if offset = 0x86 then BitVec.ofNat 8 (resetCauseCode cause) else 0
  claims : ∀ i, t.slot i = Slot.reset
  watches : t.watches = []
  changes : ∀ p, t.changes p = ⟨[], false⟩
  queues : t.dispatchQueue = [] ∧ t.restarting = none ∧ t.jobQueue = []
  engine : t.engine = .stopped ∧ t.running = none ∧ t.reservation = 0
  pools : t.erased = [] ∧ t.inWrite = [] ∧ t.live = [] ∧ t.eraseList = [] ∧ t.bad = []
  lists : t.directory = [] ∧ t.retirementList = [] ∧ t.repairList = []
  patrol : t.patrolCursor = none ∧ t.patrolTimer = none ∧ t.patrolDue = false
  configState : t.configState = none

/-! ## Invariants -/

/-- Every byte memory and the page array stand in their canonical form. -/
structure MemoriesCanonical (s : State) : Prop where
  array : PageArray.wf s.array
  windows : ∀ p, Memory.wf (s.port p).window
  buffers : ∀ i, Memory.wf (s.slot i).buffer

/-- The directory stands in ascending key order, with no key twice, and holds at most 512 entries
(R21). -/
structure DirectoryOrdered (s : State) : Prop where
  ordered : s.directory.Pairwise fun a b => a.key.before b.key = true
  bounded : s.directory.length ≤ Config.directoryPlaces

/-- The ports of the commands taken and not ended: of the running job, of the queued jobs and of an
accepted RESTART. -/
def activeCommands (s : State) : List Port :=
  (s.running.bind (·.job.port)).toList ++ s.jobQueue.filterMap (·.port) ++ s.restarting.toList

/-- The law of ports (R176): no port has two commands, a command on the Dispatch Queue is QUEUED, and one
taken and not ended is ACTIVE. -/
structure PortLaw (s : State) : Prop where
  once : (s.dispatchQueue ++ activeCommands s).Nodup
  queued : ∀ p ∈ s.dispatchQueue, (s.port p).state = .queued
  active : ∀ p ∈ activeCommands s, (s.port p).state = .active

/-- The law of the engine (R119, R122): STOPPED outside READY, and in READY a running-job record exactly
while the engine is RUNNING. -/
structure EngineLaw (s : State) : Prop where
  stopped : s.isReady = false → s.engine = .stopped ∧ s.running = none
  runs : s.isReady = true → s.engine ≠ .stopped ∧ (s.engine = .running ↔ s.running.isSome = true)

/-- The law of leases (R84, R97): in STARTING every slot is FREE, and in READY the lease of a HELD slot
runs and is not more than 20 ms late. -/
structure LeaseLaw (s : State) : Prop where
  starting : s.isStarting = true → ∀ i, (s.slot i).state = .free
  ready : s.isReady = true → ∀ i, (s.slot i).state = .held →
    ∃ expiry, (s.slot i).lease = some expiry ∧ s.now ≤ expiry + Config.leaseGrace

/-- Every claim field names a claim slot that is in use, at its generation, with the entry's key for its
target (R30, R84). -/
def ClaimLaw (s : State) : Prop :=
  ∀ e ∈ s.directory, ∀ h, e.claim = some h →
    (s.slot h.slot).state ≠ .free ∧ (s.slot h.slot).generation = h.generation ∧
      (s.slot h.slot).target = some (.record e.key)

/-- The law of watches (R162, R167): at most 64 watch entries, at most 16 of one port, no two equal; and in
each Change Set at most 24 entries, no two for one key. -/
structure WatchLaw (s : State) : Prop where
  places : s.watches.length ≤ 64
  perPort : ∀ p, watchesOf s.watches p ≤ 16
  distinct : s.watches.Pairwise fun a b => ¬(a.port = b.port ∧ a.ns = b.ns ∧ a.item = b.item)
  changes : ∀ p, (s.changes p).entries.length ≤ 24 ∧ ((s.changes p).entries.map (·.key)).Nodup

/-- The pages of the five pools (R108). -/
def poolPages (s : State) : List Nat :=
  s.erased ++ s.inWrite ++ s.live ++ s.eraseList.map Prod.fst ++ s.bad.map Prod.fst

/-- The pages R108 puts in LIVE: those of every copy a descriptor names, and the header of every
Retirement List entry that is not released. -/
def namedPages (s : State) : List Nat :=
  s.directory.flatMap entryPages ++ (s.retirementList.filter fun x => !x.released).map (·.header)

/-- The copy a drawn page is of. -/
def PageRole.copyNo : PageRole → Option CopyNo
  | .data c _ => some c
  | .header c => some c
  | .retirement => none

/-- The drawn pages a job has in IN_WRITE: all of them, but for copy 1's after the commit point (R128). -/
def heldPages (r : RunningJob) : List DrawnPage :=
  r.drawn.filter fun d => !(r.phase == .afterCommit && d.role.copyNo == some .one)

/-- A job that has drawn: a page for each role of its allocation, and, after its commit point, every page of
copy 1 programmed (R126 to R128). -/
structure HasDrawn (r : RunningJob) : Prop where
  roles : r.drawn.map (·.role) = allocationRoles r
  installed : r.phase = .afterCommit → ∀ d ∈ r.drawn, d.role.copyNo = some .one → d.programmed = true

/-- The pages are pages of IN_WRITE, none twice. -/
def InWritePages (s : State) (l : List DrawnPage) : Prop :=
  (l.map (·.page)).Nodup ∧ ∀ d ∈ l, d.page ∈ s.inWrite

/-- The running job's pages, by its place in its sequence (R108, R111, R122, R130). -/
def JobPages (s : State) (r : RunningJob) : Prop :=
  match r.stage with
  | .programming => HasDrawn r ∧ InWritePages s (heldPages r)
  | .drawing count (some role) =>
    count = 1 ∧ HasDrawn r ∧ InWritePages s ((heldPages r).filter fun d => d.role ≠ role)
  | .drawing count none => count = (allocationRoles r).length ∧ r.phase = .beforeCommit
  | _ => r.phase = .beforeCommit

/-- The law of pools (R108): in READY every page of the record area is in exactly one of ERASED, IN_WRITE,
LIVE, DIRTY and BAD; the pages that descriptors and unreleased retirement headers name are LIVE, each named
once; and the running job's pages are IN_WRITE. In SCAN the pages are read in order from page 8, and no job
runs. -/
structure PoolLaw (s : State) : Prop where
  scanning : s.isStarting = true → s.running = none ∧
    ∀ records highest, s.startup = .scan records highest →
      records.length < 4088 ∧ records.map Prod.fst = List.range' 8 records.length ∧
        s.operation = some (.read (8 + records.length))
  pools : s.isReady = true → (poolPages s).Perm (List.range' 8 4088)
  named : s.isReady = true → (namedPages s).Nodup ∧ ∀ page ∈ namedPages s, page ∈ s.live
  job : s.isReady = true → ∀ r, s.running = some r → JobPages s r

/-! ## Where a command comes from -/

/-- The port of a command that a host's link brings (R171 to R179). -/
def linkPort : Instr → Option Port
  | .invalidAccessByte p _ => some p
  | .windowWrite p _ _ => some p
  | .launch p _ _ => some p
  | .attentionCauseWrite p _ _ => some p
  | .stickyFlagWrite p _ _ => some p
  | _ => none

end Sys2Proof.Machine
end

