-- ==== Sys2Proof/Certificates/Slice0/Obligations.lean ====
section
/-! DEFINITION. Obligations.lean: the statements about the part. -/

open Sys2Proof Sys2Proof.Machine

/-! ## The step -/

/-- A step takes the command at the front of the queue and has the command's effect on the state with the
queue's rest (log 3). -/
def Obligations.StepTakesFront : Prop :=
  ∀ (s : State) (c : Instr) (rest : List Instr),
    s.pending = c :: rest → step s = exec c { s with pending := rest }

/-- MODEL'S CHOICE (log 2; a configuration claim's lapse: log 34): with no command waiting, in READY a lease 20 ms past its expiry time expires,
the lowest slot first; else the patrol timer whose time has come expires; else, and outside READY, one
millisecond passes. -/
def Obligations.IdleStepPassesTime : Prop :=
  ∀ s : State, s.pending = [] →
    (s.isReady = false → step s = .next { s with now := s.now + 1 }) ∧
    (s.isReady = true → ∀ i : SlotNo,
      leaseOverdue s i = true → (∀ j, j < i → leaseOverdue s j = false) →
      step s = .next (releaseSlot s i .lapsed)) ∧
    (s.isReady = true → (∀ i, leaseOverdue s i = false) →
      (∀ expiry, s.patrolTimer = some expiry → expiry ≤ s.now →
        ∃ t, step s = .next t ∧ t.patrolDue = true ∧ t.now = s.now) ∧
      ((∀ expiry, s.patrolTimer = some expiry → s.now < expiry) →
        step s = .next { s with now := s.now + 1 }))

/-- No rule of the spec stops the part: every command, in every state, ends in a next state; and no command
touches the queue of the commands that wait. MODEL'S CHOICE in part: the queue (log 3), that a command whose
event cannot arise changes nothing (log 1), and that the functions are total (log 18). -/
def Obligations.EveryCommandCompletes : Prop :=
  ∀ (c : Instr) (s : State), ∃ t, exec c s = .next t ∧ t.pending = s.pending

/-! ## Power, RESET_N, PFW_N -/

/-- The state after reset is an entry to STARTING with cause POWER_ON (R150), with READY and every attention
output deasserted (R149, R180), and every invariant of the part holds in it. MODEL'S CHOICE: that the state
after reset is the first entry after power-on, with an empty queue (log 3), and the zero bytes of the staging
buffers (log 22). -/
def Obligations.ResetStateMeetsInvariants : Prop :=
  (EntersStarting State.reset State.reset .powerOn ∧ readyPin State.reset = false ∧
    (∀ p, attentionOutput State.reset p = false) ∧ State.reset.pending = []) ∧
  (MemoriesCanonical State.reset ∧ DirectoryOrdered State.reset ∧ PortLaw State.reset ∧
    EngineLaw State.reset ∧ LeaseLaw State.reset ∧ ClaimLaw State.reset ∧ WatchLaw State.reset ∧
    PoolLaw State.reset)

/-- POWER_ON, RESET_N_DEASSERT and RESTART_DRAIN_END enter STARTING with their causes (R149, R150, R160):
POWER_ON for the first entry after power is applied, PIN for a later release of RESET_N, RESTART at the
end of a drain. MODEL'S CHOICE: the zero bytes of the staging buffers there (log 22). -/
def Obligations.EntriesToStarting : Prop :=
  (∀ s : State, s.powered = false → s.resetAsserted = false → s.pfwAsserted = false →
    ∃ t, exec .powerOn s = .next t ∧ EntersStarting s t .powerOn ∧ t.powered = true) ∧
  (∀ s : State, s.powered = true → s.resetAsserted = true → s.pfwAsserted = false →
    ∃ t, exec .resetNDeassert s = .next t ∧ t.resetAsserted = false ∧
      EntersStarting s t (if s.coldStart then .powerOn else .pin)) ∧
  (∀ s : State, s.isReady = true → s.restarting.isSome = true → s.engine = .free →
    s.jobQueue = [] → s.pfwAsserted = false →
    ∃ t, exec .restartDrainEnd s = .next t ∧ EntersStarting s t .restart)

/-- RESET_N_ASSERT and POWER_LOSS cut a program or an erase in progress, whose page then reads as R104
allows, and touch no other page; a configuration header so cut is ERASED or has an UNCORRECTABLE part, so that
its copy is not found VALID (R57); the READY pin and every attention output are deasserted (R149). MODEL'S
CHOICE (log 6): that the page is settled at the cut, where R104 speaks of the next read, and the clause on pages
0 and 4, by which a cut there never leaves the whole page, not even the former content of a copy that was not
VALID, which R104 allows. -/
def Obligations.CutOperationLeavesAllowedPage : Prop :=
  ∀ (s : State) (c : Instr), PageArray.wf s.array → s.powered = true → s.resetAsserted = false →
    c = .resetNAssert ∨ c = .powerLoss →
    ∃ t, exec c s = .next t ∧ t.operation = none ∧ readyPin t = false ∧
      (∀ p, attentionOutput t p = false) ∧
      (∀ page tag payload, s.operation = some (.program page tag payload) →
        t.page page ∈ [PageCell.blank, ⟨.holds tag, .holds payload⟩, ⟨.unreadable, .holds payload⟩,
          ⟨.holds tag, .unreadable⟩, ⟨.unreadable, .unreadable⟩] ∧
        ∀ n, n ≠ page → t.page n = s.page n) ∧
      (∀ page, s.operation = some (.erase page) →
        t.page page ∈ [PageCell.blank, s.page page, ⟨.unreadable, (s.page page).payload⟩,
          ⟨(s.page page).tag, .unreadable⟩, ⟨.unreadable, .unreadable⟩] ∧
        ∀ n, n ≠ page → t.page n = s.page n) ∧
      (∀ page, page = 0 ∨ page = 4 →
        ((∃ tag payload, s.operation = some (.program page tag payload)) ∨
          s.operation = some (.erase page)) →
        t.page page = PageCell.blank ∨ (t.page page).tag = .unreadable ∨
          (t.page page).payload = .unreadable) ∧
      ((∀ page tag payload, s.operation ≠ some (.program page tag payload)) →
        (∀ page, s.operation ≠ some (.erase page)) → t.array = s.array)

/-- PFW_N in READY (R135, R159): HALTED, READY deasserted, HALT set at every port, no job, command or lease left,
every claim released, and the directory as it stood (R37), but that the claim fields of the released claims are
clear and the FORMING entries of released create-claims are gone (`ClaimsReleased`). The running job's port is
answered HALTED, committed as its commit point was reached, also by the operation the halt finishes, with the
version where committed is yes (R63); the ports of the queued jobs, of the Dispatch Queue and of an accepted RESTART
(R160) are answered HALTED, committed no, and no other port changes. The page operation in progress is finished: a
page programmed holds what was programmed, and the pools stand; a failed program's page goes to the Erase List and
no replacement is drawn; an erase moves its page (R113); a CONFIG WRITE moves no page, and its header, programmed,
sets the stored image, the stored sequence and the copy's state (R56), which stand otherwise. MODEL'S CHOICE: a halt
settles no list (log 13), and the level of an uncommitted RAISE or COMMIT and the fields no rule reports are 0
(log 14). -/
def Obligations.PowerFailHaltsReady : Prop :=
  ∀ (s : State) (success : Bool), MemoriesCanonical s → s.isReady = true →
    ∃ t, exec (.pfwNAssert success) s = .next t ∧ t.device = .halted ∧ readyPin t = false ∧
      (∀ p, (attentionCauses t p).getLsbD 4 = true) ∧
      t.engine = .stopped ∧ t.running = none ∧ t.operation = none ∧ t.jobQueue = [] ∧
      t.dispatchQueue = [] ∧ t.restarting = none ∧ t.patrolTimer = none ∧
      (∀ i, (t.slot i).state = .free) ∧
      (∀ e ∈ t.directory, ∃ e₀ ∈ s.directory, e = e₀ ∨ e = { e₀ with claim := none }) ∧
      ClaimsReleased s t (fun i => (s.slot i).state ≠ .free) ∧
      t.changeSets = s.changeSets ∧ t.watches = s.watches ∧ t.repairList = s.repairList ∧
      t.reservation = s.reservation ∧ t.sequenceCounter = s.sequenceCounter ∧
      (∀ p, p ∈ s.dispatchQueue ∨ (∃ j ∈ s.jobQueue, j.port = some p) ∨ s.restarting = some p →
        CompletedHalted s t p false) ∧
      (∀ p, p ∉ s.dispatchQueue → p ∉ activeCommands s → t.port p = s.port p) ∧
      (∀ r p committed v result, PortLaw s → s.running = some r → r.job.port = some p →
        (committed = true ↔ r.phase = .afterCommit ∨ success = true ∧ AtCommitPoint s r) →
        CompletedHalted s t p committed ∧
        (v = (if committed then r.versionWritten.getD 0 else 0) →
          (Reports s r committed false v result ∨
            r.job.cause = some .retire ∧ result = { committed, version := v } ∨
            r.job.cause ∈ [some .read, some .claimPreload] ∧ result = { committed }) →
          resultArea t p = resultBytes (s.port p).go .halted result) ∧
        (r.job.cause = some .commitConfig → v = (if committed then t.storedSequence else 0) →
          resultArea t p = resultBytes (s.port p).go .halted { committed, version := v })) ∧
      ((∀ page, s.operation ≠ some (.erase page)) →
        (∀ page tag payload, s.operation ≠ some (.program page tag payload)) →
        t.array = s.array ∧ PoolsKept s t) ∧
      (∀ r page tag payload, s.running = some r → s.operation = some (.program page tag payload) →
        (∀ n, n ≠ page → t.page n = s.page n) ∧
        (success = true → t.page page = ⟨.holds tag, .holds payload⟩) ∧
        (success = true ∨ r.job.kind = .configWrite → PoolsKept s t) ∧
        (success = false → r.job.kind ≠ .configWrite →
          t.erased = s.erased ∧ t.live = s.live ∧ t.bad = s.bad ∧
          t.inWrite = (s.inWrite.filter fun n => n ≠ page) ∧
          t.eraseList = s.eraseList ++ [(page, some r.key)] ∧
          t.retirementList = s.retirementList.map fun x =>
            if x.key = r.key then { x with outstanding := x.outstanding + 1 } else x)) ∧
      (∀ r page, s.running = some r → s.operation = some (.erase page) →
        (∀ k rest, r.job.kind ≠ .configWrite → s.eraseList = (page, k) :: rest →
          (∀ n, n ≠ page → t.page n = s.page n) ∧ t.inWrite = s.inWrite ∧ t.live = s.live ∧
          t.eraseList = rest ∧
          (success = true → t.page page = PageCell.blank ∧ t.erased = s.erased ++ [page] ∧
            t.bad = s.bad ∧ t.retirementList = loweredFor k s.retirementList) ∧
          (success = false → t.erased = s.erased ∧ t.bad = s.bad ++ [(page, k)] ∧
            t.retirementList = s.retirementList)) ∧
        (r.job.kind = .configWrite → PoolsKept s t ∧ (∀ n, n ≠ page → t.page n = s.page n) ∧
          (success = true → t.page page = PageCell.blank))) ∧
      (∀ r page tag n sequence crc, s.running = some r → r.job.kind = .configWrite →
        success = true → s.operation = some (.program page tag (.config n sequence crc)) →
        t.storedImage = some r.content ∧ t.storedSequence = sequence ∧
        match r.job.params.copy with
        | .one => t.copyStateA = .valid sequence ∧ t.copyStateB = s.copyStateB
        | .two => t.copyStateB = .valid sequence ∧ t.copyStateA = s.copyStateA) ∧
      ((∀ r page tag n sequence crc, s.running = some r → r.job.kind = .configWrite →
          s.operation = some (.program page tag (.config n sequence crc)) → success = false) →
        t.storedImage = s.storedImage ∧ t.storedSequence = s.storedSequence ∧
          t.copyStateA = s.copyStateA ∧ t.copyStateB = s.copyStateB)

/-- PFW_N in STARTING ends the start-up in HALTED, and so does PFW_N found asserted on entry to STARTING;
outside STARTING and READY it, and its deassertion anywhere, changes nothing but the level of the pin (R149,
R151, R159). -/
def Obligations.PowerFailOutsideReady : Prop :=
  (∀ (s : State) (success : Bool),
    (s.isStarting = true → exec (.pfwNAssert success) s =
      .next { s with pfwAsserted := true, device := .halted, startup := .idle, operation := none }) ∧
    (s.isReady = false → s.isStarting = false →
      exec (.pfwNAssert success) s = .next { s with pfwAsserted := true }) ∧
    exec .pfwNDeassert s = .next { s with pfwAsserted := false }) ∧
  ((∀ s : State, s.powered = false → s.resetAsserted = false → s.pfwAsserted = true →
    ∃ t, exec .powerOn s = .next t ∧ t.device = .halted ∧ t.resetCause = .powerOn ∧
      t.operation = none ∧ t.array = s.array) ∧
  (∀ s : State, s.powered = true → s.resetAsserted = true → s.pfwAsserted = true →
    ∃ t, exec .resetNDeassert s = .next t ∧ t.device = .halted ∧ t.operation = none ∧
      t.array = s.array))

/-! ## Start-up -/

/-- A page read of CONFIG LOAD or of SCAN before the phase's last page keeps its report or its scan record,
and the read of the next page begins (R151 to R153). -/
def Obligations.StartupReadsOn : Prop :=
  (∀ (s : State) (o : ReadOutcome) (reports : List PageReport) (page : Nat),
    s.isStarting = true → s.startup = .configLoad reports → s.operation = some (.read page) →
    page < 7 →
    exec (.configLoadPageRead o) s = .next { s with
      startup := .configLoad (reports ++ [readCell (s.page page) o])
      operation := some (.read (page + 1)) }) ∧
  (∀ (s : State) (o : ReadOutcome) (records : List (Nat × ScanRecord)) (highest page : Nat),
    s.isStarting = true → s.startup = .scan records highest → s.operation = some (.read page) →
    page < 4095 →
    ∃ x, x = scanRecordOf (readCell (s.page page) o) ∧
      exec (.scanPageRead o) s = .next { s with
        startup := .scan (records ++ [(page, x)]) (max highest x.sequence)
        operation := some (.read (page + 1)) })

/-- After page 7 CONFIG LOAD chooses the configuration state and the effective configuration by R59 and
R60, and SCAN begins at page 8 (R152). MODEL'S CHOICE: of equal sequence numbers copy A's image (log 26). -/
def Obligations.ConfigLoadChoosesState : Prop :=
  ∀ (s : State) (o : ReadOutcome) (reports : List PageReport),
    s.isStarting = true → s.startup = .configLoad reports → s.operation = some (.read 7) →
    ∃ t, exec (.configLoadPageRead o) s = .next t ∧
      (∃ highest, t.startup = .scan [] highest) ∧ t.operation = some (.read 8) ∧
      t.effectiveSequence = t.storedSequence ∧
      (∀ all, all = reports ++ [readCell (s.page 7) o] →
        (∀ img n, configCopyFound all .one = some (img, n) →
          (∀ img' m, configCopyFound all .two = some (img', m) → m ≤ n) →
          t.configState = some .configured ∧ t.storedImage = some img ∧ t.storedSequence = n ∧
            t.effective = effectiveOfImage img ∧ t.copyStateA = .valid n) ∧
        (∀ img n, configCopyFound all .two = some (img, n) →
          (∀ img' m, configCopyFound all .one = some (img', m) → m < n) →
          t.configState = some .configured ∧ t.storedImage = some img ∧ t.storedSequence = n ∧
            t.effective = effectiveOfImage img ∧ t.copyStateB = .valid n) ∧
        ((∀ x ∈ all, x = .erased) →
          t.configState = some .unconfigured ∧ t.storedImage = none ∧ t.storedSequence = 0 ∧
            t.effective = defaultConfig ∧ t.copyStateA = .erased ∧ t.copyStateB = .erased) ∧
        (configCopyFound all .one = none → configCopyFound all .two = none →
          (∃ n, n < 8 ∧ all.getD n .erased ≠ .erased) →
          t.configState = some .configFault ∧ t.storedImage = none ∧ t.storedSequence = 0 ∧
            t.effective = faultConfig))

/-- The last page read of SCAN ends in READY (R157, R158): READY attention at every port, the engine FREE,
the patrol timer started, the write sequence counter one above the highest sequence seen, IN_WRITE and BAD
empty, nothing reserved. -/
def Obligations.ScanEndsInReady : Prop :=
  ∀ (s : State) (o : ReadOutcome) (records : List (Nat × ScanRecord)) (highest : Nat),
    s.isStarting = true → s.startup = .scan records highest → s.operation = some (.read 4095) →
    ∃ t seen, exec (.scanPageRead o) s = .next t ∧
      seen = max highest (scanRecordOf (readCell (s.page 4095) o)).sequence ∧
      t.device = .ready ∧ readyPin t = true ∧ t.engine = .free ∧ t.operation = none ∧
      (∀ p, t.port p = { s.port p with ready := true }) ∧
      t.inWrite = [] ∧ t.bad = [] ∧ t.reservation = 0 ∧ t.patrolDue = false ∧
      t.patrolTimer = (if s.effective.patrolPeriod = 0 then none
        else some (s.now + s.effective.patrolPeriod * 100)) ∧
      t.sequenceCounter = (if 4294967295 ≤ seen then none else some (seen + 1)) ∧
      t.directory.length ≤ 512 ∧ t.array = s.array

/-- What RESOLVE leaves at entry to READY (R108, R154 to R157): every page of the record area is in exactly one of
ERASED, LIVE and DIRTY: LIVE has the pages that a descriptor names and the headers of the Retirement List entries
that are not released, ERASED the pages found erased, and the Erase List every other page, with the key of its
readable tag, both in ascending page number. The entries are in key order, LIVE, without a claim, with the integrity
of R17, and with a LOST entry on the Repair List, in key order too, exactly where the record is DEGRADED. Each entry
has the highest version of its key's readable HEADER and RETIRE tags, at which a HEADER stands, and the copies and
attributes of R155 and R156 (`RebuiltCopies`); a DAMAGED one takes its attributes from the readable candidate of the
highest sequence number, and has length 0 and no owner where none is readable. A key whose kind there is HEADER has
an entry, or the directory is full with keys below it; one whose kind is RETIRE has none, and has a Retirement List
entry with that version, the kept RETIRE page and the count of the key's other pages, or, with none, released with
count 1. MODEL'S CHOICE: equal sequence numbers of both kinds, and of two candidates of a DAMAGED record, are left out
here (logs 16 and 25); that a DAMAGED SINGLE record keeps a descriptor for a copy 2 candidate, and a length as it
reads (log 25), that an entry whose tags bear version 0 keeps its copies (log 30), and that tags whose version is
above 4,294,967,295 are taken as they read (log 33). -/
def Obligations.RebuiltPoolsAndEntries : Prop :=
  (∀ (s : State) (o : ReadOutcome) (records : List (Nat × ScanRecord)) (highest : Nat),
    s.isStarting = true → s.startup = .scan records highest → s.operation = some (.read 4095) →
    records.map Prod.fst = List.range' 8 4087 →
    ∃ t, exec (.scanPageRead o) s = .next t ∧
      (∀ page, 8 ≤ page → page < 4096 →
        (page ∈ t.erased ∧ page ∉ t.live ∧ page ∉ t.eraseList.map Prod.fst) ∨
        (page ∉ t.erased ∧ page ∈ t.live ∧ page ∉ t.eraseList.map Prod.fst) ∨
        (page ∉ t.erased ∧ page ∉ t.live ∧ page ∈ t.eraseList.map Prod.fst)) ∧
      (∀ page, page ∈ t.live ↔ (∃ e ∈ t.directory, page ∈ entryPages e) ∨
        ∃ x ∈ t.retirementList, x.released = false ∧ x.header = page) ∧
      (t.erased.Pairwise (· < ·) ∧ (t.eraseList.map Prod.fst).Pairwise (· < ·)) ∧
      ∀ scan, scan = records ++ [(4095, scanRecordOf (readCell (s.page 4095) o))] →
        (∀ page, page ∈ t.erased ↔ (page, .erased) ∈ scan) ∧
        ∀ page k, (page, k) ∈ t.eraseList ↔
          ∃ x, (page, x) ∈ scan ∧ x ≠ .erased ∧ page ∉ t.live ∧ k = x.key) ∧
  (∀ (s : State) (o : ReadOutcome) (records : List (Nat × ScanRecord)) (highest : Nat),
    s.isStarting = true → s.startup = .scan records highest → s.operation = some (.read 4095) →
    ∃ t, exec (.scanPageRead o) s = .next t ∧
      (∀ e ∈ t.directory, e.lifecycle = .live ∧ e.claim = none ∧
        e.integrity = integrityOf e.cls e.validCopies ∧
        (e.integrity = .degraded →
          ∃ c, e.copy c = none ∧ ⟨e.key, e.version, c, .lost, false, false⟩ ∈ t.repairList)) ∧
      (∀ x ∈ t.repairList, x.cause = .lost ∧ x.superseded = false ∧ x.running = false ∧
        ∃ e ∈ t.directory, e.key = x.key ∧ e.version = x.version ∧ e.integrity = .degraded) ∧
      (t.directory.Pairwise fun a b => a.key.before b.key = true) ∧
      (t.repairList.Pairwise fun a b => a.key.before b.key = true)) ∧
  (∀ (s : State) (o : ReadOutcome) (records scan : List (Nat × ScanRecord)) (highest : Nat),
    s.isStarting = true → s.startup = .scan records highest → s.operation = some (.read 4095) →
    records.map Prod.fst = List.range' 8 4087 →
    scan = records ++ [(4095, scanRecordOf (readCell (s.page 4095) o))] →
    ∃ t, exec (.scanPageRead o) s = .next t ∧
      (∀ e ∈ t.directory, HighestVersion scan e.key e.version ∧
        (∃ page n, HeadAt scan e.key e.version .header page n) ∧ RebuiltCopies scan e ∧
        (e.integrity = .damaged →
          (∀ c page tag h, Candidate scan e.key e.version c page tag (some (.header h)) →
            (∀ c' page' tag' h', Candidate scan e.key e.version c' page' tag' (some (.header h')) →
              page' ≠ page → h'.sequence < h.sequence) → TakesAttributes e h) ∧
          ((∀ c page tag h, ¬Candidate scan e.key e.version c page tag (some (.header h))) →
            e.length = 0 ∧ e.owner = none))) ∧
      (∀ k v, HighestVersion scan k v → RecordAt scan k v →
        (∃ e, t.entry k = some e) ∨
          t.directory.length = 512 ∧ ∀ e ∈ t.directory, e.key.before k = true) ∧
      (∀ k v, HighestVersion scan k v → RetiredAt scan k v → t.entry k = none ∧
        ∃ x ∈ t.retirementList, x.key = k ∧ x.version = v ∧
          (∃ n, HeadAt scan k v .retire x.header n ∧
            (∀ page m, HeadAt scan k v .retire page (some m) → ∃ n', n = some n' ∧ m ≤ n') ∧
            (n = none → ∀ page m, HeadAt scan k v .retire page m → x.header ≤ page)) ∧
          ∃ others, others =
              (scan.filter fun y => y.1 ≠ x.header && y.2.key == some k).length ∧
            x.outstanding = (if others = 0 then 1 else others) ∧
            (x.released = true ↔ others = 0)) ∧
      (∀ x ∈ t.retirementList, HighestVersion scan x.key x.version ∧ t.entry x.key = none ∧
        ∃ n, HeadAt scan x.key x.version .retire x.header n))

/-! ## The link -/

/-- WINDOW_WRITE (R171, R172, R175): in a write transaction a byte for the command or data area is written in IDLE and discarded
with WINDOW_LOCKED in QUEUED and ACTIVE; the mask takes bits 0 to 4; a byte for a read-only location is
ignored; in every case the current offset goes on by one, from 255 to 0, and nothing else changes. In a read
transaction from an offset nothing is written: each data byte moves the current offset on by one, and SDOn
then shifts out the window byte there; a deselection ends the transaction, and SDOn is high impedance.
MODEL'S CHOICE: those events take effect with the port's next byte that has a row (log 11). -/
def Obligations.WindowWriteByLocation : Prop :=
  (∀ (s : State) (p : Port) (place : LinkByte) (offset value : Byte),
    s.active = true → ByteAt s p place offset →
    offset ≠ 0x80 → offset ≠ 0x82 → offset ≠ 0x84 → Memory.wf (s.port p).window →
    ∃ t, exec (.windowWrite p place value) s = .next t ∧ t = { s with ports := t.ports } ∧
      (∀ q, q ≠ p → t.port q = s.port q) ∧
      (offset.toNat < 0x60 → (s.port p).state = .idle →
        windowRead t p offset = value ∧
        (∀ other, other ≠ offset → windowRead t p other = windowRead s p other) ∧
        t.port p = { s.port p with window := (t.port p).window, link := .writing (offset + 1) }) ∧
      (offset.toNat < 0x60 → (s.port p).state ≠ .idle →
        t.port p = { s.port p with windowLocked := true, link := .writing (offset + 1) }) ∧
      (offset = 0x83 →
        t.port p = { s.port p with mask := value.setWidth 5, link := .writing (offset + 1) }) ∧
      (0x60 ≤ offset.toNat → offset ≠ 0x83 →
        t.port p = { s.port p with link := .writing (offset + 1) })) ∧
  (∀ (s : State) (p : Port) (place : LinkByte) (start value : Byte) (n : Nat), s.active = true →
    place.before = [.deselect, .select, .readAccess, .offset start] ++ List.replicate n .dataByte →
    ∃ t next, exec (.windowWrite p place value) s = .next t ∧
      next = start + BitVec.ofNat 8 (n + 1) ∧
      t = { s with ports := s.ports.set p { s.port p with link := .reading next } } ∧
      serialOut t p = some (windowRead s p next)) ∧
  (∀ (s : State) (p : Port) (place : LinkByte) (value : Byte), s.active = true →
    place.before = [.deselect] →
    ∃ t, exec (.windowWrite p place value) s = .next t ∧
      t = { s with ports := s.ports.set p { s.port p with link := .deselected } } ∧
      serialOut t p = none)

/-- LAUNCH (R174, R176): tag 0 is ignored; outside IDLE a launch sets LAUNCH_REJECTED; in IDLE its tag is
captured and, in READY, the port goes QUEUED and joins the queue's tail, while in STARTING and HALTED the
command is answered NOT_READY or HALTED at once. -/
def Obligations.LaunchOutcomes : Prop :=
  ∀ (s : State) (p : Port) (place : LinkByte) (tag : Byte),
    s.active = true → ByteAt s p place 0x80 → Memory.wf (s.port p).window →
    ∃ t, exec (.launch p place tag) s = .next t ∧ (t.port p).link = .writing 0x81 ∧
      t = { s with ports := t.ports, dispatchQueue := t.dispatchQueue } ∧
      (∀ q, q ≠ p → t.port q = s.port q) ∧
      (tag = 0 → t.dispatchQueue = s.dispatchQueue ∧
        t.port p = { s.port p with link := .writing 0x81 }) ∧
      (tag ≠ 0 → (s.port p).state ≠ .idle → t.dispatchQueue = s.dispatchQueue ∧
        t.port p = { s.port p with launchRejected := true, link := .writing 0x81 }) ∧
      (tag ≠ 0 → (s.port p).state = .idle → s.device = .ready →
        t.dispatchQueue = s.dispatchQueue ++ [p] ∧
        t.port p = { s.port p with go := tag, state := .queued, link := .writing 0x81 }) ∧
      (tag ≠ 0 → (s.port p).state = .idle → s.device ≠ .ready → t.dispatchQueue = s.dispatchQueue ∧
        (t.port p).state = .idle ∧ (t.port p).complete = true ∧ (t.port p).go = tag ∧
        resultArea t p = resultBytes tag (if s.device = .starting then .notReady else .halted) {} ∧
        ∀ a, a < 0x60 → (t.port p).window.read a = (s.port p).window.read a)

/-- ATTENTION_CAUSE_WRITE clears COMPLETE, LAPSE and READY where it brings a 1 (R179), STICKY_FLAG_WRITE the
three sticky flags (R175); an invalid access byte sets FRAMING and the rest of its transaction is ignored
(R171, R175). Nothing else changes. -/
def Obligations.LinkFlagWrites : Prop :=
  (∀ (s : State) (p : Port) (place : LinkByte) (v : Byte), s.active = true → ByteAt s p place 0x82 →
    exec (.attentionCauseWrite p place v) s = .next { s with ports := s.ports.set p { s.port p with
      complete := (s.port p).complete && !v.getLsbD 0
      lapse := (s.port p).lapse && !v.getLsbD 2
      ready := (s.port p).ready && !v.getLsbD 3
      link := .writing 0x83 } }) ∧
  (∀ (s : State) (p : Port) (place : LinkByte) (v : Byte), s.active = true → ByteAt s p place 0x84 →
    exec (.stickyFlagWrite p place v) s = .next { s with ports := s.ports.set p { s.port p with
      framing := (s.port p).framing && !v.getLsbD 0
      launchRejected := (s.port p).launchRejected && !v.getLsbD 1
      windowLocked := (s.port p).windowLocked && !v.getLsbD 2
      link := .writing 0x85 } }) ∧
  (∀ (s : State) (p : Port) (access : Byte), s.active = true → access ≠ 0x3C → access ≠ 0xC3 →
    exec (.invalidAccessByte p access) s = .next { s with ports := s.ports.set p { s.port p with
      framing := true, link := .ignored } })

/-- A host reaches its own port unit: its link (R171) changes that unit and the tail of the Dispatch Queue, and
nothing else of the part; and what the Record Controller takes from a port changes no other port's unit (R177,
R181), RESTART, which may end in a start-up, left out. -/
def Obligations.HostsReachOwnPortOnly : Prop :=
  (∀ (c : Instr) (p : Port) (s t : State), linkPort c = some p → exec c s = .next t →
    t = { s with ports := t.ports, dispatchQueue := t.dispatchQueue } ∧
    (∀ q, q ≠ p → t.port q = s.port q) ∧
    (t.dispatchQueue = s.dispatchQueue ∨ t.dispatchQueue = s.dispatchQueue ++ [p])) ∧
  (∀ (c : Instr) (s t : State) (p : Port) (rest : List Port),
    c ∈ [.lookup, .describe, .list, .read, .create, .write, .raise, .retire, .claimForUpdate,
      .claimWithPreload, .claimWithCreate, .claimWithConfig true, .claimWithConfig false, .stage,
      .fetch, .renew, .commit true, .commit false, .abandon, .watch, .unwatch, .takeChanges,
      .restrict, .readConfig, .status, .detach, .unknownCommandCode] →
    s.dispatchQueue = p :: rest → exec c s = .next t → ∀ q, q ≠ p → t.port q = s.port q)

/-! ## The Record Controller -/

/-- LOOKUP reports the entry from the directory (R32, R33); DESCRIBE reports it with its owner, claim holder
and copies, and the two data page lists (R34). -/
def Obligations.LookupAndDescribeReport : Prop :=
  (∀ (s : State) (p : Port) (rest : List Port) (f : CommandFields) (e : Entry),
    MemoriesCanonical s → Taking s p rest f → f.code = 0x10 → f.ns ≤ 7 →
    HoldsRight s f.ns p (·.read) → s.entry f.key = some e →
    ∃ t, exec .lookup s = .next t ∧ AnsweredOnly s t p rest false ∧
      resultArea t p = resultBytes (s.port p).go .done
        { lifecycle := lifecycleCode e.lifecycle, integrity := integrityCode e.integrity,
          cls := classCode e.cls, level := levelCode e.level, version := e.version,
          length := e.length }) ∧
  (∀ (s : State) (p : Port) (rest : List Port) (f : CommandFields) (e : Entry),
    MemoriesCanonical s → Taking s p rest f → f.code = 0x11 → f.ns ≤ 7 →
    HoldsRight s f.ns p (·.read) → s.entry f.key = some e →
    ∃ t, exec .describe s = .next t ∧ AnsweredOnly s t p rest true ∧
      resultArea t p = resultBytes (s.port p).go .done
        { lifecycle := lifecycleCode e.lifecycle, integrity := integrityCode e.integrity,
          cls := classCode e.cls, level := levelCode e.level, version := e.version,
          length := e.length
          at76 := (e.owner.map Fin.val).getD 0xFF
          at77 := ((claimHolder s e).map Fin.val).getD 0xFF
          at78 := copyStateCode e.copy1 + 16 * repairPendingCode s e.key .one
          at79 := (e.copy1.map (·.corrections)).getD 0
          at7A := (e.copy1.map (·.header)).getD 0
          at7C := copyStateCode e.copy2 + 16 * repairPendingCode s e.key .two
          at7D := (e.copy2.map (·.corrections)).getD 0
          at7E := (e.copy2.map (·.header)).getD 0 } ∧
      dataArea t p = pageListBytes e.copy1 ++ pageListBytes e.copy2)

/-- LIST returns the first entries of the namespace from the start item, at most 8, in ascending item
order, and says whether more remain (R35). -/
def Obligations.ListReports : Prop :=
  ∀ (s : State) (p : Port) (rest : List Port) (f : CommandFields),
    MemoriesCanonical s → DirectoryOrdered s → Taking s p rest f → f.code = 0x12 → f.ns ≤ 7 →
    HoldsRight s f.ns p (·.read) →
    ∃ (t : State) (listed : List Entry) (more : Bool),
      exec .list s = .next t ∧ AnsweredOnly s t p rest true ∧
      resultArea t p = resultBytes (s.port p).go .done { count := listed.length, more := more } ∧
      dataArea t p = padTo 64 (listed.flatMap listBytes) ∧
      listed.length ≤ 8 ∧ listed.Pairwise (fun a b => a.key.item < b.key.item) ∧
      (∀ e ∈ listed, e ∈ s.directory ∧ e.key.ns = f.ns ∧ f.item ≤ e.key.item) ∧
      (∀ e ∈ s.directory, e.key.ns = f.ns → f.item ≤ e.key.item → e ∉ listed →
        listed.length = 8 ∧ more = true ∧ ∀ x ∈ listed, x.key.item < e.key.item) ∧
      (more = true → ∃ e ∈ s.directory, e.key.ns = f.ns ∧ f.item ≤ e.key.item ∧ e ∉ listed)

/-- READ, accepted, places a READ job at the tail of the Job Queue, its port staying ACTIVE (R62, R66,
R120). -/
def Obligations.ReadIsQueued : Prop :=
  ∀ (s : State) (p : Port) (rest : List Port) (f : CommandFields) (e : Entry),
    Taking s p rest f → f.code = 0x20 → f.ns ≤ 7 → f.offset ≤ 1023 → 1 ≤ f.length →
    f.length ≤ 64 →
    HoldsRight s f.ns p (·.read) → s.entry f.key = some e → e.version ≠ 0 →
    (e.length = 0 ∨ f.offset < e.length) → e.integrity ≠ .damaged →
    exec .read s = .next { s with
      ports := activePorts s p
      dispatchQueue := rest
      jobQueue := s.jobQueue ++ [⟨.read, some p, some (.record f.key), some .read, none,
        { offset := f.offset, count := f.length }, 0⟩] }

/-- CREATE, accepted, makes a WRITING entry of version 0 with the class of R7 and the level of R11, reserves
the pages of the write and queues its job with the content of the data area (R27, R71, R72). -/
def Obligations.CreateMakesEntry : Prop :=
  ∀ (s : State) (p : Port) (rest : List Port) (f : CommandFields) (n : NamespaceEntry)
    (c₀ cls : RecordClass) (l₀ : Level) (need : Nat),
    Taking s p rest f → f.code = 0x21 → f.ns ≤ 7 → classOf f.cls = some c₀ →
    levelOf f.level = some l₀ → 1 ≤ f.length → f.length ≤ 64 →
    namespaceEntry s f.ns = some n → HoldsRight s f.ns p (·.create) → s.entry f.key = none →
    s.directory.length < 512 → namespaceCount s f.ns < n.quota →
    cls = (if n.mirrorRequired then .mirrored else c₀) →
    need = (match cls with | .single => 1 | .mirrored => 2) * (1 + (f.length + 63) / 64) →
    s.reservation + 34 + need ≤ s.erased.length + s.eraseList.length →
    (∀ r, s.retirement f.key = some r → r.version < 4294967295) → s.sequenceCounter ≠ none →
    exec .create s = .next { s with
      ports := activePorts s p
      dispatchQueue := rest
      directory := insertEntry ⟨f.key, .writing, .sound, cls, l₀.max n.floor, some p, 0, 0, none,
        none, none⟩ s.directory
      jobQueue := s.jobQueue ++ [⟨.writeCopy, some p, some (.record f.key), some .create, none,
        { cls := cls, level := l₀.max n.floor, length := f.length,
          content := (s.port p).window.readRange 0x20 f.length }, need⟩]
      reservation := s.reservation + need }

/-- WRITE, RAISE and RETIRE, accepted (R29, R75, R76, R78, R79, R81, R82): the entry goes to WRITING or RETIRING,
the pages of the job are reserved, and the job is queued: with the content of the data area, at the higher
level, or as a retirement. -/
def Obligations.WriteRaiseRetireAreAccepted : Prop :=
  (∀ (s : State) (p : Port) (rest : List Port) (f : CommandFields) (e : Entry) (need : Nat),
    Taking s p rest f → f.code = 0x22 → f.ns ≤ 7 → 1 ≤ f.length → f.length ≤ 64 →
    HoldsRight s f.ns p (·.write) → s.entry f.key = some e → e.lifecycle = .live → e.claim = none →
    updateProtected s p e = false → (f.expected = 0 ∨ f.expected = e.version) →
    need = (match e.cls with | .single => 1 | .mirrored => 2) * (1 + (f.length + 63) / 64) →
    s.reservation + 34 + need ≤ s.erased.length + s.eraseList.length →
    e.version < 4294967295 → s.sequenceCounter ≠ none →
    exec .write s = .next { s with
      ports := activePorts s p
      dispatchQueue := rest
      directory := s.directory.map fun x =>
        if x.key = f.key then { x with lifecycle := .writing } else x
      jobQueue := s.jobQueue ++ [⟨.writeCopy, some p, some (.record f.key), some .write, none,
        { cls := e.cls, level := e.level, length := f.length,
          content := (s.port p).window.readRange 0x20 f.length }, need⟩]
      reservation := s.reservation + need }) ∧
  (∀ (s : State) (p : Port) (rest : List Port) (f : CommandFields) (e : Entry) (l : Level)
    (need : Nat),
    Taking s p rest f → f.code = 0x23 → f.ns ≤ 7 → levelOf f.level = some l →
    levelCode e.level < levelCode l → HoldsRight s f.ns p (·.write) → s.entry f.key = some e →
    e.lifecycle = .live → (e.level = .opened ∨ e.owner = some p ∨ isMaintenance s p = true) →
    e.integrity ≠ .damaged →
    need = (match e.cls with | .single => 1 | .mirrored => 2) * (1 + (e.length + 63) / 64) →
    s.reservation + 34 + need ≤ s.erased.length + s.eraseList.length →
    e.version < 4294967295 → s.sequenceCounter ≠ none →
    exec .raise s = .next { s with
      ports := activePorts s p
      dispatchQueue := rest
      directory := s.directory.map fun x =>
        if x.key = f.key then { x with lifecycle := .writing } else x
      jobQueue := s.jobQueue ++ [⟨.writeCopy, some p, some (.record f.key), some .raise, none,
        { cls := e.cls, level := l, length := e.length }, need⟩]
      reservation := s.reservation + need }) ∧
  (∀ (s : State) (p : Port) (rest : List Port) (f : CommandFields) (e : Entry),
    Taking s p rest f → f.code = 0x24 → f.ns ≤ 7 → HoldsRight s f.ns p (·.retire) →
    s.entry f.key = some e → e.lifecycle = .live → e.claim = none →
    (e.level = .opened ∨
      (e.level = .owned ∨ e.level = .frozen) ∧ (e.owner = some p ∨ isMaintenance s p = true)) →
    (f.expected = 0 ∨ f.expected = e.version) →
    s.reservation + 34 + 1 ≤ s.erased.length + s.eraseList.length →
    e.version < 4294967295 → s.sequenceCounter ≠ none →
    exec .retire s = .next { s with
      ports := activePorts s p
      dispatchQueue := rest
      directory := s.directory.map fun x =>
        if x.key = f.key then { x with lifecycle := .retiring } else x
      jobQueue := s.jobQueue ++ [⟨.retire, some p, some (.record f.key), some .retire, none, {}, 1⟩]
      reservation := s.reservation + 1 })

/-- A record or claim command is refused with the code of the first check it fails (`FirstFailing`), in the order
of R44, and nothing changes but the caller's port and the queue: LOOKUP, DESCRIBE and LIST (R32, R35), READ (R66),
CREATE (R71), WRITE (R75), RAISE (R78), RETIRE (R81), CLAIM for update, with CREATE and with CONFIG (R54, R88 to
R90), STAGE, FETCH, RENEW and ABANDON (R93 to R96), and COMMIT with no current handle, of a record claim or
create-claim (R99) and of a configuration claim (R46, R55), whose BAD_PARAM reports the bad byte. So an absent key
is NOT_FOUND, and a handle that names no claim of the caller is CLAIM_LAPSED where the slot's release record is of
its generation and the caller, and NO_CLAIM otherwise (R86). MODEL'S CHOICES: the fields no rule reports on a
refusal are 0 (log 14), those of a refused RESTRICT among them (log 31), and the 255 of an empty buffer
(log 15). -/
def Obligations.RefusalsGiveFirstFailingCheck : Prop :=
  (∀ (s : State) (p : Port) (rest : List Port) (f : CommandFields) (c : Instr),
    MemoriesCanonical s → Taking s p rest f → f.ns ≤ 7 → s.entry f.key = none →
    ((c = .lookup ∧ f.code = 0x10 ∨ c = .describe ∧ f.code = 0x11) ∧
        HoldsRight s f.ns p (·.read) ∨
      c = .read ∧ f.code = 0x20 ∧ f.offset ≤ 1023 ∧ 1 ≤ f.length ∧ f.length ≤ 64 ∧
        HoldsRight s f.ns p (·.read) ∨
      c = .write ∧ f.code = 0x22 ∧ 1 ≤ f.length ∧ f.length ≤ 64 ∧ HoldsRight s f.ns p (·.write) ∨
      c = .raise ∧ f.code = 0x23 ∧ (levelOf f.level).isSome ∧ HoldsRight s f.ns p (·.write) ∨
      c = .retire ∧ f.code = 0x24 ∧ HoldsRight s f.ns p (·.retire) ∨
      c = .claimForUpdate ∧ f.code = 0x30 ∧ f.config = false ∧ f.create = false ∧
        f.preload = false ∧ HoldsRight s f.ns p (·.write)) →
    ∃ t, exec c s = .next t ∧ AnsweredOnly s t p rest false ∧
      resultArea t p = resultBytes (s.port p).go .notFound {}) ∧
  (∀ (s : State) (p : Port) (rest : List Port) (f : CommandFields) (i : SlotNo) (c : Instr),
    MemoriesCanonical s → Taking s p rest f → f.slot = i.val →
    ((s.slot i).state = .free ∨ (s.slot i).generation ≠ f.generation ∨
      (s.slot i).holder ≠ some p) →
    ((c = .stage ∧ f.code = 0x31 ∨ c = .fetch ∧ f.code = 0x32) ∧ f.offset ≤ 1023 ∧ 1 ≤ f.length ∧
        f.length ≤ 64 ∧ f.offset + f.length ≤ 1024 ∨
      c = .renew ∧ f.code = 0x33 ∨ c = .abandon ∧ f.code = 0x35 ∨
      (∃ m, c = .commit m) ∧ f.code = 0x34 ∧ f.length ≤ 1024 ∧ f.level ≤ 4) →
    ∃ t, exec c s = .next t ∧ AnsweredOnly s t p rest false ∧
      resultArea t p = resultBytes (s.port p).go
        (if (s.slot i).state = .free ∧ (s.slot i).lapsed = some (f.generation, p) then .claimLapsed
          else .noClaim) {}) ∧
  (∀ (s : State) (p : Port) (rest : List Port) (f : CommandFields) (c : Instr)
    (checks : List (Completion × Prop)) (refusal : Completion),
    MemoriesCanonical s → Taking s p rest f → FirstFailing checks refusal →
    ((c = .lookup ∧ f.code = 0x10 ∨ c = .describe ∧ f.code = 0x11) ∧ checks = reportRefusals s p f ∨
      c = .list ∧ f.code = 0x12 ∧ checks = (reportRefusals s p f).take 2 ∨
      c = .read ∧ f.code = 0x20 ∧ checks = readRefusals s p f ∨
      c = .create ∧ f.code = 0x21 ∧ checks = createRefusals s p f ∨
      c = .write ∧ f.code = 0x22 ∧ checks = writeRefusals s p f ∨
      c = .raise ∧ f.code = 0x23 ∧ checks = raiseRefusals s p f ∨
      c = .retire ∧ f.code = 0x24 ∧ checks = retireRefusals s p f ∨
      (c = .claimForUpdate ∧ f.preload = false ∨ c = .claimWithPreload ∧ f.preload = true) ∧
        f.code = 0x30 ∧ f.config = false ∧ f.create = false ∧ checks = updateClaimRefusals s p f ∨
      c = .claimWithCreate ∧ f.code = 0x30 ∧ f.config = false ∧ f.create = true ∧
        checks = createClaimRefusals s p f ∨
      (c = .stage ∧ f.code = 0x31 ∨ c = .fetch ∧ f.code = 0x32) ∧ checks = stagingRefusals s p f ∨
      c = .renew ∧ f.code = 0x33 ∧
        checks = (.badParam, 7 < f.slot) :: targetRefusals s p f ++ handleRefusals s p f ∨
      c = .abandon ∧ f.code = 0x35 ∧ checks = (.badParam, 7 < f.slot) :: handleRefusals s p f ∨
      (∃ m, c = .commit m) ∧ f.code = 0x34 ∧ (∀ i, ¬CurrentHandle s p f i) ∧
        checks = (.badParam, 7 < f.slot ∨ 1024 < f.length ∨ 4 < f.level) :: handleRefusals s p f ∨
      (∃ m i k, c = .commit m ∧ f.code = 0x34 ∧ CurrentHandle s p f i ∧
        (s.slot i).target = some (.record k) ∧ checks = commitRefusals s p f i k
          (if f.length = 0 then (s.slot i).staged else f.length))) →
    ∃ t, exec c s = .next t ∧ AnsweredOnly s t p rest false ∧
      resultArea t p = resultBytes (s.port p).go refusal {}) ∧
  (∀ (s : State) (p : Port) (rest : List Port) (f : CommandFields) (maintEn : Bool)
    (refusal : Completion),
    MemoriesCanonical s → Taking s p rest f → f.code = 0x30 → f.config = true →
    FirstFailing (configClaimRefusals s p f maintEn) refusal →
    ∃ t, exec (.claimWithConfig maintEn) s = .next t ∧
      AnsweredOnly { s with maintEnAsserted := maintEn } t p rest false ∧
      resultArea t p = resultBytes (s.port p).go refusal {}) ∧
  (∀ (s : State) (p : Port) (rest : List Port) (f : CommandFields) (i : SlotNo) (maintEn : Bool)
    (img : List Byte) (refusal : Completion) (offset : Nat),
    MemoriesCanonical s → Taking s p rest f → f.code = 0x34 → CurrentHandle s p f i →
    (s.slot i).target = some .config → img = Memory.readRange (s.slot i).buffer 0 128 →
    ((f.level ≠ 0 ∨ f.length ≠ 0 ∧ f.length ≠ 128 ∨ (s.slot i).staged = 0) ∧ refusal = .badParam ∧
        offset = 255 ∨
      f.level = 0 ∧ (f.length = 0 ∨ f.length = 128) ∧ (s.slot i).staged ≠ 0 ∧ offset < 88 ∧
        imageFieldValid img offset = false ∧ (∀ o, o < offset → imageFieldValid img o = true) ∧
        refusal = .badParam ∨
      f.level = 0 ∧ (f.length = 0 ∨ f.length = 128) ∧ (s.slot i).staged ≠ 0 ∧
        imageValid img = true ∧ offset = 0 ∧
        FirstFailing (configRefusals s p maintEn ++ [(.exhausted, s.sequenceCounter = none)])
          refusal) →
    ∃ t, exec (.commit maintEn) s = .next t ∧
      AnsweredOnly { s with maintEnAsserted := maintEn } t p rest false ∧
      resultArea t p = resultBytes (s.port p).go refusal { at75 := offset }) ∧
  (∀ (s t : State) (p : Port) (rest : List Port) (f : CommandFields) (refusal : Completion),
    MemoriesCanonical s → Taking s p rest f → f.code = 0x50 → exec .restrict s = .next t →
    refusal ≠ .done → windowRead t p 0x61 = BitVec.ofNat 8 (completionCode refusal) →
    resultArea t p = resultBytes (s.port p).go refusal {})

/-! ## Claims -/

/-- CLAIM for update, accepted (R89, R91, R92): the lowest FREE slot takes the claim at the next generation with
a zero-filled buffer, and the entry's claim field names it. With no options the slot is HELD with a running
lease and the handle is reported; with PRELOAD the slot is PRELOADING, its lease stopped, and a PRELOAD job
with the handle is queued. -/
def Obligations.UpdateClaimsAreGranted : Prop :=
  (∀ (s : State) (p : Port) (rest : List Port) (f : CommandFields) (e : Entry) (i : SlotNo),
    MemoriesCanonical s → Taking s p rest f → f.code = 0x30 → f.config = false →
    f.create = false → f.preload = false → f.ns ≤ 7 → HoldsRight s f.ns p (·.write) →
    s.entry f.key = some e → e.lifecycle = .live → e.claim = none →
    updateProtected s p e = false → (f.expected = 0 ∨ f.expected = e.version) →
    LowestFree s i → claimsHeldBy s p < s.effective.portSettings[p].claimLimit →
    ∃ t g, exec .claimForUpdate s = .next t ∧ g = (s.slot i).generation + 1 ∧
      t = { s with
        ports := t.ports
        dispatchQueue := rest
        directory := s.directory.map fun x =>
          if x.key = f.key then { x with claim := some ⟨i, g⟩ } else x
        claims := s.claims.set i ⟨.held, g, some p, some (.record f.key), some .update, e.version,
          [], 0, some (s.now + s.effective.portSettings[p].leaseLength * 20), none⟩ } ∧
      PortAnswered s t p false ∧
      resultArea t p = resultBytes (s.port p).go .done
        { slot := i.val, generation := g.toNat, base := e.version, length := e.length,
          cls := classCode e.cls, level := levelCode e.level,
          at75 := s.effective.portSettings[p].leaseLength }) ∧
  (∀ (s : State) (p : Port) (rest : List Port) (f : CommandFields) (e : Entry) (i : SlotNo)
    (g : BitVec 8),
    Taking s p rest f → f.code = 0x30 → f.config = false → f.create = false → f.preload = true →
    f.ns ≤ 7 → HoldsRight s f.ns p (·.write) → s.entry f.key = some e → e.lifecycle = .live →
    e.claim = none → updateProtected s p e = false → e.integrity ≠ .damaged →
    (f.expected = 0 ∨ f.expected = e.version) → LowestFree s i →
    claimsHeldBy s p < s.effective.portSettings[p].claimLimit →
    g = (s.slot i).generation + 1 →
    exec .claimWithPreload s = .next { s with
      ports := activePorts s p
      dispatchQueue := rest
      directory := s.directory.map fun x =>
        if x.key = f.key then { x with claim := some ⟨i, g⟩ } else x
      claims := s.claims.set i ⟨.preloading, g, some p, some (.record f.key), some .update,
        e.version, [], 0, none, none⟩
      jobQueue := s.jobQueue ++ [⟨.preload, some p, some (.record f.key), some .claimPreload,
        some ⟨i, g⟩, {}, 0⟩] })

/-- CLAIM with CREATE, accepted (R27, R90, R91): a FORMING entry at the namespace floor with the granted handle,
and a HELD slot. CLAIM with CONFIG, accepted (R46, R54): a HELD slot with target CONFIG, based on the stored
sequence; no directory entry changes. -/
def Obligations.CreateAndConfigClaimsAreGranted : Prop :=
  (∀ (s : State) (p : Port) (rest : List Port) (f : CommandFields) (n : NamespaceEntry)
    (c₀ cls : RecordClass) (i : SlotNo),
    MemoriesCanonical s → Taking s p rest f → f.code = 0x30 → f.config = false →
    f.create = true → f.preload = false → f.ns ≤ 7 → classOf f.cls = some c₀ →
    namespaceEntry s f.ns = some n → HoldsRight s f.ns p (·.create) → s.entry f.key = none →
    LowestFree s i → claimsHeldBy s p < s.effective.portSettings[p].claimLimit →
    s.directory.length < 512 → namespaceCount s f.ns < n.quota →
    cls = (if n.mirrorRequired then .mirrored else c₀) →
    ∃ t g, exec .claimWithCreate s = .next t ∧ g = (s.slot i).generation + 1 ∧
      t = { s with
        ports := t.ports
        dispatchQueue := rest
        directory := insertEntry ⟨f.key, .forming, .sound, cls, n.floor, some p, 0, 0,
          some ⟨i, g⟩, none, none⟩ s.directory
        claims := s.claims.set i ⟨.held, g, some p, some (.record f.key), some .create, 0, [], 0,
          some (s.now + s.effective.portSettings[p].leaseLength * 20), none⟩ } ∧
      PortAnswered s t p false ∧
      resultArea t p = resultBytes (s.port p).go .done
        { slot := i.val, generation := g.toNat, cls := classCode cls, level := levelCode n.floor,
          at75 := s.effective.portSettings[p].leaseLength }) ∧
  (∀ (s : State) (p : Port) (rest : List Port) (f : CommandFields) (i : SlotNo) (maintEn : Bool),
    MemoriesCanonical s → Taking s p rest f → f.code = 0x30 → f.config = true →
    f.create = false → f.preload = false → ConfigAllowed s p maintEn →
    (∀ j, (s.slot j).state ≠ .free → (s.slot j).target ≠ some .config) →
    (f.expected = 0 ∨ f.expected = s.storedSequence) → LowestFree s i →
    claimsHeldBy s p < s.effective.portSettings[p].claimLimit →
    ∃ t g, exec (.claimWithConfig maintEn) s = .next t ∧ g = (s.slot i).generation + 1 ∧
      t = { s with
        maintEnAsserted := maintEn
        ports := t.ports
        dispatchQueue := rest
        claims := s.claims.set i ⟨.held, g, some p, some .config, some .update, s.storedSequence,
          [], 0, some (s.now + s.effective.portSettings[p].leaseLength * 20), none⟩ } ∧
      PortAnswered s t p false ∧
      resultArea t p = resultBytes (s.port p).go .done
        { slot := i.val, generation := g.toNat, base := s.storedSequence,
          at75 := s.effective.portSettings[p].leaseLength })

/-- STAGE, FETCH and RENEW, accepted (R93 to R95, R97), start the lease anew. STAGE puts the caller's data bytes
into the buffer from the offset and leaves every other buffer byte, the staged length reaching at least the
end of the bytes; FETCH returns the buffer's bytes and the staged length, RENEW the lease length. -/
def Obligations.StagingRestartsLease : Prop :=
  (∀ (s : State) (p : Port) (rest : List Port) (f : CommandFields) (i : SlotNo),
    MemoriesCanonical s → Taking s p rest f → f.code = 0x31 → CurrentHandle s p f i →
    TargetOpen s i → f.offset ≤ 1023 → 1 ≤ f.length → f.length ≤ 64 → f.offset + f.length ≤ 1024 →
    ∃ t x, exec .stage s = .next t ∧
      t = { s with ports := t.ports, dispatchQueue := rest, claims := s.claims.set i x } ∧
      x = { s.slot i with
        buffer := x.buffer
        staged := max (s.slot i).staged (f.offset + f.length)
        lease := some (s.now + s.effective.portSettings[p].leaseLength * 20) } ∧
      (∀ a, Memory.read x.buffer a =
        if f.offset ≤ a ∧ a < f.offset + f.length then
          (s.port p).window.read (0x20 + (a - f.offset))
        else Memory.read (s.slot i).buffer a) ∧
      PortAnswered s t p false ∧
      resultArea t p = resultBytes (s.port p).go .done
        { count := max (s.slot i).staged (f.offset + f.length) }) ∧
  (∀ (s : State) (p : Port) (rest : List Port) (f : CommandFields) (i : SlotNo) (claims : Vector Slot 8),
    MemoriesCanonical s → Taking s p rest f → CurrentHandle s p f i → TargetOpen s i →
    claims = s.claims.set i { s.slot i with
      lease := some (s.now + s.effective.portSettings[p].leaseLength * 20) } →
    (f.code = 0x32 → f.offset ≤ 1023 → 1 ≤ f.length → f.length ≤ 64 → f.offset + f.length ≤ 1024 →
      ∃ t, exec .fetch s = .next t ∧
        t = { s with ports := t.ports, dispatchQueue := rest, claims := claims } ∧
        PortAnswered s t p true ∧
        resultArea t p = resultBytes (s.port p).go .done { count := (s.slot i).staged } ∧
        dataArea t p = padTo 64 (Memory.readRange (s.slot i).buffer f.offset f.length)) ∧
    (f.code = 0x33 →
      ∃ t, exec .renew s = .next t ∧
        t = { s with ports := t.ports, dispatchQueue := rest, claims := claims } ∧
        PortAnswered s t p false ∧
        resultArea t p = resultBytes (s.port p).go .done
          { at75 := s.effective.portSettings[p].leaseLength }))

/-- ABANDON, accepted (R87, R96): the slot is FREE, its lease stopped and no release record left; the
FORMING entry of a create-claim is gone, and a record's claim field is cleared. -/
def Obligations.AbandonReleases : Prop :=
  ∀ (s : State) (p : Port) (rest : List Port) (f : CommandFields) (i : SlotNo),
    MemoriesCanonical s → Taking s p rest f → f.code = 0x35 → CurrentHandle s p f i →
    ∃ t, exec .abandon s = .next t ∧
      t = { s with
        ports := t.ports
        dispatchQueue := rest
        directory := t.directory
        claims := s.claims.set i { s.slot i with state := .free, lease := none, lapsed := none } } ∧
      PortAnswered s t p false ∧ resultArea t p = resultBytes (s.port p).go .done {} ∧
      ((s.slot i).target = some .config → t.directory = s.directory) ∧
      (∀ k e, (s.slot i).target = some (.record k) → s.entry k = some e →
        e.claim = some ⟨i, (s.slot i).generation⟩ →
        ((s.slot i).kind = some .create → e.lifecycle = .forming → t.entry k = none) ∧
        (e.lifecycle ≠ .forming → t.entry k = some { e with claim := none }) ∧
        ∀ k', k' ≠ k → t.entry k' = s.entry k')

/-- COMMIT, accepted. Of a record claim or a create-claim (R99, R100): the slot is COMMITTING with its lease
stopped, the entry WRITING, the pages reserved, and the job queued with the buffer's bytes, at the level of
R11. Of a configuration claim (R46, R55): the slot is COMMITTING with its lease stopped, and a CONFIG WRITE job
with the first 128 bytes of the buffer is queued. -/
def Obligations.CommitIsAccepted : Prop :=
  (∀ (s : State) (p : Port) (rest : List Port) (f : CommandFields) (i : SlotNo) (k : Key) (e : Entry)
    (n : NamespaceEntry) (length need : Nat) (create maintEn : Bool) (level : Level),
    Taking s p rest f → f.code = 0x34 → CurrentHandle s p f i →
    (s.slot i).target = some (.record k) →
    (s.slot i).kind = some (if create then .create else .update) → s.entry k = some e →
    namespaceEntry s k.ns = some n → HoldsRight s k.ns p (·.write) → f.length ≤ 1024 → f.level ≤ 4 →
    length = (if f.length = 0 then (s.slot i).staged else f.length) → length ≠ 0 →
    e.lifecycle ≠ .writing →
    (create = false → (f.level = 0 ∨ levelCode e.level ≤ f.level) ∧ updateProtected s p e = false ∧
      e.version < 4294967295 ∧ level = (levelOf f.level).getD e.level) →
    (create = true → level = ((levelOf f.level).getD .opened).max n.floor ∧
      ∀ r, s.retirement k = some r → r.version < 4294967295) →
    need = (match e.cls with | .single => 1 | .mirrored => 2) * (1 + (length + 63) / 64) →
    s.reservation + 34 + need ≤ s.erased.length + s.eraseList.length → s.sequenceCounter ≠ none →
    exec (.commit maintEn) s = .next { s with
      ports := activePorts s p
      dispatchQueue := rest
      claims := s.claims.set i { s.slot i with state := .committing, lease := none }
      directory := s.directory.map fun x =>
        if x.key = k then { x with lifecycle := .writing } else x
      jobQueue := s.jobQueue ++ [⟨.writeCopy, some p, some (.record k),
        some (if create then .commitCreate else .commitRecord),
        some ⟨i, (s.slot i).generation⟩,
        { cls := e.cls, level := level, length := length,
          content := Memory.readRange (s.slot i).buffer 0 length }, need⟩]
      reservation := s.reservation + need }) ∧
  (∀ (s : State) (p : Port) (rest : List Port) (f : CommandFields) (i : SlotNo) (maintEn : Bool),
    Taking s p rest f → f.code = 0x34 → CurrentHandle s p f i →
    (s.slot i).target = some .config → f.level = 0 → (f.length = 0 ∨ f.length = 128) →
    (s.slot i).staged ≠ 0 → imageValid (Memory.readRange (s.slot i).buffer 0 128) = true →
    ConfigAllowed s p maintEn → s.sequenceCounter ≠ none →
    exec (.commit maintEn) s = .next { s with
      maintEnAsserted := maintEn
      ports := activePorts s p
      dispatchQueue := rest
      claims := s.claims.set i { s.slot i with state := .committing, lease := none }
      jobQueue := s.jobQueue ++ [⟨.configWrite, some p, some .config, some .commitConfig,
        some ⟨i, (s.slot i).generation⟩,
        { length := 128, content := Memory.readRange (s.slot i).buffer 0 128 }, 0⟩] })

/-! ## Watches, configuration, device -/

/-- WATCH adds an entry at the Watch Table's tail, or sets "include own" of the equal entry that stands, and
reports which, with the entries the caller holds; UNWATCH removes the equal entry. A namespace above 7 is
refused BAD_PARAM; NO_RIGHT answers a WATCH without the right and an UNWATCH in a closed namespace;
WATCHES_FULL a WATCH that would add to 64 entries, or to 16 of the caller's; NOT_FOUND an UNWATCH that no
entry equals (R163, R164). -/
def Obligations.WatchAndUnwatch : Prop :=
  ∀ (s : State) (p : Port) (rest : List Port) (f : CommandFields) (item : Option Nat),
    MemoriesCanonical s → Taking s p rest f →
    item = (if f.itemScope then some f.item else none) →
    (f.code = 0x40 → HoldsRight s f.ns p (·.watch) →
      (∀ w ∈ s.watches, ¬(w.port = p ∧ w.ns = f.ns ∧ w.item = item)) → s.watches.length < 64 →
      watchesOf s.watches p < 16 →
      ∃ t, exec .watch s = .next t ∧ PortAnswered s t p false ∧
        t = { s with
          ports := t.ports, dispatchQueue := rest
          watches := s.watches ++ [⟨p, f.ns, item, f.includeOwn⟩] } ∧
        resultArea t p = resultBytes (s.port p).go .done
          { updated := false, count := watchesOf s.watches p + 1 }) ∧
    (f.code = 0x40 → HoldsRight s f.ns p (·.watch) →
      (∃ w ∈ s.watches, w.port = p ∧ w.ns = f.ns ∧ w.item = item) →
      ∃ t, exec .watch s = .next t ∧ PortAnswered s t p false ∧
        t = { s with
          ports := t.ports, dispatchQueue := rest
          watches := s.watches.map fun w =>
            if w.port = p ∧ w.ns = f.ns ∧ w.item = item then { w with includeOwn := f.includeOwn }
            else w } ∧
        resultArea t p = resultBytes (s.port p).go .done
          { updated := true, count := watchesOf s.watches p }) ∧
    (f.code = 0x41 → (∃ n, namespaceEntry s f.ns = some n ∧ n.isOpen = true) →
      (∃ w ∈ s.watches, w.port = p ∧ w.ns = f.ns ∧ w.item = item) →
      ∃ t, exec .unwatch s = .next t ∧ PortAnswered s t p false ∧
        t = { s with
          ports := t.ports, dispatchQueue := rest
          watches := s.watches.filter fun w => ¬(w.port = p ∧ w.ns = f.ns ∧ w.item = item) } ∧
        resultArea t p = resultBytes (s.port p).go .done { count := watchesOf t.watches p }) ∧
    (∀ (command : Instr) (refusal : Completion),
      (f.code = 0x40 ∧ command = .watch ∧
          (7 < f.ns ∧ refusal = .badParam ∨
            f.ns ≤ 7 ∧ ¬HoldsRight s f.ns p (·.watch) ∧ refusal = .noRight ∨
            HoldsRight s f.ns p (·.watch) ∧
              (∀ w ∈ s.watches, ¬(w.port = p ∧ w.ns = f.ns ∧ w.item = item)) ∧
              (64 ≤ s.watches.length ∨ 16 ≤ watchesOf s.watches p) ∧ refusal = .watchesFull) ∨
        f.code = 0x41 ∧ command = .unwatch ∧
          (7 < f.ns ∧ refusal = .badParam ∨
            (∃ n, namespaceEntry s f.ns = some n ∧ n.isOpen = false) ∧ refusal = .noRight ∨
            (∃ n, namespaceEntry s f.ns = some n ∧ n.isOpen = true) ∧
              (∀ w ∈ s.watches, ¬(w.port = p ∧ w.ns = f.ns ∧ w.item = item)) ∧
              refusal = .notFound)) →
      ∃ t, exec command s = .next t ∧ AnsweredOnly s t p rest false ∧
        resultArea t p = resultBytes (s.port p).go refusal {})

/-- TAKE CHANGES returns up to 8 entries of the caller's Change Set, oldest first, and removes them; the
overflow flag is reported as it stood, and cleared when the set is left empty (R168). -/
def Obligations.TakeChangesTakesOldest : Prop :=
  ∀ (s : State) (p : Port) (rest : List Port) (f : CommandFields) (c : ChangeSet),
    MemoriesCanonical s → Taking s p rest f → f.code = 0x42 → c = s.changes p →
    ∃ t, exec .takeChanges s = .next t ∧ PortAnswered s t p true ∧
      t = { s with
        ports := t.ports, dispatchQueue := rest
        changeSets := s.changeSets.set p
          ⟨c.entries.drop 8, if c.entries.length ≤ 8 then false else c.overflow⟩ } ∧
      resultArea t p = resultBytes (s.port p).go .done
        { count := min 8 c.entries.length, more := decide (8 < c.entries.length),
          overflow := c.overflow } ∧
      dataArea t p = padTo 64 ((c.entries.take 8).flatMap changeBytes)

/-- RESTRICT (R47, R48), accepted, sets the target port's rights and the namespace's quota, floor, mirror and
open fields to the request, which is no wider than they were, and reports them. It is refused with nothing
changed: BAD_PARAM for a field out of range; NO_RIGHT from a HOST port that names another port or touches a
namespace-wide field, and in a closed namespace; NOT_NARROWER where any field is wider. What a refusal leaves in
the other result fields is log 31's, and stated apart (`RefusalsGiveFirstFailingCheck`). -/
def Obligations.RestrictNarrows : Prop :=
  (∀ (s : State) (p : Port) (rest : List Port) (f : CommandFields) (ns : Fin 8) (target : Port)
    (n : NamespaceEntry) (l : Level),
    MemoriesCanonical s → Taking s p rest f → f.code = 0x50 → f.ns = ns.val →
    f.target = target.val → n = s.effective.namespaces[ns] → f.rights ≤ 31 → f.quota ≤ 512 →
    levelOf f.level = some l → f.mirror ≤ 1 → f.isOpen ≤ 1 →
    (MayRestrict s p f n target → n.isOpen = true → NarrowerOrEqual f n target →
      ∃ t, exec .restrict s = .next t ∧ PortAnswered s t p false ∧
        t = { s with
          ports := t.ports, dispatchQueue := rest
          effective := { s.effective with
            namespaces := s.effective.namespaces.set ns
              ⟨f.isOpen == 1, f.mirror == 1, l, f.quota, n.rights.set target (rightsOf f.rights)⟩ } } ∧
        resultArea t p = resultBytes (s.port p).go .done
          { level := f.level, at76 := f.rights, at77 := f.quota / 256, at78 := f.quota % 256,
            at79 := f.mirror, at7A := f.isOpen * 256 }) ∧
    (∀ refusal : Completion,
      ((¬MayRestrict s p f n target ∨ n.isOpen = false) ∧ refusal = .noRight ∨
        MayRestrict s p f n target ∧ n.isOpen = true ∧ ¬NarrowerOrEqual f n target ∧
          refusal = .notNarrower) →
      ∃ t, exec .restrict s = .next t ∧ AnsweredOnly s t p rest false ∧
        windowRead t p 0x60 = (s.port p).go ∧
        windowRead t p 0x61 = BitVec.ofNat 8 (completionCode refusal))) ∧
  (∀ (s : State) (p : Port) (rest : List Port) (f : CommandFields),
    MemoriesCanonical s → Taking s p rest f → f.code = 0x50 →
    (7 < f.ns ∨ 3 < f.target ∨ 31 < f.rights ∨ 512 < f.quota ∨ levelOf f.level = none ∨ 1 < f.mirror ∨
      1 < f.isOpen) →
    ∃ t, exec .restrict s = .next t ∧ AnsweredOnly s t p rest false ∧
      windowRead t p 0x60 = (s.port p).go ∧ windowRead t p 0x61 = 0x04)

/-- READ CONFIG returns the asked half of the effective image, composed as it stands, or of the stored image,
with its sequence (R52); without a stored image source 1 is NOT_FOUND and writes no data; a source above 1, and an
offset that is neither 0 nor 64, are refused BAD_PARAM. STATUS answers DONE with its fields in the data area and
changes no state (R161, R178). A command code that names no command is refused BAD_COMMAND (R182). MODEL'S CHOICE:
the result fields no rule reports at these ends are 0 (log 14). -/
def Obligations.ReadConfigStatusAndUnknownCode : Prop :=
  (∀ (s : State) (p : Port) (rest : List Port) (f : CommandFields),
    MemoriesCanonical s → Taking s p rest f → f.code = 0x51 → (f.offset = 0 ∨ f.offset = 64) →
    (f.target = 0 →
      ∃ t, exec .readConfig s = .next t ∧ AnsweredOnly s t p rest true ∧
        resultArea t p = resultBytes (s.port p).go .done
          { version := s.effectiveSequence, at75 := configStateCode s.configState } ∧
        dataArea t p = padTo 64 (((composeImage s.effective).drop f.offset).take 64)) ∧
    (∀ img, f.target = 1 → s.storedImage = some img →
      ∃ t, exec .readConfig s = .next t ∧ AnsweredOnly s t p rest true ∧
        resultArea t p = resultBytes (s.port p).go .done
          { version := s.storedSequence, at75 := configStateCode s.configState } ∧
        dataArea t p = padTo 64 ((img.drop f.offset).take 64)) ∧
    (f.target = 1 → s.storedImage = none →
      ∃ t, exec .readConfig s = .next t ∧ AnsweredOnly s t p rest false ∧
        resultArea t p = resultBytes (s.port p).go .notFound {})) ∧
  (∀ (s : State) (p : Port) (rest : List Port) (f : CommandFields),
    MemoriesCanonical s → Taking s p rest f → f.code = 0x51 →
    1 < f.target ∨ f.offset ≠ 0 ∧ f.offset ≠ 64 →
    ∃ t, exec .readConfig s = .next t ∧ AnsweredOnly s t p rest false ∧
      resultArea t p = resultBytes (s.port p).go .badParam {}) ∧
  (∀ (s : State) (p : Port) (rest : List Port) (f : CommandFields),
    MemoriesCanonical s → Taking s p rest f →
    (f.code = 0x60 →
      ∃ t, exec .status s = .next t ∧ AnsweredOnly s t p rest true ∧
        resultArea t p = resultBytes (s.port p).go .done {} ∧
        dataArea t p = padTo 64
          (beBytes 1 (deviceCode s.device) ++ beBytes 1 (resetCauseCode s.resetCause) ++
            beBytes 1 (configStateCode s.configState) ++
            beBytes 1 (if s.storedSequence = s.effectiveSequence then 0 else 1) ++
            beBytes 4 s.effectiveSequence ++ beBytes 4 s.storedSequence ++
            beBytes 2 s.directory.length ++ beBytes 1 (formingCount s) ++
            beBytes 1 (claimsInUse s) ++ beBytes 1 s.watches.length ++ beBytes 2 s.erased.length ++
            beBytes 2 s.live.length ++ beBytes 2 s.eraseList.length ++ beBytes 2 s.bad.length ++
            beBytes 2 s.reservation ++ beBytes 2 s.repairList.length ++
            beBytes 2 s.retirementList.length ++ beBytes 4 (s.sequenceCounter.getD 0))) ∧
    (f.code ∉ [0x10, 0x11, 0x12, 0x20, 0x21, 0x22, 0x23, 0x24, 0x30, 0x31, 0x32, 0x33, 0x34, 0x35,
        0x40, 0x41, 0x42, 0x50, 0x51, 0x60, 0x61, 0x62] →
      ∃ t, exec .unknownCommandCode s = .next t ∧ AnsweredOnly s t p rest false ∧
        resultArea t p = resultBytes (s.port p).go .badCommand {}))

/-- DETACH releases every HELD slot of the caller and no other slot, clearing the claim fields that named them
and removing the FORMING entries of its create-claims (`ClaimsReleased`), removes its watches, empties its
Change Set, and clears LAPSE and the sticky flags; the mask and READY stay (R102, R170, R181). -/
def Obligations.DetachGivesUpClaimsAndWatches : Prop :=
  ∀ (s : State) (p : Port) (rest : List Port) (f : CommandFields),
    MemoriesCanonical s → Taking s p rest f → f.code = 0x61 →
    ∃ t, exec .detach s = .next t ∧
      t = { s with
        ports := t.ports, dispatchQueue := rest, directory := t.directory, claims := t.claims
        watches := s.watches.filter fun w => w.port ≠ p
        changeSets := s.changeSets.set p ⟨[], false⟩ } ∧
      (∀ i, t.slot i =
        if (s.slot i).state = .held ∧ (s.slot i).holder = some p then
          { s.slot i with state := .free, lease := none, lapsed := none }
        else s.slot i) ∧
      t.port p = { s.port p with
        window := (t.port p).window, state := .idle, complete := true, lapse := false,
        framing := false, launchRejected := false, windowLocked := false } ∧
      resultArea t p = resultBytes (s.port p).go .done {} ∧
      (∀ e ∈ t.directory, ∃ e₀ ∈ s.directory, e = e₀ ∨ e = { e₀ with claim := none }) ∧
      ClaimsReleased s t fun i => (s.slot i).state = .held ∧ (s.slot i).holder = some p

/-- RESTART (R160): refused NO_RIGHT from a HOST port; accepted with jobs to drain, it stops the taking of
commands, its port staying ACTIVE without a completion; with nothing to drain the device enters STARTING at
once. MODEL'S CHOICE: that this entry is within the command's own step (log 12), and the zero bytes of the
staging buffers there (log 22). -/
def Obligations.RestartDrainsOrStarts : Prop :=
  ∀ (s : State) (p : Port) (rest : List Port) (f : CommandFields),
    MemoriesCanonical s → Taking s p rest f → f.code = 0x62 → s.pfwAsserted = false →
    (isMaintenance s p = false →
      ∃ t, exec .restart s = .next t ∧ AnsweredOnly s t p rest false ∧
        resultArea t p = resultBytes (s.port p).go .noRight {}) ∧
    (isMaintenance s p = true → (s.engine ≠ .free ∨ s.jobQueue ≠ []) →
      exec .restart s = .next { s with
        ports := activePorts s p, dispatchQueue := rest, restarting := some p }) ∧
    (isMaintenance s p = true → s.engine = .free → s.jobQueue = [] →
      ∃ t, exec .restart s = .next t ∧ EntersStarting s t .restart)

/-! ## Timers -/

/-- LEASE_EXPIRY (R97, R98): once the expiry time has passed, the HELD slot is FREE with a LAPSED release record
for its generation and holder, and the holder's LAPSE is set; before that nothing expires.
PATROL_TIMER_EXPIRY (R146): at its expiry time the timer makes a patrol step due and runs on from that time;
before it nothing happens. MODEL'S CHOICE: that a configuration claim's lapse sets LAPSE too, where R54 and R87
give its release no effect outside the Claim Unit (log 34). -/
def Obligations.TimersExpire : Prop :=
  (∀ (s : State) (i : SlotNo) (p : Port) (expiry : Nat),
    s.isReady = true → (s.slot i).state = .held → (s.slot i).lease = some expiry →
    (s.slot i).holder = some p →
    (expiry ≤ s.now →
      ∃ t, exec (.leaseExpiry i) s = .next t ∧
        t = { s with
          directory := t.directory
          claims := s.claims.set i { s.slot i with
            state := .free, lease := none, lapsed := some ((s.slot i).generation, p) }
          ports := s.ports.set p { s.port p with lapse := true } } ∧
        ((s.slot i).target = some .config → t.directory = s.directory) ∧
        (∀ k e, (s.slot i).target = some (.record k) → s.entry k = some e →
          e.claim = some ⟨i, (s.slot i).generation⟩ →
          ((s.slot i).kind = some .create → e.lifecycle = .forming → t.entry k = none) ∧
          (e.lifecycle ≠ .forming → t.entry k = some { e with claim := none }) ∧
          ∀ k', k' ≠ k → t.entry k' = s.entry k')) ∧
    (s.now < expiry → exec (.leaseExpiry i) s = .next s)) ∧
  (∀ (s : State) (expiry : Nat), s.isReady = true → s.patrolTimer = some expiry →
    s.effective.patrolPeriod ≠ 0 →
    (expiry ≤ s.now → exec .patrolTimerExpiry s = .next { s with
      patrolDue := true
      patrolTimer := some (expiry + s.effective.patrolPeriod * 100) }) ∧
    (s.now < expiry → exec .patrolTimerExpiry s = .next s))

/-! ## The Array Engine -/

/-- What no engine event touches (`EngineFrame`): the effective configuration and the configuration state
(R38, R59), the device state, the watches, the Dispatch Queue and the clocks among it. -/
def Obligations.EngineEventsFrame : Prop :=
  ∀ (s t : State) (o : ReadOutcome) (success : Bool) (c : Instr),
    c ∈ [.jobSelect, .readJobPageRead o, .copySourcePageRead o, .repairSourcePageRead o,
      .patrolPageRead o, .dataPageProgramDone success, .commitPoint, .copy2Installed,
      .retirementCommitPoint, .repairPageProgramDone success, .eraseComplete success,
      .configPageOperationDone success, .configurationCommitPoint, .headerProgramFailure] →
    exec c s = .next t → EngineFrame s t

/-- JOB_SELECT (R121, R147, R160): the head of the Job Queue before anything else; during the drain of a
RESTART nothing more. What a job's start does: a PRELOAD (R92) and a RAISE (R79, R126) begin to read copy 1 from its
header, or copy 2 where only that is valid; a PRELOAD of a record that is DAMAGED ends DAMAGED, its slot released
FAILED and the claim field cleared, and a RAISE of a record without a valid copy ends DAMAGED, committed no, with
its need withdrawn and the record LIVE again (`WriteUndone`); a RETIRE with a page in ERASED (R131) draws it, takes its need from the
reservation count and begins to program the retirement header, with a sequence number drawn for it. (READ:
`ReadJobStarts`; CREATE, WRITE, COMMIT: `WriteJobDrawsPages`; CONFIG WRITE: `ConfigWriteRuns`.) Then the REPAIR
job of the Repair List head, where ERASED and the Erase List, less the reservation, hold the pages of one copy
(R141): its source read begins, or, for an entry that is superseded or whose record is absent, at another version or
DAMAGED (R142), the job ends at once and the entry is off the list. A head that does not fit stays where it is, and
no entry behind it is looked at: with no repair to start (`NoRepair`), the head of the Erase List; then a due patrol
step, which reads the first valid copy of the record that follows the cursor (`PatrolNext`), or ends at once where
every entry is passed over; and otherwise nothing. MODEL'S CHOICE: the target in the record of an ERASE job
(log 32); the level of that RAISE is 0 (log 14), and its entry of version 0 with copies goes (log 30). -/
def Obligations.JobSelectOrder : Prop :=
  ∀ s : State, s.isReady = true → s.engine = .free →
    (∀ j rest, s.jobQueue = j :: rest →
      exec .jobSelect s = .next (startJob { s with jobQueue := rest, engine := .running } j)) ∧
    (∀ j rest k e c d, s.jobQueue = j :: rest → j.target = some (.record k) → s.entry k = some e →
      e.copy c = some d → d.valid = true → (c = .two → e.copyValid .one = false) →
      (j.kind = .preload → e.integrity ≠ .damaged →
        exec .jobSelect s = .next { s with
          jobQueue := rest
          engine := .running
          operation := some (.read d.header)
          running := some { newRun j (some e) with
            stage := .source c none (d.header :: d.dataPages) [] } }) ∧
      (j.kind = .writeCopy → j.cause = some .raise → e.version ≠ 0 →
        exec .jobSelect s = .next { s with
          jobQueue := rest
          engine := .running
          operation := some (.read d.header)
          running := some {
            newRun { j with params := { j.params with length := e.length } } (some e) with
            versionWritten := some (e.version + 1)
            stage := .source c none (d.header :: d.dataPages) [] } })) ∧
    (∀ j rest k e p hd, MemoriesCanonical s → s.jobQueue = j :: rest → j.kind = .preload →
      j.target = some (.record k) → j.port = some p → j.handle = some hd → s.entry k = some e →
      e.integrity = .damaged → ClaimOf s k e hd →
      ∃ t, exec .jobSelect s = .next t ∧ JobEnded t ∧ t.jobQueue = rest ∧ t.array = s.array ∧
        t.entry k = some { e with claim := none } ∧ t.claims = released s hd ∧
        t.changeSets = s.changeSets ∧ PortAnswered s t p false ∧
        resultArea t p = resultBytes (s.port p).go .damaged {}) ∧
    (∀ j rest k e p, MemoriesCanonical s → s.jobQueue = j :: rest → j.kind = .writeCopy →
      j.target = some (.record k) → j.cause = some .raise → j.port = some p → s.entry k = some e →
      e.copyValid .one = false → e.copyValid .two = false →
      ∃ t, exec .jobSelect s = .next t ∧ WriteUndone s t (newRun j (some e)) e p .damaged ∧
        t.jobQueue = rest ∧ t.erased = s.erased ∧ t.array = s.array ∧
        t.reservation = s.reservation - j.need) ∧
    (∀ j rest k e page others n, s.jobQueue = j :: rest → j.kind = .retire →
      j.target = some (.record k) → s.entry k = some e → s.erased = page :: others →
      s.sequenceCounter = some n →
      exec .jobSelect s = .next { s with
        jobQueue := rest
        engine := .running
        erased := others
        inWrite := insertNat page s.inWrite
        reservation := s.reservation - j.need
        sequenceCounter := if 4294967295 ≤ n then none else some (n + 1)
        operation := some (.program page
          ⟨.retire, k, e.version + 1, 1, none, some e.cls, some e.level⟩
          (.retire k (e.version + 1) n))
        running := some {
          newRun { j with params := { j.params with level := e.level } } (some e) with
          versionWritten := some (e.version + 1)
          drawn := [⟨page, .retirement, false⟩]
          stage := .programming } }) ∧
    (s.jobQueue = [] → s.restarting.isSome = true → exec .jobSelect s = .next s) ∧
    (∀ x others e c d, s.jobQueue = [] → s.restarting = none → s.repairList = x :: others →
      s.entry x.key = some e → x.superseded = false → e.version = x.version →
      e.integrity ≠ .damaged →
      s.reservation + (1 + (e.length + 63) / 64) ≤ s.erased.length + s.eraseList.length →
      c = (match x.cause with | .lost => x.copy.other | .refresh => x.copy) → e.copy c = some d →
      exec .jobSelect s = .next { s with
        engine := .running
        operation := some (.read d.header)
        repairList := s.repairList.map fun y =>
          if y.isFor x.key x.copy then { y with running := true } else y
        running := some { newRun ⟨.repair, none, some (.record x.key), none, none,
            { copy := x.copy, cls := e.cls, level := e.level, length := e.length }, 0⟩ (some e) with
          versionWritten := some x.version
          stage := .source c none (d.header :: d.dataPages) [] } }) ∧
    (∀ x others, s.jobQueue = [] → s.restarting = none → s.repairList = x :: others →
      (x.superseded = true ∨ s.entry x.key = none ∨
        ∃ e, s.entry x.key = some e ∧ (e.version ≠ x.version ∨ e.integrity = .damaged)) →
      s.reservation ≤ s.erased.length + s.eraseList.length →
      ∃ t, exec .jobSelect s = .next t ∧ JobEnded t ∧ t.array = s.array ∧ t.erased = s.erased ∧
        t.directory = s.directory ∧ t.ports = s.ports ∧
        (x.superseded = false →
          t.repairList = s.repairList.filter fun y => !y.isFor x.key x.copy) ∧
        (∀ y ∈ t.repairList, y.isFor x.key x.copy = true → y.superseded = false ∧ y.cause = .lost)) ∧
    (∀ x others e, s.jobQueue = [] → s.restarting = none → s.repairList = x :: others →
      s.entry x.key = some e → x.superseded = false → e.version = x.version →
      e.integrity ≠ .damaged →
      s.erased.length + s.eraseList.length < s.reservation + (1 + (e.length + 63) / 64) →
      (∀ page k rest, s.eraseList = (page, k) :: rest →
        exec .jobSelect s = .next { s with
          engine := .running
          operation := some (.erase page)
          running := some { newRun ⟨.erase, none, k.map .record, none, none, {}, 0⟩ none with
            stage := .erasing } }) ∧
      (s.eraseList = [] → s.patrolDue = false → exec .jobSelect s = .next s) ∧
      (s.eraseList = [] → s.patrolDue = true →
        ∃ t, exec .jobSelect s = .next t ∧ t.patrolDue = false ∧ t.repairList = s.repairList ∧
          t.directory = s.directory ∧ t.ports = s.ports ∧ t.erased = s.erased)) ∧
    (∀ page k rest, s.jobQueue = [] → s.restarting = none → NoRepair s →
      s.eraseList = (page, k) :: rest →
      exec .jobSelect s = .next { s with
        engine := .running
        operation := some (.erase page)
        running := some { newRun ⟨.erase, none, k.map .record, none, none, {}, 0⟩ none with
          stage := .erasing } }) ∧
    (∀ e c d, DirectoryOrdered s → s.jobQueue = [] → s.restarting = none → NoRepair s →
      s.eraseList = [] → s.patrolDue = true → PatrolNext s e → e.copy c = some d → d.valid = true →
      (c = .two → e.copyValid .one = false) →
      exec .jobSelect s = .next { s with
        engine := .running
        patrolDue := false
        patrolCursor := some e.key
        operation := some (.read d.header)
        running := some { newRun ⟨.patrol, none, some (.record e.key), none, none, {}, 0⟩ (some e) with
          stage := .source c none (d.header :: d.dataPages) [] } }) ∧
    (s.jobQueue = [] → s.restarting = none → NoRepair s → s.eraseList = [] → s.patrolDue = true →
      (∀ e ∈ s.directory, ¬Visited e) →
      ∃ t, exec .jobSelect s = .next t ∧ JobEnded t ∧ t.patrolDue = false ∧
        t.patrolCursor = s.patrolCursor ∧ t.array = s.array ∧ t.directory = s.directory) ∧
    (s.jobQueue = [] → NoRepair s → s.eraseList = [] → s.patrolDue = false →
      exec .jobSelect s = .next s)

/-- A READ job at the head of the queue (R67, R68): it begins with the first page that holds a byte it returns, of
copy 1 where that is valid, and of copy 2 where only that is. An offset at or beyond the record's length ends it DONE
at once, with a count of 0 and the record's version and length; a key absent or of version 0 ends it NOT_FOUND, and
a DAMAGED record ends it DAMAGED; each with a data area of zeros (R69, R177). MODEL'S CHOICE: the fields no rule
reports at these ends are 0, the copy read of an end with a count of 0 among them (log 14). -/
def Obligations.ReadJobStarts : Prop :=
  ∀ (s : State) (j : Job) (rest : List Job) (k : Key) (p : Port),
    MemoriesCanonical s → s.isReady = true → s.engine = .free → s.jobQueue = j :: rest →
    j.kind = .read → j.target = some (.record k) → j.cause = some .read → j.port = some p →
    (∀ e c d page left, s.entry k = some e → e.version ≠ 0 → e.integrity ≠ .damaged →
      j.params.offset < e.length → e.copy c = some d → d.valid = true →
      (c = .two → e.copyValid .one = false) →
      (d.dataPages.drop (j.params.offset / 64)).take
        ((j.params.offset + min j.params.count (e.length - j.params.offset) - 1) / 64 -
          j.params.offset / 64 + 1) = page :: left →
      exec .jobSelect s = .next { s with
        jobQueue := rest, engine := .running, operation := some (.read page)
        running := some { newRun j (some e) with stage := .reading c (page :: left) [] } }) ∧
    (∀ completion result,
      (s.entry k = none ∧ completion = .notFound ∧ result = {} ∨
        (∃ e, s.entry k = some e ∧
          (e.version = 0 ∧ completion = .notFound ∧ result = {} ∨
            e.version ≠ 0 ∧ e.integrity = .damaged ∧ completion = .damaged ∧ result = {} ∨
            e.version ≠ 0 ∧ e.integrity ≠ .damaged ∧ e.length ≤ j.params.offset ∧
              completion = .done ∧ result = { version := e.version, length := e.length }))) →
      ∃ t, exec .jobSelect s = .next t ∧ JobEnded t ∧ PortAnswered s t p true ∧
        t.jobQueue = rest ∧ t.directory = s.directory ∧ t.array = s.array ∧
        dataArea t p = List.replicate 64 0 ∧
        resultArea t p = resultBytes (s.port p).go completion result)

/-- A WRITE COPY job of a CREATE, WRITE or COMMIT at the head of the queue (R111, R116, R126, R127): with
pages enough in ERASED it draws them from the head, in the order of its programming, takes its need from
the reservation count, writes at the next version, and begins to program its first data page. -/
def Obligations.WriteJobDrawsPages : Prop :=
  ∀ (s : State) (j : Job) (rest : List Job) (k : Key) (e : Entry) (length count first : Nat)
    (others : List Nat) (version : Nat),
    s.isReady = true → s.engine = .free → s.jobQueue = j :: rest → j.kind = .writeCopy →
    j.target = some (.record k) → j.cause ≠ some .raise → s.entry k = some e →
    length = j.params.length → 1 ≤ length →
    count = (match e.cls with | .single => 1 | .mirrored => 2) * (1 + (length + 63) / 64) →
    s.erased.take count = first :: others → count ≤ s.erased.length →
    version = (if e.version = 0 then ((s.retirement k).map (·.version + 1)).getD 1
      else e.version + 1) →
    ∃ t r, exec .jobSelect s = .next t ∧
      t = { s with
        jobQueue := rest
        engine := .running
        reservation := s.reservation - j.need
        erased := s.erased.drop count
        inWrite := insertAll (first :: others) s.inWrite
        operation := some (.program first
          ⟨.data, k, version, 1, some 0, some e.cls, some j.params.level⟩
          (.data (padTo 64 (j.params.content.take 64))))
        running := some r } ∧
      r.job = j ∧ r.entry = some e ∧ r.versionWritten = some version ∧ r.phase = .beforeCommit ∧
      r.failures = 0 ∧ r.content = j.params.content ∧ r.crc = crc32 j.params.content ∧
      r.drawn.map (·.page) = first :: others ∧ (∀ d ∈ r.drawn, d.programmed = false)

/-- The end of a job settles the Retirement List (R115): whatever event ends the running job in READY, no entry
is left with an outstanding count of 0; and after a READ, a PRELOAD or a PATROL STEP, which move no page, the
list, LIVE and the Erase List are the ones before the end, settled (`Settled`), and the other pools are as they
were. MODEL'S CHOICE: the order in which several released headers join the Erase List (log 27). -/
def Obligations.JobEndSettlesRetirements : Prop :=
  (∀ (c : Instr) (s t : State), s.isReady = true → s.running.isSome = true → exec c s = .next t →
    t.isReady = true → t.running = none → ∀ x ∈ t.retirementList, x.outstanding ≠ 0) ∧
  (∀ (c : Instr) (s t : State) (r : RunningJob) (o : ReadOutcome), s.isReady = true →
    s.running = some r →
    (c = .readJobPageRead o ∧ r.job.kind = .read ∨ c = .copySourcePageRead o ∧ r.job.kind = .preload ∨
      c = .patrolPageRead o ∧ r.job.kind = .patrol) →
    exec c s = .next t → t.running = none →
    JobEnded t ∧ Settled s.retirementList s.live s.eraseList t ∧ t.erased = s.erased ∧
      t.inWrite = s.inWrite ∧ t.bad = s.bad)

/-- READ_JOB_PAGE_READ (R68, R69). A page that reads CLEAN leads to the next one; the last ends the job DONE with
the asked bytes, the version, length, count and copy read. A page that reads CORRECTED leads on in the same way
and adds one to the copy's correction count (R26). A page that reads UNCORRECTABLE makes the copy invalid (R18);
copy 1 of a MIRRORED record whose copy 2 is valid is left for copy 2, from the first page that holds a byte asked
for; otherwise the job ends DAMAGED, with a count of 0 and a data area of zeros. -/
def Obligations.ReadJobReturnsBytes : Prop :=
  (∀ (s : State) (r : RunningJob) (e : Entry) (c : CopyNo) (page : Nat) (left : List Nat)
    (got bytes : List Byte) (tag : Tag) (p : Port) (n : Nat),
    MemoriesCanonical s → s.isReady = true → s.running = some r → r.job.kind = .read →
    r.job.port = some p → r.stage = .reading c (page :: left) got → r.entry = some e →
    s.operation = some (.read page) → s.page page = ⟨.holds tag, .holds (.data bytes)⟩ →
    n = min r.job.params.count (e.length - r.job.params.offset) →
    (∀ next more, left = next :: more →
      exec (.readJobPageRead ⟨.clean, .clean⟩) s = .next { s with
        operation := some (.read next)
        running := some { r with stage := .reading c (next :: more) (got ++ bytes) } }) ∧
    (left = [] →
      ∃ t, exec (.readJobPageRead ⟨.clean, .clean⟩) s = .next t ∧
        t = settleRetirements { s with
          ports := t.ports, running := none, operation := none, engine := .free } ∧
        PortAnswered s t p true ∧
        resultArea t p = resultBytes (s.port p).go .done
          { version := e.version, length := e.length, count := n, at75 := copyNumber c } ∧
        dataArea t p = padTo 64 (((got ++ bytes).drop (r.job.params.offset % 64)).take n))) ∧
  (∀ (s : State) (r : RunningJob) (e : Entry) (d : CopyDescriptor) (c : CopyNo) (page next : Nat)
    (more : List Nat) (got bytes : List Byte) (tag : Tag),
    s.isReady = true → s.running = some r → r.job.kind = .read →
    r.stage = .reading c (page :: next :: more) got → r.entry = some e →
    s.operation = some (.read page) → s.page page = ⟨.holds tag, .holds (.data bytes)⟩ →
    s.entry r.key = some e → e.copy c = some d → d.valid = true →
    ∃ t, exec (.readJobPageRead ⟨.clean, .corrected⟩) s = .next t ∧
      t.entry r.key = some (e.setCopy c (some { d with corrections := min 255 (d.corrections + 1) })) ∧
      (s.effective.refreshThreshold ≤ min 255 (d.corrections + 1) →
        t.repairList.any (·.isFor r.key c) = true) ∧
      (min 255 (d.corrections + 1) < s.effective.refreshThreshold → t.repairList = s.repairList) ∧
      t.operation = some (.read next) ∧
      t.running = some { r with stage := .reading c (next :: more) (got ++ bytes) } ∧
      t.ports = s.ports ∧ t.changeSets = s.changeSets) ∧
  (∀ (s : State) (r : RunningJob) (e : Entry) (d : CopyDescriptor) (c : CopyNo) (page : Nat)
    (left : List Nat) (got : List Byte) (p : Port),
    MemoriesCanonical s → s.isReady = true → s.running = some r → r.job.kind = .read →
    r.job.port = some p → r.stage = .reading c (page :: left) got → r.entry = some e →
    s.operation = some (.read page) → s.page page ≠ PageCell.blank →
    s.entry r.key = some e → e.copy c = some d → d.valid = true →
    (∀ d₂ first more, c = .one → e.cls = .mirrored → e.copy2 = some d₂ → d₂.valid = true →
      (d₂.dataPages.drop (r.job.params.offset / 64)).take
        ((r.job.params.offset + min r.job.params.count (e.length - r.job.params.offset) - 1) / 64 -
          r.job.params.offset / 64 + 1) = first :: more →
      ∃ t, exec (.readJobPageRead ⟨.clean, .uncorrectable⟩) s = .next t ∧
        t.entry r.key = some (faultyEntry e c d) ∧ FaultNotified s t r.key e (faultyEntry e c d) ∧
        t.repairList.any (·.isFor r.key c) = true ∧ t.operation = some (.read first) ∧
        t.running = some { r with stage := .reading .two (first :: more) [] } ∧ t.ports = s.ports) ∧
    (¬(c = .one ∧ e.cls = .mirrored ∧ e.copyValid .two = true) →
      ∃ t, exec (.readJobPageRead ⟨.clean, .uncorrectable⟩) s = .next t ∧ JobEnded t ∧
        t.entry r.key = some (faultyEntry e c d) ∧ FaultNotified s t r.key e (faultyEntry e c d) ∧
        PortAnswered s t p true ∧ dataArea t p = List.replicate 64 0 ∧
        resultArea t p = resultBytes (s.port p).go .damaged {}))

/-- The read of a whole copy (R79, R92, R125, R143, R148): a header page that reads CLEAN and agrees with the
entry and the descriptor leads on to the first data page, and a data page to the next; one that reads CORRECTED in a
valid copy leads on too and is charged to the copy, with a refresh asked for at the threshold (R26). At the end of
a copy whose CRC matches: a PRELOAD ends DONE (R92), the slot HELD with the record's bytes in its buffer and a
running lease, and the handle is reported (R91); a RAISE (R79, R126) and a REPAIR (R143, R144) take the bytes for
their content and draw, the RAISE every page of the write with its need off the reservation count, the REPAIR one
copy's without a reservation, and begin to program the first data page, at the version and the copy number written,
or, where ERASED holds too few, to erase the head of the Erase List, and, where that is empty, end NO_SPACE
(R111, R117), as `WriteUndone` and `RepairUndone` say; and a PATROL STEP goes on from copy 1 to a valid copy 2, and
otherwise ends. MODEL'S CHOICE: the level of an uncommitted RAISE is 0 (log 14). -/
def Obligations.SourceReadGoesOn : Prop :=
  (∀ (s : State) (r : RunningJob) (e : Entry) (d : CopyDescriptor) (c : CopyNo) (page next : Nat)
    (more : List Nat) (tag : Tag) (h : HeaderPayload) (command : Instr),
    Sourcing s r e d c none page (next :: more) [] → SourceEvent r ⟨.clean, .clean⟩ command →
    s.page page = ⟨.holds tag, .holds (.header h)⟩ → h.key = e.key → h.version = e.version →
    h.copyNumber = copyNumber c → h.dataPages = d.dataPages →
    exec command s = .next { s with
      operation := some (.read next)
      running := some { r with stage := .source c (some h) (next :: more) [] } }) ∧
  (∀ (s : State) (r : RunningJob) (e : Entry) (d : CopyDescriptor) (c : CopyNo) (h : HeaderPayload)
    (page next : Nat) (more : List Nat) (got bytes : List Byte) (tag : Tag) (command : Instr),
    Sourcing s r e d c (some h) page (next :: more) got →
    s.page page = ⟨.holds tag, .holds (.data bytes)⟩ →
    (SourceEvent r ⟨.clean, .clean⟩ command →
      exec command s = .next { s with
        operation := some (.read next)
        running := some { r with stage := .source c (some h) (next :: more) (got ++ bytes) } }) ∧
    (SourceEvent r ⟨.clean, .corrected⟩ command → d.valid = true →
      ∃ t, exec command s = .next t ∧
        t.entry r.key =
          some (e.setCopy c (some { d with corrections := min 255 (d.corrections + 1) })) ∧
        (s.effective.refreshThreshold ≤ min 255 (d.corrections + 1) →
          t.repairList.any (·.isFor r.key c) = true) ∧
        (min 255 (d.corrections + 1) < s.effective.refreshThreshold →
          t.repairList = s.repairList) ∧
        t.operation = some (.read next) ∧
        t.running = some { r with stage := .source c (some h) (next :: more) (got ++ bytes) } ∧
        t.ports = s.ports ∧ t.changeSets = s.changeSets ∧ t.array = s.array)) ∧
  (∀ (s : State) (r : RunningJob) (e : Entry) (d : CopyDescriptor) (c : CopyNo) (h : HeaderPayload)
    (page : Nat) (got bytes content : List Byte) (tag : Tag) (hd : Handle) (p : Port),
    MemoriesCanonical s → Sourcing s r e d c (some h) page [] got → r.job.kind = .preload →
    r.job.handle = some hd → r.job.port = some p →
    s.page page = ⟨.holds tag, .holds (.data bytes)⟩ → content = (got ++ bytes).take e.length →
    crc32 content = h.crc →
    ∃ t x, exec (.copySourcePageRead ⟨.clean, .clean⟩) s = .next t ∧
      t = settleRetirements { s with
        ports := t.ports, claims := s.claims.set hd.slot x, running := none, operation := none,
        engine := .free } ∧
      x = { s.slot hd.slot with
        state := .held
        buffer := x.buffer
        staged := e.length
        lease := some (s.now + s.effective.portSettings[p].leaseLength * 20) } ∧
      (∀ a, Memory.read x.buffer a =
        if a < content.length then content.getD a 0 else Memory.read (s.slot hd.slot).buffer a) ∧
      PortAnswered s t p false ∧
      resultArea t p = resultBytes (s.port p).go .done
        { slot := hd.slot.val, generation := hd.generation.toNat, base := (s.slot hd.slot).base,
          length := e.length, count := e.length, cls := classCode e.cls, level := levelCode e.level,
          at75 := s.effective.portSettings[p].leaseLength }) ∧
  (∀ (s : State) (r : RunningJob) (e e₀ : Entry) (d : CopyDescriptor) (c : CopyNo) (h : HeaderPayload)
    (page first version count copies number need : Nat) (others : List Nat)
    (got bytes content : List Byte) (tag : Tag) (command : Instr),
    Sourcing s r e d c (some h) page [] got → s.page page = ⟨.holds tag, .holds (.data bytes)⟩ →
    content = (got ++ bytes).take e.length → crc32 content = h.crc →
    (command = .copySourcePageRead ⟨.clean, .clean⟩ ∧ r.job.kind = .writeCopy ∧ number = 1 ∧
        copies = (match e₀.cls with | .single => 1 | .mirrored => 2) ∧ need = r.job.need ∨
      command = .repairSourcePageRead ⟨.clean, .clean⟩ ∧ r.job.kind = .repair ∧
        number = copyNumber r.job.params.copy ∧ copies = 1 ∧ r.job.need = 0 ∧ need = 0) →
    r.entry = some e₀ → r.versionWritten = some version → 1 ≤ r.job.params.length →
    count = copies * (1 + (r.job.params.length + 63) / 64) →
    (s.erased.take count = first :: others → count ≤ s.erased.length →
      ∃ t r', exec command s = .next t ∧
        t = { s with
          reservation := s.reservation - need
          erased := s.erased.drop count
          inWrite := insertAll (first :: others) s.inWrite
          operation := some (.program first
            ⟨.data, r.key, version, number, some 0, some e₀.cls, some r.job.params.level⟩
            (.data (padTo 64 (content.take 64))))
          running := some r' } ∧
        r'.job = r.job ∧ r'.entry = r.entry ∧ r'.versionWritten = some version ∧
        r'.phase = r.phase ∧ r'.failures = r.failures ∧ r'.content = content ∧
        r'.crc = crc32 content ∧ r'.stage = .programming ∧
        r'.drawn.map (·.page) = first :: others ∧ (∀ x ∈ r'.drawn, x.programmed = false)) ∧
    (∀ head k rest, s.erased.length < count → s.eraseList = (head, k) :: rest →
      exec command s = .next { s with
        operation := some (.erase head)
        running := some { r with
          content := content, crc := crc32 content, stage := .drawing count none } }) ∧
    (MemoriesCanonical s → s.erased.length < count → s.eraseList = [] →
      ∃ t, exec command s = .next t ∧ t.reservation = s.reservation - need ∧ t.erased = s.erased ∧
        (∀ p, r.job.kind = .writeCopy → r.phase = .beforeCommit → r.job.port = some p →
          WriteUndone s t r e p .noSpace) ∧
        (r.job.kind = .repair → RepairUndone s t r))) ∧
  (∀ (s : State) (r : RunningJob) (e : Entry) (d : CopyDescriptor) (c : CopyNo) (h : HeaderPayload)
    (page : Nat) (got bytes : List Byte) (tag : Tag),
    Sourcing s r e d c (some h) page [] got → r.job.kind = .patrol →
    s.page page = ⟨.holds tag, .holds (.data bytes)⟩ →
    crc32 ((got ++ bytes).take e.length) = h.crc →
    (∀ d₂, c = .one → e.copy2 = some d₂ → d₂.valid = true →
      exec (.patrolPageRead ⟨.clean, .clean⟩) s = .next { s with
        operation := some (.read d₂.header)
        running := some { r with stage := .source .two none (d₂.header :: d₂.dataPages) [] } }) ∧
    (c = .two ∨ e.copyValid .two = false →
      exec (.patrolPageRead ⟨.clean, .clean⟩) s =
        .next (settleRetirements { s with running := none, operation := none, engine := .free })))

/-- A page that makes the copy of a whole-copy read faulty (`SourceFails`: an UNCORRECTABLE page, a header that
disagrees, a CRC that does not match) makes it invalid (R18), and then (R79, R92, R143): a PRELOAD or a RAISE of
a MIRRORED record whose copy 2 is valid begins again on copy 2; another PRELOAD ends DAMAGED and its slot is
FREE, and the claim field that named it is cleared (R87); another RAISE withdraws its need and ends DAMAGED,
committed no, the record LIVE again; and a REPAIR ends without a copy, having drawn no page, its entry off the
Repair List. MODEL'S CHOICE: the level such a RAISE reports is 0, and so are the other fields no rule has it or the
PRELOAD report (log 14). -/
def Obligations.SourceReadFails : Prop :=
  ∀ (s : State) (r : RunningJob) (e : Entry) (d : CopyDescriptor) (c : CopyNo)
    (header : Option HeaderPayload) (page : Nat) (left : List Nat) (got : List Byte) (o : ReadOutcome),
    MemoriesCanonical s → Sourcing s r e d c header page left got → d.valid = true →
    SourceFails s e d c header page left got o →
    (∀ d₂, r.job.kind = .preload ∨ r.job.kind = .writeCopy →
      c = .one → e.cls = .mirrored → e.copy2 = some d₂ → d₂.valid = true →
      ∃ t, exec (.copySourcePageRead o) s = .next t ∧ t.entry r.key = some (faultyEntry e c d) ∧
        t.repairList.any (·.isFor r.key c) = true ∧ t.operation = some (.read d₂.header) ∧
        t.running =
          some { r with stage := .source .two none (d₂.header :: d₂.dataPages) [] } ∧
        t.ports = s.ports ∧ t.changeSets = s.changeSets ∧ t.claims = s.claims) ∧
    (¬(c = .one ∧ e.cls = .mirrored ∧ e.copyValid .two = true) →
      (∀ hd p, r.job.kind = .preload → r.job.handle = some hd → r.job.port = some p →
        ∃ t e', exec (.copySourcePageRead o) s = .next t ∧ JobEnded t ∧ t.entry r.key = some e' ∧
          (e' = faultyEntry e c d ∨ e' = { faultyEntry e c d with claim := none }) ∧
          (ClaimOf s r.key e hd → e' = { faultyEntry e c d with claim := none }) ∧
          FaultNotified s t r.key e (faultyEntry e c d) ∧ t.claims = released s hd ∧
          PortAnswered s t p false ∧ resultArea t p = resultBytes (s.port p).go .damaged {}) ∧
      (∀ p, r.job.kind = .writeCopy → r.job.cause = some .raise → r.job.handle = none →
        r.job.port = some p → e.version ≠ 0 →
        ∃ t, exec (.copySourcePageRead o) s = .next t ∧ JobEnded t ∧
          t.entry r.key = some { faultyEntry e c d with lifecycle := .live } ∧
          FaultNotified s t r.key e (faultyEntry e c d) ∧
          t.reservation = s.reservation - r.job.need ∧ t.erased = s.erased ∧ t.claims = s.claims ∧
          PortAnswered s t p false ∧ resultArea t p = resultBytes (s.port p).go .damaged {})) ∧
    (r.job.kind = .repair →
      ∃ t, exec (.repairSourcePageRead o) s = .next t ∧ JobEnded t ∧
        t.entry r.key = some (faultyEntry e c d) ∧ FaultNotified s t r.key e (faultyEntry e c d) ∧
        t.erased = s.erased ∧ t.ports = s.ports ∧ t.array = s.array ∧
        ∀ y ∈ t.repairList, y.isFor r.key r.job.params.copy = true →
          y.cause = .lost ∧ y.running = false)

/-- A page of a patrol step that makes its copy faulty (`SourceFails`: it reads UNCORRECTABLE, it is a header that
disagrees, or the CRC does not match after the last page) makes it invalid (R18, R25, R148): the integrity follows;
a record that becomes DEGRADED has a LOST entry for the copy on the Repair List, where no entry of the pair is
running (R138); one that becomes DAMAGED is notified with no causing port; and the step goes on from copy 1 to the
header of a valid copy 2, and otherwise ends. A page that reads CORRECTED, in a copy that is valid, adds one to the
copy's correction count, up to 255, and at the refresh threshold asks for a refresh (R26, R138). -/
def Obligations.PatrolReportsCopies : Prop :=
  (∀ (s : State) (r : RunningJob) (e : Entry) (d : CopyDescriptor) (c : CopyNo)
    (header : Option HeaderPayload) (page : Nat) (left : List Nat) (got : List Byte)
    (o : ReadOutcome),
    Sourcing s r e d c header page left got → r.job.kind = .patrol → d.valid = true →
    SourceFails s e d c header page left got o →
    ∃ t, exec (.patrolPageRead o) s = .next t ∧ t.entry r.key = some (faultyEntry e c d) ∧
      FaultNotified s t r.key e (faultyEntry e c d) ∧
      ((faultyEntry e c d).integrity = .degraded →
        t.repairList.any (·.isFor r.key c) = true ∧
        ((∀ x ∈ s.repairList, x.isFor r.key c = true → x.running = false) →
          ⟨r.key, e.version, c, .lost, false, false⟩ ∈ t.repairList)) ∧
      ((faultyEntry e c d).integrity = .damaged → t.repairList = s.repairList) ∧
      t.ports = s.ports ∧ t.array = s.array ∧ t.erased = s.erased ∧
      (∀ d₂, c = .one → e.copy2 = some d₂ → d₂.valid = true →
        t.operation = some (.read d₂.header) ∧
        t.running = some { r with stage := .source .two none (d₂.header :: d₂.dataPages) [] }) ∧
      (c = .two ∨ e.copyValid .two = false → JobEnded t)) ∧
  (∀ (s : State) (r : RunningJob) (e : Entry) (d : CopyDescriptor) (c : CopyNo) (h : HeaderPayload)
    (page next : Nat) (more : List Nat) (got bytes : List Byte) (tag : Tag),
    Sourcing s r e d c (some h) page (next :: more) got → r.job.kind = .patrol → d.valid = true →
    s.page page = ⟨.holds tag, .holds (.data bytes)⟩ →
    ∃ t, exec (.patrolPageRead ⟨.clean, .corrected⟩) s = .next t ∧
      t.entry r.key = some (e.setCopy c (some { d with corrections := min 255 (d.corrections + 1) })) ∧
      (s.effective.refreshThreshold ≤ min 255 (d.corrections + 1) →
        t.repairList.any (·.isFor r.key c) = true) ∧
      (min 255 (d.corrections + 1) < s.effective.refreshThreshold →
        t.repairList = s.repairList) ∧
      t.operation = some (.read next) ∧ t.changeSets = s.changeSets ∧ t.array = s.array)

/-- A data page programmed (R104, R106, R107, R124, R127, R144): the page holds what was programmed, its
Programmed field is yes, and the next page of the job is programmed: a data page with its share of the
content, or a header with the next write sequence number. -/
def Obligations.ProgramGoesOn : Prop :=
  ∀ (s : State) (r r' : RunningJob) (d d' : DrawnPage) (tag : Tag) (payload : Payload) (c c' : CopyNo)
    (i : Nat) (command : Instr),
    PageArray.wf s.array → Programming s r d tag payload → d.role = .data c i →
    (command = .dataPageProgramDone true ∧ r.job.kind = .writeCopy ∨
      command = .repairPageProgramDone true ∧ r.job.kind = .repair) →
    r' = markProgrammed r d →
    currentPage r' = some d' →
    (∀ i', d'.role = .data c' i' →
      ∃ t, exec command s = .next t ∧ t.page d.page = ⟨.holds tag, .holds payload⟩ ∧
        (∀ n, n ≠ d.page → t.page n = s.page n) ∧
        t = { s with
          array := t.array
          running := some r'
          operation := some (.program d'.page
            ⟨.data, r.key, r.versionWritten.getD 0, copyNumber c', some i', some r.cls,
              some r.job.params.level⟩
            (.data (padTo 64 ((r.content.drop (64 * i')).take 64)))) }) ∧
    (∀ n, d'.role = .header c' → s.sequenceCounter = some n →
      ∃ t, exec command s = .next t ∧ t.page d.page = ⟨.holds tag, .holds payload⟩ ∧
        t = { s with
          array := t.array
          running := some r'
          sequenceCounter := if 4294967295 ≤ n then none else some (n + 1)
          operation := some (.program d'.page
            ⟨.header, r.key, r.versionWritten.getD 0, copyNumber c', none, some r.cls,
              some r.job.params.level⟩
            (.header ⟨r.key, r.versionWritten.getD 0, copyNumber c', r.cls, r.job.params.level,
              r.entry.bind (·.owner), r.job.params.length, (r.job.params.length + 63) / 64,
              dataPagesOf r' c', r.crc, n⟩)) })

/-- A page program that fails, before the third failure of its job (R130): the page goes from IN_WRITE to the
Erase List with the key, and the head of ERASED takes over its role and is programmed in its place, with no page
reserved: a data page with its own tag and content, also while the counter is exhausted, a header with the next
write sequence number; with ERASED empty, the head of the Erase List is erased first. A CREATE, WRITE, RAISE or COMMIT that can program no further page
(`WriteEnds`: a third failure, or a header while the counter is exhausted, R124) ends, before its commit point, with
ARRAY_FAULT or EXHAUSTED and committed no, as `WriteUndone` says (R15, R28, R73, R87, R101, R129), and, after it,
DONE with copy 2 pending and a LOST entry for copy 2 on the Repair List, as `CopyPending` says (R29, R129, R138). A
RETIRE ends as `RetireUndone` says (R16, R82, R131), at its third failure, at a replacement's header, or at its
start, while the counter is exhausted. A REPAIR ends without a copy, as `RepairUndone` says, at its third failure or
at its header while the counter is exhausted (R124, R144). In each of these the failed page goes to the Erase List
too. A header that is drawn after an on-demand erase, while the counter is exhausted, ends its job in the same ways
(`JobFails`). MODEL'S CHOICE: the level of an uncommitted RAISE or COMMIT is 0 (log 14); a version 0 entry with copies
(log 30). -/
def Obligations.ProgramFailures : Prop :=
  (∀ (s : State) (r : RunningJob) (d : DrawnPage) (tag : Tag) (payload : Payload) (command : Instr)
    (c : CopyNo),
    Programming s r d tag payload → r.failures < 2 →
    (command = .dataPageProgramDone false ∧ r.job.kind = .writeCopy ∧ (∃ i, d.role = .data c i) ∨
      command = .headerProgramFailure ∧ r.job.kind = .writeCopy ∧ d.role = .header c ∨
      command = .headerProgramFailure ∧ r.job.kind = .retire ∧ d.role = .retirement ∨
      command = .repairPageProgramDone false ∧ r.job.kind = .repair ∧
        (d.role = .header c ∨ ∃ i, d.role = .data c i)) →
    (∀ fresh rest, s.erased = fresh :: rest →
      s.sequenceCounter ≠ none ∨ (∃ i, d.role = .data c i) →
      ∃ t r' tag' payload', exec command s = .next t ∧ t.erased = rest ∧
        t.inWrite = insertNat fresh (s.inWrite.filter fun n => n ≠ d.page) ∧
        t.eraseList = s.eraseList ++ [(d.page, some r.key)] ∧ t.reservation = s.reservation ∧
        t.running = some r' ∧ r'.failures = r.failures + 1 ∧
        currentPage r' = some { d with page := fresh } ∧
        t.operation = some (.program fresh tag' payload') ∧ tag'.key = r.key ∧
        tag'.version = r.versionWritten.getD 0 ∧
        (∀ i, d.role = .data c i →
          tag' = ⟨.data, r.key, r.versionWritten.getD 0, copyNumber c, some i, some r.cls,
            some r.job.params.level⟩ ∧
          payload' = .data (padTo 64 ((r.content.drop (64 * i)).take 64)) ∧
          t.sequenceCounter = s.sequenceCounter) ∧
        (∀ n, d.role = .header c → s.sequenceCounter = some n →
          tag' = ⟨.header, r.key, r.versionWritten.getD 0, copyNumber c, none, some r.cls,
            some r.job.params.level⟩ ∧
          payload' = .header ⟨r.key, r.versionWritten.getD 0, copyNumber c, r.cls,
            r.job.params.level, r.entry.bind (·.owner), r.job.params.length,
            (r.job.params.length + 63) / 64, dataPagesOf r' c, r.crc, n⟩ ∧
          t.sequenceCounter = if 4294967295 ≤ n then none else some (n + 1)) ∧
        (∀ n, d.role = .retirement → s.sequenceCounter = some n →
          tag' = ⟨.retire, r.key, r.versionWritten.getD 0, 1, none, some r.cls,
            some r.job.params.level⟩ ∧
          payload' = .retire r.key (r.versionWritten.getD 0) n ∧
          t.sequenceCounter = if 4294967295 ≤ n then none else some (n + 1)) ∧
        t.directory = s.directory ∧ t.ports = s.ports) ∧
    (∀ head k rest, s.erased = [] →
      s.eraseList ++ [(d.page, some r.key)] = (head, k) :: rest →
      ∃ t, exec command s = .next t ∧ (∀ n, n ≠ d.page → t.page n = s.page n) ∧
        t = { s with
          array := t.array
          freeIndex := s.freeIndex + 1
          inWrite := s.inWrite.filter fun n => n ≠ d.page
          eraseList := (head, k) :: rest
          retirementList := s.retirementList.map fun x =>
            if x.key = r.key then { x with outstanding := x.outstanding + 1 } else x
          operation := some (.erase head)
          running := some { r with
            failures := r.failures + 1, stage := .drawing 1 (some d.role) } })) ∧
  (∀ (s : State) (r : RunningJob) (d : DrawnPage) (tag : Tag) (payload : Payload) (e : Entry)
    (p : Port) (command : Instr) (refusal : Completion),
    MemoriesCanonical s → Programming s r d tag payload → r.job.kind = .writeCopy →
    r.phase = .beforeCommit → WriteEnds s r d .one command refusal → r.job.port = some p →
    s.entry r.key = some e →
    ∃ t, exec command s = .next t ∧ WriteUndone s t r e p refusal ∧
      (command ≠ .dataPageProgramDone true → (d.page, some r.key) ∈ t.eraseList)) ∧
  (∀ (s : State) (r : RunningJob) (d : DrawnPage) (tag : Tag) (payload : Payload) (e : Entry) (p : Port)
    (refusal : Completion),
    MemoriesCanonical s → Programming s r d tag payload → d.role = .retirement →
    (r.failures = 2 ∧ refusal = .arrayFault ∨
      r.failures < 2 ∧ s.sequenceCounter = none ∧ s.erased ≠ [] ∧ refusal = .exhausted) →
    r.job.kind = .retire → r.phase = .beforeCommit → r.job.port = some p →
    r.job.cause = some .retire → r.job.handle = none → s.entry r.key = some e →
    ∃ t, exec .headerProgramFailure s = .next t ∧ RetireUndone s t r.key e p refusal ∧
      (d.page, some r.key) ∈ t.eraseList) ∧
  (∀ (s : State) (j : Job) (rest : List Job) (k : Key) (e : Entry) (p : Port) (page : Nat)
    (others : List Nat),
    MemoriesCanonical s → s.isReady = true → s.engine = .free → s.jobQueue = j :: rest →
    j.kind = .retire → j.target = some (.record k) → j.port = some p → j.cause = some .retire →
    j.handle = none → s.entry k = some e → s.erased = page :: others → s.sequenceCounter = none →
    ∃ t, exec .jobSelect s = .next t ∧ RetireUndone s t k e p .exhausted ∧ t.jobQueue = rest ∧
      t.erased = others ∧ (page, some k) ∈ t.eraseList ∧ t.reservation = s.reservation - j.need) ∧
  (∀ (s : State) (r : RunningJob) (d : DrawnPage) (tag : Tag) (payload : Payload) (e : Entry) (p : Port)
    (v : Nat) (command : Instr) (cause : Completion),
    MemoriesCanonical s → Programming s r d tag payload → r.job.kind = .writeCopy →
    r.phase = .afterCommit → WriteEnds s r d .two command cause → r.job.port = some p →
    s.entry r.key = some e → r.versionWritten = some v →
    ∃ t, exec command s = .next t ∧ CopyPending s t r e p v ∧
      (command ≠ .dataPageProgramDone true → (d.page, some r.key) ∈ t.eraseList)) ∧
  (∀ (s : State) (r : RunningJob) (d : DrawnPage) (tag : Tag) (payload : Payload) (success : Bool),
    Programming s r d tag payload → r.job.kind = .repair →
    (success = false ∧ r.failures = 2 ∨
      success = true ∧ s.sequenceCounter = none ∧
        (∃ d' c, currentPage (markProgrammed r d) = some d' ∧ d'.role = .header c) ∨
      success = false ∧ r.failures < 2 ∧ s.sequenceCounter = none ∧ s.erased ≠ [] ∧
        ∃ c, d.role = .header c) →
    ∃ t, exec (.repairPageProgramDone success) s = .next t ∧ RepairUndone s t r ∧
      (success = false → (d.page, some r.key) ∈ t.eraseList)) ∧
  (∀ (s : State) (r : RunningJob) (role : Option PageRole) (page : Nat) (k : Option Key)
    (rest : List (Nat × Option Key)),
    MemoriesCanonical s → s.isReady = true → s.running = some r → r.stage = .drawing 1 role →
    s.operation = some (.erase page) → s.eraseList = (page, k) :: rest → s.erased = [] →
    s.sequenceCounter = none →
    (role = none ∧ r.job.kind = .retire ∨
      ∃ d c, currentPage r = some d ∧ role = some d.role ∧ (d.role = .header c ∨ d.role = .retirement)) →
    ∃ t, exec (.eraseComplete true) s = .next t ∧ JobFails s t r .exhausted ∧
      (page, some r.key) ∈ t.eraseList ∧ t.erased = [] ∧
      t.reservation = (if role = none then s.reservation - r.job.need else s.reservation))

/-- COMMIT_POINT (R29, R77, R128): the header page holds what was programmed; the entry takes the new
version, length and level and copy 1, is SOUND and has no copy 2 until it is installed; the old pages go to
the Erase List with the key; at a first write under a retired key the Retirement List loses the key's entry, whose
header, where it was not released, goes from LIVE to the Erase List after those pages (R73, R115); the key's Repair
List entries below the new version are superseded, and the list is otherwise as it was (R140); and every port the
notice reaches has it in its Change Set. A MIRRORED record's lifecycle and claim field stay as they are, WRITING
among them, copy 1's pages are LIVE, the job is in the phase after its commit point, with its header page marked
programmed, and goes on to program copy 2's first data page (R127); the caller has no answer yet, and its claim
stands. -/
def Obligations.CommitPointInstallsVersion : Prop :=
  ∀ (s : State) (r : RunningJob) (d : DrawnPage) (tag : Tag) (payload : Payload) (e : Entry) (v : Nat),
    PageArray.wf s.array → Programming s r d tag payload → d.role = .header .one →
    r.job.kind = .writeCopy → s.entry r.key = some e → r.versionWritten = some v →
    (∀ hd, r.job.handle = some hd → (s.slot hd.slot).target = some (.record r.key)) →
    (r.cls = .mirrored →
      ∃ d' i, currentPage (markProgrammed r d) = some d' ∧ d'.role = .data .two i) →
    ∃ t e', exec .commitPoint s = .next t ∧ t.page d.page = ⟨.holds tag, .holds payload⟩ ∧
      t.entry r.key = some e' ∧ e'.version = v ∧ e'.length = r.job.params.length ∧
      e'.level = r.job.params.level ∧ e'.integrity = .sound ∧ e'.owner = e.owner ∧ e'.cls = e.cls ∧
      e'.copy1 = some ⟨headerPageOf r .one, dataPagesOf r .one, true, 0⟩ ∧
      e'.copy2 = none ∧
      (∀ page ∈ entryPages e, (page, some r.key) ∈ t.eraseList) ∧
      (∀ x, e.version = 0 → s.retirement r.key = some x →
        (∀ y ∈ t.retirementList, y.key ≠ r.key) ∧
        (x.released = false → x.header ∉ t.live ∧
          ∃ later, t.eraseList = s.eraseList ++ (entryPages e).map (fun n => (n, some r.key)) ++
            [(x.header, some r.key)] ++ later)) ∧
      (t.repairList = s.repairList.map fun x =>
        if x.key = r.key ∧ x.version < v then { x with superseded := true } else x) ∧
      (∀ p, t.changes p =
        if delivered s.watches r.key r.job.port p = true
        then deliver (s.changes p) ⟨r.key, if e.version = 0 then .created else .updated, v⟩
        else s.changes p) ∧
      (∀ k, k ≠ r.key → t.entry k = s.entry k) ∧
      (∀ d' i, r.cls = .mirrored → currentPage (markProgrammed r d) = some d' → d'.role = .data .two i →
        e'.lifecycle = e.lifecycle ∧ e'.claim = e.claim ∧ t.claims = s.claims ∧ t.ports = s.ports ∧
        t.engine = s.engine ∧ t.jobQueue = s.jobQueue ∧ t.erased = s.erased ∧ t.bad = s.bad ∧
        t.sequenceCounter = s.sequenceCounter ∧ t.reservation = s.reservation ∧
        (∀ page ∈ headerPageOf r .one :: dataPagesOf r .one, page ∉ t.inWrite ∧
          ((∀ x, e.version = 0 → s.retirement r.key = some x → x.header ≠ page) → page ∈ t.live)) ∧
        t.running = some { markProgrammed r d with phase := .afterCommit } ∧
        t.operation = some (.program d'.page
          ⟨.data, r.key, v, 2, some i, some r.cls, some r.job.params.level⟩
          (.data (padTo 64 ((r.content.drop (64 * i)).take 64)))))

/-- The end DONE of a write (R29, R63, R87, R101, R129): at the commit point of a SINGLE record, and at
COPY_2_INSTALLED for a MIRRORED one, the entry is LIVE, with copy 2 installed there valid and with no corrections,
the job has ended, and the caller is answered DONE, committed yes, with the version installed; of a CREATE the class
and the level taken are reported too (R73), and of a RAISE the level installed (R79); of a COMMIT, the slot is
released COMMITTED, with no release record, the entry has no claim, and level, base version, class and length are
reported too (`Reports`). -/
def Obligations.WriteAndCommitEndDone : Prop :=
  (∀ (s : State) (r : RunningJob) (d : DrawnPage) (tag : Tag) (payload : Payload) (e : Entry) (v : Nat)
    (p : Port) (command : Instr) (result : Result),
    MemoriesCanonical s → Programming s r d tag payload → r.job.kind = .writeCopy →
    s.entry r.key = some e → r.versionWritten = some v → r.job.port = some p →
    Reports s r true false v result →
    r.job.handle = none →
    (command = .commitPoint ∧ d.role = .header .one ∧ r.cls = .single ∨
      command = .copy2Installed ∧ d.role = .header .two) →
    ∃ t e', exec command s = .next t ∧ JobEnded t ∧ t.page d.page = ⟨.holds tag, .holds payload⟩ ∧
      t.entry r.key = some e' ∧ e'.lifecycle = .live ∧ e'.claim = e.claim ∧
      (command = .copy2Installed →
        e' = { e with
          lifecycle := .live
          copy2 := some ⟨headerPageOf r .two, dataPagesOf r .two, true, 0⟩ }) ∧
      PortAnswered s t p false ∧ t.claims = s.claims ∧
      resultArea t p = resultBytes (s.port p).go .done result) ∧
  (∀ (s : State) (r : RunningJob) (d : DrawnPage) (tag : Tag) (payload : Payload) (e : Entry) (v : Nat)
    (p : Port) (hd : Handle) (command : Instr),
    MemoriesCanonical s → Programming s r d tag payload → r.job.kind = .writeCopy →
    s.entry r.key = some e → r.versionWritten = some v → r.job.port = some p →
    (r.job.cause = some .commitRecord ∨ r.job.cause = some .commitCreate) →
    r.job.handle = some hd → e.claim = some hd → (s.slot hd.slot).generation = hd.generation →
    (s.slot hd.slot).target = some (.record r.key) →
    (command = .commitPoint ∧ d.role = .header .one ∧ r.cls = .single ∨
      command = .copy2Installed ∧ d.role = .header .two) →
    ∃ t e', exec command s = .next t ∧ JobEnded t ∧ t.page d.page = ⟨.holds tag, .holds payload⟩ ∧
      t.entry r.key = some e' ∧ e'.lifecycle = .live ∧ e'.claim = none ∧
      (command = .copy2Installed →
        e' = { e with
          lifecycle := .live
          claim := none
          copy2 := some ⟨headerPageOf r .two, dataPagesOf r .two, true, 0⟩ }) ∧
      t.claims = s.claims.set hd.slot { s.slot hd.slot with
        state := .free, lease := none, lapsed := none } ∧
      PortAnswered s t p false ∧
      resultArea t p = resultBytes (s.port p).go .done
        { committed := true, version := v, level := levelCode r.job.params.level,
          base := (s.slot hd.slot).base, cls := classCode r.job.params.cls,
          length := r.job.params.length })

/-- RETIREMENT_COMMIT_POINT (R28, R82, R114, R132): the key has no entry, the Retirement List has one with
the header page and the retired version, the record's pages go to the Erase List with the key, the RETIRED
notice is sent, and the caller is answered DONE, committed yes, with the retired version. The Retirement List
entry's outstanding count is that of the pages bearing the key on the Erase List and in BAD (R114). -/
def Obligations.RetirementRemovesRecord : Prop :=
  ∀ (s : State) (r : RunningJob) (d : DrawnPage) (tag : Tag) (payload : Payload) (e : Entry) (v : Nat)
    (p : Port),
    MemoriesCanonical s → Programming s r d tag payload → r.job.kind = .retire →
    s.entry r.key = some e → r.versionWritten = some v → r.job.port = some p →
    r.job.cause = some .retire →
    ∃ t, exec .retirementCommitPoint s = .next t ∧ JobEnded t ∧
      t.page d.page = ⟨.holds tag, .holds payload⟩ ∧ t.entry r.key = none ∧
      (∀ k, k ≠ r.key → t.entry k = s.entry k) ∧
      (∃ x ∈ t.retirementList, x.key = r.key ∧ x.header = d.page ∧ x.version = v ∧
        (entryPages e ≠ [] → x.released = false ∧
          x.outstanding = (entryPages e).length +
            ((s.eraseList ++ s.bad).filter fun y => y.2 == some r.key).length)) ∧
      (∀ page ∈ entryPages e, (page, some r.key) ∈ t.eraseList) ∧
      (∀ x ∈ t.repairList, x.key = r.key → x.superseded = true) ∧
      (∀ q, t.changes q =
        if delivered s.watches r.key (some p) q = true
        then deliver (s.changes q) ⟨r.key, .retired, v⟩ else s.changes q) ∧
      PortAnswered s t p false ∧
      resultArea t p = resultBytes (s.port p).go .done { committed := true, version := v }

/-- The header program of a REPAIR job (R31, R144, R145): the copy is installed valid with a correction
count of 0, the integrity follows, the pages of the copy it replaces go to the Erase List with the key, the
job ends, and no Repair List entry for the copy is left. -/
def Obligations.RepairInstallsCopy : Prop :=
  ∀ (s : State) (r : RunningJob) (d : DrawnPage) (tag : Tag) (payload : Payload) (e : Entry)
    (c : CopyNo),
    PageArray.wf s.array → Programming s r d tag payload → r.job.kind = .repair →
    r.job.params.copy = c → s.entry r.key = some e → (e.cls = .single → c = .one) →
    currentPage (markProgrammed r d) = none →
    ∃ t, exec (.repairPageProgramDone true) s = .next t ∧ JobEnded t ∧
      t.page d.page = ⟨.holds tag, .holds payload⟩ ∧
      t.entry r.key =
        some (e.setCopy c (some ⟨headerPageOf r c, dataPagesOf r c, true, 0⟩)).judged ∧
      (∀ page ∈ descriptorPages (e.copy c), (page, some r.key) ∈ t.eraseList) ∧
      t.repairList.any (·.isFor r.key c) = false ∧ t.ports = s.ports ∧ t.changeSets = s.changeSets

/-- ERASE_COMPLETE of an ERASE job (R113, R133): a success puts the page, erased, at the tail of ERASED and
lowers its key's outstanding count by one; a failure puts it in BAD with its key; either ends the job. The
on-demand erases of a draw (R111, R116, R117): a write or a retirement that finds too few pages in ERASED
erases the head of the Erase List; an erase that leaves still too few is followed by the erase of the next
head; one that leaves enough is followed by the draw, of an allocation or of a replacement page, and its first
program. Where ERASED is too small and nothing is left to erase, at the start of the job or after an on-demand
erase, the draw fails: a CREATE, WRITE, RAISE, COMMIT or RETIRE before its commit point ends NO_SPACE, committed no,
as `WriteUndone` and `RetireUndone` say, the need of an allocation withdrawn; a write after its commit point, whose
draw is a replacement, ends DONE with copy 2 pending and a LOST entry, as `CopyPending` says; and a REPAIR ends
without a copy, as `RepairUndone` says. (The source read of a RAISE or a REPAIR: `SourceReadGoesOn`.) MODEL'S CHOICE:
the level of an uncommitted RAISE or COMMIT is 0 (log 14); a version 0 entry with copies (log 30). -/
def Obligations.ErasesMovePages : Prop :=
  (∀ (s : State) (r : RunningJob) (page : Nat) (k : Option Key) (rest : List (Nat × Option Key)),
    PageArray.wf s.array → s.isReady = true → s.running = some r → r.stage = .erasing →
    s.operation = some (.erase page) → s.eraseList = (page, k) :: rest →
    (∃ t, exec (.eraseComplete true) s = .next t ∧ t.page page = PageCell.blank ∧
      (∀ n, n ≠ page → t.page n = s.page n) ∧
      t = settleRetirements { s with
        array := t.array, eraseList := rest, erased := s.erased ++ [page],
        retirementList := loweredFor k s.retirementList, running := none, operation := none,
        engine := .free }) ∧
    (∃ t, exec (.eraseComplete false) s = .next t ∧ (∀ n, n ≠ page → t.page n = s.page n) ∧
      t = settleRetirements { s with
        array := t.array, freeIndex := s.freeIndex + 1, eraseList := rest,
        bad := s.bad ++ [(page, k)], running := none, operation := none, engine := .free })) ∧
  (∀ (s : State) (j : Job) (others : List Job) (k : Key) (e : Entry) (count page : Nat)
    (k' : Option Key) (rest : List (Nat × Option Key)),
    s.isReady = true → s.engine = .free → s.jobQueue = j :: others → j.target = some (.record k) →
    s.entry k = some e →
    (j.kind = .writeCopy ∧ j.cause ≠ some .raise ∧
        count = (match e.cls with | .single => 1 | .mirrored => 2) *
          (1 + (j.params.length + 63) / 64) ∨
      j.kind = .retire ∧ count = 1) →
    s.erased.length < count → s.eraseList = (page, k') :: rest →
    ∃ t r, exec .jobSelect s = .next t ∧ r.stage = .drawing count none ∧ r.drawn = [] ∧
      r.phase = .beforeCommit ∧ r.entry = some e ∧ r.job.target = j.target ∧ r.job.need = j.need ∧
      t = { s with
        jobQueue := others, engine := .running, operation := some (.erase page)
        running := some r }) ∧
  (∀ (s : State) (r : RunningJob) (count : Nat) (role : Option PageRole) (page : Nat)
    (k : Option Key) (rest : List (Nat × Option Key)),
    PageArray.wf s.array → s.isReady = true → s.running = some r → r.stage = .drawing count role →
    s.operation = some (.erase page) → s.eraseList = (page, k) :: rest →
    (∀ next k' more, rest = (next, k') :: more →
      (s.erased.length + 1 < count → ∃ t, exec (.eraseComplete true) s = .next t ∧
        t.page page = PageCell.blank ∧
        t = { s with
          array := t.array, eraseList := rest, erased := s.erased ++ [page],
          retirementList := loweredFor k s.retirementList, operation := some (.erase next) }) ∧
      (s.erased.length < count → ∃ t, exec (.eraseComplete false) s = .next t ∧
        t = { s with
          array := t.array, freeIndex := s.freeIndex + 1, eraseList := rest,
          bad := s.bad ++ [(page, k)], operation := some (.erase next) })) ∧
    (s.erased.length + 1 = count → role = none → count = (allocationRoles r).length →
      s.sequenceCounter ≠ none ∨ r.job.kind ≠ .retire ∧ 1 ≤ r.job.params.length →
      ∃ t r' first tag payload, exec (.eraseComplete true) s = .next t ∧
        (s.erased ++ [page]).head? = some first ∧ t.operation = some (.program first tag payload) ∧
        tag.key = r.key ∧ t.running = some r' ∧ r'.stage = .programming ∧
        r'.drawn.map (·.page) = s.erased ++ [page] ∧ r'.drawn.map (·.role) = allocationRoles r ∧
        (∀ d ∈ r'.drawn, d.programmed = false) ∧
        t.erased = [] ∧ t.inWrite = insertAll (s.erased ++ [page]) s.inWrite ∧ t.eraseList = rest ∧
        t.reservation = s.reservation - r.job.need ∧ t.directory = s.directory) ∧
    (∀ d, s.erased = [] → count = 1 → currentPage r = some d → role = some d.role →
      s.sequenceCounter ≠ none ∨ (∃ c i, d.role = .data c i) →
      ∃ t r' tag payload, exec (.eraseComplete true) s = .next t ∧
        t.operation = some (.program page tag payload) ∧ tag.key = r.key ∧ t.running = some r' ∧
        r'.stage = .programming ∧ currentPage r' = some { d with page := page } ∧ t.erased = [] ∧
        t.inWrite = insertNat page s.inWrite ∧ t.eraseList = rest ∧
        t.reservation = s.reservation ∧ t.directory = s.directory) ∧
    (∀ success : Bool, MemoriesCanonical s → rest = [] →
      s.erased.length + (if success then 1 else 0) < count →
      ∃ t, exec (.eraseComplete success) s = .next t ∧
        t.reservation = (if role = none then s.reservation - r.job.need else s.reservation) ∧
        t.erased = s.erased ++ (if success then [page] else []) ∧
        t.bad = s.bad ++ (if success then [] else [(page, k)]) ∧ JobFails s t r .noSpace)) ∧
  (∀ (s : State) (j : Job) (others : List Job) (k : Key) (e : Entry) (p : Port),
    MemoriesCanonical s → s.isReady = true → s.engine = .free → s.jobQueue = j :: others →
    j.target = some (.record k) → j.port = some p → s.entry k = some e → s.eraseList = [] →
    (j.kind = .writeCopy → j.cause ≠ some .raise →
      s.erased.length < (match e.cls with | .single => 1 | .mirrored => 2) *
        (1 + (j.params.length + 63) / 64) →
      ∃ t, exec .jobSelect s = .next t ∧ WriteUndone s t (newRun j (some e)) e p .noSpace ∧
        t.jobQueue = others ∧ t.erased = s.erased ∧ t.reservation = s.reservation - j.need) ∧
    (j.kind = .retire → j.cause = some .retire → j.handle = none → s.erased = [] →
      ∃ t, exec .jobSelect s = .next t ∧ RetireUndone s t k e p .noSpace ∧
        t.jobQueue = others ∧ t.erased = [] ∧ t.reservation = s.reservation - j.need))

/-- A CONFIG WRITE (R56) starts with the choice of its target, copy B (pages 4 to 7) where copy A is the newest
valid copy and copy A (pages 0 to 3) in every other case; the target's state is set to INVALID and the erase of its
first page begins. Equal sequence numbers are left out (log 26). CONFIG_PAGE_OPERATION_DONE (R56, R57): the erases
of a CONFIG WRITE follow one another on the target copy's pages, the two data programs follow them, and the header program, with a write sequence number drawn for it,
follows those; while the counter is exhausted the job ends EXHAUSTED instead (R124). The first failure of any
of the seven operations ends it ARRAY_FAULT with committed no, the stored image and sequence as they were.
CONFIGURATION_COMMIT_POINT (R51, R55, R56): the target copy is VALID with the number its header carries, the
stored image and sequence are the job's, the effective configuration and the configuration state stay, and the
COMMIT completes DONE with the new stored sequence. MODEL'S CHOICE: that its other result fields are 0 (log 15),
and the version written of the job's record is absent (log 28). -/
def Obligations.ConfigWriteRuns : Prop :=
  (∀ (s : State) (j : Job) (rest : List Job) (copy : CopyNo), s.isReady = true → s.engine = .free →
    s.jobQueue = j :: rest → j.kind = .configWrite →
    ((∃ n, s.copyStateA = .valid n ∧ ∀ m, s.copyStateB = .valid m → m < n) ∧ copy = .two ∨
      (∀ n, s.copyStateA = .valid n → ∃ m, s.copyStateB = .valid m ∧ n < m) ∧ copy = .one) →
    exec .jobSelect s = .next { s with
      jobQueue := rest
      engine := .running
      copyStateA := if copy = .one then .invalid else s.copyStateA
      copyStateB := if copy = .two then .invalid else s.copyStateB
      operation := some (.erase (if copy = .one then 0 else 4))
      running := some { newRun { j with params := { j.params with copy := copy } } none with
        content := j.params.content
        crc := crc32 j.params.content
        stage := .config 0 } }) ∧
  (∀ (s : State) (r : RunningJob) (step page : Nat),
    PageArray.wf s.array → s.isReady = true → s.running = some r → r.job.kind = .configWrite →
    r.stage = .config step → s.operation = some (.erase page) →
    (step < 3 →
      ∃ t, exec (.configPageOperationDone true) s = .next t ∧ t.page page = PageCell.blank ∧
        t = { s with
          array := t.array
          operation := some (.erase (configBase r.job.params.copy + (step + 1)))
          running := some { r with stage := .config (step + 1) } }) ∧
    (step = 3 →
      ∃ t, exec (.configPageOperationDone true) s = .next t ∧ t.page page = PageCell.blank ∧
        t = { s with
          array := t.array
          operation := some (.program (configBase r.job.params.copy + 1)
            ⟨.config, ⟨0, 0⟩, 0, copyNumber r.job.params.copy, some 0, none, none⟩
            (.data (padTo 64 (r.content.take 64))))
          running := some { r with stage := .config 4 } })) ∧
  (∀ (s : State) (r : RunningJob) (step page : Nat) (tag : Tag) (payload : Payload),
    PageArray.wf s.array → s.isReady = true → s.running = some r → r.job.kind = .configWrite →
    r.stage = .config step → s.operation = some (.program page tag payload) →
    (step = 4 →
      ∃ t, exec (.configPageOperationDone true) s = .next t ∧
        t.page page = ⟨.holds tag, .holds payload⟩ ∧
        t = { s with
          array := t.array
          operation := some (.program (configBase r.job.params.copy + 2)
            ⟨.config, ⟨0, 0⟩, 0, copyNumber r.job.params.copy, some 1, none, none⟩
            (.data (padTo 64 ((r.content.drop 64).take 64))))
          running := some { r with stage := .config 5 } }) ∧
    (∀ n, step = 5 → s.sequenceCounter = some n →
      ∃ t, exec (.configPageOperationDone true) s = .next t ∧
        t.page page = ⟨.holds tag, .holds payload⟩ ∧
        t = { s with
          array := t.array
          sequenceCounter := if 4294967295 ≤ n then none else some (n + 1)
          operation := some (.program (configBase r.job.params.copy)
            ⟨.config, ⟨0, 0⟩, 0, copyNumber r.job.params.copy, none, none, none⟩
            (.config (copyNumber r.job.params.copy) n r.crc))
          running := some { r with stage := .config 6 } })) ∧
  (∀ (s : State) (r : RunningJob) (step : Nat) (op : PageOperation) (p : Port) (command : Instr)
    (refusal : Completion),
    MemoriesCanonical s → s.isReady = true → s.running = some r → r.job.kind = .configWrite →
    r.job.target = some .config → r.job.cause = some .commitConfig → r.job.port = some p →
    r.stage = .config step → s.operation = some op →
    (command = .configPageOperationDone false ∧ step < 6 ∧ refusal = .arrayFault ∨
      command = .headerProgramFailure ∧ step = 6 ∧ (∃ page tag payload, op = .program page tag payload) ∧
        refusal = .arrayFault ∨
      command = .configPageOperationDone true ∧ step = 5 ∧ s.sequenceCounter = none ∧
        refusal = .exhausted) →
    ∃ t, exec command s = .next t ∧ JobEnded t ∧ PortAnswered s t p false ∧
      resultArea t p = resultBytes (s.port p).go refusal {} ∧
      t.storedImage = s.storedImage ∧ t.storedSequence = s.storedSequence ∧
      t.copyStateA = s.copyStateA ∧ t.copyStateB = s.copyStateB ∧ t.effective = s.effective ∧
      (∀ hd, r.job.handle = some hd → (t.slot hd.slot).state = .free)) ∧
  (∀ (s : State) (r : RunningJob) (page n sequence : Nat) (tag : Tag) (crc : BitVec 32) (p : Port),
    MemoriesCanonical s → s.isReady = true → s.running = some r → r.job.kind = .configWrite →
    r.job.target = some .config → r.job.cause = some .commitConfig → r.job.port = some p →
    r.stage = .config 6 → s.operation = some (.program page tag (.config n sequence crc)) →
    (∀ hd, r.job.handle = some hd → (s.slot hd.slot).target = some .config) →
    ∃ t, exec .configurationCommitPoint s = .next t ∧ JobEnded t ∧
      t.page page = ⟨.holds tag, .holds (.config n sequence crc)⟩ ∧
      (match r.job.params.copy with
        | .one => t.copyStateA = .valid sequence ∧ t.copyStateB = s.copyStateB
        | .two => t.copyStateB = .valid sequence ∧ t.copyStateA = s.copyStateA) ∧
      t.storedImage = some r.content ∧ t.storedSequence = sequence ∧ t.effective = s.effective ∧
      t.effectiveSequence = s.effectiveSequence ∧ t.configState = s.configState ∧
      t.directory = s.directory ∧
      (∀ hd, r.job.handle = some hd → (t.slot hd.slot).state = .free) ∧
      PortAnswered s t p false ∧
      resultArea t p = resultBytes (s.port p).go .done { committed := true, version := sequence })

/-! ## Whole-machine rules -/

/-- The effective configuration changes at RESTRICT, at CONFIG LOAD and at entries to STARTING or the loss of
power, and at no other command (R38, R60). The page array changes at the ends of programs and erases, at cuts
and at the power-fail warning, which finishes the operation in progress, and at no other command (R103,
R104). -/
def Obligations.EffectiveAndArrayChangeOnlyAt : Prop :=
  (∀ (c : Instr) (s t : State), exec c s = .next t → t.effective ≠ s.effective →
    c = .restrict ∨ (∃ o, c = .configLoadPageRead o) ∨ c = .powerOn ∨ c = .resetNDeassert ∨
      c = .powerLoss ∨ c = .restart ∨ c = .restartDrainEnd) ∧
  (∀ (c : Instr) (s t : State), exec c s = .next t → t.array ≠ s.array →
    (∃ b, c = .dataPageProgramDone b) ∨ c = .commitPoint ∨ c = .copy2Installed ∨
      c = .retirementCommitPoint ∨ (∃ b, c = .repairPageProgramDone b) ∨ (∃ b, c = .eraseComplete b) ∨
      (∃ b, c = .configPageOperationDone b) ∨ c = .configurationCommitPoint ∨
      c = .headerProgramFailure ∨ c = .resetNAssert ∨ c = .powerLoss ∨ ∃ b, c = .pfwNAssert b)

/-! ## Invariants -/

/-- Every step keeps the byte memories and the page array in their canonical form. -/
def Obligations.StepKeepsMemoriesCanonical : Prop :=
  ∀ s t : State, MemoriesCanonical s → step s = .next t → MemoriesCanonical t

/-- Every step keeps the directory in ascending key order, each key once, with at most 512 entries (R21). -/
def Obligations.StepKeepsDirectoryOrdered : Prop :=
  ∀ s t : State, DirectoryOrdered s → step s = .next t → DirectoryOrdered t

/-- Every step keeps the law of ports (R176). -/
def Obligations.StepKeepsPortLaw : Prop :=
  ∀ s t : State, PortLaw s → step s = .next t → PortLaw t

/-- Every step keeps the law of the engine (R119, R122). -/
def Obligations.StepKeepsEngineLaw : Prop :=
  ∀ s t : State, EngineLaw s → step s = .next t → EngineLaw t

/-- Every step keeps the law of leases (R84, R97): a lease is never more than 20 ms late. The idle step's
part in it is the model's choice (log 2). -/
def Obligations.StepKeepsLeaseLaw : Prop :=
  ∀ s t : State, LeaseLaw s → step s = .next t → LeaseLaw t

/-- Every step keeps the law of claims (R30, R84), in a directory that stands in key order. -/
def Obligations.StepKeepsClaimLaw : Prop :=
  ∀ s t : State, DirectoryOrdered s → ClaimLaw s → step s = .next t → ClaimLaw t

/-- Every step keeps the law of watches and of Change Sets (R162, R167). -/
def Obligations.StepKeepsWatchLaw : Prop :=
  ∀ s t : State, WatchLaw s → step s = .next t → WatchLaw t

/-- Every step keeps the law of pools (R108), in a directory that stands in key order; it holds from entry to
READY, when SCAN has read every page of the record area. -/
def Obligations.StepKeepsPoolLaw : Prop :=
  ∀ s t : State, DirectoryOrdered s → PoolLaw s → step s = .next t → PoolLaw t
end

