-- ==== Sys2Proof/Laws/State.lean ====
section
/-! SUPPORT. State.lean: for each update of the state, what it does to each field: one lemma a field, true
by rfl. -/

namespace Sys2Proof.Machine

/-! ## setPort -/

section setPort
variable (s : State) (p : Port) (u : PortUnit)

@[simp] theorem State.setPort_powered : (s.setPort p u).powered = s.powered := rfl
@[simp] theorem State.setPort_resetAsserted : (s.setPort p u).resetAsserted = s.resetAsserted := rfl
@[simp] theorem State.setPort_coldStart : (s.setPort p u).coldStart = s.coldStart := rfl
@[simp] theorem State.setPort_pfwAsserted : (s.setPort p u).pfwAsserted = s.pfwAsserted := rfl
@[simp] theorem State.setPort_maintEnAsserted : (s.setPort p u).maintEnAsserted = s.maintEnAsserted := rfl
@[simp] theorem State.setPort_device : (s.setPort p u).device = s.device := rfl
@[simp] theorem State.setPort_resetCause : (s.setPort p u).resetCause = s.resetCause := rfl
@[simp] theorem State.setPort_startup : (s.setPort p u).startup = s.startup := rfl
@[simp] theorem State.setPort_configState : (s.setPort p u).configState = s.configState := rfl
@[simp] theorem State.setPort_storedImage : (s.setPort p u).storedImage = s.storedImage := rfl
@[simp] theorem State.setPort_storedSequence : (s.setPort p u).storedSequence = s.storedSequence := rfl
@[simp] theorem State.setPort_effectiveSequence : (s.setPort p u).effectiveSequence = s.effectiveSequence := rfl
@[simp] theorem State.setPort_copyStateA : (s.setPort p u).copyStateA = s.copyStateA := rfl
@[simp] theorem State.setPort_copyStateB : (s.setPort p u).copyStateB = s.copyStateB := rfl
@[simp] theorem State.setPort_effective : (s.setPort p u).effective = s.effective := rfl
@[simp] theorem State.setPort_directory : (s.setPort p u).directory = s.directory := rfl
@[simp] theorem State.setPort_claims : (s.setPort p u).claims = s.claims := rfl
@[simp] theorem State.setPort_watches : (s.setPort p u).watches = s.watches := rfl
@[simp] theorem State.setPort_changeSets : (s.setPort p u).changeSets = s.changeSets := rfl
@[simp] theorem State.setPort_dispatchQueue : (s.setPort p u).dispatchQueue = s.dispatchQueue := rfl
@[simp] theorem State.setPort_restarting : (s.setPort p u).restarting = s.restarting := rfl
@[simp] theorem State.setPort_array : (s.setPort p u).array = s.array := rfl
@[simp] theorem State.setPort_operation : (s.setPort p u).operation = s.operation := rfl
@[simp] theorem State.setPort_engine : (s.setPort p u).engine = s.engine := rfl
@[simp] theorem State.setPort_running : (s.setPort p u).running = s.running := rfl
@[simp] theorem State.setPort_jobQueue : (s.setPort p u).jobQueue = s.jobQueue := rfl
@[simp] theorem State.setPort_erased : (s.setPort p u).erased = s.erased := rfl
@[simp] theorem State.setPort_inWrite : (s.setPort p u).inWrite = s.inWrite := rfl
@[simp] theorem State.setPort_live : (s.setPort p u).live = s.live := rfl
@[simp] theorem State.setPort_eraseList : (s.setPort p u).eraseList = s.eraseList := rfl
@[simp] theorem State.setPort_bad : (s.setPort p u).bad = s.bad := rfl
@[simp] theorem State.setPort_retirementList : (s.setPort p u).retirementList = s.retirementList := rfl
@[simp] theorem State.setPort_reservation : (s.setPort p u).reservation = s.reservation := rfl
@[simp] theorem State.setPort_sequenceCounter : (s.setPort p u).sequenceCounter = s.sequenceCounter := rfl
@[simp] theorem State.setPort_repairList : (s.setPort p u).repairList = s.repairList := rfl
@[simp] theorem State.setPort_patrolCursor : (s.setPort p u).patrolCursor = s.patrolCursor := rfl
@[simp] theorem State.setPort_patrolTimer : (s.setPort p u).patrolTimer = s.patrolTimer := rfl
@[simp] theorem State.setPort_patrolDue : (s.setPort p u).patrolDue = s.patrolDue := rfl
@[simp] theorem State.setPort_now : (s.setPort p u).now = s.now := rfl
@[simp] theorem State.setPort_freeIndex : (s.setPort p u).freeIndex = s.freeIndex := rfl
@[simp] theorem State.setPort_pending : (s.setPort p u).pending = s.pending := rfl

end setPort

/-! ## setSlot -/

section setSlot
variable (s : State) (i : SlotNo) (x : Slot)

@[simp] theorem State.setSlot_powered : (s.setSlot i x).powered = s.powered := rfl
@[simp] theorem State.setSlot_resetAsserted : (s.setSlot i x).resetAsserted = s.resetAsserted := rfl
@[simp] theorem State.setSlot_coldStart : (s.setSlot i x).coldStart = s.coldStart := rfl
@[simp] theorem State.setSlot_pfwAsserted : (s.setSlot i x).pfwAsserted = s.pfwAsserted := rfl
@[simp] theorem State.setSlot_maintEnAsserted : (s.setSlot i x).maintEnAsserted = s.maintEnAsserted := rfl
@[simp] theorem State.setSlot_device : (s.setSlot i x).device = s.device := rfl
@[simp] theorem State.setSlot_resetCause : (s.setSlot i x).resetCause = s.resetCause := rfl
@[simp] theorem State.setSlot_startup : (s.setSlot i x).startup = s.startup := rfl
@[simp] theorem State.setSlot_configState : (s.setSlot i x).configState = s.configState := rfl
@[simp] theorem State.setSlot_storedImage : (s.setSlot i x).storedImage = s.storedImage := rfl
@[simp] theorem State.setSlot_storedSequence : (s.setSlot i x).storedSequence = s.storedSequence := rfl
@[simp] theorem State.setSlot_effectiveSequence : (s.setSlot i x).effectiveSequence = s.effectiveSequence := rfl
@[simp] theorem State.setSlot_copyStateA : (s.setSlot i x).copyStateA = s.copyStateA := rfl
@[simp] theorem State.setSlot_copyStateB : (s.setSlot i x).copyStateB = s.copyStateB := rfl
@[simp] theorem State.setSlot_effective : (s.setSlot i x).effective = s.effective := rfl
@[simp] theorem State.setSlot_directory : (s.setSlot i x).directory = s.directory := rfl
@[simp] theorem State.setSlot_watches : (s.setSlot i x).watches = s.watches := rfl
@[simp] theorem State.setSlot_changeSets : (s.setSlot i x).changeSets = s.changeSets := rfl
@[simp] theorem State.setSlot_ports : (s.setSlot i x).ports = s.ports := rfl
@[simp] theorem State.setSlot_dispatchQueue : (s.setSlot i x).dispatchQueue = s.dispatchQueue := rfl
@[simp] theorem State.setSlot_restarting : (s.setSlot i x).restarting = s.restarting := rfl
@[simp] theorem State.setSlot_array : (s.setSlot i x).array = s.array := rfl
@[simp] theorem State.setSlot_operation : (s.setSlot i x).operation = s.operation := rfl
@[simp] theorem State.setSlot_engine : (s.setSlot i x).engine = s.engine := rfl
@[simp] theorem State.setSlot_running : (s.setSlot i x).running = s.running := rfl
@[simp] theorem State.setSlot_jobQueue : (s.setSlot i x).jobQueue = s.jobQueue := rfl
@[simp] theorem State.setSlot_erased : (s.setSlot i x).erased = s.erased := rfl
@[simp] theorem State.setSlot_inWrite : (s.setSlot i x).inWrite = s.inWrite := rfl
@[simp] theorem State.setSlot_live : (s.setSlot i x).live = s.live := rfl
@[simp] theorem State.setSlot_eraseList : (s.setSlot i x).eraseList = s.eraseList := rfl
@[simp] theorem State.setSlot_bad : (s.setSlot i x).bad = s.bad := rfl
@[simp] theorem State.setSlot_retirementList : (s.setSlot i x).retirementList = s.retirementList := rfl
@[simp] theorem State.setSlot_reservation : (s.setSlot i x).reservation = s.reservation := rfl
@[simp] theorem State.setSlot_sequenceCounter : (s.setSlot i x).sequenceCounter = s.sequenceCounter := rfl
@[simp] theorem State.setSlot_repairList : (s.setSlot i x).repairList = s.repairList := rfl
@[simp] theorem State.setSlot_patrolCursor : (s.setSlot i x).patrolCursor = s.patrolCursor := rfl
@[simp] theorem State.setSlot_patrolTimer : (s.setSlot i x).patrolTimer = s.patrolTimer := rfl
@[simp] theorem State.setSlot_patrolDue : (s.setSlot i x).patrolDue = s.patrolDue := rfl
@[simp] theorem State.setSlot_now : (s.setSlot i x).now = s.now := rfl
@[simp] theorem State.setSlot_freeIndex : (s.setSlot i x).freeIndex = s.freeIndex := rfl
@[simp] theorem State.setSlot_pending : (s.setSlot i x).pending = s.pending := rfl

end setSlot

/-! ## setChanges -/

section setChanges
variable (s : State) (p : Port) (c : ChangeSet)

@[simp] theorem State.setChanges_powered : (s.setChanges p c).powered = s.powered := rfl
@[simp] theorem State.setChanges_resetAsserted : (s.setChanges p c).resetAsserted = s.resetAsserted := rfl
@[simp] theorem State.setChanges_coldStart : (s.setChanges p c).coldStart = s.coldStart := rfl
@[simp] theorem State.setChanges_pfwAsserted : (s.setChanges p c).pfwAsserted = s.pfwAsserted := rfl
@[simp] theorem State.setChanges_maintEnAsserted : (s.setChanges p c).maintEnAsserted = s.maintEnAsserted := rfl
@[simp] theorem State.setChanges_device : (s.setChanges p c).device = s.device := rfl
@[simp] theorem State.setChanges_resetCause : (s.setChanges p c).resetCause = s.resetCause := rfl
@[simp] theorem State.setChanges_startup : (s.setChanges p c).startup = s.startup := rfl
@[simp] theorem State.setChanges_configState : (s.setChanges p c).configState = s.configState := rfl
@[simp] theorem State.setChanges_storedImage : (s.setChanges p c).storedImage = s.storedImage := rfl
@[simp] theorem State.setChanges_storedSequence : (s.setChanges p c).storedSequence = s.storedSequence := rfl
@[simp] theorem State.setChanges_effectiveSequence : (s.setChanges p c).effectiveSequence = s.effectiveSequence := rfl
@[simp] theorem State.setChanges_copyStateA : (s.setChanges p c).copyStateA = s.copyStateA := rfl
@[simp] theorem State.setChanges_copyStateB : (s.setChanges p c).copyStateB = s.copyStateB := rfl
@[simp] theorem State.setChanges_effective : (s.setChanges p c).effective = s.effective := rfl
@[simp] theorem State.setChanges_directory : (s.setChanges p c).directory = s.directory := rfl
@[simp] theorem State.setChanges_claims : (s.setChanges p c).claims = s.claims := rfl
@[simp] theorem State.setChanges_watches : (s.setChanges p c).watches = s.watches := rfl
@[simp] theorem State.setChanges_ports : (s.setChanges p c).ports = s.ports := rfl
@[simp] theorem State.setChanges_dispatchQueue : (s.setChanges p c).dispatchQueue = s.dispatchQueue := rfl
@[simp] theorem State.setChanges_restarting : (s.setChanges p c).restarting = s.restarting := rfl
@[simp] theorem State.setChanges_array : (s.setChanges p c).array = s.array := rfl
@[simp] theorem State.setChanges_operation : (s.setChanges p c).operation = s.operation := rfl
@[simp] theorem State.setChanges_engine : (s.setChanges p c).engine = s.engine := rfl
@[simp] theorem State.setChanges_running : (s.setChanges p c).running = s.running := rfl
@[simp] theorem State.setChanges_jobQueue : (s.setChanges p c).jobQueue = s.jobQueue := rfl
@[simp] theorem State.setChanges_erased : (s.setChanges p c).erased = s.erased := rfl
@[simp] theorem State.setChanges_inWrite : (s.setChanges p c).inWrite = s.inWrite := rfl
@[simp] theorem State.setChanges_live : (s.setChanges p c).live = s.live := rfl
@[simp] theorem State.setChanges_eraseList : (s.setChanges p c).eraseList = s.eraseList := rfl
@[simp] theorem State.setChanges_bad : (s.setChanges p c).bad = s.bad := rfl
@[simp] theorem State.setChanges_retirementList : (s.setChanges p c).retirementList = s.retirementList := rfl
@[simp] theorem State.setChanges_reservation : (s.setChanges p c).reservation = s.reservation := rfl
@[simp] theorem State.setChanges_sequenceCounter : (s.setChanges p c).sequenceCounter = s.sequenceCounter := rfl
@[simp] theorem State.setChanges_repairList : (s.setChanges p c).repairList = s.repairList := rfl
@[simp] theorem State.setChanges_patrolCursor : (s.setChanges p c).patrolCursor = s.patrolCursor := rfl
@[simp] theorem State.setChanges_patrolTimer : (s.setChanges p c).patrolTimer = s.patrolTimer := rfl
@[simp] theorem State.setChanges_patrolDue : (s.setChanges p c).patrolDue = s.patrolDue := rfl
@[simp] theorem State.setChanges_now : (s.setChanges p c).now = s.now := rfl
@[simp] theorem State.setChanges_freeIndex : (s.setChanges p c).freeIndex = s.freeIndex := rfl
@[simp] theorem State.setChanges_pending : (s.setChanges p c).pending = s.pending := rfl

end setChanges

/-! ## setPage -/

section setPage
variable (s : State) (n : Nat) (c : PageCell)

@[simp] theorem State.setPage_powered : (s.setPage n c).powered = s.powered := rfl
@[simp] theorem State.setPage_resetAsserted : (s.setPage n c).resetAsserted = s.resetAsserted := rfl
@[simp] theorem State.setPage_coldStart : (s.setPage n c).coldStart = s.coldStart := rfl
@[simp] theorem State.setPage_pfwAsserted : (s.setPage n c).pfwAsserted = s.pfwAsserted := rfl
@[simp] theorem State.setPage_maintEnAsserted : (s.setPage n c).maintEnAsserted = s.maintEnAsserted := rfl
@[simp] theorem State.setPage_device : (s.setPage n c).device = s.device := rfl
@[simp] theorem State.setPage_resetCause : (s.setPage n c).resetCause = s.resetCause := rfl
@[simp] theorem State.setPage_startup : (s.setPage n c).startup = s.startup := rfl
@[simp] theorem State.setPage_configState : (s.setPage n c).configState = s.configState := rfl
@[simp] theorem State.setPage_storedImage : (s.setPage n c).storedImage = s.storedImage := rfl
@[simp] theorem State.setPage_storedSequence : (s.setPage n c).storedSequence = s.storedSequence := rfl
@[simp] theorem State.setPage_effectiveSequence : (s.setPage n c).effectiveSequence = s.effectiveSequence := rfl
@[simp] theorem State.setPage_copyStateA : (s.setPage n c).copyStateA = s.copyStateA := rfl
@[simp] theorem State.setPage_copyStateB : (s.setPage n c).copyStateB = s.copyStateB := rfl
@[simp] theorem State.setPage_effective : (s.setPage n c).effective = s.effective := rfl
@[simp] theorem State.setPage_directory : (s.setPage n c).directory = s.directory := rfl
@[simp] theorem State.setPage_claims : (s.setPage n c).claims = s.claims := rfl
@[simp] theorem State.setPage_watches : (s.setPage n c).watches = s.watches := rfl
@[simp] theorem State.setPage_changeSets : (s.setPage n c).changeSets = s.changeSets := rfl
@[simp] theorem State.setPage_ports : (s.setPage n c).ports = s.ports := rfl
@[simp] theorem State.setPage_dispatchQueue : (s.setPage n c).dispatchQueue = s.dispatchQueue := rfl
@[simp] theorem State.setPage_restarting : (s.setPage n c).restarting = s.restarting := rfl
@[simp] theorem State.setPage_operation : (s.setPage n c).operation = s.operation := rfl
@[simp] theorem State.setPage_engine : (s.setPage n c).engine = s.engine := rfl
@[simp] theorem State.setPage_running : (s.setPage n c).running = s.running := rfl
@[simp] theorem State.setPage_jobQueue : (s.setPage n c).jobQueue = s.jobQueue := rfl
@[simp] theorem State.setPage_erased : (s.setPage n c).erased = s.erased := rfl
@[simp] theorem State.setPage_inWrite : (s.setPage n c).inWrite = s.inWrite := rfl
@[simp] theorem State.setPage_live : (s.setPage n c).live = s.live := rfl
@[simp] theorem State.setPage_eraseList : (s.setPage n c).eraseList = s.eraseList := rfl
@[simp] theorem State.setPage_bad : (s.setPage n c).bad = s.bad := rfl
@[simp] theorem State.setPage_retirementList : (s.setPage n c).retirementList = s.retirementList := rfl
@[simp] theorem State.setPage_reservation : (s.setPage n c).reservation = s.reservation := rfl
@[simp] theorem State.setPage_sequenceCounter : (s.setPage n c).sequenceCounter = s.sequenceCounter := rfl
@[simp] theorem State.setPage_repairList : (s.setPage n c).repairList = s.repairList := rfl
@[simp] theorem State.setPage_patrolCursor : (s.setPage n c).patrolCursor = s.patrolCursor := rfl
@[simp] theorem State.setPage_patrolTimer : (s.setPage n c).patrolTimer = s.patrolTimer := rfl
@[simp] theorem State.setPage_patrolDue : (s.setPage n c).patrolDue = s.patrolDue := rfl
@[simp] theorem State.setPage_now : (s.setPage n c).now = s.now := rfl
@[simp] theorem State.setPage_freeIndex : (s.setPage n c).freeIndex = s.freeIndex := rfl
@[simp] theorem State.setPage_pending : (s.setPage n c).pending = s.pending := rfl

end setPage

/-! ## modifyEntry -/

section modifyEntry
variable (s : State) (k : Key) (f : Entry → Entry)

@[simp] theorem State.modifyEntry_powered : (s.modifyEntry k f).powered = s.powered := rfl
@[simp] theorem State.modifyEntry_resetAsserted : (s.modifyEntry k f).resetAsserted = s.resetAsserted := rfl
@[simp] theorem State.modifyEntry_coldStart : (s.modifyEntry k f).coldStart = s.coldStart := rfl
@[simp] theorem State.modifyEntry_pfwAsserted : (s.modifyEntry k f).pfwAsserted = s.pfwAsserted := rfl
@[simp] theorem State.modifyEntry_maintEnAsserted : (s.modifyEntry k f).maintEnAsserted = s.maintEnAsserted := rfl
@[simp] theorem State.modifyEntry_device : (s.modifyEntry k f).device = s.device := rfl
@[simp] theorem State.modifyEntry_resetCause : (s.modifyEntry k f).resetCause = s.resetCause := rfl
@[simp] theorem State.modifyEntry_startup : (s.modifyEntry k f).startup = s.startup := rfl
@[simp] theorem State.modifyEntry_configState : (s.modifyEntry k f).configState = s.configState := rfl
@[simp] theorem State.modifyEntry_storedImage : (s.modifyEntry k f).storedImage = s.storedImage := rfl
@[simp] theorem State.modifyEntry_storedSequence : (s.modifyEntry k f).storedSequence = s.storedSequence := rfl
@[simp] theorem State.modifyEntry_effectiveSequence : (s.modifyEntry k f).effectiveSequence = s.effectiveSequence := rfl
@[simp] theorem State.modifyEntry_copyStateA : (s.modifyEntry k f).copyStateA = s.copyStateA := rfl
@[simp] theorem State.modifyEntry_copyStateB : (s.modifyEntry k f).copyStateB = s.copyStateB := rfl
@[simp] theorem State.modifyEntry_effective : (s.modifyEntry k f).effective = s.effective := rfl
@[simp] theorem State.modifyEntry_claims : (s.modifyEntry k f).claims = s.claims := rfl
@[simp] theorem State.modifyEntry_watches : (s.modifyEntry k f).watches = s.watches := rfl
@[simp] theorem State.modifyEntry_changeSets : (s.modifyEntry k f).changeSets = s.changeSets := rfl
@[simp] theorem State.modifyEntry_ports : (s.modifyEntry k f).ports = s.ports := rfl
@[simp] theorem State.modifyEntry_dispatchQueue : (s.modifyEntry k f).dispatchQueue = s.dispatchQueue := rfl
@[simp] theorem State.modifyEntry_restarting : (s.modifyEntry k f).restarting = s.restarting := rfl
@[simp] theorem State.modifyEntry_array : (s.modifyEntry k f).array = s.array := rfl
@[simp] theorem State.modifyEntry_operation : (s.modifyEntry k f).operation = s.operation := rfl
@[simp] theorem State.modifyEntry_engine : (s.modifyEntry k f).engine = s.engine := rfl
@[simp] theorem State.modifyEntry_running : (s.modifyEntry k f).running = s.running := rfl
@[simp] theorem State.modifyEntry_jobQueue : (s.modifyEntry k f).jobQueue = s.jobQueue := rfl
@[simp] theorem State.modifyEntry_erased : (s.modifyEntry k f).erased = s.erased := rfl
@[simp] theorem State.modifyEntry_inWrite : (s.modifyEntry k f).inWrite = s.inWrite := rfl
@[simp] theorem State.modifyEntry_live : (s.modifyEntry k f).live = s.live := rfl
@[simp] theorem State.modifyEntry_eraseList : (s.modifyEntry k f).eraseList = s.eraseList := rfl
@[simp] theorem State.modifyEntry_bad : (s.modifyEntry k f).bad = s.bad := rfl
@[simp] theorem State.modifyEntry_retirementList : (s.modifyEntry k f).retirementList = s.retirementList := rfl
@[simp] theorem State.modifyEntry_reservation : (s.modifyEntry k f).reservation = s.reservation := rfl
@[simp] theorem State.modifyEntry_sequenceCounter : (s.modifyEntry k f).sequenceCounter = s.sequenceCounter := rfl
@[simp] theorem State.modifyEntry_repairList : (s.modifyEntry k f).repairList = s.repairList := rfl
@[simp] theorem State.modifyEntry_patrolCursor : (s.modifyEntry k f).patrolCursor = s.patrolCursor := rfl
@[simp] theorem State.modifyEntry_patrolTimer : (s.modifyEntry k f).patrolTimer = s.patrolTimer := rfl
@[simp] theorem State.modifyEntry_patrolDue : (s.modifyEntry k f).patrolDue = s.patrolDue := rfl
@[simp] theorem State.modifyEntry_now : (s.modifyEntry k f).now = s.now := rfl
@[simp] theorem State.modifyEntry_freeIndex : (s.modifyEntry k f).freeIndex = s.freeIndex := rfl
@[simp] theorem State.modifyEntry_pending : (s.modifyEntry k f).pending = s.pending := rfl

end modifyEntry

/-! ## addEntry -/

section addEntry
variable (s : State) (e : Entry)

@[simp] theorem State.addEntry_powered : (s.addEntry e).powered = s.powered := rfl
@[simp] theorem State.addEntry_resetAsserted : (s.addEntry e).resetAsserted = s.resetAsserted := rfl
@[simp] theorem State.addEntry_coldStart : (s.addEntry e).coldStart = s.coldStart := rfl
@[simp] theorem State.addEntry_pfwAsserted : (s.addEntry e).pfwAsserted = s.pfwAsserted := rfl
@[simp] theorem State.addEntry_maintEnAsserted : (s.addEntry e).maintEnAsserted = s.maintEnAsserted := rfl
@[simp] theorem State.addEntry_device : (s.addEntry e).device = s.device := rfl
@[simp] theorem State.addEntry_resetCause : (s.addEntry e).resetCause = s.resetCause := rfl
@[simp] theorem State.addEntry_startup : (s.addEntry e).startup = s.startup := rfl
@[simp] theorem State.addEntry_configState : (s.addEntry e).configState = s.configState := rfl
@[simp] theorem State.addEntry_storedImage : (s.addEntry e).storedImage = s.storedImage := rfl
@[simp] theorem State.addEntry_storedSequence : (s.addEntry e).storedSequence = s.storedSequence := rfl
@[simp] theorem State.addEntry_effectiveSequence : (s.addEntry e).effectiveSequence = s.effectiveSequence := rfl
@[simp] theorem State.addEntry_copyStateA : (s.addEntry e).copyStateA = s.copyStateA := rfl
@[simp] theorem State.addEntry_copyStateB : (s.addEntry e).copyStateB = s.copyStateB := rfl
@[simp] theorem State.addEntry_effective : (s.addEntry e).effective = s.effective := rfl
@[simp] theorem State.addEntry_claims : (s.addEntry e).claims = s.claims := rfl
@[simp] theorem State.addEntry_watches : (s.addEntry e).watches = s.watches := rfl
@[simp] theorem State.addEntry_changeSets : (s.addEntry e).changeSets = s.changeSets := rfl
@[simp] theorem State.addEntry_ports : (s.addEntry e).ports = s.ports := rfl
@[simp] theorem State.addEntry_dispatchQueue : (s.addEntry e).dispatchQueue = s.dispatchQueue := rfl
@[simp] theorem State.addEntry_restarting : (s.addEntry e).restarting = s.restarting := rfl
@[simp] theorem State.addEntry_array : (s.addEntry e).array = s.array := rfl
@[simp] theorem State.addEntry_operation : (s.addEntry e).operation = s.operation := rfl
@[simp] theorem State.addEntry_engine : (s.addEntry e).engine = s.engine := rfl
@[simp] theorem State.addEntry_running : (s.addEntry e).running = s.running := rfl
@[simp] theorem State.addEntry_jobQueue : (s.addEntry e).jobQueue = s.jobQueue := rfl
@[simp] theorem State.addEntry_erased : (s.addEntry e).erased = s.erased := rfl
@[simp] theorem State.addEntry_inWrite : (s.addEntry e).inWrite = s.inWrite := rfl
@[simp] theorem State.addEntry_live : (s.addEntry e).live = s.live := rfl
@[simp] theorem State.addEntry_eraseList : (s.addEntry e).eraseList = s.eraseList := rfl
@[simp] theorem State.addEntry_bad : (s.addEntry e).bad = s.bad := rfl
@[simp] theorem State.addEntry_retirementList : (s.addEntry e).retirementList = s.retirementList := rfl
@[simp] theorem State.addEntry_reservation : (s.addEntry e).reservation = s.reservation := rfl
@[simp] theorem State.addEntry_sequenceCounter : (s.addEntry e).sequenceCounter = s.sequenceCounter := rfl
@[simp] theorem State.addEntry_repairList : (s.addEntry e).repairList = s.repairList := rfl
@[simp] theorem State.addEntry_patrolCursor : (s.addEntry e).patrolCursor = s.patrolCursor := rfl
@[simp] theorem State.addEntry_patrolTimer : (s.addEntry e).patrolTimer = s.patrolTimer := rfl
@[simp] theorem State.addEntry_patrolDue : (s.addEntry e).patrolDue = s.patrolDue := rfl
@[simp] theorem State.addEntry_now : (s.addEntry e).now = s.now := rfl
@[simp] theorem State.addEntry_freeIndex : (s.addEntry e).freeIndex = s.freeIndex := rfl
@[simp] theorem State.addEntry_pending : (s.addEntry e).pending = s.pending := rfl

end addEntry

/-! ## removeEntry -/

section removeEntry
variable (s : State) (k : Key)

@[simp] theorem State.removeEntry_powered : (s.removeEntry k).powered = s.powered := rfl
@[simp] theorem State.removeEntry_resetAsserted : (s.removeEntry k).resetAsserted = s.resetAsserted := rfl
@[simp] theorem State.removeEntry_coldStart : (s.removeEntry k).coldStart = s.coldStart := rfl
@[simp] theorem State.removeEntry_pfwAsserted : (s.removeEntry k).pfwAsserted = s.pfwAsserted := rfl
@[simp] theorem State.removeEntry_maintEnAsserted : (s.removeEntry k).maintEnAsserted = s.maintEnAsserted := rfl
@[simp] theorem State.removeEntry_device : (s.removeEntry k).device = s.device := rfl
@[simp] theorem State.removeEntry_resetCause : (s.removeEntry k).resetCause = s.resetCause := rfl
@[simp] theorem State.removeEntry_startup : (s.removeEntry k).startup = s.startup := rfl
@[simp] theorem State.removeEntry_configState : (s.removeEntry k).configState = s.configState := rfl
@[simp] theorem State.removeEntry_storedImage : (s.removeEntry k).storedImage = s.storedImage := rfl
@[simp] theorem State.removeEntry_storedSequence : (s.removeEntry k).storedSequence = s.storedSequence := rfl
@[simp] theorem State.removeEntry_effectiveSequence : (s.removeEntry k).effectiveSequence = s.effectiveSequence := rfl
@[simp] theorem State.removeEntry_copyStateA : (s.removeEntry k).copyStateA = s.copyStateA := rfl
@[simp] theorem State.removeEntry_copyStateB : (s.removeEntry k).copyStateB = s.copyStateB := rfl
@[simp] theorem State.removeEntry_effective : (s.removeEntry k).effective = s.effective := rfl
@[simp] theorem State.removeEntry_claims : (s.removeEntry k).claims = s.claims := rfl
@[simp] theorem State.removeEntry_watches : (s.removeEntry k).watches = s.watches := rfl
@[simp] theorem State.removeEntry_changeSets : (s.removeEntry k).changeSets = s.changeSets := rfl
@[simp] theorem State.removeEntry_ports : (s.removeEntry k).ports = s.ports := rfl
@[simp] theorem State.removeEntry_dispatchQueue : (s.removeEntry k).dispatchQueue = s.dispatchQueue := rfl
@[simp] theorem State.removeEntry_restarting : (s.removeEntry k).restarting = s.restarting := rfl
@[simp] theorem State.removeEntry_array : (s.removeEntry k).array = s.array := rfl
@[simp] theorem State.removeEntry_operation : (s.removeEntry k).operation = s.operation := rfl
@[simp] theorem State.removeEntry_engine : (s.removeEntry k).engine = s.engine := rfl
@[simp] theorem State.removeEntry_running : (s.removeEntry k).running = s.running := rfl
@[simp] theorem State.removeEntry_jobQueue : (s.removeEntry k).jobQueue = s.jobQueue := rfl
@[simp] theorem State.removeEntry_erased : (s.removeEntry k).erased = s.erased := rfl
@[simp] theorem State.removeEntry_inWrite : (s.removeEntry k).inWrite = s.inWrite := rfl
@[simp] theorem State.removeEntry_live : (s.removeEntry k).live = s.live := rfl
@[simp] theorem State.removeEntry_eraseList : (s.removeEntry k).eraseList = s.eraseList := rfl
@[simp] theorem State.removeEntry_bad : (s.removeEntry k).bad = s.bad := rfl
@[simp] theorem State.removeEntry_retirementList : (s.removeEntry k).retirementList = s.retirementList := rfl
@[simp] theorem State.removeEntry_reservation : (s.removeEntry k).reservation = s.reservation := rfl
@[simp] theorem State.removeEntry_sequenceCounter : (s.removeEntry k).sequenceCounter = s.sequenceCounter := rfl
@[simp] theorem State.removeEntry_repairList : (s.removeEntry k).repairList = s.repairList := rfl
@[simp] theorem State.removeEntry_patrolCursor : (s.removeEntry k).patrolCursor = s.patrolCursor := rfl
@[simp] theorem State.removeEntry_patrolTimer : (s.removeEntry k).patrolTimer = s.patrolTimer := rfl
@[simp] theorem State.removeEntry_patrolDue : (s.removeEntry k).patrolDue = s.patrolDue := rfl
@[simp] theorem State.removeEntry_now : (s.removeEntry k).now = s.now := rfl
@[simp] theorem State.removeEntry_freeIndex : (s.removeEntry k).freeIndex = s.freeIndex := rfl
@[simp] theorem State.removeEntry_pending : (s.removeEntry k).pending = s.pending := rfl

end removeEntry

/-! ## modifyRetirement -/

section modifyRetirement
variable (s : State) (k : Key) (f : RetirementEntry → RetirementEntry)

@[simp] theorem State.modifyRetirement_powered : (s.modifyRetirement k f).powered = s.powered := rfl
@[simp] theorem State.modifyRetirement_resetAsserted : (s.modifyRetirement k f).resetAsserted = s.resetAsserted := rfl
@[simp] theorem State.modifyRetirement_coldStart : (s.modifyRetirement k f).coldStart = s.coldStart := rfl
@[simp] theorem State.modifyRetirement_pfwAsserted : (s.modifyRetirement k f).pfwAsserted = s.pfwAsserted := rfl
@[simp] theorem State.modifyRetirement_maintEnAsserted : (s.modifyRetirement k f).maintEnAsserted = s.maintEnAsserted := rfl
@[simp] theorem State.modifyRetirement_device : (s.modifyRetirement k f).device = s.device := rfl
@[simp] theorem State.modifyRetirement_resetCause : (s.modifyRetirement k f).resetCause = s.resetCause := rfl
@[simp] theorem State.modifyRetirement_startup : (s.modifyRetirement k f).startup = s.startup := rfl
@[simp] theorem State.modifyRetirement_configState : (s.modifyRetirement k f).configState = s.configState := rfl
@[simp] theorem State.modifyRetirement_storedImage : (s.modifyRetirement k f).storedImage = s.storedImage := rfl
@[simp] theorem State.modifyRetirement_storedSequence : (s.modifyRetirement k f).storedSequence = s.storedSequence := rfl
@[simp] theorem State.modifyRetirement_effectiveSequence : (s.modifyRetirement k f).effectiveSequence = s.effectiveSequence := rfl
@[simp] theorem State.modifyRetirement_copyStateA : (s.modifyRetirement k f).copyStateA = s.copyStateA := rfl
@[simp] theorem State.modifyRetirement_copyStateB : (s.modifyRetirement k f).copyStateB = s.copyStateB := rfl
@[simp] theorem State.modifyRetirement_effective : (s.modifyRetirement k f).effective = s.effective := rfl
@[simp] theorem State.modifyRetirement_directory : (s.modifyRetirement k f).directory = s.directory := rfl
@[simp] theorem State.modifyRetirement_claims : (s.modifyRetirement k f).claims = s.claims := rfl
@[simp] theorem State.modifyRetirement_watches : (s.modifyRetirement k f).watches = s.watches := rfl
@[simp] theorem State.modifyRetirement_changeSets : (s.modifyRetirement k f).changeSets = s.changeSets := rfl
@[simp] theorem State.modifyRetirement_ports : (s.modifyRetirement k f).ports = s.ports := rfl
@[simp] theorem State.modifyRetirement_dispatchQueue : (s.modifyRetirement k f).dispatchQueue = s.dispatchQueue := rfl
@[simp] theorem State.modifyRetirement_restarting : (s.modifyRetirement k f).restarting = s.restarting := rfl
@[simp] theorem State.modifyRetirement_array : (s.modifyRetirement k f).array = s.array := rfl
@[simp] theorem State.modifyRetirement_operation : (s.modifyRetirement k f).operation = s.operation := rfl
@[simp] theorem State.modifyRetirement_engine : (s.modifyRetirement k f).engine = s.engine := rfl
@[simp] theorem State.modifyRetirement_running : (s.modifyRetirement k f).running = s.running := rfl
@[simp] theorem State.modifyRetirement_jobQueue : (s.modifyRetirement k f).jobQueue = s.jobQueue := rfl
@[simp] theorem State.modifyRetirement_erased : (s.modifyRetirement k f).erased = s.erased := rfl
@[simp] theorem State.modifyRetirement_inWrite : (s.modifyRetirement k f).inWrite = s.inWrite := rfl
@[simp] theorem State.modifyRetirement_live : (s.modifyRetirement k f).live = s.live := rfl
@[simp] theorem State.modifyRetirement_eraseList : (s.modifyRetirement k f).eraseList = s.eraseList := rfl
@[simp] theorem State.modifyRetirement_bad : (s.modifyRetirement k f).bad = s.bad := rfl
@[simp] theorem State.modifyRetirement_reservation : (s.modifyRetirement k f).reservation = s.reservation := rfl
@[simp] theorem State.modifyRetirement_sequenceCounter : (s.modifyRetirement k f).sequenceCounter = s.sequenceCounter := rfl
@[simp] theorem State.modifyRetirement_repairList : (s.modifyRetirement k f).repairList = s.repairList := rfl
@[simp] theorem State.modifyRetirement_patrolCursor : (s.modifyRetirement k f).patrolCursor = s.patrolCursor := rfl
@[simp] theorem State.modifyRetirement_patrolTimer : (s.modifyRetirement k f).patrolTimer = s.patrolTimer := rfl
@[simp] theorem State.modifyRetirement_patrolDue : (s.modifyRetirement k f).patrolDue = s.patrolDue := rfl
@[simp] theorem State.modifyRetirement_now : (s.modifyRetirement k f).now = s.now := rfl
@[simp] theorem State.modifyRetirement_freeIndex : (s.modifyRetirement k f).freeIndex = s.freeIndex := rfl
@[simp] theorem State.modifyRetirement_pending : (s.modifyRetirement k f).pending = s.pending := rfl

end modifyRetirement

/-! ## Reading what an update wrote -/

@[simp] theorem State.setPort_ports (s : State) (p : Port) (u : PortUnit) :
    (s.setPort p u).ports = s.ports.set p u := rfl
@[simp] theorem State.setSlot_claims (s : State) (i : SlotNo) (x : Slot) :
    (s.setSlot i x).claims = s.claims.set i x := rfl
@[simp] theorem State.setChanges_changeSets (s : State) (p : Port) (c : ChangeSet) :
    (s.setChanges p c).changeSets = s.changeSets.set p c := rfl
@[simp] theorem State.setPage_array (s : State) (n : Nat) (c : PageCell) :
    (s.setPage n c).array = storeWrite PageCell.blank s.array n c := rfl
@[simp] theorem State.modifyEntry_directory (s : State) (k : Key) (f : Entry → Entry) :
    (s.modifyEntry k f).directory = s.directory.map fun e => if e.key = k then f e else e := rfl
@[simp] theorem State.addEntry_directory (s : State) (e : Entry) :
    (s.addEntry e).directory = insertEntry e s.directory := rfl
@[simp] theorem State.removeEntry_directory (s : State) (k : Key) :
    (s.removeEntry k).directory = s.directory.filter fun e => decide (e.key ≠ k) := rfl

@[simp] theorem State.port_setPort_self (s : State) (p : Port) (u : PortUnit) :
    (s.setPort p u).port p = u := by simp [State.port]

theorem State.port_setPort_ne (s : State) {p q : Port} (u : PortUnit) (h : q ≠ p) :
    (s.setPort p u).port q = s.port q := by
  have : p.val ≠ q.val := fun e => h (Fin.ext e.symm)
  simp [State.port, this]

theorem State.port_setPort (s : State) (p q : Port) (u : PortUnit) :
    (s.setPort p u).port q = if q = p then u else s.port q := by
  split
  · subst_vars; simp
  · next h => exact s.port_setPort_ne u h

@[simp] theorem State.slot_setSlot_self (s : State) (i : SlotNo) (x : Slot) :
    (s.setSlot i x).slot i = x := by simp [State.slot]

theorem State.slot_setSlot_ne (s : State) {i j : SlotNo} (x : Slot) (h : j ≠ i) :
    (s.setSlot i x).slot j = s.slot j := by
  have : i.val ≠ j.val := fun e => h (Fin.ext e.symm)
  simp [State.slot, this]

theorem State.slot_setSlot (s : State) (i j : SlotNo) (x : Slot) :
    (s.setSlot i x).slot j = if j = i then x else s.slot j := by
  split
  · subst_vars; simp
  · next h => exact s.slot_setSlot_ne x h

@[simp] theorem State.changes_setChanges_self (s : State) (p : Port) (c : ChangeSet) :
    (s.setChanges p c).changes p = c := by simp [State.changes]

theorem State.changes_setChanges_ne (s : State) {p q : Port} (c : ChangeSet) (h : q ≠ p) :
    (s.setChanges p c).changes q = s.changes q := by
  have : p.val ≠ q.val := fun e => h (Fin.ext e.symm)
  simp [State.changes, this]

/-! ## What the per-port and per-slot views do not see -/

@[simp] theorem State.setPort_slot (s : State) (p : Port) (u : PortUnit) (j : SlotNo) :
    (s.setPort p u).slot j = s.slot j := rfl
@[simp] theorem State.setPort_changes (s : State) (p : Port) (u : PortUnit) (q : Port) :
    (s.setPort p u).changes q = s.changes q := rfl
@[simp] theorem State.setPort_page (s : State) (p : Port) (u : PortUnit) (m : Nat) :
    (s.setPort p u).page m = s.page m := rfl
@[simp] theorem State.setPort_entry (s : State) (p : Port) (u : PortUnit) (k' : Key) :
    (s.setPort p u).entry k' = s.entry k' := rfl
@[simp] theorem State.setSlot_port (s : State) (i : SlotNo) (x : Slot) (q : Port) :
    (s.setSlot i x).port q = s.port q := rfl
@[simp] theorem State.setSlot_changes (s : State) (i : SlotNo) (x : Slot) (q : Port) :
    (s.setSlot i x).changes q = s.changes q := rfl
@[simp] theorem State.setSlot_page (s : State) (i : SlotNo) (x : Slot) (m : Nat) :
    (s.setSlot i x).page m = s.page m := rfl
@[simp] theorem State.setSlot_entry (s : State) (i : SlotNo) (x : Slot) (k' : Key) :
    (s.setSlot i x).entry k' = s.entry k' := rfl
@[simp] theorem State.setChanges_port (s : State) (p : Port) (c : ChangeSet) (q : Port) :
    (s.setChanges p c).port q = s.port q := rfl
@[simp] theorem State.setChanges_slot (s : State) (p : Port) (c : ChangeSet) (j : SlotNo) :
    (s.setChanges p c).slot j = s.slot j := rfl
@[simp] theorem State.setChanges_page (s : State) (p : Port) (c : ChangeSet) (m : Nat) :
    (s.setChanges p c).page m = s.page m := rfl
@[simp] theorem State.setChanges_entry (s : State) (p : Port) (c : ChangeSet) (k' : Key) :
    (s.setChanges p c).entry k' = s.entry k' := rfl
@[simp] theorem State.setPage_port (s : State) (n : Nat) (c : PageCell) (q : Port) :
    (s.setPage n c).port q = s.port q := rfl
@[simp] theorem State.setPage_slot (s : State) (n : Nat) (c : PageCell) (j : SlotNo) :
    (s.setPage n c).slot j = s.slot j := rfl
@[simp] theorem State.setPage_changes (s : State) (n : Nat) (c : PageCell) (q : Port) :
    (s.setPage n c).changes q = s.changes q := rfl
@[simp] theorem State.setPage_entry (s : State) (n : Nat) (c : PageCell) (k' : Key) :
    (s.setPage n c).entry k' = s.entry k' := rfl
@[simp] theorem State.modifyEntry_port (s : State) (k : Key) (f : Entry → Entry) (q : Port) :
    (s.modifyEntry k f).port q = s.port q := rfl
@[simp] theorem State.modifyEntry_slot (s : State) (k : Key) (f : Entry → Entry) (j : SlotNo) :
    (s.modifyEntry k f).slot j = s.slot j := rfl
@[simp] theorem State.modifyEntry_changes (s : State) (k : Key) (f : Entry → Entry) (q : Port) :
    (s.modifyEntry k f).changes q = s.changes q := rfl
@[simp] theorem State.modifyEntry_page (s : State) (k : Key) (f : Entry → Entry) (m : Nat) :
    (s.modifyEntry k f).page m = s.page m := rfl
@[simp] theorem State.addEntry_port (s : State) (e : Entry) (q : Port) :
    (s.addEntry e).port q = s.port q := rfl
@[simp] theorem State.addEntry_slot (s : State) (e : Entry) (j : SlotNo) :
    (s.addEntry e).slot j = s.slot j := rfl
@[simp] theorem State.addEntry_changes (s : State) (e : Entry) (q : Port) :
    (s.addEntry e).changes q = s.changes q := rfl
@[simp] theorem State.addEntry_page (s : State) (e : Entry) (m : Nat) :
    (s.addEntry e).page m = s.page m := rfl
@[simp] theorem State.removeEntry_port (s : State) (k : Key) (q : Port) :
    (s.removeEntry k).port q = s.port q := rfl
@[simp] theorem State.removeEntry_slot (s : State) (k : Key) (j : SlotNo) :
    (s.removeEntry k).slot j = s.slot j := rfl
@[simp] theorem State.removeEntry_changes (s : State) (k : Key) (q : Port) :
    (s.removeEntry k).changes q = s.changes q := rfl
@[simp] theorem State.removeEntry_page (s : State) (k : Key) (m : Nat) :
    (s.removeEntry k).page m = s.page m := rfl
@[simp] theorem State.modifyRetirement_port (s : State) (k : Key) (f : RetirementEntry → RetirementEntry) (q : Port) :
    (s.modifyRetirement k f).port q = s.port q := rfl
@[simp] theorem State.modifyRetirement_slot (s : State) (k : Key) (f : RetirementEntry → RetirementEntry) (j : SlotNo) :
    (s.modifyRetirement k f).slot j = s.slot j := rfl
@[simp] theorem State.modifyRetirement_changes (s : State) (k : Key) (f : RetirementEntry → RetirementEntry) (q : Port) :
    (s.modifyRetirement k f).changes q = s.changes q := rfl
@[simp] theorem State.modifyRetirement_page (s : State) (k : Key) (f : RetirementEntry → RetirementEntry) (m : Nat) :
    (s.modifyRetirement k f).page m = s.page m := rfl
@[simp] theorem State.modifyRetirement_entry (s : State) (k : Key) (f : RetirementEntry → RetirementEntry) (k' : Key) :
    (s.modifyRetirement k f).entry k' = s.entry k' := rfl

end Sys2Proof.Machine
end

