-- ==== Sys2Proof/Laws/Memory.lean ====
section
/-! SUPPORT. Memory.lean: the laws of the sparse stores: a read after a write, the canonical form kept by
every write, ranges, and numbers in bytes. -/

namespace Sys2Proof.Machine

/-! ## Stores -/

section Store
variable {α : Type} [DecidableEq α] {blank : α}

omit [DecidableEq α] in
theorem storeRead_of_lt {m : List (Nat × α)} {a : Nat} (h : ∀ c ∈ m, a < c.1) :
    storeRead blank m a = blank := by
  induction m with
  | nil => rfl
  | cons c rest ih =>
    obtain ⟨k, v⟩ := c
    have hk : a < k := h (k, v) (by simp)
    simp only [storeRead]
    rw [if_neg (by omega)]
    exact ih fun c hc => h c (by simp [hc])

/-- A read after a write, for stores whose addresses rise. -/
theorem storeRead_storeWrite {m : List (Nat × α)} (h : (m.map Prod.fst).Pairwise (· < ·))
    (a : Nat) (v : α) (b : Nat) :
    storeRead blank (storeWrite blank m a v) b = if b = a then v else storeRead blank m b := by
  induction m with
  | nil => simp only [storeWrite]; split <;> simp_all [storeRead]
  | cons c rest ih =>
    obtain ⟨k, x⟩ := c
    simp only [List.map_cons, List.pairwise_cons, List.mem_map, forall_exists_index, and_imp,
      forall_apply_eq_imp_iff₂] at h
    obtain ⟨h1, h2⟩ := h
    have below : ∀ b, b ≤ k → storeRead blank rest b = blank := fun b hb =>
      storeRead_of_lt fun c hc => by have := h1 c hc; omega
    simp only [storeWrite]
    split
    · next hak =>
      split
      · next hv =>
        subst hv
        by_cases hb : b = a
        · subst hb
          simp only [storeRead, if_pos]
          rw [if_neg (by omega), below b (by omega)]
        · simp [hb]
      · simp only [storeRead]
    · split
      · next hak =>
        subst hak
        split
        · next hv =>
          subst hv
          simp only [storeRead]
          split
          · next hb => subst hb; exact below b (by omega)
          · rfl
        · simp only [storeRead]
          split <;> simp_all
      · next h3 h4 =>
        simp only [storeRead]
        by_cases hbk : b = k
        · subst hbk; simp [Ne.symm h4]
        · simp [hbk, ih h2]

theorem storeWrite_addresses {m : List (Nat × α)} {a : Nat} {v : α} {k : Nat}
    (h : k ∈ (storeWrite blank m a v).map Prod.fst) : k = a ∨ k ∈ m.map Prod.fst := by
  induction m with
  | nil => simp only [storeWrite] at h; split at h <;> simp_all
  | cons c rest ih =>
    obtain ⟨k', x⟩ := c
    simp only [storeWrite] at h
    split at h
    · split at h <;> simp_all
    · split at h
      · split at h
        · exact .inr (by simp_all)
        · simp only [List.map_cons, List.mem_cons] at h ⊢
          rcases h with h | h
          · exact .inl h
          · exact .inr (.inr h)
      · simp only [List.map_cons, List.mem_cons] at h ⊢
        rcases h with h | h
        · exact .inr (.inl h)
        · rcases ih h with h | h
          · exact .inl h
          · exact .inr (.inr h)

theorem storeWrite_mem {m : List (Nat × α)} {a : Nat} {v : α} {c : Nat × α}
    (h : c ∈ storeWrite blank m a v) : c = (a, v) ∧ v ≠ blank ∨ c ∈ m := by
  induction m with
  | nil => simp only [storeWrite] at h; split at h <;> simp_all
  | cons d rest ih =>
    obtain ⟨k', x⟩ := d
    simp only [storeWrite] at h
    split at h
    · split at h
      · exact .inr h
      · rcases List.mem_cons.mp h with h | h
        · exact .inl ⟨h, by assumption⟩
        · exact .inr h
    · split at h
      · split at h
        · exact .inr (List.mem_cons_of_mem _ h)
        · rcases List.mem_cons.mp h with h | h
          · exact .inl ⟨h, by assumption⟩
          · exact .inr (List.mem_cons_of_mem _ h)
      · rcases List.mem_cons.mp h with h | h
        · exact .inr (h ▸ List.mem_cons_self)
        · rcases ih h with h | h
          · exact .inl h
          · exact .inr (List.mem_cons_of_mem _ h)

theorem storeWrite_rising {m : List (Nat × α)} (h : (m.map Prod.fst).Pairwise (· < ·))
    (a : Nat) (v : α) : ((storeWrite blank m a v).map Prod.fst).Pairwise (· < ·) := by
  induction m with
  | nil => simp only [storeWrite]; split <;> simp
  | cons c rest ih =>
    obtain ⟨k, x⟩ := c
    have h' := h
    simp only [List.map_cons, List.pairwise_cons] at h
    obtain ⟨h1, h2⟩ := h
    simp only [storeWrite]
    split
    · next hak =>
      split
      · exact h'
      · simp only [List.map_cons, List.pairwise_cons, List.mem_cons]
        exact ⟨fun b hb => by
          rcases hb with hb | hb
          · omega
          · have := h1 b hb; omega, h1, h2⟩
    · split
      · next hak =>
        split
        · exact h2
        · simpa only [List.map_cons, List.pairwise_cons, hak] using ⟨fun b hb => h1 b hb, h2⟩
      · simp only [List.map_cons, List.pairwise_cons]
        refine ⟨fun b hb => ?_, ih h2⟩
        rcases storeWrite_addresses hb with hb | hb
        · omega
        · exact h1 b hb

/-- Every write keeps the canonical form. -/
theorem storeWrite_wf {m : List (Nat × α)} (h : StoreWf blank m) (a : Nat) (v : α) :
    StoreWf blank (storeWrite blank m a v) :=
  ⟨storeWrite_rising h.1 a v, fun c hc => by
    rcases storeWrite_mem hc with ⟨rfl, hv⟩ | hc
    · exact hv
    · exact h.2 c hc⟩

end Store

/-! ## Byte memories -/

theorem Memory.wf_nil : Memory.wf [] := ⟨List.Pairwise.nil, fun _ h => nomatch h⟩

theorem Memory.wf_write {m : Memory} (h : m.wf) (a : Nat) (v : Byte) : (m.write a v).wf :=
  storeWrite_wf h a v

theorem Memory.read_write {m : Memory} (h : m.wf) (a : Nat) (v : Byte) (b : Nat) :
    (m.write a v).read b = if b = a then v else m.read b :=
  storeRead_storeWrite h.1 a v b

theorem Memory.wf_writeRange {m : Memory} (h : m.wf) (a : Nat) (bs : List Byte) :
    (m.writeRange a bs).wf := by
  induction bs generalizing m a with
  | nil => exact h
  | cons b rest ih => exact ih (Memory.wf_write h a b) (a + 1)

/-- A read after a range is written: the byte of the range at the address, or what stood there. -/
theorem Memory.read_writeRange {m : Memory} (h : m.wf) (a : Nat) (bs : List Byte) (b : Nat) :
    (m.writeRange a bs).read b =
      if a ≤ b ∧ b < a + bs.length then bs.getD (b - a) 0 else m.read b := by
  induction bs generalizing m a with
  | nil => rw [if_neg (by simp)]; rfl
  | cons x rest ih =>
    rw [Memory.writeRange, ih (Memory.wf_write h a x), Memory.read_write h]
    simp only [List.length_cons]
    by_cases hb : b = a
    · subst hb
      rw [if_neg (by omega)]
      simp
    · by_cases hin : a + 1 ≤ b ∧ b < a + 1 + rest.length
      · rw [if_pos hin, if_pos (by omega)]
        have : b - a = (b - (a + 1)) + 1 := by omega
        rw [this]; simp
      · rw [if_neg hin, if_neg hb, if_neg (by omega)]

theorem Memory.read_writeRange_outside {m : Memory} (h : m.wf) {a : Nat} {bs : List Byte} {b : Nat}
    (hb : b < a ∨ a + bs.length ≤ b) : (m.writeRange a bs).read b = m.read b := by
  rw [Memory.read_writeRange h, if_neg (by omega)]

theorem Memory.readRange_writeRange_self {m : Memory} (h : m.wf) (a : Nat) (bs : List Byte) :
    (m.writeRange a bs).readRange a bs.length = bs := by
  apply List.ext_getElem
  · simp [Memory.readRange]
  · intro i h1 h2
    simp only [Memory.readRange, List.getElem_map, List.getElem_range]
    rw [Memory.read_writeRange h, if_pos ⟨by omega, by omega⟩]
    simp [h2]

theorem Memory.readRange_writeRange_outside {m : Memory} (h : m.wf) {a : Nat} {bs : List Byte}
    {b n : Nat} (hb : b + n ≤ a ∨ a + bs.length ≤ b) :
    (m.writeRange a bs).readRange b n = m.readRange b n := by
  apply List.map_congr_left
  intro i hi
  rw [List.mem_range] at hi
  exact Memory.read_writeRange_outside h (by omega)

@[simp] theorem Memory.length_readRange (m : Memory) (a n : Nat) : (m.readRange a n).length = n := by
  simp [Memory.readRange]

/-! ## Numbers in bytes -/

@[simp] theorem length_beBytes (count n : Nat) : (beBytes count n).length = count := by
  induction count with
  | zero => rfl
  | succ c ih => simp [beBytes, ih]

theorem beNat_append_one (bs : List Byte) (b : Byte) : beNat (bs ++ [b]) = beNat bs * 256 + b.toNat := by
  simp [beNat]

theorem foldl_be (bs : List Byte) (x : Nat) :
    bs.foldl (fun n b => n * 256 + b.toNat) x = x * 256 ^ bs.length + beNat bs := by
  induction bs generalizing x with
  | nil => simp [beNat]
  | cons b rest ih =>
    have h0 : beNat (b :: rest) = b.toNat * 256 ^ rest.length + beNat rest := by
      have := ih (0 * 256 + b.toNat)
      simpa [beNat] using this
    simp only [List.foldl_cons, List.length_cons]
    rw [ih, h0]; ring

/-- A number written in `count` bytes and read back is the number, modulo what `count` bytes hold. -/
theorem beNat_beBytes (count n : Nat) : beNat (beBytes count n) = n % 256 ^ count := by
  induction count with
  | zero => simp [beBytes, beNat, Nat.mod_one]
  | succ c ih =>
    have h : beNat (beBytes (c + 1) n) =
        (n / 256 ^ c) % 256 * 256 ^ c + beNat (beBytes c n) := by
      have := foldl_be (beBytes c n) (0 * 256 + (BitVec.ofNat 8 (n / 256 ^ c)).toNat)
      simpa [beNat, beBytes] using this
    rw [h, ih, pow_succ, Nat.mod_mul]
    ring

@[simp] theorem length_padTo (n : Nat) (bs : List Byte) : (padTo n bs).length = n := by
  simp [padTo]; omega

@[simp] theorem length_resultBytes (tag : Byte) (c : Completion) (r : Result) :
    (resultBytes tag c r).length = 32 := by
  unfold resultBytes
  repeat rw [List.length_append]
  repeat rw [length_beBytes]
  rfl

/-! ## The page array -/

theorem PageArray.wf_setPage {s : State} (h : PageArray.wf s.array) (n : Nat) (c : PageCell) :
    PageArray.wf (s.setPage n c).array := storeWrite_wf h n c

theorem State.page_setPage {s : State} (h : PageArray.wf s.array) (n : Nat) (c : PageCell) (m : Nat) :
    (s.setPage n c).page m = if m = n then c else s.page m :=
  storeRead_storeWrite h.1 n c m

end Sys2Proof.Machine
end

