-- ==== Sys2Proof/Laws/Posting.lean ====
section
/-! SUPPORT. Posting.lean: what a completion leaves in a port unit (R177), and what the taking of a command
does (R176). -/

namespace Sys2Proof.Machine

/-! ## The port unit after a posting -/

section PostUnit
variable (u : PortUnit) (c : Completion) (r : Result) (data : Option (List Byte))

@[simp] theorem postUnit_state : (postUnit u c r data).state = .idle := rfl
@[simp] theorem postUnit_complete : (postUnit u c r data).complete = true := rfl
@[simp] theorem postUnit_go : (postUnit u c r data).go = u.go := rfl
@[simp] theorem postUnit_lapse : (postUnit u c r data).lapse = u.lapse := rfl
@[simp] theorem postUnit_ready : (postUnit u c r data).ready = u.ready := rfl
@[simp] theorem postUnit_mask : (postUnit u c r data).mask = u.mask := rfl
@[simp] theorem postUnit_framing : (postUnit u c r data).framing = u.framing := rfl
@[simp] theorem postUnit_launchRejected :
    (postUnit u c r data).launchRejected = u.launchRejected := rfl
@[simp] theorem postUnit_windowLocked : (postUnit u c r data).windowLocked = u.windowLocked := rfl
@[simp] theorem postUnit_link : (postUnit u c r data).link = u.link := rfl

theorem postUnit_window_none : (postUnit u c r none).window =
    Memory.writeRange u.window 0x60 (resultBytes u.go c r) := by simp only [postUnit]

theorem postUnit_window_some (bytes : List Byte) : (postUnit u c r (some bytes)).window =
    Memory.writeRange (Memory.writeRange u.window 0x60 (resultBytes u.go c r)) 0x20
      (padTo Config.pageBytes bytes) := by simp only [postUnit]

theorem postUnit_wf (h : u.window.wf) : (postUnit u c r data).window.wf := by
  cases data with
  | none => rw [postUnit_window_none]; exact Memory.wf_writeRange h _ _
  | some bytes =>
    rw [postUnit_window_some]
    exact Memory.wf_writeRange (Memory.wf_writeRange h _ _) _ _

/-- The result area holds the completion whole. -/
theorem postUnit_result (h : u.window.wf) :
    (postUnit u c r data).window.readRange 0x60 32 = resultBytes u.go c r := by
  have key := Memory.readRange_writeRange_self h 0x60 (resultBytes u.go c r)
  rw [length_resultBytes] at key
  cases data with
  | none => rw [postUnit_window_none]; exact key
  | some bytes =>
    rw [postUnit_window_some, Memory.readRange_writeRange_outside (Memory.wf_writeRange h _ _)
      (by rw [length_padTo]; right; decide)]
    exact key

/-- The data area holds the bytes returned and zeros beyond them. -/
theorem postUnit_data (h : u.window.wf) (bytes : List Byte) :
    (postUnit u c r (some bytes)).window.readRange 0x20 64 = padTo 64 bytes := by
  have key := Memory.readRange_writeRange_self (Memory.wf_writeRange h 0x60 (resultBytes u.go c r))
    0x20 (padTo Config.pageBytes bytes)
  rw [length_padTo] at key
  rw [postUnit_window_some]
  exact key

/-- Below the result area a posting writes only the data area, and that only where data is returned. -/
theorem postUnit_read_below (h : u.window.wf) {a : Nat} (ha : a < 0x60)
    (hd : data = none ∨ a < 0x20) : (postUnit u c r data).window.read a = u.window.read a := by
  cases data with
  | none => rw [postUnit_window_none]; exact Memory.read_writeRange_outside h (.inl ha)
  | some bytes =>
    rw [postUnit_window_some, Memory.read_writeRange_outside (Memory.wf_writeRange h _ _)
      (.inl (by rcases hd with hd | hd <;> [cases hd; exact hd]))]
    exact Memory.read_writeRange_outside h (.inl ha)

end PostUnit

/-! ## The state after a posting -/

section Post
variable (s : State) (p : Port) (c : Completion) (r : Result) (data : Option (List Byte))

theorem post_eq : post s p c r data = { s with ports := (post s p c r data).ports } := rfl

@[simp] theorem post_port_self : (post s p c r data).port p = postUnit (s.port p) c r data := by
  simp [post]

theorem post_port_ne {q : Port} (h : q ≠ p) : (post s p c r data).port q = s.port q :=
  s.port_setPort_ne _ h

theorem post_resultArea (h : (s.port p).window.wf) :
    resultArea (post s p c r data) p = resultBytes (s.port p).go c r := by
  unfold resultArea
  rw [post_port_self]
  exact postUnit_result _ _ _ _ h

theorem post_dataArea (h : (s.port p).window.wf) (bytes : List Byte) :
    dataArea (post s p c r (some bytes)) p = padTo 64 bytes := by
  unfold dataArea
  rw [post_port_self]
  exact postUnit_data _ _ _ h bytes

/-- What a posting does and leaves alone, against a state whose ports differ at most in the caller's port
state. -/
theorem post_answered {s s' : State} {p : Port} (state : PortState)
    (others : ∀ q, q ≠ p → s'.port q = s.port q) (unit : s'.port p = { s.port p with state := state })
    (h : (s.port p).window.wf) (c : Completion) (r : Result) (data : Option (List Byte)) :
    PortAnswered s (post s' p c r data) p data.isSome where
  others q hq := by rw [post_port_ne _ _ _ _ _ hq, others q hq]
  unit := by rw [post_port_self, unit]; rfl
  commandArea a ha := by
    rw [post_port_self, unit]
    exact postUnit_read_below _ c r data h (by omega) (.inr ha)
  data hd a _ ha := by
    rw [post_port_self, unit]
    exact postUnit_read_below _ c r data h ha (.inl (by cases data <;> simp_all))

end Post

/-! ## The taking -/

/-- The head of the queue taken, and no other port's unit. -/
theorem takeHead_port_ne (s : State) (p : Port) (rest : List Port) {q : Port} (h : q ≠ p) :
    (takeHead s p rest).port q = s.port q := s.port_setPort_ne _ h

@[simp] theorem takeHead_port_self (s : State) (p : Port) (rest : List Port) :
    (takeHead s p rest).port p = { s.port p with state := .active } := s.port_setPort_self _ _

/-- A command that waits at the head is judged on the state with the head taken (R176). -/
theorem takeCommand_taking {s : State} {p : Port} {rest : List Port} {f : CommandFields}
    (h : Taking s p rest f) (mine : CommandFields → Bool) (hm : mine f = true)
    (body : State → Port → CommandFields → State) :
    takeCommand s mine body = body (takeHead s p rest) p f := by
  have hf := h.fields
  subst hf
  simp [takeCommand, State.takesCommands, h.ready, h.noRestart, h.head, hm]

/-- All that `takeCommand` can do: nothing, or the judging of the head's command. -/
theorem takeCommand_cases (s : State) (mine : CommandFields → Bool)
    (body : State → Port → CommandFields → State) :
    takeCommand s mine body = s ∨
      ∃ p rest, s.isReady = true ∧ s.restarting = none ∧ s.dispatchQueue = p :: rest ∧
        mine (commandFields (s.port p).window) = true ∧
        takeCommand s mine body =
          body (takeHead s p rest) p (commandFields (s.port p).window) := by
  unfold takeCommand
  split
  · next ht =>
    simp only [State.takesCommands, Bool.and_eq_true, Option.isNone_iff_eq_none] at ht
    split
    · exact .inl rfl
    · next p rest hq =>
      simp only
      split
      · next hm => exact .inr ⟨p, rest, ht.1, ht.2, hq, hm, rfl⟩
      · exact .inl rfl
  · exact .inl rfl

/-! ## The judging (R44) -/

theorem firstFailure_eq_none {checks : List (Completion × Bool)} :
    firstFailure checks = none ↔ ∀ x ∈ checks, x.2 = false := by
  induction checks with
  | nil => simp [firstFailure]
  | cons x rest ih =>
    obtain ⟨c, b⟩ := x
    cases b <;> simp [firstFailure, ih]

/-- The first failing check gives the code. -/
theorem firstFailure_eq_some {checks : List (Completion × Bool)} {c : Completion} :
    firstFailure checks = some c ↔
      ∃ before after, checks = before ++ (c, true) :: after ∧ ∀ x ∈ before, x.2 = false := by
  induction checks with
  | nil => simp [firstFailure]
  | cons x rest ih =>
    obtain ⟨d, b⟩ := x
    cases b with
    | true =>
      simp only [firstFailure, if_true, Option.some.injEq]
      constructor
      · rintro rfl; exact ⟨[], rest, rfl, by simp⟩
      · rintro ⟨before, after, h, hb⟩
        cases before with
        | nil => simpa using congrArg Prod.fst (List.cons.inj h).1
        | cons y ys =>
          have h1 := (List.cons.inj h).1
          have := hb y (by simp)
          rw [← h1] at this; simp at this
    | false =>
      simp only [firstFailure, Bool.false_eq_true, if_false, ih]
      constructor
      · rintro ⟨before, after, rfl, hb⟩
        exact ⟨(d, false) :: before, after, rfl, by simpa using hb⟩
      · rintro ⟨before, after, h, hb⟩
        cases before with
        | nil => simpa using congrArg Prod.snd (List.cons.inj h).1
        | cons y ys => exact ⟨ys, after, (List.cons.inj h).2, fun x hx => hb x (by simp [hx])⟩

/-- A command that fails no check is accepted. -/
theorem judge_accepted {s : State} {p : Port} {checks : List (Completion × Bool)} {accepted : State}
    (h : ∀ x ∈ checks, x.2 = false) : judge s p checks accepted = accepted := by
  simp [judge, firstFailure_eq_none.mpr h]

/-- A command that fails a check is refused with the first failing check's code. -/
theorem judge_refused {s : State} {p : Port} {checks : List (Completion × Bool)} {accepted : State}
    {c : Completion} (h : firstFailure checks = some c) :
    judge s p checks accepted = post s p c {} none := by
  simp [judge, h]

/-- All that `judge` can do. -/
theorem judge_cases (s : State) (p : Port) (checks : List (Completion × Bool)) (accepted : State) :
    judge s p checks accepted = accepted ∧ (∀ x ∈ checks, x.2 = false) ∨
      ∃ c, judge s p checks accepted = post s p c {} none := by
  cases h : firstFailure checks with
  | none => exact .inl ⟨judge_accepted (firstFailure_eq_none.mp h), firstFailure_eq_none.mp h⟩
  | some c => exact .inr ⟨c, judge_refused h⟩

/-- A command answered at once from the state with the head taken does nothing else. -/
theorem answeredOnly_post {s : State} {p : Port} (rest : List Port) (h : (s.port p).window.wf)
    (c : Completion) (r : Result) (data : Option (List Byte)) :
    AnsweredOnly s (post (takeHead s p rest) p c r data) p rest data.isSome where
  frame := rfl
  answer := post_answered .active (fun _ hq => takeHead_port_ne s p rest hq)
    (takeHead_port_self s p rest) h c r data

theorem takeHead_wf {s : State} {p : Port} (rest : List Port) (h : (s.port p).window.wf) :
    ((takeHead s p rest).port p).window.wf := by rw [takeHead_port_self]; exact h

theorem resultArea_post_takeHead {s : State} {p : Port} (rest : List Port) (h : (s.port p).window.wf)
    (c : Completion) (r : Result) (data : Option (List Byte)) :
    resultArea (post (takeHead s p rest) p c r data) p = resultBytes (s.port p).go c r := by
  rw [post_resultArea _ _ _ _ _ (takeHead_wf rest h), takeHead_port_self]

theorem lacksRight_eq_false {s : State} {ns : Nat} {p : Port} {right : Rights → Bool}
    (h : HoldsRight s ns p right) : lacksRight s ns p right = false := by
  obtain ⟨n, hn, ho, hr⟩ := h
  have hr' : right n.rights[p.val] = true := hr
  simp [lacksRight, hn, ho, hr']

end Sys2Proof.Machine
end

