-- ==== Sys2Proof/Laws/Claims.lean ====
section
/-! SUPPORT. Claims.lean: what the Claim Unit's operations can do (R86, R87, R91). -/

namespace Sys2Proof.Machine

theorem mem_slotNumbers (i : SlotNo) : i ∈ slotNumbers := by revert i; decide

theorem slotNumbers_split (i : SlotNo) :
    ∃ before after, slotNumbers = before ++ i :: after ∧ ∀ j ∈ before, j < i :=
  ⟨(List.finRange 8).take i.val, (List.finRange 8).drop (i.val + 1), by revert i; decide,
    by revert i; decide⟩

/-- The lowest slot that a test picks out. -/
theorem find_slotNumbers {q : SlotNo → Bool} {i : SlotNo} (h : q i = true)
    (lowest : ∀ j, j < i → q j = false) : slotNumbers.find? q = some i := by
  obtain ⟨before, after, hs, hb⟩ := slotNumbers_split i
  rw [List.find?_eq_some_iff_append]
  exact ⟨h, before, after, hs, fun j hj => by simp [lowest j (hb j hj)]⟩

theorem find_slotNumbers_none {q : SlotNo → Bool} (h : ∀ i, q i = false) :
    slotNumbers.find? q = none := by
  rw [List.find?_eq_none]; intro i _; simp [h i]

theorem lowestFree_eq {s : State} {i : SlotNo} (h : LowestFree s i) : lowestFree s = some i :=
  find_slotNumbers (by simp [Slot.isFree, h.free])
    fun j hj => by have := h.lowest j hj; simpa [Slot.isFree] using this

theorem slotOf_val {n : Nat} {i : SlotNo} (h : n = i.val) : slotOf n = some i := by
  subst h; simp [slotOf]

/-- A current handle is judged current (R86). -/
theorem handleStatus_current {s : State} {p : Port} {f : CommandFields} {i : SlotNo}
    (h : CurrentHandle s p f i) : handleStatus s p f = .current i := by
  have h2 : (s.slot i).isFree = false := by simpa [Slot.isFree] using h.claimed
  simp [handleStatus, slotOf_val h.slot, h2, h.generation, h.holder]

/-- A handle that is not current (R86). -/
theorem handleStatus_stale {s : State} {p : Port} {f : CommandFields} {i : SlotNo}
    (hs : f.slot = i.val)
    (h : (s.slot i).state = .free ∨ (s.slot i).generation ≠ f.generation ∨
      (s.slot i).holder ≠ some p) :
    handleStatus s p f =
      if (s.slot i).state = .free ∧ (s.slot i).lapsed = some (f.generation, p) then .lapsed
      else .unknown := by
  simp only [handleStatus, slotOf_val hs, Slot.isFree]
  have h' : (!((s.slot i).state == .free) && (s.slot i).generation == f.generation &&
      (s.slot i).holder == some p) = false := by
    rcases h with h | h | h <;> simp [h]
  simp [h']

/-! ## Releases -/

/-- A release changes the directory by the claim's entry, the slot, and for a lapse the holder's unit. -/
theorem releaseSlot_frame (s : State) (i : SlotNo) (cause : ReleaseCause) :
    releaseSlot s i cause = { s with
      directory := (releaseSlot s i cause).directory
      claims := s.claims.set i (releasedSlot (s.slot i) cause)
      ports := (releaseSlot s i cause).ports } := by
  unfold releaseSlot releaseEntry
  simp only
  (repeat' split) <;> rfl

theorem releaseEntry_frame (s : State) (k : Key) (h : Handle) (kind : Option ClaimKind)
    (cause : ReleaseCause) :
    releaseEntry s k h kind cause =
      { s with directory := (releaseEntry s k h kind cause).directory } := by
  unfold releaseEntry
  (repeat' split) <;> rfl

@[simp] theorem releaseEntry_ports (s : State) (k : Key) (h : Handle) (kind : Option ClaimKind)
    (cause : ReleaseCause) : (releaseEntry s k h kind cause).ports = s.ports := by
  rw [releaseEntry_frame]

/-- A release that is no lapse touches no port unit. -/
theorem releaseSlot_ports {s : State} {i : SlotNo} {cause : ReleaseCause} (h : cause ≠ .lapsed) :
    (releaseSlot s i cause).ports = s.ports := by
  unfold releaseSlot
  simp only
  cases cause <;> simp_all <;> split <;> simp

theorem releaseSlot_slot (s : State) (i j : SlotNo) (cause : ReleaseCause) :
    (releaseSlot s i cause).slot j = if j = i then releasedSlot (s.slot i) cause else s.slot j := by
  have h : (releaseSlot s i cause).slot j =
      (s.setSlot i (releasedSlot (s.slot i) cause)).slot j := by
    rw [releaseSlot_frame]; rfl
  rw [h, State.slot_setSlot]

@[simp] theorem releasedSlot_state (x : Slot) (cause : ReleaseCause) :
    (releasedSlot x cause).state = .free := rfl

@[simp] theorem releasedSlot_lease (x : Slot) (cause : ReleaseCause) :
    (releasedSlot x cause).lease = none := rfl

@[simp] theorem releasedSlot_buffer (x : Slot) (cause : ReleaseCause) :
    (releasedSlot x cause).buffer = x.buffer := rfl

/-- The entries after a release: each stood before, but perhaps for its claim field. -/
theorem releaseSlot_directory {s : State} {i : SlotNo} {cause : ReleaseCause} {e : Entry}
    (h : e ∈ (releaseSlot s i cause).directory) :
    ∃ e₀ ∈ s.directory, e = e₀ ∨ e = { e₀ with claim := none } := by
  have key : ∀ (t : State) k hd kind, t.directory = s.directory →
      e ∈ (releaseEntry t k hd kind cause).directory →
      ∃ e₀ ∈ s.directory, e = e₀ ∨ e = { e₀ with claim := none } := by
    intro t k hd kind ht he
    unfold releaseEntry at he
    split at he
    · exact ⟨e, ht ▸ he, .inl rfl⟩
    · split at he
      · exact ⟨e, ht ▸ he, .inl rfl⟩
      · split at he
        · rw [State.removeEntry_directory, List.mem_filter, ht] at he
          exact ⟨e, he.1, .inl rfl⟩
        · rw [State.modifyEntry_directory, List.mem_map, ht] at he
          obtain ⟨x, hx, rfl⟩ := he
          refine ⟨x, hx, ?_⟩
          split <;> simp
  unfold releaseSlot at h
  simp only at h
  split at h
  · refine key _ _ _ _ ?_ h
    split <;> rfl
  · refine ⟨e, ?_, .inl rfl⟩
    revert h; split <;> exact id

end Sys2Proof.Machine
end

