-- ==== Sys2Proof/Laws/Directory.lean ====
section
/-! SUPPORT. Directory.lean: what the operations over the directory, the Repair List and the Change Sets can
do (R18, R21, R26, R27, R28, R138, R165 to R167). -/

namespace Sys2Proof.Machine

/-! ## Entries -/

theorem State.entry_some {s : State} {k : Key} {e : Entry} (h : s.entry k = some e) :
    e ∈ s.directory ∧ e.key = k :=
  ⟨List.mem_of_find?_eq_some h, by simpa using List.find?_some h⟩

theorem State.entry_none {s : State} {k : Key} :
    s.entry k = none ↔ ∀ e ∈ s.directory, e.key ≠ k := by
  simp [State.entry, List.find?_eq_none]

/-- The entry of a changed key, where the change keeps the key. -/
theorem State.entry_modifyEntry_self {s : State} {k : Key} {e : Entry} {f : Entry → Entry}
    (h : s.entry k = some e) (hf : (f e).key = k) : (s.modifyEntry k f).entry k = some (f e) := by
  simp only [State.entry, State.modifyEntry_directory, List.find?_map] at *
  rw [List.find?_eq_some_iff_append] at h
  obtain ⟨hk, before, after, hs, hb⟩ := h
  have hk' : e.key = k := by simpa using hk
  have : List.find? ((fun x => decide (x.key = k)) ∘ fun e => if e.key = k then f e else e) s.directory =
      some e := by
    rw [List.find?_eq_some_iff_append]
    refine ⟨by simp [hk', hf], before, after, hs, fun x hx => ?_⟩
    have hne : x.key ≠ k := by simpa using hb x hx
    simp [hne]
  rw [this]
  simp [hk']

/-- Every other key's entry stays, where the change keeps the key. -/
theorem State.entry_modifyEntry_ne {s : State} {k k' : Key} {f : Entry → Entry} (hne : k' ≠ k)
    (hf : ∀ e, e.key = k → (f e).key = k) : (s.modifyEntry k f).entry k' = s.entry k' := by
  simp only [State.entry, State.modifyEntry_directory]
  induction s.directory with
  | nil => rfl
  | cons x rest ih =>
    by_cases hx : x.key = k
    · have h1 : ¬ k = k' := fun h => hne h.symm
      simp [hx, hf x hx, h1, ih]
    · by_cases hx' : x.key = k' <;> simp [hx', hne, ih, hx]

theorem State.entry_removeEntry_self (s : State) (k : Key) : (s.removeEntry k).entry k = none := by
  rw [State.entry_none]
  intro e he
  simpa using (List.mem_filter.mp he).2

theorem State.entry_removeEntry_ne (s : State) {k k' : Key} (h : k' ≠ k) :
    (s.removeEntry k).entry k' = s.entry k' := by
  simp only [State.entry, State.removeEntry_directory, List.find?_filter]
  congr 1
  funext e
  by_cases he : e.key = k' <;> simp [he, h]

/-! ## The order of the directory -/

theorem Key.before_irrefl (k : Key) : k.before k = false := by simp [Key.before]

theorem Key.before_trans {a b c : Key} (h1 : a.before b = true) (h2 : b.before c = true) :
    a.before c = true := by
  simp only [Key.before, Bool.or_eq_true, Bool.and_eq_true, decide_eq_true_eq, beq_iff_eq] at *
  omega

theorem Key.before_total {a b : Key} (h : a ≠ b) : a.before b = true ∨ b.before a = true := by
  obtain ⟨n, i⟩ := a
  obtain ⟨m, j⟩ := b
  simp only [ne_eq, Key.mk.injEq] at h
  simp only [Key.before, Bool.or_eq_true, Bool.and_eq_true, decide_eq_true_eq, beq_iff_eq]
  omega

theorem mem_insertEntry {e x : Entry} {l : List Entry} : x ∈ insertEntry e l ↔ x = e ∨ x ∈ l := by
  induction l with
  | nil => simp [insertEntry]
  | cons y rest ih =>
    simp only [insertEntry]
    split
    · simp
    · simp only [List.mem_cons, ih]
      tauto

@[simp] theorem length_insertEntry (e : Entry) (l : List Entry) :
    (insertEntry e l).length = l.length + 1 := by
  induction l with
  | nil => rfl
  | cons y rest ih => simp only [insertEntry]; split <;> simp [ih]

/-- A new key goes to its place in the order (R21). -/
theorem insertEntry_ordered {e : Entry} {l : List Entry}
    (h : l.Pairwise fun a b => a.key.before b.key = true) (hn : ∀ x ∈ l, x.key ≠ e.key) :
    (insertEntry e l).Pairwise fun a b => a.key.before b.key = true := by
  induction l with
  | nil => simp [insertEntry]
  | cons y rest ih =>
    rw [List.pairwise_cons] at h
    simp only [insertEntry]
    split
    · next hb =>
      rw [List.pairwise_cons, List.pairwise_cons]
      refine ⟨fun x hx => ?_, h⟩
      rcases List.mem_cons.mp hx with rfl | hx
      · exact hb
      · exact Key.before_trans hb (h.1 x hx)
    · next hb =>
      rw [List.pairwise_cons]
      refine ⟨fun x hx => ?_, ih h.2 fun x hx => hn x (List.mem_cons_of_mem _ hx)⟩
      rcases mem_insertEntry.mp hx with rfl | hx
      · exact (Key.before_total (hn y List.mem_cons_self)).resolve_right hb
      · exact h.1 x hx

/-- A change that keeps every key keeps the order. -/
theorem modifyEntry_ordered {s : State} {k : Key} {f : Entry → Entry}
    (h : DirectoryOrdered s) (hf : ∀ e ∈ s.directory, e.key = k → (f e).key = k) :
    DirectoryOrdered (s.modifyEntry k f) where
  ordered := by
    rw [State.modifyEntry_directory, List.pairwise_map]
    refine h.ordered.imp_of_mem fun {a b} ha hb hab => ?_
    have key : ∀ x ∈ s.directory, (if x.key = k then f x else x).key = x.key := by
      intro x hx
      split
      · next hk => rw [hf x hx hk, hk]
      · rfl
    rw [key a ha, key b hb]; exact hab
  bounded := by simpa using h.bounded

theorem removeEntry_ordered {s : State} {k : Key} (h : DirectoryOrdered s) :
    DirectoryOrdered (s.removeEntry k) where
  ordered := h.ordered.sublist (List.filter_sublist)
  bounded := le_trans (List.length_filter_le _ _) h.bounded

/-! ## Notices -/

/-- All that a notice does: it is delivered to the Change Sets it reaches (R166). -/
theorem notify_frame (s : State) (kind : NoticeKind) (k : Key) (version : Nat) (cause : Option Port) :
    notify s kind k version cause =
      { s with changeSets := (notify s kind k version cause).changeSets } := rfl

theorem notify_changes (s : State) (kind : NoticeKind) (k : Key) (version : Nat) (cause : Option Port)
    (p : Port) : (notify s kind k version cause).changes p =
      if delivered s.watches k cause p then deliver (s.changes p) ⟨k, kind, version⟩
      else s.changes p := by
  simp [notify, State.changes]

/-! ## Repair requests -/

theorem repairRequest_frame (s : State) (k : Key) (version : Nat) (c : CopyNo) (cause : RepairCause) :
    repairRequest s k version c cause =
      { s with repairList := (repairRequest s k version c cause).repairList } := by
  unfold repairRequest
  (repeat' split) <;> rfl

theorem placeLost_frame (s : State) (k : Key) (version : Nat) (c : CopyNo) :
    placeLost s k version c = { s with repairList := (placeLost s k version c).repairList } := by
  unfold placeLost
  split
  · rfl
  · rw [repairRequest_frame]

theorem mem_repairListAdd (l : List RepairEntry) (e : RepairEntry) : e ∈ repairListAdd l e := by
  simp [repairListAdd]

/-- After a request the list holds an entry for the pair (R138). -/
theorem repairRequest_present (s : State) (k : Key) (version : Nat) (c : CopyNo) (cause : RepairCause) :
    (repairRequest s k version c cause).repairList.any (·.isFor k c) = true := by
  have new : ∀ l, (repairListAdd l ⟨k, version, c, cause, false, false⟩).any (·.isFor k c) = true :=
    fun l => List.any_eq_true.mpr ⟨_, mem_repairListAdd l _, by simp [RepairEntry.isFor]⟩
  unfold repairRequest
  simp only
  split
  · exact new _
  · next e he =>
    have hm := List.mem_of_find?_eq_some he
    have hp := List.find?_some he
    have old : s.repairList.any (·.isFor k c) = true := List.any_eq_true.mpr ⟨e, hm, hp⟩
    split
    · exact old
    · split
      · exact new _
      · split
        · exact old
        · rw [List.any_eq_true]
          refine ⟨{ e with cause := .lost, version := version }, ?_, ?_⟩
          · rw [List.mem_map]
            exact ⟨e, hm, by simp [hp]⟩
          · simpa [RepairEntry.isFor] using hp

/-! ## Reports of page reads -/

/-- A charged correction touches the copy's descriptor and the Repair List (R26). -/
theorem chargeCorrection_frame (s : State) (k : Key) (c : CopyNo) (faulty : Bool) :
    chargeCorrection s k c faulty =
      { s with
        directory := (chargeCorrection s k c faulty).directory
        repairList := (chargeCorrection s k c faulty).repairList } := by
  unfold chargeCorrection
  split
  · rfl
  · split
    · rfl
    · split
      · rfl
      · simp only
        split
        · rw [repairRequest_frame]; rfl
        · rfl

/-- A copy fault touches the entry, the Repair List and the Change Sets (R18). -/
theorem copyFault_frame (s : State) (k : Key) (c : CopyNo) :
    copyFault s k c =
      { s with
        directory := (copyFault s k c).directory
        repairList := (copyFault s k c).repairList
        changeSets := (copyFault s k c).changeSets } := by
  unfold copyFault
  split
  · rfl
  · split
    · rfl
    · split
      · rfl
      · simp only
        split
        · rfl
        · rw [repairRequest_frame]; rfl
        · split <;> rfl

theorem reportPage_frame (s : State) (k : Key) (c : CopyNo) (report : PageReport)
    (pageFaulty copyFaulty : Bool) :
    reportPage s k c report pageFaulty copyFaulty =
      { s with
        directory := (reportPage s k c report pageFaulty copyFaulty).directory
        repairList := (reportPage s k c report pageFaulty copyFaulty).repairList
        changeSets := (reportPage s k c report pageFaulty copyFaulty).changeSets } := by
  unfold reportPage
  (repeat' split) <;> first
    | rfl
    | rw [copyFault_frame, chargeCorrection_frame]
    | rw [copyFault_frame]
    | rw [chargeCorrection_frame]

/-- A page that reads CLEAN in a copy that is not faulty reports nothing. -/
theorem reportPage_clean {s : State} {k : Key} {c : CopyNo} {report : PageReport}
    (h : report.corrected = false) : reportPage s k c report false false = s := by
  simp [reportPage, h]

end Sys2Proof.Machine
end

