-- ==== Sys2Proof/Laws/Engine.lean ====
section
/-! SUPPORT. Engine.lean: what the shared operations of the Array Engine can do (sections 6 to 8): the page
moves, the settling of the Retirement List, the end of a job, draws, programs and failures. -/

namespace Sys2Proof.Machine

/-! ## Page moves -/

theorem addDirty_frame (s : State) (pages : List Nat) (k : Key) :
    addDirty s pages k = { s with
      retirementList := (addDirty s pages k).retirementList
      eraseList := s.eraseList ++ pages.map fun p => (p, some k) } := rfl

theorem liveToDirty_frame (s : State) (pages : List Nat) (k : Key) :
    liveToDirty s pages k = { s with
      live := without s.live pages
      retirementList := (liveToDirty s pages k).retirementList
      eraseList := s.eraseList ++ pages.map fun p => (p, some k) } := rfl

theorem inWriteToLive_frame (s : State) (pages : List Nat) :
    inWriteToLive s pages = { s with
      inWrite := without s.inWrite pages, live := insertAll pages s.live } := rfl

theorem inWriteToDirty_frame (s : State) (k : Key) :
    inWriteToDirty s k = { s with
      inWrite := []
      retirementList := (inWriteToDirty s k).retirementList
      eraseList := s.eraseList ++ s.inWrite.map fun p => (p, some k) } := rfl

theorem inWritePageToDirty_frame (s : State) (page : Nat) (k : Key) :
    inWritePageToDirty s page k = { s with
      inWrite := without s.inWrite [page]
      retirementList := (inWritePageToDirty s page k).retirementList
      eraseList := s.eraseList ++ [(page, some k)] } := rfl

theorem mem_without {n : Nat} {l ns : List Nat} : n ∈ without l ns ↔ n ∈ l ∧ n ∉ ns := by
  simp [without]

/-! ## The end of a job -/

theorem settleRetirements_frame (s : State) : settleRetirements s = { s with
    retirementList := (settleRetirements s).retirementList
    live := (settleRetirements s).live
    eraseList := (settleRetirements s).eraseList } := rfl

@[simp] theorem settleRetirements_ports (s : State) : (settleRetirements s).ports = s.ports := rfl

/-- The end of a job: the record is gone, the engine is FREE, and only the Retirement List and the pages it
holds are settled (R115, R119, R122). -/
theorem finishJob_frame (s : State) : finishJob s = { s with
    running := none
    operation := none
    engine := .free
    retirementList := (finishJob s).retirementList
    live := (finishJob s).live
    eraseList := (finishJob s).eraseList } := rfl

theorem finishJob_ended (s : State) : JobEnded (finishJob s) := ⟨rfl, rfl, rfl⟩

@[simp] theorem finishJob_port (s : State) (p : Port) : (finishJob s).port p = s.port p := rfl
@[simp] theorem finishJob_slot (s : State) (i : SlotNo) : (finishJob s).slot i = s.slot i := rfl
@[simp] theorem finishJob_entry (s : State) (k : Key) : (finishJob s).entry k = s.entry k := rfl
@[simp] theorem finishJob_page (s : State) (n : Nat) : (finishJob s).page n = s.page n := rfl
@[simp] theorem finishJob_changes (s : State) (p : Port) : (finishJob s).changes p = s.changes p := rfl

theorem completeJob_frame (s : State) (r : RunningJob) (c : Completion) (res : Result)
    (data : Option (List Byte)) :
    completeJob s r c res data = { s with ports := (completeJob s r c res data).ports } := by
  unfold completeJob
  split <;> rfl

theorem completeJob_some {s : State} {r : RunningJob} {p : Port} (h : r.job.port = some p)
    (c : Completion) (res : Result) (data : Option (List Byte)) :
    completeJob s r c res data = post s p c res data := by simp [completeJob, h]

theorem completeJob_none {s : State} {r : RunningJob} (h : r.job.port = none)
    (c : Completion) (res : Result) (data : Option (List Byte)) :
    completeJob s r c res data = s := by simp [completeJob, h]

/-- The release of a job's slot touches the directory and the Claim Table, and, since it is no lapse, no
port. -/
theorem releaseJobSlot_frame {cause : ReleaseCause} (h : cause ≠ .lapsed) (s : State)
    (r : RunningJob) : releaseJobSlot s r cause = { s with
      directory := (releaseJobSlot s r cause).directory
      claims := (releaseJobSlot s r cause).claims } := by
  unfold releaseJobSlot
  split
  · next hd _ =>
    conv_lhs => rw [releaseSlot_frame, releaseSlot_ports h]
    conv_rhs => rw [releaseSlot_frame]
  · rfl

/-! ## Engine events -/

/-- An event of the running job, in READY. -/
theorem jobEvent_running {s : State} {r : RunningJob} (h : s.isReady = true) (hr : s.running = some r)
    (body : RunningJob → State) : jobEvent s body = body r := by simp [jobEvent, h, hr]

/-- All that an engine event can do: nothing, or its body on the running job. -/
theorem jobEvent_cases (s : State) (body : RunningJob → State) :
    jobEvent s body = s ∨
      ∃ r, s.isReady = true ∧ s.running = some r ∧ jobEvent s body = body r := by
  unfold jobEvent
  split
  · next h =>
    split
    · next r hr => exact .inr ⟨r, h, hr, rfl⟩
    · exact .inl rfl
  · exact .inl rfl

theorem currentProgram_eq {s : State} {r : RunningJob} {d : DrawnPage} {tag : Tag} {payload : Payload}
    (h : Programming s r d tag payload) : currentProgram s r = some (d, tag, payload) := by
  simp [currentProgram, h.page, h.operation, h.stage]

/-! ## Marking a page programmed -/

theorem markProgrammed_dataPagesOf (r : RunningJob) (d : DrawnPage) (c : CopyNo) :
    dataPagesOf (markProgrammed r d) c = dataPagesOf r c := by
  simp only [dataPagesOf, markProgrammed, List.filter_map, List.map_map]
  have h1 : ((fun d => d.role.isDataOf c) ∘ fun x : DrawnPage =>
      if x.role = d.role then { x with programmed := true } else x) = fun d => d.role.isDataOf c := by
    funext x; simp only [Function.comp_apply]; split <;> rfl
  rw [h1]
  apply List.map_congr_left
  intro x _
  simp only [Function.comp_apply]; split <;> rfl

theorem markProgrammed_headerPageOf (r : RunningJob) (d : DrawnPage) (c : CopyNo) :
    headerPageOf (markProgrammed r d) c = headerPageOf r c := by
  simp only [headerPageOf, markProgrammed, List.find?_map]
  have h1 : ((fun d => d.role == PageRole.header c) ∘ fun x : DrawnPage =>
      if x.role = d.role then { x with programmed := true } else x) =
      fun d => d.role == PageRole.header c := by
    funext x; simp only [Function.comp_apply]; split <;> rfl
  rw [h1]
  cases List.find? (fun d => d.role == PageRole.header c) r.drawn with
  | none => rfl
  | some x => simp only [Option.map_some, Option.getD_some]; split <;> rfl

/-- The descriptor of a programmed copy does not depend on what is marked (R29, R31). -/
theorem markProgrammed_descriptorOf (r : RunningJob) (d : DrawnPage) (c : CopyNo) :
    descriptorOf (markProgrammed r d) c = descriptorOf r c := by
  simp only [descriptorOf, markProgrammed_dataPagesOf, markProgrammed_headerPageOf]

@[simp] theorem markProgrammed_key (r : RunningJob) (d : DrawnPage) :
    (markProgrammed r d).key = r.key := rfl

/-- The job is the same one: its command, its port, its claim. -/
@[simp] theorem markProgrammed_job (r : RunningJob) (d : DrawnPage) :
    (markProgrammed r d).job = r.job := rfl

@[simp] theorem markProgrammed_cls (r : RunningJob) (d : DrawnPage) :
    (markProgrammed r d).cls = r.cls := rfl

/-! ## What no engine event touches -/

theorem EngineFrame.refl (s : State) : EngineFrame s s := rfl

theorem EngineFrame.trans {s t u : State} (h1 : EngineFrame s t) (h2 : EngineFrame t u) :
    EngineFrame s u := by
  unfold EngineFrame at *
  rw [h2, h1]

theorem EngineFrame.post (s : State) (p : Port) (c : Completion) (r : Result)
    (data : Option (List Byte)) : EngineFrame s (Machine.post s p c r data) := rfl

theorem EngineFrame.completeJob (s : State) (r : RunningJob) (c : Completion) (res : Result)
    (data : Option (List Byte)) : EngineFrame s (Machine.completeJob s r c res data) := by
  unfold Machine.completeJob; split <;> rfl

theorem EngineFrame.finishJob (s : State) : EngineFrame s (Machine.finishJob s) := rfl

theorem EngineFrame.modifyEntry (s : State) (k : Key) (f : Entry → Entry) :
    EngineFrame s (s.modifyEntry k f) := rfl

theorem EngineFrame.setPage (s : State) (n : Nat) (c : PageCell) : EngineFrame s (s.setPage n c) := rfl

theorem EngineFrame.spoilPage (s : State) (n : Nat) : EngineFrame s (s.spoilPage n) := rfl

theorem EngineFrame.releaseJobSlot (s : State) (r : RunningJob) (cause : ReleaseCause) :
    EngineFrame s (Machine.releaseJobSlot s r cause) := by
  unfold Machine.releaseJobSlot
  split
  · unfold EngineFrame; rw [releaseSlot_frame]
  · rfl

theorem EngineFrame.repairRequest (s : State) (k : Key) (version : Nat) (c : CopyNo)
    (cause : RepairCause) : EngineFrame s (Machine.repairRequest s k version c cause) := by
  unfold EngineFrame; rw [repairRequest_frame]

theorem EngineFrame.placeLost (s : State) (k : Key) (version : Nat) (c : CopyNo) :
    EngineFrame s (Machine.placeLost s k version c) := by
  unfold EngineFrame; rw [placeLost_frame]

theorem EngineFrame.reportPage (s : State) (k : Key) (c : CopyNo) (report : PageReport) (b b' : Bool) :
    EngineFrame s (Machine.reportPage s k c report b b') := by
  unfold EngineFrame; rw [reportPage_frame]

theorem EngineFrame.undoEntry (s : State) (r : RunningJob) : EngineFrame s (Machine.undoEntry s r) := by
  unfold Machine.undoEntry
  (repeat' split) <;> rfl

theorem EngineFrame.endBeforeCommit (s : State) (r : RunningJob) (c : Completion) :
    EngineFrame s (Machine.endBeforeCommit s r c) := by
  unfold Machine.endBeforeCommit
  exact (EngineFrame.trans (t := inWriteToDirty s r.key) rfl (.undoEntry _ _)).trans
    ((EngineFrame.releaseJobSlot _ _ _).trans ((EngineFrame.completeJob _ _ _ _ _).trans (.finishJob _)))

theorem EngineFrame.endCopyPending (s : State) (r : RunningJob) :
    EngineFrame s (Machine.endCopyPending s r) := by
  unfold Machine.endCopyPending
  exact (EngineFrame.trans (t := inWriteToDirty s r.key) rfl (.modifyEntry _ _ _)).trans
    ((EngineFrame.repairRequest _ _ _ _ _).trans ((EngineFrame.releaseJobSlot _ _ _).trans
      ((EngineFrame.completeJob _ _ _ _ _).trans (.finishJob _))))

theorem EngineFrame.endWriteDone (s : State) (r : RunningJob) :
    EngineFrame s (Machine.endWriteDone s r) := by
  unfold Machine.endWriteDone backToLive
  exact (EngineFrame.modifyEntry _ _ _).trans ((EngineFrame.releaseJobSlot _ _ _).trans
    ((EngineFrame.completeJob _ _ _ _ _).trans (.finishJob _)))

theorem EngineFrame.closeRepair (s : State) (r : RunningJob) :
    EngineFrame s (Machine.closeRepair s r) := by
  unfold Machine.closeRepair replaceLost
  refine EngineFrame.trans (t := dropRepair s r.key r.job.params.copy) rfl
    (EngineFrame.trans ?_ (.finishJob _))
  split
  · rfl
  · split
    · exact .placeLost _ _ _ _
    · rfl

/-- A job that cannot go on (R117, R124, R129 to R131, R144). -/
theorem EngineFrame.failJob (s : State) (r : RunningJob) (c : Completion) :
    EngineFrame s (Machine.failJob s r c) := by
  unfold Machine.failJob
  split
  · exact EngineFrame.trans (t := inWriteToDirty s r.key) rfl (.closeRepair _ _)
  · exact .endBeforeCommit _ _ _
  · exact .endCopyPending _ _

theorem EngineFrame.programNext (s : State) (r : RunningJob) :
    EngineFrame s (Machine.programNext s r) := by
  unfold Machine.programNext beginHeader
  (repeat' split) <;> first
    | rfl
    | exact .failJob _ _ _

/-- A draw that goes on (R111). -/
theorem EngineFrame.continueDraw (s : State) (r : RunningJob) (count : Nat) (role : Option PageRole) :
    EngineFrame s (Machine.continueDraw s r count role) := by
  unfold Machine.continueDraw drawNow
  (repeat' split) <;> first
    | rfl
    | exact EngineFrame.trans (by rfl) (.programNext _ _)
    | exact EngineFrame.trans (by rfl) (.failJob _ _ _)

theorem EngineFrame.programFailed (s : State) (r : RunningJob) (d : DrawnPage) :
    EngineFrame s (Machine.programFailed s r d) := by
  unfold Machine.programFailed
  have h : EngineFrame s (inWritePageToDirty (s.spoilPage d.page) d.page r.key) := rfl
  simp only
  split
  · exact h.trans (.failJob _ _ _)
  · exact h.trans (.continueDraw _ _ _ _)

theorem EngineFrame.endConfig (s : State) (r : RunningJob) (c : Completion) (committed : Bool) :
    EngineFrame s (Machine.endConfig s r c committed) := by
  unfold Machine.endConfig
  exact (EngineFrame.releaseJobSlot _ _ _).trans ((EngineFrame.completeJob _ _ _ _ _).trans (.finishJob _))

/-! ## The canonical forms through the end of a job -/

theorem post_wf {s : State} (h : ∀ q, (s.port q).window.wf) (p : Port) (c : Completion) (r : Result)
    (data : Option (List Byte)) (q : Port) : ((post s p c r data).port q).window.wf := by
  by_cases hq : q = p
  · subst hq; rw [post_port_self]; exact postUnit_wf _ _ _ _ (h q)
  · rw [post_port_ne _ _ _ _ _ hq]; exact h q

end Sys2Proof.Machine
end

