-- ==== Sys2Proof/Laws/Commit.lean ====
section
/-! SUPPORT. Commit.lean: what the reports of commit points change (R29, R31, R128, R129, R132). -/

namespace Sys2Proof.Machine

/-! ## Entries through the page moves, the notices and the Repair List -/

section Views
variable (s : State) (k : Key)

@[simp] theorem notify_entry (kind : NoticeKind) (k' : Key) (v : Nat) (c : Option Port) :
    (notify s kind k' v c).entry k = s.entry k := rfl
@[simp] theorem liveToDirty_entry (pages : List Nat) (k' : Key) :
    (liveToDirty s pages k').entry k = s.entry k := rfl
@[simp] theorem inWriteToLive_entry (pages : List Nat) :
    (inWriteToLive s pages).entry k = s.entry k := rfl
@[simp] theorem inWriteToDirty_entry (k' : Key) : (inWriteToDirty s k').entry k = s.entry k := rfl
@[simp] theorem supersedeBelow_entry (k' : Key) (v : Nat) :
    (supersedeBelow s k' v).entry k = s.entry k := rfl
@[simp] theorem supersedeBelow_changes (k' : Key) (v : Nat) (p : Port) :
    (supersedeBelow s k' v).changes p = s.changes p := rfl
@[simp] theorem supersedeBelow_watches (k' : Key) (v : Nat) :
    (supersedeBelow s k' v).watches = s.watches := rfl
@[simp] theorem supersedeKey_entry (k' : Key) : (supersedeKey s k').entry k = s.entry k := rfl

end Views

theorem dropRetirement_frame (s : State) (k : Key) : dropRetirement s k = { s with
    retirementList := (dropRetirement s k).retirementList
    live := (dropRetirement s k).live
    eraseList := (dropRetirement s k).eraseList } := by
  unfold dropRetirement
  split
  · rfl
  · simp only; split <;> rfl

@[simp] theorem dropRetirement_entry (s : State) (k k' : Key) :
    (dropRetirement s k).entry k' = s.entry k' := by rw [dropRetirement_frame]; rfl

@[simp] theorem dropRetirement_changes (s : State) (k : Key) (p : Port) :
    (dropRetirement s k).changes p = s.changes p := by rw [dropRetirement_frame]; rfl

@[simp] theorem dropRetirement_watches (s : State) (k : Key) :
    (dropRetirement s k).watches = s.watches := by rw [dropRetirement_frame]

/-- What the drop of a Retirement List entry adds to the Erase List stands behind what was there. -/
theorem dropRetirement_eraseList {s : State} {k : Key} {x : Nat × Option Key} (h : x ∈ s.eraseList) :
    x ∈ (dropRetirement s k).eraseList := by
  unfold dropRetirement
  split
  · exact h
  · simp only
    split
    · exact h
    · rw [liveToDirty_frame]; exact List.mem_append_left _ h

/-! ## The commit point -/

/-- All that the report of a commit point touches (R128). -/
theorem applyCommit_frame (s : State) (r : RunningJob) : applyCommit s r = { s with
    directory := (applyCommit s r).directory
    changeSets := (applyCommit s r).changeSets
    inWrite := (applyCommit s r).inWrite
    live := (applyCommit s r).live
    eraseList := (applyCommit s r).eraseList
    retirementList := (applyCommit s r).retirementList
    repairList := (applyCommit s r).repairList } := by
  cases h : s.entry r.key with
  | none => simp only [applyCommit, h]
  | some e =>
    simp only [applyCommit, h]
    split
    · rw [notify_frame]
      unfold supersedeBelow
      rw [dropRetirement_frame]
      rfl
    · rfl

/-- The entry a commit point leaves (R29). -/
theorem applyCommit_entry {s : State} {r : RunningJob} {e : Entry} (h : s.entry r.key = some e) :
    (applyCommit s r).entry r.key = some (committedEntry e r) := by
  have hm := State.entry_modifyEntry_self (f := fun _ => committedEntry e r) h
    (by simpa [committedEntry] using (State.entry_some h).2)
  simp only [applyCommit, h]
  rw [notify_entry, supersedeBelow_entry]
  split
  · rw [dropRetirement_entry, inWriteToLive_entry, liveToDirty_entry]; exact hm
  · rw [inWriteToLive_entry, liveToDirty_entry]; exact hm

/-- No other key's entry. -/
theorem applyCommit_entry_ne (s : State) (r : RunningJob) {k : Key} (hk : k ≠ r.key) :
    (applyCommit s r).entry k = s.entry k := by
  cases h : s.entry r.key with
  | none => simp only [applyCommit, h]
  | some e =>
    have hm := State.entry_modifyEntry_ne (s := s) (f := fun _ => committedEntry e r) hk
      (fun _ _ => by simpa [committedEntry] using (State.entry_some h).2)
    simp only [applyCommit, h]
    rw [notify_entry, supersedeBelow_entry]
    split
    · rw [dropRetirement_entry, inWriteToLive_entry, liveToDirty_entry]; exact hm
    · rw [inWriteToLive_entry, liveToDirty_entry]; exact hm

/-- The old pages of the record go to the Erase List with its key (R112). -/
theorem applyCommit_eraseList {s : State} {r : RunningJob} {e : Entry} (h : s.entry r.key = some e)
    {page : Nat} (hp : page ∈ entryPages e) :
    (page, some r.key) ∈ (applyCommit s r).eraseList := by
  have hm : (page, some r.key) ∈
      s.eraseList ++ (entryPages e).map fun p => (p, some r.key) :=
    List.mem_append_right _ (List.mem_map.mpr ⟨page, hp, rfl⟩)
  simp only [applyCommit, h]
  split
  · exact dropRetirement_eraseList hm
  · exact hm

/-- The notice of a commit point (R165, R166). -/
theorem applyCommit_changes {s : State} {r : RunningJob} {e : Entry} (h : s.entry r.key = some e)
    (p : Port) : (applyCommit s r).changes p =
      if delivered s.watches r.key r.job.port p = true then
        deliver (s.changes p)
          ⟨r.key, if e.version = 0 then .created else .updated, r.versionWritten.getD 0⟩
      else s.changes p := by
  have moved : ∀ u, u = inWriteToLive (liveToDirty (s.modifyEntry r.key fun _ => committedEntry e r)
      (entryPages e) r.key) (descriptorPages (some (descriptorOf r .one))) →
      u.changes p = s.changes p ∧ u.watches = s.watches := by
    rintro _ rfl; exact ⟨rfl, rfl⟩
  obtain ⟨h1, h2⟩ := moved _ rfl
  simp only [applyCommit, h]
  rw [notify_changes, supersedeBelow_changes, supersedeBelow_watches]
  split
  · rw [dropRetirement_changes, dropRetirement_watches, h1, h2]
  · rw [h1, h2]

/-! ## The end of a write -/

theorem backToLive_entry {s : State} {k : Key} {e : Entry} (h : s.entry k = some e) :
    (backToLive s k).entry k = some { e with lifecycle := .live } :=
  State.entry_modifyEntry_self (f := fun e => { e with lifecycle := .live }) h (State.entry_some h).2

theorem backToLive_entry_ne {s : State} {k k' : Key} (h : k' ≠ k) :
    (backToLive s k).entry k' = s.entry k' :=
  State.entry_modifyEntry_ne h fun _ he => he

/-- The entry of a record whose claim is released, outside FORMING (R87). -/
theorem releaseSlot_entry {s : State} {i : SlotNo} {cause : ReleaseCause} {k : Key} {e : Entry}
    (ht : (s.slot i).target = some (.record k)) (he : s.entry k = some e)
    (hl : e.lifecycle ≠ .forming) :
    (releaseSlot s i cause).entry k =
      some (if e.claim = some ⟨i, (s.slot i).generation⟩ then { e with claim := none } else e) := by
  unfold releaseSlot
  simp only [ht]
  have key : ∀ t : State, t.entry k = some e →
      (releaseEntry t k ⟨i, (s.slot i).generation⟩ (s.slot i).kind cause).entry k =
        some (if e.claim = some ⟨i, (s.slot i).generation⟩ then { e with claim := none } else e) := by
    intro t hte
    unfold releaseEntry
    simp only [hte]
    by_cases hc : e.claim = some ⟨i, (s.slot i).generation⟩
    · have hl' : (e.lifecycle == .forming) = false := by simpa using hl
      simp only [hc, hl', bne_self_eq_false, Bool.false_eq_true, if_false, Bool.and_false,
        Bool.false_and, if_true]
      exact State.entry_modifyEntry_self (f := fun e => { e with claim := none }) hte
        (State.entry_some hte).2
    · rw [if_pos (by simpa using hc), if_neg hc]; exact hte
  apply key
  split <;> exact he

/-- A release reaches the entry of its own record alone (R87). -/
theorem releaseSlot_entry_ne {s : State} {i : SlotNo} {cause : ReleaseCause} {k k' : Key}
    (ht : (s.slot i).target = some (.record k)) (hk : k' ≠ k) :
    (releaseSlot s i cause).entry k' = s.entry k' := by
  unfold releaseSlot
  simp only [ht]
  have key : ∀ t : State, t.entry k' = s.entry k' →
      (releaseEntry t k ⟨i, (s.slot i).generation⟩ (s.slot i).kind cause).entry k' = s.entry k' := by
    intro t hte
    unfold releaseEntry
    (repeat' split) <;> first
      | exact hte
      | (rw [State.entry_removeEntry_ne _ hk]; exact hte)
      | (rw [State.entry_modifyEntry_ne (f := fun e => { e with claim := none }) hk fun _ he => he]; exact hte)
  apply key
  split <;> rfl

/-- All that the end DONE of a write touches (R129). -/
theorem endWriteDone_frame (s : State) (r : RunningJob) : endWriteDone s r = { s with
    directory := (endWriteDone s r).directory
    claims := (endWriteDone s r).claims
    ports := (endWriteDone s r).ports
    running := none
    operation := none
    engine := .free
    retirementList := (endWriteDone s r).retirementList
    live := (endWriteDone s r).live
    eraseList := (endWriteDone s r).eraseList } := by
  unfold endWriteDone
  conv_lhs =>
    rw [finishJob_frame, completeJob_frame, releaseJobSlot_frame (by decide)]
  conv_rhs =>
    rw [finishJob_frame, completeJob_frame, releaseJobSlot_frame (by decide)]
  rfl

/-- The entry at the end DONE of a write (R29, R87). -/
theorem endWriteDone_entry {s : State} {r : RunningJob} {e : Entry} (h : s.entry r.key = some e)
    (ht : ∀ hd, r.job.handle = some hd → (s.slot hd.slot).target = some (.record r.key)) :
    ∃ e', (endWriteDone s r).entry r.key = some e' ∧
      (e' = { e with lifecycle := .live } ∨ e' = { e with lifecycle := .live, claim := none }) ∧
      (r.job.handle = none → e' = { e with lifecycle := .live }) ∧
      (∀ hd, r.job.handle = some hd → e.claim = some ⟨hd.slot, (s.slot hd.slot).generation⟩ →
        e' = { e with lifecycle := .live, claim := none }) := by
  have hb := backToLive_entry h
  unfold endWriteDone
  simp only [finishJob_entry]
  rw [completeJob_frame]
  cases hh : r.job.handle with
  | none =>
    refine ⟨_, ?_, .inl rfl, fun _ => rfl, by simp⟩
    simp only [releaseJobSlot, hh]; exact hb
  | some hd =>
    have hr := releaseSlot_entry (s := backToLive s r.key) (cause := .committed)
      (show ((backToLive s r.key).slot hd.slot).target = _ from ht hd hh) hb (by intro h; cases h)
    have hrs : ∀ u, u = releaseSlot (backToLive s r.key) hd.slot .committed →
        (releaseJobSlot (backToLive s r.key) r .committed).entry r.key = u.entry r.key := by
      rintro _ rfl; simp only [releaseJobSlot, hh]
    by_cases hc : e.claim = some ⟨hd.slot, (s.slot hd.slot).generation⟩
    · refine ⟨{ e with lifecycle := .live, claim := none }, ?_, .inr rfl, (by intro h; cases h),
        fun _ _ _ => rfl⟩
      refine (hrs _ rfl).trans (hr.trans (congrArg some ?_))
      exact if_pos hc
    · refine ⟨{ e with lifecycle := .live }, ?_, .inl rfl, (by intro h; cases h), fun hd' h hc' => ?_⟩
      · refine (hrs _ rfl).trans (hr.trans (congrArg some ?_))
        exact if_neg hc
      · simp only [Option.some.injEq] at h
        subst h
        exact absurd hc' hc

/-- No other record's entry. -/
theorem endWriteDone_entry_ne {s : State} {r : RunningJob} {k : Key} (hk : k ≠ r.key)
    (ht : ∀ hd, r.job.handle = some hd → (s.slot hd.slot).target = some (.record r.key)) :
    (endWriteDone s r).entry k = s.entry k := by
  unfold endWriteDone
  simp only [finishJob_entry]
  rw [completeJob_frame]
  cases hh : r.job.handle with
  | none => simp only [releaseJobSlot, hh]; exact backToLive_entry_ne hk
  | some hd =>
    simp only [releaseJobSlot, hh]
    refine Eq.trans ?_ (backToLive_entry_ne (s := s) hk)
    exact releaseSlot_entry_ne (s := backToLive s r.key)
      (show ((backToLive s r.key).slot hd.slot).target = _ from ht hd hh) hk

/-- The completion at the end of a job, whatever happened to the directory, the pools and the claims
(R63). -/
theorem post_answered_ports {s s' : State} {p : Port} (hports : s'.ports = s.ports)
    (h : (s.port p).window.wf) (c : Completion) (r : Result) (data : Option (List Byte)) :
    PortAnswered s (finishJob (post s' p c r data)) p data.isSome ∧
      resultArea (finishJob (post s' p c r data)) p = resultBytes (s.port p).go c r := by
  have hs : ∀ q, s'.port q = s.port q := fun q => by simp [State.port, hports]
  have h1 := post_answered (s := s) (s' := s') (p := p) (s.port p).state (fun q _ => hs q)
    (by rw [hs]) h c r data
  refine ⟨⟨h1.others, h1.unit, h1.commandArea, h1.data⟩, ?_⟩
  have h2 := post_resultArea s' p c r data (by rw [hs]; exact h)
  rw [hs] at h2
  exact h2

end Sys2Proof.Machine
end

