-- ==== Sys2Proof/Laws/Pools.lean ====
section
/-! SUPPORT. Pools.lean: every move of pages between the pools keeps the pages as a whole (R108, R109), and
what a move does to each pool. -/

namespace Sys2Proof.Machine

/-! ## Rising lists -/

theorem perm_insertNat {n : Nat} {l : List Nat} (h : n ∉ l) : (insertNat n l).Perm (n :: l) := by
  induction l with
  | nil => exact .refl _
  | cons m rest ih =>
    obtain ⟨hm, hr⟩ : n ≠ m ∧ n ∉ rest := by simpa using h
    unfold insertNat
    split
    · exact .refl _
    · exact ((ih hr).cons m).trans (.swap n m rest)

/-- New pages join a rising pool. -/
theorem perm_insertAll {ns l : List Nat} (hn : ns.Nodup) (h : ∀ n ∈ ns, n ∉ l) :
    (insertAll ns l).Perm (ns ++ l) := by
  induction ns generalizing l with
  | nil => exact .refl _
  | cons n rest ih =>
    obtain ⟨hr, hn⟩ := List.nodup_cons.mp hn
    have hl := perm_insertNat (h n List.mem_cons_self)
    refine (ih hn fun m hm hc => ?_).trans ((hl.append_left rest).trans List.perm_middle)
    rcases List.mem_cons.mp (hl.subset hc) with rfl | hc
    · exact hr hm
    · exact h m (List.mem_cons_of_mem _ hm) hc

/-- Pages of a pool leave it. -/
theorem perm_without {l ns : List Nat} (hl : l.Nodup) (hn : ns.Nodup) (h : ∀ n ∈ ns, n ∈ l) :
    (ns ++ without l ns).Perm l := by
  refine (List.perm_ext_iff_of_nodup ?_ hl).mpr fun n => ?_
  · exact hn.append (hl.filter _) fun n h1 h2 => by simp [without, h1] at h2
  · by_cases hc : n ∈ ns <;> simp [without, hc, h n]

/-! ## The pools as a whole

Each lemma asks that no page be in two pools, and that the pages that move be in the pool they leave. -/

theorem mem_poolPages {s : State} {n : Nat} : n ∈ poolPages s ↔
    n ∈ s.erased ∨ n ∈ s.inWrite ∨ n ∈ s.live ∨ n ∈ s.eraseList.map Prod.fst ∨
      n ∈ s.bad.map Prod.fst := by
  simp [poolPages]

/-- The pools apart: no page twice in one, none in two. -/
theorem pools_disjoint {s : State} (h : (poolPages s).Nodup) :
    s.inWrite.Nodup ∧ s.live.Nodup ∧ (∀ n ∈ s.inWrite, n ∉ s.live) ∧ (∀ n ∈ s.erased, n ∉ s.inWrite) ∧
      s.erased.Nodup := by
  simp only [poolPages, List.nodup_append] at h
  obtain ⟨⟨⟨⟨he, hw, hew⟩, hl, hel⟩, -, -⟩, -, -⟩ := h
  exact ⟨hw, hl, fun n h1 h2 => hel n (List.mem_append_right _ h1) n h2 rfl,
    fun n h1 h2 => hew n h1 n h2 rfl, he⟩

theorem poolPages_liveToDirty {s : State} {pages : List Nat} {k : Key} (h : (poolPages s).Nodup)
    (hn : pages.Nodup) (hm : ∀ n ∈ pages, n ∈ s.live) :
    (poolPages (liveToDirty s pages k)).Perm (poolPages s) := by
  have hp := perm_without (pools_disjoint h).2.1 hn hm
  refine List.perm_iff_count.mpr fun n => ?_
  have := hp.count_eq n
  simp only [poolPages, liveToDirty, addDirty, State.modifyRetirement, List.map_append, List.map_map,
    Function.comp_def, List.map_id', List.count_append] at this ⊢
  omega

theorem poolPages_inWriteToLive {s : State} {pages : List Nat} (h : (poolPages s).Nodup)
    (hn : pages.Nodup) (hm : ∀ n ∈ pages, n ∈ s.inWrite) :
    (poolPages (inWriteToLive s pages)).Perm (poolPages s) := by
  obtain ⟨hw, -, hd, -⟩ := pools_disjoint h
  have hp := perm_without hw hn hm
  have hq := perm_insertAll hn fun n hc => hd n (hm n hc)
  refine List.perm_iff_count.mpr fun n => ?_
  have h1 := hp.count_eq n
  have h2 := hq.count_eq n
  simp only [poolPages, inWriteToLive, List.count_append] at h1 h2 ⊢
  omega

theorem poolPages_inWritePageToDirty {s : State} {page : Nat} {k : Key} (h : (poolPages s).Nodup)
    (hm : page ∈ s.inWrite) : (poolPages (inWritePageToDirty s page k)).Perm (poolPages s) := by
  have hp := perm_without (pools_disjoint h).1 (List.nodup_singleton page) (by simpa using hm)
  refine List.perm_iff_count.mpr fun n => ?_
  have := hp.count_eq n
  simp only [poolPages, inWritePageToDirty, addDirty, State.modifyRetirement, List.map_append,
    List.map_cons, List.map_nil, List.count_append] at this ⊢
  omega

theorem poolPages_inWriteToDirty (s : State) (k : Key) :
    (poolPages (inWriteToDirty s k)).Perm (poolPages s) := by
  refine List.perm_iff_count.mpr fun n => ?_
  simp only [poolPages, inWriteToDirty, addDirty, State.modifyRetirement, List.map_append, List.map_map,
    Function.comp_def, List.map_id', List.count_append, List.count_nil]
  omega

/-- A draw of pages from the head of ERASED (R111). -/
theorem poolPages_draw {s : State} (count : Nat) (h : (poolPages s).Nodup) :
    (poolPages { s with
      erased := s.erased.drop count
      inWrite := insertAll (s.erased.take count) s.inWrite }).Perm (poolPages s) := by
  obtain ⟨-, -, -, hd, he⟩ := pools_disjoint h
  have hq := perm_insertAll (he.sublist (List.take_sublist count _))
    fun n hc => hd n (List.take_subset _ _ hc)
  refine List.perm_iff_count.mpr fun n => ?_
  have h1 := hq.count_eq n
  have h2 : s.erased.count n = (s.erased.take count).count n + (s.erased.drop count).count n := by
    rw [← List.count_append, List.take_append_drop]
  simp only [poolPages, List.count_append] at h1 ⊢
  omega

/-! ## Erases (R113) -/

/-- The erase of the head of the Erase List reports success: what it leaves of the pools and the lists. -/
theorem eraseHeadDone_success {s : State} {page : Nat} {k : Option Key} {rest : List (Nat × Option Key)}
    (h : s.eraseList = (page, k) :: rest) :
    eraseHeadDone s true = { s.setPage page PageCell.blank with
      eraseList := rest
      erased := s.erased ++ [page]
      retirementList := loweredFor k s.retirementList } := by
  cases k with
  | none => simp [eraseHeadDone, h, loweredFor, State.setPage]
  | some k =>
    simp only [eraseHeadDone, h, State.modifyRetirement, loweredFor, State.setPage, if_true,
      Option.some.injEq, eq_comm]

/-- The erase of the head of the Erase List reports failure. -/
theorem eraseHeadDone_failure {s : State} {page : Nat} {k : Option Key} {rest : List (Nat × Option Key)}
    (h : s.eraseList = (page, k) :: rest) :
    eraseHeadDone s false = { s.spoilPage page with
      eraseList := rest, bad := s.bad ++ [(page, k)] } := by
  simp [eraseHeadDone, h, State.spoilPage, State.setPage]

theorem poolPages_eraseHeadDone (s : State) (success : Bool) :
    (poolPages (eraseHeadDone s success)).Perm (poolPages s) := by
  cases h : s.eraseList with
  | nil => simp [eraseHeadDone, h]
  | cons x rest =>
    obtain ⟨page, k⟩ := x
    refine List.perm_iff_count.mpr fun n => ?_
    cases success
    · rw [eraseHeadDone_failure h]
      simp only [poolPages, h, State.spoilPage, State.setPage, List.map_append, List.map_cons,
        List.map_nil, List.count_append, List.count_cons, List.count_nil]
      omega
    · rw [eraseHeadDone_success h]
      simp only [poolPages, h, State.setPage, List.map_cons, List.count_append, List.count_cons,
        List.count_nil]
      omega

/-! ## The end of a job (R115) -/

/-- The end of a job settles the Retirement List, LIVE and the Erase List as `Settled` says. -/
theorem settled_settleRetirements (s : State) :
    Settled s.retirementList s.live s.eraseList (settleRetirements s) where
  list := by
    simp only [settleRetirements, RetirementEntry.dueRemoval, RetirementEntry.dueRelease]
    induction s.retirementList with
    | nil => rfl
    | cons x rest ih =>
      by_cases h : x.outstanding = 0 <;> cases hr : x.released <;> simp_all
  live := by
    refine List.filter_congr fun n _ => ?_
    congr 1
    rw [Bool.eq_iff_iff]
    simp [RetirementEntry.dueRelease, and_assoc]
  dirty := rfl

theorem poolPages_settleRetirements {s : State} (h : (poolPages s).Nodup)
    (hn : ((s.retirementList.filter fun x => !x.released).map (·.header)).Nodup)
    (hm : ∀ x ∈ s.retirementList, x.released = false → x.header ∈ s.live) :
    (poolPages (settleRetirements s)).Perm (poolPages s) := by
  have hs : (s.retirementList.filter (·.dueRelease)).Sublist
      (s.retirementList.filter fun x => !x.released) := by
    rw [show (fun x : RetirementEntry => x.dueRelease) = fun x => (x.outstanding == 0) && !x.released from
      rfl, ← List.filter_filter]
    exact List.filter_sublist
  have hp := perm_without (ns := (s.retirementList.filter (·.dueRelease)).map (·.header))
    (pools_disjoint h).2.1 (hn.sublist (hs.map _)) (by
      simp only [List.mem_map, List.mem_filter, RetirementEntry.dueRelease, Bool.and_eq_true,
        Bool.not_eq_true']
      rintro n ⟨x, ⟨hx, -, hr⟩, rfl⟩
      exact hm x hx hr)
  refine List.perm_iff_count.mpr fun n => ?_
  have := hp.count_eq n
  simp only [poolPages, settleRetirements, List.map_append, List.map_map, Function.comp_def,
    List.count_append] at this ⊢
  omega

end Sys2Proof.Machine
end

