-- ==== Sys2Proof/Laws/Ends.lean ====
section
/-! SUPPORT. Ends.lean: what the ends of jobs that cannot go on can do (R15, R16, R29, R129, R131, R144), said
once for every event that comes to them. -/

namespace Sys2Proof.Machine

/-- What the event that ends a job leaves as it was, before the end itself. -/
structure StoodBefore (s s' : State) : Prop where
  directory : s'.directory = s.directory
  claims : s'.claims = s.claims
  ports : s'.ports = s.ports
  notices : s'.changeSets = s.changeSets
  repairs : s'.repairList = s.repairList

/-- Every page of the job is still to be moved, or is on the Erase List already. -/
def PagesBound (s s' : State) (k : Key) : Prop :=
  ∀ page ∈ s.inWrite, page ∈ s'.inWrite ∨ (page, some k) ∈ s'.eraseList

theorem StoodBefore.refl (s : State) : StoodBefore s s := ⟨rfl, rfl, rfl, rfl, rfl⟩

theorem PagesBound.refl (s : State) (k : Key) : PagesBound s s k := fun _ h => .inl h

theorem StoodBefore.slot {s s' : State} (h : StoodBefore s s') (i : SlotNo) : s'.slot i = s.slot i := by
  simp [State.slot, h.claims]

theorem StoodBefore.entry {s s' : State} (h : StoodBefore s s') (k : Key) : s'.entry k = s.entry k := by
  simp [State.entry, h.directory]

theorem mem_addDirty {s : State} {pages : List Nat} {k : Key} {x : Nat × Option Key} :
    x ∈ (addDirty s pages k).eraseList ↔ x ∈ s.eraseList ∨ ∃ p ∈ pages, (p, some k) = x := by
  simp [addDirty]

theorem released_eq (s : State) (hd : Handle) {cause : ReleaseCause} (hc : cause ≠ .lapsed) :
    s.claims.set hd.slot (releasedSlot (s.slot hd.slot) cause) = released s hd := by
  unfold released releasedSlot
  cases cause <;> first | rfl | exact absurd rfl hc

/-- The Erase List only grows at the end of a job. -/
theorem mem_finishJob_eraseList {s : State} {x : Nat × Option Key} (h : x ∈ s.eraseList) :
    x ∈ (finishJob s).eraseList :=
  List.mem_append_left _ h

theorem mem_finishJob_live {s : State} {page : Nat} (h : page ∈ (finishJob s).live) : page ∈ s.live :=
  (mem_without.mp h).1

/-- A job's end leaves its posting, its slot and its pages as the steps before it made them. -/
theorem endBeforeCommit_eq {s : State} {r : RunningJob} {p : Port} (h : r.job.port = some p)
    (c : Completion) : ∃ u v, u = undoEntry (inWriteToDirty s r.key) r ∧
      v = releaseJobSlot u r .failed ∧
      endBeforeCommit s r c = finishJob (post v p c (jobResult v r false false) none) := by
  refine ⟨_, _, rfl, rfl, ?_⟩
  simp only [endBeforeCommit, completeJob_some h]

/-- What the undoing of a write or a retirement touches (R15, R16, R28). -/
theorem undoEntry_frame (s : State) (r : RunningJob) : undoEntry s r = { s with
    directory := (undoEntry s r).directory
    live := (undoEntry s r).live
    retirementList := (undoEntry s r).retirementList
    eraseList := (undoEntry s r).eraseList } := by
  unfold undoEntry
  split
  · rfl
  · split <;> rfl

/-- The entry returns to LIVE. -/
theorem undoEntry_live {s : State} {r : RunningJob} {e : Entry} (h : s.entry r.key = some e)
    (hv : e.version ≠ 0 ∨ r.job.kind = .retire) : undoEntry s r = backToLive s r.key := by
  unfold undoEntry
  rw [h]
  rcases hv with hv | hv <;> simp [hv]

/-- The entry of a first write goes, and with it the pages it names (R15, R110). -/
theorem undoEntry_first {s : State} {r : RunningJob} {e : Entry} (h : s.entry r.key = some e)
    (hv : e.version = 0) (hk : r.job.kind ≠ .retire) :
    undoEntry s r = liveToDirty (s.removeEntry r.key) (entryPages e) r.key := by
  unfold undoEntry
  rw [h]
  simp [hv, hk]

theorem mem_undoEntry_eraseList {s : State} {r : RunningJob} {x : Nat × Option Key}
    (h : x ∈ s.eraseList) : x ∈ (undoEntry s r).eraseList := by
  unfold undoEntry
  split
  · exact h
  · split
    · exact mem_addDirty.mpr (.inl h)
    · exact h

/-- The Erase List holds what it held and the job's pages, with the key (R112). -/
theorem endBeforeCommit_dirty {s s' : State} {r : RunningJob} {p : Port} (h : r.job.port = some p)
    (hb : PagesBound s s' r.key) (c : Completion) :
    (∀ x ∈ s'.eraseList, x ∈ (endBeforeCommit s' r c).eraseList) ∧
      ∀ page ∈ s.inWrite, (page, some r.key) ∈ (endBeforeCommit s' r c).eraseList := by
  obtain ⟨u, v, hu, hv, ht⟩ := endBeforeCommit_eq (s := s') h c
  have key : ∀ x ∈ (inWriteToDirty s' r.key).eraseList, x ∈ (endBeforeCommit s' r c).eraseList := by
    intro x hx
    rw [ht]
    refine mem_finishJob_eraseList ?_
    rw [post_eq, hv, releaseJobSlot_frame (by decide), hu]
    exact mem_undoEntry_eraseList hx
  refine ⟨fun x hx => key x (mem_addDirty.mpr (.inl hx)), fun page hp => key _ (mem_addDirty.mpr ?_)⟩
  exact (hb page hp).elim (fun h => .inr ⟨page, h, rfl⟩) .inl

/-- The fields a write reports at its end (R63, R73, R79, R101). -/
theorem jobResult_reports {s v : State} {r r' : RunningJob} {committed pending : Bool} {version : Nat}
    {result : Result} (hj : r'.job = r.job) (hslot : ∀ i, (v.slot i).base = (s.slot i).base)
    (hv : version = if committed then r'.versionWritten.getD 0 else 0)
    (h : Reports s r committed pending version result) :
    jobResult v r' committed pending = result := by
  subst hv
  rcases h with ⟨h, rfl⟩ | ⟨h, rfl⟩ | ⟨h, rfl⟩ | ⟨h | h, hd, hhd, rfl⟩ <;>
    simp [jobResult, baseVersionOf, *]

theorem releaseJobSlot_base {cause : ReleaseCause} (s : State) (r : RunningJob) (i : SlotNo) :
    ((releaseJobSlot s r cause).slot i).base = (s.slot i).base := by
  unfold releaseJobSlot
  split
  · rw [releaseSlot_slot]
    split
    · next h => subst h; rfl
    · rfl
  · rfl

/-- A write that ends before its commit point (R15, R28, R63, R73, R87, R101, R129). -/
theorem endBeforeCommit_undone {s s' : State} {r r' : RunningJob} {e : Entry} {p : Port}
    (hs : StoodBefore s s') (hb : PagesBound s s' r.key) (hj : r'.job = r.job)
    (hm : MemoriesCanonical s) (hp : r.job.port = some p) (hk : r.job.kind ≠ .retire)
    (he : s.entry r.key = some e) (c : Completion) :
    WriteUndone s (endBeforeCommit s' r' c) r e p c := by
  have hkey : r'.key = r.key := by simp [RunningJob.key, hj]
  have hp' : r'.job.port = some p := by rw [hj]; exact hp
  have hdirty := endBeforeCommit_dirty (s := s) (s' := s') (r := r') hp' (hkey ▸ hb) c
  obtain ⟨u, v, hu, hv, ht⟩ := endBeforeCommit_eq (s := s') hp' c
  have hent : (inWriteToDirty s' r'.key).entry r'.key = some e := by
    rw [inWriteToDirty_entry, hs.entry, hkey]; exact he
  have huc : u.claims = s.claims := by rw [hu, undoEntry_frame]; exact hs.claims
  have hus : ∀ i, u.slot i = s.slot i := fun i => by simp [State.slot, huc]
  have hvf : v = { u with directory := v.directory, claims := v.claims } := by
    rw [hv]; exact releaseJobSlot_frame (by decide) u r'
  have hports : v.ports = s.ports := by rw [hvf, hu, undoEntry_frame]; exact hs.ports
  have hpost := post_answered_ports hports (hm.windows p) c (jobResult v r' false false) none
  have hlive : e.version ≠ 0 → u.entry r.key = some { e with lifecycle := .live } := fun h => by
    rw [hu, undoEntry_live hent (.inl h), hkey]
    exact backToLive_entry (hkey ▸ hent)
  have hfirst : e.version = 0 → u = liveToDirty ((inWriteToDirty s' r.key).removeEntry r.key)
      (entryPages e) r.key := fun h => by
    rw [hu, undoEntry_first hent h (by rw [hj]; exact hk), hkey]
  have hgone : e.version = 0 → (u.directory = s.directory.filter fun x => x.key ≠ r.key) := fun h => by
    rw [hfirst h, ← hs.directory]; rfl
  have hvlive : v.live = u.live := by rw [hvf]
  have hvdirty : v.eraseList = u.eraseList := by rw [hvf]
  rw [ht] at hdirty ⊢
  refine ⟨finishJob_ended _, hpost.1, fun result h => ?_, ?_, fun page h => hkey ▸ hdirty.2 page h, ?_, ?_,
    fun h page hpage => ⟨fun hc => ?_, ?_⟩, fun h => ?_, fun hd h hcl => ?_⟩
  · rw [hpost.2]
    exact congrArg _ (jobResult_reports hj
      (fun i => by rw [hv, releaseJobSlot_base, hus]) rfl h)
  · show v.inWrite = []
    rw [hvf, hu, undoEntry_frame]; rfl
  · show v.changeSets = _
    rw [hvf, hu, undoEntry_frame]; exact hs.notices
  · show v.repairList = _
    rw [hvf, hu, undoEntry_frame]; exact hs.repairs
  · have h1 : page ∈ v.live := mem_finishJob_live hc
    rw [hvlive, hfirst h] at h1
    exact (mem_without.mp h1).2 hpage
  · refine mem_finishJob_eraseList ?_
    show _ ∈ v.eraseList
    rw [hvdirty, hfirst h]
    exact mem_addDirty.mpr (.inr ⟨page, hpage, rfl⟩)
  · have : v = u := by rw [hv]; simp [releaseJobSlot, hj, h]
    subst this
    exact ⟨huc, hlive, hgone⟩
  · have hr : v = releaseSlot u hd.slot .failed := by rw [hv]; simp [releaseJobSlot, hj, h]
    subst hr
    refine ⟨?_, fun hv => ?_, fun hv => ?_⟩
    · show (releaseSlot u hd.slot .failed).claims = _
      rw [releaseSlot_frame, ← released_eq s hd (cause := .failed) (by decide), ← huc, ← hus]
    · refine (releaseSlot_entry (s := u) (i := hd.slot) (cause := .failed) (k := r.key)
        (by rw [hus]; exact hcl.2.2) (hlive hv) (by simp)).trans ?_
      simp [hus, hcl.1, hcl.2.1]
    · refine Eq.trans ?_ (hgone hv)
      show (releaseSlot u hd.slot .failed).directory = _
      have hnone : (u.setSlot hd.slot (releasedSlot (s.slot hd.slot) .failed)).entry r.key = none := by
        rw [State.setSlot_entry, hfirst hv]; exact State.entry_removeEntry_self _ _
      simp only [releaseSlot, hus, hcl.2.2, releaseEntry, hnone]
      rfl

/-- A retirement that ends before its commit point (R16, R63, R82, R131). -/
theorem endBeforeCommit_retire {s s' : State} {r' : RunningJob} {k : Key} {e : Entry} {p : Port}
    (hs : StoodBefore s s') (hb : PagesBound s s' k) (hkey : r'.key = k) (hm : MemoriesCanonical s)
    (hp : r'.job.port = some p) (hk : r'.job.kind = .retire) (hc : r'.job.cause = some .retire)
    (hh : r'.job.handle = none) (he : s.entry k = some e) (c : Completion) :
    RetireUndone s (endBeforeCommit s' r' c) k e p c := by
  subst hkey
  have hdirty := endBeforeCommit_dirty (s := s) (s' := s') (r := r') hp hb c
  obtain ⟨u, v, hu, hv, ht⟩ := endBeforeCommit_eq (s := s') hp c
  have hent : (inWriteToDirty s' r'.key).entry r'.key = some e := by
    rw [inWriteToDirty_entry, hs.entry]; exact he
  have huv : v = backToLive (inWriteToDirty s' r'.key) r'.key := by
    rw [hv, hu, undoEntry_live hent (.inr hk)]; simp [releaseJobSlot, hh]
  have hports : v.ports = s.ports := by rw [huv]; exact hs.ports
  have hpost := post_answered_ports hports (hm.windows p) c (jobResult v r' false false) none
  rw [ht] at hdirty ⊢
  refine ⟨finishJob_ended _, hpost.1, ?_, ?_, hdirty.2, ?_, fun k' h => ?_, ?_⟩
  · rw [hpost.2]; simp [jobResult, hc]
  · show v.inWrite = []
    rw [huv]; rfl
  · show v.entry _ = _
    rw [huv]; exact backToLive_entry hent
  · show v.entry _ = _
    rw [huv, backToLive_entry_ne h, inWriteToDirty_entry, hs.entry]
  · show v.changeSets = _
    rw [huv]; exact hs.notices

/-- A LOST request that no running entry keeps off the list is on it (R138). -/
theorem repairRequest_lost {s : State} {k : Key} {version : Nat} {c : CopyNo}
    (h : ∀ x ∈ s.repairList, x.isFor k c = true → x.running = false) :
    ⟨k, version, c, .lost, false, false⟩ ∈ (repairRequest s k version c .lost).repairList := by
  unfold repairRequest
  simp only
  split
  · exact mem_repairListAdd _ _
  · next x hx =>
    have hmem := List.mem_of_find?_eq_some hx
    have hfor := List.find?_some (p := fun y : RepairEntry => y.isFor k c) hx
    rw [h x hmem hfor]
    simp only [Bool.false_eq_true, if_false]
    split
    · exact mem_repairListAdd _ _
    · next hsup =>
      refine List.mem_map.mpr ⟨x, hmem, ?_⟩
      have hrun := h x hmem hfor
      simp only [hfor, if_true]
      obtain ⟨key, v, copy, cause, sup, run⟩ := x
      simp only [RepairEntry.isFor, Bool.and_eq_true, beq_iff_eq] at hfor
      simp_all

/-- A write that ends after its commit point with copy 2 lost (R29, R117, R129). -/
theorem endCopyPending_pending {s s' : State} {r r' : RunningJob} {e : Entry} {p : Port} {version : Nat}
    (hs : StoodBefore s s') (hb : PagesBound s s' r.key) (hj : r'.job = r.job)
    (hver : r'.versionWritten = some version) (hm : MemoriesCanonical s) (hp : r.job.port = some p)
    (he : s.entry r.key = some e) : CopyPending s (endCopyPending s' r') r e p version := by
  have hkey : r'.key = r.key := by simp [RunningJob.key, hj]
  have hp' : r'.job.port = some p := by rw [hj]; exact hp
  obtain ⟨w, u, v, hw, hu, hv, ht⟩ : ∃ w u v,
      (w = (inWriteToDirty s' r.key).modifyEntry r.key fun e =>
        { e with lifecycle := .live, integrity := .degraded }) ∧
      u = repairRequest w r.key version .two .lost ∧ v = releaseJobSlot u r' .committed ∧
      endCopyPending s' r' = finishJob (post v p .done (jobResult v r' true true) none) := by
    refine ⟨_, _, _, rfl, rfl, rfl, ?_⟩
    simp only [endCopyPending, completeJob_some hp', hver, hkey, Option.getD_some]
  have hent : (inWriteToDirty s' r.key).entry r.key = some e := by
    rw [inWriteToDirty_entry, hs.entry]; exact he
  have huf : u = { w with repairList := u.repairList } := by rw [hu]; exact repairRequest_frame _ _ _ _ _
  have hue : u.entry r.key = some { e with lifecycle := .live, integrity := .degraded } := by
    rw [huf, hw]
    exact State.entry_modifyEntry_self
      (f := fun e => { e with lifecycle := .live, integrity := .degraded }) hent (State.entry_some he).2
  have huc : u.claims = s.claims := by rw [huf, hw]; exact hs.claims
  have hus : ∀ i, u.slot i = s.slot i := fun i => by simp [State.slot, huc]
  have hvf : v = { u with directory := v.directory, claims := v.claims } := by
    rw [hv]; exact releaseJobSlot_frame (by decide) u r'
  have hports : v.ports = s.ports := by rw [hvf, huf, hw]; exact hs.ports
  have hpost := post_answered_ports hports (hm.windows p) .done (jobResult v r' true true) none
  rw [ht]
  refine ⟨finishJob_ended _, hpost.1, fun result h => ?_, ?_, fun page h => mem_finishJob_eraseList ?_, ?_,
    fun h => ?_, fun h => ?_, fun hd h hcl => ?_⟩
  · rw [hpost.2]
    exact congrArg _ (jobResult_reports hj
      (fun i => by rw [hv, releaseJobSlot_base, hus]) (by simp [hver]) h)
  · show v.inWrite = []
    rw [hvf, huf, hw]; rfl
  · show _ ∈ v.eraseList
    rw [hvf, huf, hw]
    exact mem_addDirty.mpr ((hb page h).elim (fun h => .inr ⟨page, h, rfl⟩) .inl)
  · show v.changeSets = _
    rw [hvf, huf, hw]; exact hs.notices
  · show _ ∈ v.repairList
    rw [hvf]
    show _ ∈ u.repairList
    rw [hu]
    refine repairRequest_lost ?_
    rw [hw]
    exact fun x hx => h x (hs.repairs ▸ hx)
  · have : v = u := by rw [hv]; simp [releaseJobSlot, hj, h]
    subst this
    exact ⟨huc, hue⟩
  · have hr : v = releaseSlot u hd.slot .committed := by rw [hv]; simp [releaseJobSlot, hj, h]
    subst hr
    refine ⟨?_, ?_⟩
    · show (releaseSlot u hd.slot .committed).claims = _
      rw [releaseSlot_frame, ← released_eq s hd (cause := .committed) (by decide), ← huc, ← hus]
    · refine (releaseSlot_entry (s := u) (i := hd.slot) (cause := .committed) (k := r.key)
        (by rw [hus]; exact hcl.2.2) hue (by simp)).trans ?_
      simp [hus, hcl.1, hcl.2.1]

theorem replaceLost_frame (s : State) (k : Key) (version : Nat) :
    replaceLost s k version = { s with repairList := (replaceLost s k version).repairList } := by
  unfold replaceLost
  split
  · rfl
  · split
    · rw [placeLost_frame]
    · rfl

/-- Step 3 of the end of a REPAIR places nothing but a LOST entry that waits (R145). -/
theorem mem_replaceLost {s : State} {k : Key} {version : Nat} {y : RepairEntry}
    (h : y ∈ (replaceLost s k version).repairList) :
    y ∈ s.repairList ∨ y.cause = .lost ∧ y.running = false := by
  unfold replaceLost at h
  split at h
  · exact .inl h
  · split at h
    · next e _ _ =>
      unfold placeLost at h
      split at h
      · exact .inl h
      · next hany =>
        have hnone : s.repairList.find? (·.isFor k (missingCopy e)) = none := by
          rw [List.find?_eq_none]
          simpa using hany
        simp only [repairRequest, hnone, repairListAdd, List.mem_append, List.mem_singleton] at h
        rcases h with h | rfl
        · split at h
          · exact .inl (List.mem_filter.mp h).1
          · exact .inl h
        · exact .inr ⟨rfl, rfl⟩
    · exact .inl h

/-- A REPAIR that ends without a programmed copy (R144, R145). -/
theorem endRepairWithout_undone {s s' : State} {r r' : RunningJob} (hs : StoodBefore s s')
    (hb : PagesBound s s' r.key) (hj : r'.job = r.job) :
    RepairUndone s (endRepairWithout s' r') r := by
  have hkey : r'.key = r.key := by simp [RunningJob.key, hj]
  obtain ⟨w, u, hw, hu, ht⟩ : ∃ w u, w = dropRepair (inWriteToDirty s' r.key) r.key r.job.params.copy ∧
      u = replaceLost w r.key (r'.versionWritten.getD 0) ∧ endRepairWithout s' r' = finishJob u := by
    refine ⟨_, _, rfl, rfl, ?_⟩
    simp only [endRepairWithout, closeRepair, hkey, hj]
  have hf : u = { w with repairList := u.repairList } := by rw [hu]; exact replaceLost_frame _ _ _
  rw [ht]
  refine ⟨finishJob_ended _, ?_, fun page h => mem_finishJob_eraseList ?_, ?_, ?_, ?_, fun y hy hfor => ?_⟩
  · show u.inWrite = []
    rw [hf, hw]; rfl
  · rw [hf, hw]
    exact mem_addDirty.mpr ((hb page h).elim (fun h => .inr ⟨page, h, rfl⟩) .inl)
  · show u.directory = _
    rw [hf, hw]; exact hs.directory
  · show u.ports = _
    rw [hf, hw]; exact hs.ports
  · show u.changeSets = _
    rw [hf, hw]; exact hs.notices
  · have hy : y ∈ (replaceLost w r.key (r'.versionWritten.getD 0)).repairList := hu ▸ hy
    refine (mem_replaceLost hy).elim (fun h => ?_) id
    rw [hw] at h
    simp [dropRepair, hfor] at h

/-- The end of a job that cannot go on (R117, R124, R129 to R131, R144), from a state in which what it reports on
stands as before. -/
theorem failJob_fails {s s' : State} {r r' : RunningJob} (hs : StoodBefore s s')
    (hb : PagesBound s s' r.key) (hj : r'.job = r.job) (hphase : r'.phase = r.phase)
    (hver : r'.versionWritten = r.versionWritten) (hm : MemoriesCanonical s) (c : Completion) :
    JobFails s (failJob s' r' c) r c := by
  have hkey : r'.key = r.key := by simp [RunningJob.key, hj]
  refine ⟨fun p e hk hp hpo he => ?_, fun p e v hk hp hpo he hv => ?_, fun p e hk hp hpo hc hh he => ?_,
    fun hk => ?_⟩
  · rw [show failJob s' r' c = endBeforeCommit s' r' c by simp [failJob, hj, hk, hphase, hp]]
    exact endBeforeCommit_undone hs hb hj hm hpo (by simp [hk]) he c
  · rw [show failJob s' r' c = endCopyPending s' r' by simp [failJob, hj, hk, hphase, hp]]
    exact endCopyPending_pending hs hb hj (hver ▸ hv) hm hpo he
  · rw [show failJob s' r' c = endBeforeCommit s' r' c by simp [failJob, hj, hk, hphase, hp]]
    exact endBeforeCommit_retire hs hb hkey hm (hj ▸ hpo) (hj ▸ hk) (hj ▸ hc) (hj ▸ hh) he c
  · rw [show failJob s' r' c = endRepairWithout s' r' by simp [failJob, hj, hk]]
    exact endRepairWithout_undone hs hb hj

end Sys2Proof.Machine
end

