-- ==== Sys2Proof/Laws/Link.lean ====
section
/-! SUPPORT. Link.lean: where the bytes of a link transaction stand (R171). -/

namespace Sys2Proof.Machine

@[simp] theorem linkAfter_nil (link : Link) : linkAfter link [] = link := rfl

@[simp] theorem linkAfter_cons (link : Link) (e : LinkEvent) (events : List LinkEvent) :
    linkAfter link (e :: events) = linkAfter (linkStep link e) events := rfl

theorem linkAfter_append (link : Link) (a b : List LinkEvent) :
    linkAfter link (a ++ b) = linkAfter (linkAfter link a) b := List.foldl_append

@[simp] theorem linkStep_deselect (link : Link) : linkStep link .deselect = .deselected := by
  cases link <;> rfl

/-- The data bytes of a read advance its offset. -/
theorem linkAfter_dataBytes (offset : Byte) (n : Nat) :
    linkAfter (.reading offset) (List.replicate n .dataByte) = .reading (offset + BitVec.ofNat 8 n) := by
  induction n generalizing offset with
  | zero => simp
  | succ n ih =>
    rw [List.replicate_succ, linkAfter_cons, show linkStep (.reading offset) .dataByte =
      .reading (offset + 1) from rfl, ih]
    congr 1
    rw [BitVec.add_assoc]
    congr 1
    apply BitVec.eq_of_toNat_eq
    simp [Nat.add_comm]

/-- The first byte of a new transaction goes to its offset. -/
theorem ByteAt.first (s : State) (p : Port) (offset : Byte) : ByteAt s p (.first offset) offset := by
  simp [ByteAt, LinkByte.first, linkStep]

/-- The next byte of a write transaction goes to its current offset. -/
theorem ByteAt.following {s : State} {p : Port} {offset : Byte} (h : (s.port p).link = .writing offset) :
    ByteAt s p .following offset := h

end Sys2Proof.Machine
end

