-- ==== Sys2Proof/Laws/PerInstr.lean ====
section
/-! SUPPORT. PerInstr.lean: the family Operands: what the check on each command asks of its operands, one
lemma for each command. -/

namespace Sys2Proof

/-- The place is that of the first data byte of a write transaction at an offset (R171). -/
def LinkByte.Begins (place : LinkByte) (offset : Byte) : Prop :=
  ∃ earlier, place.before = earlier ++ [.writeAccess, .offset offset]

theorem LinkByte.begins_iff {place : LinkByte} {offset : Byte} :
    place.Begins offset ↔ ∃ rest, place.before.reverse = .offset offset :: .writeAccess :: rest := by
  constructor
  · rintro ⟨earlier, h⟩
    exact ⟨earlier.reverse, by simp [h]⟩
  · rintro ⟨rest, h⟩
    exact ⟨rest.reverse, by simpa using congrArg List.reverse h⟩

/-- What the check on a place asks. -/
theorem LinkByte.fits_iff {ok : Byte → Bool} {place : LinkByte} :
    place.fits ok = true ↔ ∀ offset, place.Begins offset → ok offset = true := by
  simp only [LinkByte.begins_iff, LinkByte.fits]
  split
  · next offset rest h => simp [h]
  · next h => exact ⟨fun _ o e => absurd e.choose_spec (h o e.choose), fun _ => rfl⟩

end Sys2Proof

namespace Sys2Proof.Laws

/-- A command is well-formed exactly when its access byte is neither of the two valid ones, where it has
one, and the offset its place names, where it names one, is a location of its row (R171, R172). -/
def Operands.Statement (i : Instr) : Prop :=
  i.wellFormed = true ↔
    (∀ p access, i = .invalidAccessByte p access → access ≠ 0x3C ∧ access ≠ 0xC3) ∧
    (∀ p place offset v, i = .windowWrite p place v → place.Begins offset →
      offset ≠ 0x80 ∧ offset ≠ 0x82 ∧ offset ≠ 0x84) ∧
    (∀ p place offset v, i = .launch p place v → place.Begins offset → offset = 0x80) ∧
    (∀ p place offset v, i = .attentionCauseWrite p place v → place.Begins offset → offset = 0x82) ∧
    (∀ p place offset v, i = .stickyFlagWrite p place v → place.Begins offset → offset = 0x84)

/-- The command has no access byte and no place among its operands. -/
def Operands.placeless : Instr → Bool
  | .invalidAccessByte _ _ | .windowWrite _ _ _ | .launch _ _ _ | .attentionCauseWrite _ _ _
  | .stickyFlagWrite _ _ _ => false
  | _ => true

theorem Operands.of_placeless {i : Instr} (hw : i.wellFormed = true)
    (h : Operands.placeless i = true) : Operands.Statement i :=
  ⟨fun _ => by
    refine ⟨fun _ _ e => ?_, fun _ _ _ _ e => ?_, fun _ _ _ _ e => ?_, fun _ _ _ _ e => ?_,
      fun _ _ _ _ e => ?_⟩ <;> (subst e; cases h),
    fun _ => hw⟩

theorem Operands.powerOn :
    Operands.Statement .powerOn := Operands.of_placeless rfl rfl

theorem Operands.resetNAssert :
    Operands.Statement .resetNAssert := Operands.of_placeless rfl rfl

theorem Operands.resetNDeassert :
    Operands.Statement .resetNDeassert := Operands.of_placeless rfl rfl

theorem Operands.powerLoss :
    Operands.Statement .powerLoss := Operands.of_placeless rfl rfl

theorem Operands.pfwNAssert (success : Bool) :
    Operands.Statement (.pfwNAssert success) := Operands.of_placeless rfl rfl

theorem Operands.pfwNDeassert :
    Operands.Statement .pfwNDeassert := Operands.of_placeless rfl rfl

theorem Operands.configLoadPageRead (outcome : ReadOutcome) :
    Operands.Statement (.configLoadPageRead outcome) := Operands.of_placeless rfl rfl

theorem Operands.scanPageRead (outcome : ReadOutcome) :
    Operands.Statement (.scanPageRead outcome) := Operands.of_placeless rfl rfl

theorem Operands.invalidAccessByte (port : Port) (access : Byte) :
    Operands.Statement (.invalidAccessByte port access) := by
  simp [Operands.Statement, Instr.wellFormed, readAccess, writeAccess]

theorem Operands.windowWrite (port : Port) (place : LinkByte) (value : Byte) :
    Operands.Statement (.windowWrite port place value) := by
  simp [Operands.Statement, Instr.wellFormed, LinkByte.fits_iff, plainOffset, goOffset,
    causesOffset, stickyOffset, and_assoc]
  exact ⟨fun h _ _ o _ e b => h o (e ▸ b), fun h o b => h port place o rfl rfl b⟩

theorem Operands.launch (port : Port) (place : LinkByte) (tag : Byte) :
    Operands.Statement (.launch port place tag) := by
  simp [Operands.Statement, Instr.wellFormed, LinkByte.fits_iff, goOffset]
  exact ⟨fun h _ _ o _ e b => h o (e ▸ b), fun h o b => h port place o rfl rfl b⟩

theorem Operands.attentionCauseWrite (port : Port) (place : LinkByte) (value : Byte) :
    Operands.Statement (.attentionCauseWrite port place value) := by
  simp [Operands.Statement, Instr.wellFormed, LinkByte.fits_iff, causesOffset]
  exact ⟨fun h _ _ o _ e b => h o (e ▸ b), fun h o b => h port place o rfl rfl b⟩

theorem Operands.stickyFlagWrite (port : Port) (place : LinkByte) (value : Byte) :
    Operands.Statement (.stickyFlagWrite port place value) := by
  simp [Operands.Statement, Instr.wellFormed, LinkByte.fits_iff, stickyOffset]
  exact ⟨fun h _ _ o _ e b => h o (e ▸ b), fun h o b => h port place o rfl rfl b⟩

theorem Operands.lookup :
    Operands.Statement .lookup := Operands.of_placeless rfl rfl

theorem Operands.describe :
    Operands.Statement .describe := Operands.of_placeless rfl rfl

theorem Operands.list :
    Operands.Statement .list := Operands.of_placeless rfl rfl

theorem Operands.read :
    Operands.Statement .read := Operands.of_placeless rfl rfl

theorem Operands.create :
    Operands.Statement .create := Operands.of_placeless rfl rfl

theorem Operands.write :
    Operands.Statement .write := Operands.of_placeless rfl rfl

theorem Operands.raise :
    Operands.Statement .raise := Operands.of_placeless rfl rfl

theorem Operands.retire :
    Operands.Statement .retire := Operands.of_placeless rfl rfl

theorem Operands.claimForUpdate :
    Operands.Statement .claimForUpdate := Operands.of_placeless rfl rfl

theorem Operands.claimWithPreload :
    Operands.Statement .claimWithPreload := Operands.of_placeless rfl rfl

theorem Operands.claimWithCreate :
    Operands.Statement .claimWithCreate := Operands.of_placeless rfl rfl

theorem Operands.claimWithConfig (maintEn : Bool) :
    Operands.Statement (.claimWithConfig maintEn) := Operands.of_placeless rfl rfl

theorem Operands.stage :
    Operands.Statement .stage := Operands.of_placeless rfl rfl

theorem Operands.fetch :
    Operands.Statement .fetch := Operands.of_placeless rfl rfl

theorem Operands.renew :
    Operands.Statement .renew := Operands.of_placeless rfl rfl

theorem Operands.commit (maintEn : Bool) :
    Operands.Statement (.commit maintEn) := Operands.of_placeless rfl rfl

theorem Operands.abandon :
    Operands.Statement .abandon := Operands.of_placeless rfl rfl

theorem Operands.watch :
    Operands.Statement .watch := Operands.of_placeless rfl rfl

theorem Operands.unwatch :
    Operands.Statement .unwatch := Operands.of_placeless rfl rfl

theorem Operands.takeChanges :
    Operands.Statement .takeChanges := Operands.of_placeless rfl rfl

theorem Operands.restrict :
    Operands.Statement .restrict := Operands.of_placeless rfl rfl

theorem Operands.readConfig :
    Operands.Statement .readConfig := Operands.of_placeless rfl rfl

theorem Operands.status :
    Operands.Statement .status := Operands.of_placeless rfl rfl

theorem Operands.detach :
    Operands.Statement .detach := Operands.of_placeless rfl rfl

theorem Operands.restart :
    Operands.Statement .restart := Operands.of_placeless rfl rfl

theorem Operands.restartDrainEnd :
    Operands.Statement .restartDrainEnd := Operands.of_placeless rfl rfl

theorem Operands.leaseExpiry (slot : SlotNo) :
    Operands.Statement (.leaseExpiry slot) := Operands.of_placeless rfl rfl

theorem Operands.patrolTimerExpiry :
    Operands.Statement .patrolTimerExpiry := Operands.of_placeless rfl rfl

theorem Operands.jobSelect :
    Operands.Statement .jobSelect := Operands.of_placeless rfl rfl

theorem Operands.readJobPageRead (outcome : ReadOutcome) :
    Operands.Statement (.readJobPageRead outcome) := Operands.of_placeless rfl rfl

theorem Operands.copySourcePageRead (outcome : ReadOutcome) :
    Operands.Statement (.copySourcePageRead outcome) := Operands.of_placeless rfl rfl

theorem Operands.repairSourcePageRead (outcome : ReadOutcome) :
    Operands.Statement (.repairSourcePageRead outcome) := Operands.of_placeless rfl rfl

theorem Operands.patrolPageRead (outcome : ReadOutcome) :
    Operands.Statement (.patrolPageRead outcome) := Operands.of_placeless rfl rfl

theorem Operands.dataPageProgramDone (success : Bool) :
    Operands.Statement (.dataPageProgramDone success) := Operands.of_placeless rfl rfl

theorem Operands.commitPoint :
    Operands.Statement .commitPoint := Operands.of_placeless rfl rfl

theorem Operands.copy2Installed :
    Operands.Statement .copy2Installed := Operands.of_placeless rfl rfl

theorem Operands.retirementCommitPoint :
    Operands.Statement .retirementCommitPoint := Operands.of_placeless rfl rfl

theorem Operands.repairPageProgramDone (success : Bool) :
    Operands.Statement (.repairPageProgramDone success) := Operands.of_placeless rfl rfl

theorem Operands.eraseComplete (success : Bool) :
    Operands.Statement (.eraseComplete success) := Operands.of_placeless rfl rfl

theorem Operands.configPageOperationDone (success : Bool) :
    Operands.Statement (.configPageOperationDone success) := Operands.of_placeless rfl rfl

theorem Operands.configurationCommitPoint :
    Operands.Statement .configurationCommitPoint := Operands.of_placeless rfl rfl

theorem Operands.unknownCommandCode :
    Operands.Statement .unknownCommandCode := Operands.of_placeless rfl rfl

theorem Operands.headerProgramFailure :
    Operands.Statement .headerProgramFailure := Operands.of_placeless rfl rfl

end Sys2Proof.Laws
end

