-- ==== Sys2Proof/Laws/Rebuild.lean ====
section
/-! SUPPORT. Rebuild.lean: what the parts of RESOLVE decide for a key (R154 to R156). -/

namespace Sys2Proof.Machine

/-- The pages of a key, as RESOLVE groups them (R153). -/
def pagesOfKey (scan : List (Nat × ScanRecord)) (k : Key) : List Found :=
  (foundPages scan).filter fun x => x.tag.key = k

theorem mem_foundPages {scan : List (Nat × ScanRecord)} {x : Found} :
    x ∈ foundPages scan ↔ (x.page, .tagged x.tag x.corrected x.payload) ∈ scan := by
  simp only [foundPages, List.mem_filterMap]
  constructor
  · rintro ⟨⟨page, record⟩, hm, h⟩
    cases record <;> simp at h
    subst h
    exact hm
  · exact fun h => ⟨_, h, rfl⟩

theorem mem_pagesOfKey {scan : List (Nat × ScanRecord)} {k : Key} {x : Found} :
    x ∈ pagesOfKey scan k ↔
      (x.page, .tagged x.tag x.corrected x.payload) ∈ scan ∧ x.tag.key = k := by
  simp [pagesOfKey, mem_foundPages]

/-! ## The highest readable sequence -/

/-- All that `highestReadable` can answer: the page of the highest readable sequence number, or none where no
page has one. -/
theorem highestReadable_spec (l : List Found) :
    (highestReadable l = none ∧ ∀ y ∈ l, y.sequence = none) ∨
    ∃ x n, highestReadable l = some x ∧ x ∈ l ∧ x.sequence = some n ∧
      ∀ y ∈ l, ∀ m, y.sequence = some m → m ≤ n := by
  induction l using List.reverseRecOn with
  | nil => exact .inl ⟨rfl, by simp⟩
  | append_singleton l a ih =>
    have step : highestReadable (l ++ [a]) =
        match a.sequence, (highestReadable l).bind (·.sequence) with
        | none, _ => highestReadable l
        | some _, none => some a
        | some n, some m => if m < n then some a else highestReadable l := by
      unfold highestReadable; rw [List.foldl_append]; rfl
    rcases ih with ⟨hl, hn⟩ | ⟨x, n, hl, hx, hs, hmax⟩
    · cases ha : a.sequence with
      | none => exact .inl ⟨by simp [step, ha, hl], by
          intro y hy; rcases List.mem_append.mp hy with hy | hy
          · exact hn y hy
          · rw [List.mem_singleton.mp hy, ha]⟩
      | some m =>
        refine .inr ⟨a, m, by simp [step, ha, hl], by simp, ha, fun y hy k hk => ?_⟩
        rcases List.mem_append.mp hy with hy | hy
        · rw [hn y hy] at hk; cases hk
        · rw [List.mem_singleton.mp hy, ha] at hk; cases hk; exact le_rfl
    · cases ha : a.sequence with
      | none =>
        refine .inr ⟨x, n, by simp [step, ha, hl], by simp [hx], hs, fun y hy k hk => ?_⟩
        rcases List.mem_append.mp hy with hy | hy
        · exact hmax y hy k hk
        · rw [List.mem_singleton.mp hy, ha] at hk; cases hk
      | some m =>
        by_cases hlt : n < m
        · refine .inr ⟨a, m, by simp [step, ha, hl, hs, hlt], by simp, ha, fun y hy k hk => ?_⟩
          rcases List.mem_append.mp hy with hy | hy
          · exact (hmax y hy k hk).trans hlt.le
          · rw [List.mem_singleton.mp hy, ha] at hk; cases hk; exact le_rfl
        · refine .inr ⟨x, n, by simp [step, ha, hl, hs, hlt], by simp [hx], hs, fun y hy k hk => ?_⟩
          rcases List.mem_append.mp hy with hy | hy
          · exact hmax y hy k hk
          · rw [List.mem_singleton.mp hy, ha] at hk; cases hk; exact Nat.not_lt.mp hlt

/-- The page named among candidates: none has a higher readable sequence number, and where none is readable it is
the first (R154, R156). -/
theorem named_spec {l : List Found} {x : Found} (h : named l = some x) :
    x ∈ l ∧ (∀ y ∈ l, ∀ m, y.sequence = some m → ∃ n, x.sequence = some n ∧ m ≤ n) ∧
      (x.sequence = none → l.head? = some x) := by
  unfold named at h
  rcases highestReadable_spec l with ⟨hr, hn⟩ | ⟨y, n, hr, hy, hs, hmax⟩
  · rw [hr, Option.none_or] at h
    exact ⟨List.mem_of_mem_head? h, (fun y hy m hm => by rw [hn y hy] at hm; cases hm), fun _ => h⟩
  · rw [hr, Option.some_or] at h
    cases h
    exact ⟨hy, fun z hz m hm => ⟨n, hs, hmax z hz m hm⟩, (fun hno => by rw [hs] at hno; cases hno)⟩

theorem named_none {l : List Found} (h : named l = none) : l = [] := by
  unfold named at h
  exact List.head?_eq_none_iff.mp (Option.or_eq_none_iff.mp h).2

/-! ## V and the kind at V (R154) -/

theorem headAt_iff {scan : List (Nat × ScanRecord)} {k : Key} {v : Nat} {kind : TagKind} {page : Nat}
    {n : Option Nat} : HeadAt scan k v kind page n ↔
      ∃ x ∈ pagesOfKey scan k, x.tag.version = v ∧ x.tag.kind = kind ∧ x.page = page ∧
        n = x.sequence := by
  constructor
  · rintro ⟨tag, corrected, payload, hm, hk, hv, hkind, hn⟩
    exact ⟨⟨page, tag, corrected, payload⟩, mem_pagesOfKey.mpr ⟨hm, hk⟩, hv, hkind, rfl, hn⟩
  · rintro ⟨x, hx, hv, hkind, rfl, hn⟩
    exact ⟨x.tag, x.corrected, x.payload, (mem_pagesOfKey.mp hx).1, (mem_pagesOfKey.mp hx).2, hv,
      hkind, hn⟩

theorem mem_headPages {pages : List Found} {x : Found} :
    x ∈ headPages pages ↔ x ∈ pages ∧ (x.tag.kind = .header ∨ x.tag.kind = .retire) := by
  simp [headPages]

theorem mem_topHeads {pages : List Found} {x : Found} :
    x ∈ topHeads pages ↔ x ∈ pages ∧ (x.tag.kind = .header ∨ x.tag.kind = .retire) ∧
      x.tag.version = topVersion pages := by
  simp [topHeads, mem_headPages, and_assoc]

/-- The maximum of a fold is reached, or is the fold's start, and nothing is above it. -/
theorem foldl_max (l : List Found) (v : Nat) :
    (l.foldl (fun v x => max v x.tag.version) v = v ∨
      ∃ x ∈ l, x.tag.version = l.foldl (fun v x => max v x.tag.version) v) ∧
    v ≤ l.foldl (fun v x => max v x.tag.version) v ∧
    ∀ x ∈ l, x.tag.version ≤ l.foldl (fun v x => max v x.tag.version) v := by
  induction l generalizing v with
  | nil => simp
  | cons a l ih =>
    obtain ⟨h1, h2, h3⟩ := ih (max v a.tag.version)
    simp only [List.foldl_cons]
    refine ⟨?_, (le_max_left _ _).trans h2, fun x hx => ?_⟩
    · rcases h1 with h1 | ⟨x, hx, h1⟩
      · rw [h1]
        rcases max_choice v a.tag.version with h | h
        · exact .inl h
        · exact .inr ⟨a, by simp, h.symm⟩
      · exact .inr ⟨x, by simp [hx], h1⟩
    · rcases List.mem_cons.mp hx with rfl | hx
      · exact (le_max_right _ _).trans h2
      · exact h3 x hx

theorem headAt_headPages {scan : List (Nat × ScanRecord)} {k : Key} {v page : Nat} {n : Option Nat} :
    HeadAt scan k v .header page n ∨ HeadAt scan k v .retire page n ↔
      ∃ x ∈ headPages (pagesOfKey scan k), x.tag.version = v ∧ x.page = page ∧ n = x.sequence := by
  simp only [headAt_iff, mem_headPages]
  constructor
  · rintro (⟨x, hx, h1, h2, h3, h4⟩ | ⟨x, hx, h1, h2, h3, h4⟩)
    · exact ⟨x, ⟨hx, .inl h2⟩, h1, h3, h4⟩
    · exact ⟨x, ⟨hx, .inr h2⟩, h1, h3, h4⟩
  · rintro ⟨x, ⟨hx, h | h⟩, h1, h3, h4⟩
    · exact .inl ⟨x, hx, h1, h, h3, h4⟩
    · exact .inr ⟨x, hx, h1, h, h3, h4⟩

/-- `topVersion` is V, for a key with a HEADER or RETIRE page. -/
theorem highestVersion_topVersion {scan : List (Nat × ScanRecord)} {k : Key}
    (h : headPages (pagesOfKey scan k) ≠ []) :
    HighestVersion scan k (topVersion (pagesOfKey scan k)) := by
  obtain ⟨h1, -, h3⟩ := foldl_max (headPages (pagesOfKey scan k)) 0
  refine ⟨?_, fun v page n hv => ?_⟩
  · simp only [headAt_headPages]
    rcases h1 with h1 | ⟨x, hx, h1⟩
    · obtain ⟨x, hx⟩ := List.exists_mem_of_ne_nil _ h
      have := h3 x hx
      rw [h1] at this
      exact ⟨x.page, x.sequence, x, hx, by unfold topVersion; omega, rfl, rfl⟩
    · exact ⟨x.page, x.sequence, x, hx, h1, rfl, rfl⟩
  · obtain ⟨x, hx, rfl, -⟩ := headAt_headPages.mp hv
    exact h3 x hx

theorem HighestVersion.unique {scan : List (Nat × ScanRecord)} {k : Key} {v w : Nat}
    (hv : HighestVersion scan k v) (hw : HighestVersion scan k w) : v = w := by
  obtain ⟨⟨p, n, h⟩, hv⟩ := hv
  obtain ⟨⟨q, m, h'⟩, hw⟩ := hw
  exact Nat.le_antisymm (hw _ _ _ h) (hv _ _ _ h')

/-- V is `topVersion`. -/
theorem HighestVersion.eq {scan : List (Nat × ScanRecord)} {k : Key} {v : Nat}
    (h : HighestVersion scan k v) :
    headPages (pagesOfKey scan k) ≠ [] ∧ v = topVersion (pagesOfKey scan k) := by
  obtain ⟨⟨p, n, h'⟩, -⟩ := id h
  obtain ⟨x, hx, -⟩ := headAt_headPages.mp h'
  have hne := List.ne_nil_of_mem hx
  exact ⟨hne, h.unique (highestVersion_topVersion hne)⟩

/-- The pages of V of one kind. -/
theorem headAt_topHeads {scan : List (Nat × ScanRecord)} {k : Key} {kind : TagKind} {page : Nat}
    {n : Option Nat} (hk : kind = .header ∨ kind = .retire) :
    HeadAt scan k (topVersion (pagesOfKey scan k)) kind page n ↔
      ∃ x ∈ topHeads (pagesOfKey scan k), x.tag.kind = kind ∧ x.page = page ∧ n = x.sequence := by
  simp only [headAt_iff, mem_topHeads]
  constructor
  · rintro ⟨x, hx, h1, h2, h3⟩
    exact ⟨x, ⟨hx, h2 ▸ hk, h1⟩, h2, h3⟩
  · rintro ⟨x, ⟨hx, -, h1⟩, h2, h3⟩
    exact ⟨x, hx, h1, h2, h3⟩

/-- A key whose kind at V is RETIRE is not resolved into an entry. -/
theorem topIsHeader_retired {scan : List (Nat × ScanRecord)} {k : Key}
    (h : RetiredAt scan k (topVersion (pagesOfKey scan k))) :
    topIsHeader (pagesOfKey scan k) = false := by
  obtain ⟨⟨p, n, hp⟩, hall⟩ := h
  obtain ⟨x, hx, hxk, -⟩ := (headAt_topHeads (.inr rfl)).mp hp
  unfold topIsHeader
  simp only
  rw [if_neg (by simp only [List.all_eq_true, beq_iff_eq]; intro h; have := h x hx; simp [hxk] at this)]
  split
  · rfl
  · rcases highestReadable_spec (topHeads (pagesOfKey scan k)) with ⟨hr, -⟩ | ⟨y, m, hr, hy, hs, hmax⟩
    · simp [hr]
    · rw [hr]
      simp only [Option.any_some, beq_eq_false_iff_ne]
      intro hyk
      obtain ⟨p', n', hlt, hp'⟩ := hall y.page m
        ((headAt_topHeads (.inl rfl)).mpr ⟨y, hy, hyk, rfl, hs.symm⟩)
      obtain ⟨z, hz, -, -, hzs⟩ := (headAt_topHeads (.inr rfl)).mp hp'
      have := hmax z hz n' hzs.symm
      omega

/-- A key whose kind at V is HEADER is. -/
theorem topIsHeader_record {scan : List (Nat × ScanRecord)} {k : Key}
    (h : RecordAt scan k (topVersion (pagesOfKey scan k))) :
    topIsHeader (pagesOfKey scan k) = true := by
  obtain ⟨⟨p, n, hp⟩, hall⟩ := h
  obtain ⟨x, hx, hxk, -⟩ := (headAt_topHeads (.inl rfl)).mp hp
  have kinds : ∀ y ∈ topHeads (pagesOfKey scan k), y.tag.kind = .header ∨ y.tag.kind = .retire :=
    fun y hy => (mem_topHeads.mp hy).2.1
  unfold topIsHeader
  simp only
  split
  · rfl
  · next hnot =>
    rw [if_neg (by simp only [List.all_eq_true, beq_iff_eq]; intro h; have := h x hx; simp [hxk] at this)]
    rcases hall with hall | ⟨p', m, hp', hall⟩
    · refine absurd ?_ hnot
      simp only [List.all_eq_true, beq_iff_eq]
      intro y hy
      rcases kinds y hy with h | h
      · exact h
      · exact absurd ((headAt_topHeads (.inr rfl)).mpr ⟨y, hy, h, rfl, rfl⟩) (hall y.page y.sequence)
    · obtain ⟨y, hy, hyk, -, hys⟩ := (headAt_topHeads (.inl rfl)).mp hp'
      rcases highestReadable_spec (topHeads (pagesOfKey scan k)) with ⟨-, hn⟩ | ⟨z, b, hr, hz, hs, hmax⟩
      · rw [hn y hy] at hys; cases hys
      · rw [hr]
        rcases kinds z hz with h | h
        · simp [h]
        · have h1 := hall z.page b ((headAt_topHeads (.inr rfl)).mpr ⟨z, hz, h, rfl, hs.symm⟩)
          have h2 := hmax y hy m hys.symm
          omega

/-- A key resolved into an entry has a HEADER page at V. -/
theorem header_of_topIsHeader {pages : List Found} (hne : topHeads pages ≠ [])
    (h : topIsHeader pages = true) : ∃ x ∈ topHeads pages, x.tag.kind = .header := by
  unfold topIsHeader at h
  simp only at h
  split at h
  · next hall =>
    obtain ⟨x, hx⟩ := List.exists_mem_of_ne_nil _ hne
    exact ⟨x, hx, by simpa using List.all_eq_true.mp hall x hx⟩
  · split at h
    · cases h
    · rcases highestReadable_spec (topHeads pages) with ⟨hr, -⟩ | ⟨x, n, hr, hx, -⟩
      · simp [hr] at h
      · exact ⟨x, hx, by simpa [hr] using h⟩

/-- A key that is not resolved into an entry has a RETIRE page at V. -/
theorem retire_of_topIsHeader {pages : List Found} (h : topIsHeader pages = false) :
    ∃ x ∈ topHeads pages, x.tag.kind = .retire := by
  by_contra hno
  have : topIsHeader pages = true := by
    unfold topIsHeader
    simp only
    rw [if_pos]
    simp only [List.all_eq_true, beq_iff_eq]
    intro y hy
    rcases (mem_topHeads.mp hy).2.1 with h | h
    · exact h
    · exact absurd ⟨y, hy, h⟩ hno
  rw [this] at h
  cases h

/-- The top version is borne by some HEADER or RETIRE page. -/
theorem topHeads_ne_nil {scan : List (Nat × ScanRecord)} {k : Key}
    (h : headPages (pagesOfKey scan k) ≠ []) : topHeads (pagesOfKey scan k) ≠ [] := by
  obtain ⟨⟨p, n, h1⟩, -⟩ := highestVersion_topVersion h
  obtain ⟨x, hx, hv, -⟩ := headAt_headPages.mp h1
  have := mem_headPages.mp hx
  exact List.ne_nil_of_mem (mem_topHeads.mpr ⟨this.1, this.2, hv⟩)

/-! ## Candidates (R155) -/

/-- One scan record for each page makes the page of a key unique. -/
theorem found_unique {scan : List (Nat × ScanRecord)} (once : (scan.map Prod.fst).Nodup) {k k' : Key}
    {x y : Found} (hx : x ∈ pagesOfKey scan k) (hy : y ∈ pagesOfKey scan k') (h : x.page = y.page) :
    x = y := by
  have := List.inj_on_of_nodup_map once (mem_pagesOfKey.mp hx).1 (mem_pagesOfKey.mp hy).1 h
  obtain ⟨px, tx, cx, lx⟩ := x
  obtain ⟨py, ty, cy, ly⟩ := y
  simp_all

/-- A list read index by index. -/
theorem mapM_zipIdx {α β : Type} (g : α × Nat → Option β) (list : List α) (start : Nat)
    (contents : List β) :
    (list.zipIdx start).mapM g = some contents ↔ contents.length = list.length ∧
      ∀ index a b, list[index]? = some a → contents[index]? = some b → g (a, start + index) = some b := by
  induction list generalizing start contents with
  | nil => cases contents <;> simp
  | cons a list ih =>
    simp only [List.zipIdx_cons, List.mapM_cons, bind, Option.bind_eq_some_iff, pure,
      Option.some.injEq]
    constructor
    · rintro ⟨b, hb, cs, hcs, rfl⟩
      obtain ⟨hlen, hall⟩ := (ih _ _).mp hcs
      refine ⟨by simp [hlen], fun index a' b' h1 h2 => ?_⟩
      cases index with
      | zero => simp at h1 h2; subst h1 h2; simpa using hb
      | succ i =>
        simp only [List.getElem?_cons_succ] at h1 h2
        have := hall i a' b' h1 h2
        rwa [show start + 1 + i = start + (i + 1) by omega] at this
    · rintro ⟨hlen, hall⟩
      cases contents with
      | nil => simp at hlen
      | cons b cs =>
        refine ⟨b, by simpa using hall 0 a b (by simp) (by simp), cs,
          (ih _ _).mpr ⟨by simpa using hlen, fun i a' b' h1 h2 => ?_⟩, rfl⟩
        rw [show start + 1 + i = start + (i + 1) by omega]
        exact hall (i + 1) a' b' (by simpa using h1) (by simpa using h2)

theorem mem_candidates {scan : List (Nat × ScanRecord)} {k : Key} {c : CopyNo} {x : Found} :
    x ∈ candidates (pagesOfKey scan k) c ↔
      Candidate scan k (topVersion (pagesOfKey scan k)) c x.page x.tag x.payload ∧
        (x.page, .tagged x.tag x.corrected x.payload) ∈ scan := by
  simp only [candidates, List.mem_filter, mem_topHeads, Bool.and_eq_true, beq_iff_eq]
  constructor
  · rintro ⟨⟨hx, -, hv⟩, hk, hc⟩
    have := mem_pagesOfKey.mp hx
    exact ⟨⟨this.2, hv, hk, hc, x.corrected, this.1⟩, this.1⟩
  · rintro ⟨⟨hkey, hv, hk, hc, -⟩, hm⟩
    exact ⟨⟨mem_pagesOfKey.mpr ⟨hm, hkey⟩, .inl hk, hv⟩, hk, hc⟩

/-- The page a candidate lists reads as condition 3 of R155 asks. -/
theorem listed_iff {scan : List (Nat × ScanRecord)} (once : (scan.map Prod.fst).Nodup) {t : Tag}
    {k : Key} {v : Nat} {c : CopyNo} (hk : t.key = k) (hv : t.version = v)
    (hc : t.copyNumber = copyNumber c) {page index : Nat} {bytes : List Byte} :
    (listedPage (pagesOfKey scan k) t page index).bind Found.bytes = some bytes ↔
      Listed scan k v c index page bytes := by
  subst hk hv
  rw [Option.bind_eq_some_iff]
  constructor
  · rintro ⟨x, hx, hb⟩
    have hp := List.find?_some hx
    have hm := mem_pagesOfKey.mp (List.mem_of_find?_eq_some hx)
    simp only [Bool.and_eq_true, beq_iff_eq] at hp
    obtain ⟨⟨⟨⟨⟨rfl, h1⟩, h2⟩, h3⟩, h4⟩, h5⟩ := hp
    have hpl : x.payload = some (.data bytes) := by
      revert hb; unfold Found.bytes; split
      · next h => intro hb; cases hb; exact h
      · intro hb; cases hb
    exact ⟨x.tag, x.corrected, by rw [← hpl]; exact hm.1, h1, h2, h3, h4.trans hc, h5⟩
  · rintro ⟨tag, corrected, hm, h1, h2, h3, h4, h5⟩
    have hx : (⟨page, tag, corrected, some (.data bytes)⟩ : Found) ∈ pagesOfKey scan t.key :=
      mem_pagesOfKey.mpr ⟨hm, h2⟩
    refine ⟨⟨page, tag, corrected, some (.data bytes)⟩, ?_, rfl⟩
    unfold listedPage
    cases hf : (pagesOfKey scan t.key).find? _ with
    | none => exact absurd (List.find?_eq_none.mp hf _ hx) (by simp [h1, h2, h3, h4, hc, h5])
    | some y =>
      have hp := List.find?_some hf
      simp only [Bool.and_eq_true, beq_iff_eq] at hp
      rw [found_unique once (List.mem_of_find?_eq_some hf) hx hp.1.1.1.1.1]

/-- `validHeader` tests conditions 1 to 4 of R155. -/
theorem validHeader_iff {scan : List (Nat × ScanRecord)} (once : (scan.map Prod.fst).Nodup) {k : Key}
    {c : CopyNo} {x : Found} (hx : x ∈ candidates (pagesOfKey scan k) c) {h : HeaderPayload} :
    validHeader (pagesOfKey scan k) x = some h ↔
      x.payload = some (.header h) ∧
        ValidCandidate scan k (topVersion (pagesOfKey scan k)) c x.page h := by
  obtain ⟨hc, hm⟩ := mem_candidates.mp hx
  have size : Config.bufferBytes = 1024 := rfl
  have content : ∀ g : HeaderPayload,
      ((listedContent (pagesOfKey scan k) x.tag g.dataPages).any fun bytes =>
        crc32 (bytes.take g.length) == g.crc) = true ↔ g.dataPages.Nodup ∧
        ∃ contents : List (List Byte), contents.length = g.dataPages.length ∧
          (∀ index p bytes, g.dataPages[index]? = some p → contents[index]? = some bytes →
            Listed scan k (topVersion (pagesOfKey scan k)) c index p bytes) ∧
          crc32 (contents.flatten.take g.length) = g.crc := by
    intro g
    have key : ∀ contents : List (List Byte),
        (g.dataPages.zipIdx.mapM fun (page, index) =>
          (listedPage (pagesOfKey scan k) x.tag page index).bind Found.bytes) = some contents ↔
        contents.length = g.dataPages.length ∧
          ∀ index p bytes, g.dataPages[index]? = some p → contents[index]? = some bytes →
            Listed scan k (topVersion (pagesOfKey scan k)) c index p bytes := by
      intro contents
      rw [mapM_zipIdx]
      simp only [Nat.zero_add, listed_iff once hc.1 hc.2.1 hc.2.2.2.1]
    unfold listedContent
    split
    · next hd =>
      simp only [hd, true_and, ← and_assoc, ← key]
      cases (g.dataPages.zipIdx.mapM fun (page, index) =>
        (listedPage (pagesOfKey scan k) x.tag page index).bind Found.bytes) <;> simp
    · next hd => simp [hd]
  unfold validHeader
  split
  · next g hg =>
    simp only [Option.ite_none_right_eq_some, Option.some.injEq, Bool.and_eq_true, beq_iff_eq,
      decide_eq_true_eq, content, hg, Payload.header.injEq]
    constructor
    · rintro ⟨⟨⟨⟨⟨⟨⟨⟨⟨⟨h1, h2⟩, h3⟩, h4⟩, h5⟩, h6⟩, h7⟩, h8⟩, h9⟩, h10, h11⟩, rfl⟩
      exact ⟨rfl, ⟨x.tag, hg ▸ hc, h1, h2, h3, h4, h5⟩, ⟨h6, size ▸ h7⟩, ⟨h8, h9⟩, h10, h11⟩
    · rintro ⟨rfl, ⟨tag, hcand, h1, h2, h3, h4, h5⟩, ⟨h6, h7⟩, ⟨h8, h9⟩, h10, h11⟩
      have same : tag = x.tag := by
        obtain ⟨hkey, -, -, -, corrected, hm'⟩ := hcand
        have := found_unique once (k := k) (k' := k)
          (x := ⟨x.page, tag, corrected, some (.header g)⟩) (y := x) (mem_pagesOfKey.mpr ⟨hm', hkey⟩)
          (mem_pagesOfKey.mpr ⟨hm, hc.1⟩) rfl
        rw [← this]
      subst same
      exact ⟨⟨⟨⟨⟨⟨⟨⟨⟨⟨h1, h2⟩, h3⟩, h4⟩, h5⟩, h6⟩, size ▸ h7⟩, h8⟩, h9⟩, h10, h11⟩, rfl⟩
  · next hno =>
    simp only [reduceCtorEq, false_iff]
    exact fun ⟨h, _⟩ => hno _ h

/-- A valid candidate as RESOLVE holds it, with its readable sequence number. -/
theorem ValidCandidate.found {scan : List (Nat × ScanRecord)} (once : (scan.map Prod.fst).Nodup)
    {k : Key} {c : CopyNo} {page : Nat} {h : HeaderPayload}
    (valid : ValidCandidate scan k (topVersion (pagesOfKey scan k)) c page h) :
    ∃ x ∈ candidates (pagesOfKey scan k) c, x.page = page ∧
      validHeader (pagesOfKey scan k) x = some h ∧ x.sequence = some h.sequence := by
  obtain ⟨tag, hc, -⟩ := id valid.agrees
  obtain ⟨-, -, hkind, -, corrected, hm⟩ := id hc
  have hx : (⟨page, tag, corrected, some (.header h)⟩ : Found) ∈ candidates (pagesOfKey scan k) c :=
    mem_candidates.mpr ⟨hc, hm⟩
  exact ⟨_, hx, rfl, (validHeader_iff once hx).mpr ⟨rfl, valid⟩, by
    simp [Found.sequence, headSequence, hkind]⟩

/-- The chosen candidate is the valid one of the highest sequence number that lists no taken page. -/
theorem choose_some {scan : List (Nat × ScanRecord)} (once : (scan.map Prod.fst).Nodup) {k : Key}
    {c : CopyNo} {taken : List Nat} {x : Chosen}
    (hx : choose (pagesOfKey scan k) c taken = some x) :
    ValidCandidate scan k (topVersion (pagesOfKey scan k)) c x.found.page x.header ∧
      (∀ p ∈ x.header.dataPages, p ∉ taken) ∧
      ∀ page h, ValidCandidate scan k (topVersion (pagesOfKey scan k)) c page h →
        (∀ p ∈ h.dataPages, p ∉ taken) → h.sequence ≤ x.header.sequence := by
  unfold choose at hx
  simp only [Option.bind_eq_some_iff, Option.map_eq_some_iff] at hx
  obtain ⟨y, hy, g, hg, rfl⟩ := hx
  rcases highestReadable_spec ((candidates (pagesOfKey scan k) c).filter fun x =>
      (validHeader (pagesOfKey scan k) x).any fun h => h.dataPages.all fun page => !taken.contains page)
    with ⟨hn, -⟩ | ⟨z, n, hz, hmem, hs, hmax⟩
  · rw [hn] at hy; cases hy
  · rw [hz] at hy
    cases hy
    rw [List.mem_filter, hg] at hmem
    have hvalid := ((validHeader_iff once hmem.1).mp hg)
    have hfree : ∀ p ∈ g.dataPages, p ∉ taken := by simpa using hmem.2
    refine ⟨hvalid.2, hfree, fun page h hv hp => ?_⟩
    obtain ⟨w, hw, -, hwv, hws⟩ := hv.found once
    have hle := hmax w (List.mem_filter.mpr ⟨hw, by rw [hwv]; simpa using hp⟩) _ hws
    obtain ⟨v', hv', hpage, hvv, hvs⟩ := hvalid.2.found once
    rw [found_unique once (mem_pagesOfKey.mpr ⟨(mem_candidates.mp hmem.1).2, (mem_candidates.mp hmem.1).1.1⟩)
      (mem_pagesOfKey.mpr ⟨(mem_candidates.mp hv').2, (mem_candidates.mp hv').1.1⟩) hpage.symm, hvs] at hs
    cases hs
    exact hle

/-- None is chosen only where every valid candidate lists a taken page. -/
theorem choose_none {scan : List (Nat × ScanRecord)} (once : (scan.map Prod.fst).Nodup) {k : Key}
    {c : CopyNo} {taken : List Nat} (hx : choose (pagesOfKey scan k) c taken = none) {page : Nat}
    {h : HeaderPayload}
    (valid : ValidCandidate scan k (topVersion (pagesOfKey scan k)) c page h) :
    ¬∀ p ∈ h.dataPages, p ∉ taken := by
  intro hp
  obtain ⟨w, hw, -, hwv, hws⟩ := valid.found once
  have hmem : w ∈ (candidates (pagesOfKey scan k) c).filter fun x =>
      (validHeader (pagesOfKey scan k) x).any fun h => h.dataPages.all fun page =>
        !taken.contains page := List.mem_filter.mpr ⟨hw, by rw [hwv]; simpa using hp⟩
  unfold choose at hx
  rcases highestReadable_spec ((candidates (pagesOfKey scan k) c).filter fun x =>
      (validHeader (pagesOfKey scan k) x).any fun h => h.dataPages.all fun page => !taken.contains page)
    with ⟨-, hn⟩ | ⟨z, n, hz, hmz, -⟩
  · rw [hn w hmem] at hws; cases hws
  · have := (List.mem_filter.mp hmz).2
    cases hv : validHeader (pagesOfKey scan k) z <;> simp_all

/-! ## Entries (R156) -/

theorem headerEntry_key (k : Key) (pages : List Found) : (headerEntry k pages).key = k := by
  unfold headerEntry
  dsimp only
  split <;> rfl

theorem headerEntry_version (k : Key) (pages : List Found) :
    (headerEntry k pages).version = topVersion pages := by
  unfold headerEntry
  dsimp only
  split <;> rfl

/-- The two ways a HEADER key is resolved: by its chosen copies, or DAMAGED without one. -/
theorem headerEntry_cases (k : Key) (pages : List Found) :
    (∃ x, choose pages .one [] = some x ∧
      ((x.header.cls = .single ∧ headerEntry k pages = rebuiltEntry k pages x (some x) none) ∨
        x.header.cls = .mirrored ∧
          headerEntry k pages = rebuiltEntry k pages x (some x) (choose pages .two x.pages))) ∨
    (∃ x, choose pages .one [] = none ∧ choose pages .two [] = some x ∧ x.header.cls = .mirrored ∧
      headerEntry k pages = rebuiltEntry k pages x none (some x)) ∨
    (choose pages .one [] = none ∧
      (∀ x, choose pages .two [] = some x → x.header.cls = .single) ∧
      headerEntry k pages = damagedEntry k pages) := by
  unfold headerEntry chosenCopies
  cases h1 : choose pages .one [] with
  | some x =>
    refine .inl ⟨x, rfl, ?_⟩
    cases hc : x.header.cls <;> simp [hc]
  | none =>
    right
    cases h2 : choose pages .two [] with
    | none => exact .inr ⟨rfl, by simp, by simp [h2]⟩
    | some x =>
      cases hc : x.header.cls with
      | single => exact .inr ⟨rfl, by rintro y ⟨⟩; exact hc, by simp [h2, hc]⟩
      | mirrored => exact .inl ⟨x, rfl, rfl, hc, by simp [h2, hc]⟩

/-! ## The descriptors of a rebuilt entry (R24, R156) -/

theorem correctionsFound_eq (scan : List (Nat × ScanRecord)) (k : Key) (list : List Nat) :
    correctionsFound (pagesOfKey scan k) list = min 17 (pagesCorrected scan k list) := by
  unfold correctionsFound pagesCorrected
  congr 1
  unfold pagesOfKey foundPages
  induction scan with
  | nil => rfl
  | cons x scan ih =>
    obtain ⟨page, record⟩ := x
    cases record with
    | tagged tag corrected payload =>
      cases corrected <;> by_cases hk : tag.key = k <;> by_cases hl : page ∈ list <;>
        simp [hk, hl] at ih ⊢ <;> exact ih
    | _ => simpa [List.filterMap_cons] using ih

/-- The pages of a key stand in ascending page number where the scan does. -/
theorem pagesOfKey_rising {scan : List (Nat × ScanRecord)} (rising : (scan.map Prod.fst).Pairwise (· < ·))
    (k : Key) : (pagesOfKey scan k).Pairwise fun x y => x.page < y.page := by
  refine List.Pairwise.filter _ (List.Pairwise.filterMap _ (fun a b hab x hx y hy => ?_)
    (List.pairwise_map.mp rising))
  obtain ⟨p, r⟩ := a
  obtain ⟨q, r'⟩ := b
  cases r <;> simp at hx
  cases r' <;> simp at hy
  subst hx hy
  exact hab

/-- A page found first in a rising list has the lowest page number of those that pass. -/
theorem find_lowest {l : List Found} (rising : l.Pairwise fun x y => x.page < y.page) {p : Found → Bool}
    {x : Found} (h : l.find? p = some x) : ∀ y ∈ l, p y = true → x.page ≤ y.page := by
  induction l with
  | nil => cases h
  | cons a l ih =>
    obtain ⟨ha, hl⟩ := List.pairwise_cons.mp rising
    rw [List.find?_cons] at h
    cases hp : p a with
    | true =>
      rw [hp] at h
      cases h
      intro y hy _
      rcases List.mem_cons.mp hy with rfl | hy
      · exact le_rfl
      · exact (ha y hy).le
    | false =>
      rw [hp] at h
      intro y hy hpy
      rcases List.mem_cons.mp hy with rfl | hy
      · rw [hp] at hpy; cases hpy
      · exact ih hl h y hy hpy

theorem bearsTags_iff {scan : List (Nat × ScanRecord)} {k : Key} {v index page : Nat} {c : CopyNo} :
    BearsTags scan k v c index page ↔ ∃ x ∈ pagesOfKey scan k, x.page = page ∧ x.tag.kind = .data ∧
      x.tag.version = v ∧ x.tag.copyNumber = copyNumber c ∧ x.tag.dataIndex = some index := by
  constructor
  · rintro ⟨tag, corrected, payload, hm, h1, h2, h3, h4, h5⟩
    exact ⟨⟨page, tag, corrected, payload⟩, mem_pagesOfKey.mpr ⟨hm, h2⟩, rfl, h1, h3, h4, h5⟩
  · rintro ⟨x, hx, rfl, h1, h3, h4, h5⟩
    obtain ⟨hm, h2⟩ := mem_pagesOfKey.mp hx
    exact ⟨_, _, _, hm, h1, h2, h3, h4, h5⟩

/-- A candidate's sequence number is that of its header payload, where it reads. -/
theorem candidate_sequence {scan : List (Nat × ScanRecord)} {k : Key} {c : CopyNo} {x : Found}
    (hx : x ∈ candidates (pagesOfKey scan k) c) {n : Nat} :
    x.sequence = some n ↔ ∃ h, x.payload = some (.header h) ∧ h.sequence = n := by
  obtain ⟨-, -, hk, -⟩ := (mem_candidates.mp hx).1
  unfold Found.sequence headSequence
  rw [hk]
  rcases x.payload with _ | _ | _ | _ | _ <;> simp

/-- A page of the readable list of a candidate that bears the tags of its place. -/
theorem mem_readableList {scan : List (Nat × ScanRecord)} {k : Key} {c : CopyNo} {x : Found}
    {h : HeaderPayload} (hx : x ∈ candidates (pagesOfKey scan k) c) (hp : x.payload = some (.header h))
    {page : Nat} : page ∈ invalidList (pagesOfKey scan k) x ↔ ∃ index, h.dataPages[index]? = some page ∧
      BearsTags scan k (topVersion (pagesOfKey scan k)) c index page := by
  obtain ⟨hk, hv, -, hc, -⟩ := (mem_candidates.mp hx).1
  have listed : ∀ p index q, (listedPage (pagesOfKey scan k) x.tag p index).map (·.page) = some q ↔
      q = p ∧ BearsTags scan k (topVersion (pagesOfKey scan k)) c index p := by
    intro p index q
    rw [bearsTags_iff]
    constructor
    · intro hq
      obtain ⟨y, hy, rfl⟩ := Option.map_eq_some_iff.mp hq
      have hm := List.mem_of_find?_eq_some hy
      have := List.find?_some hy
      simp only [Bool.and_eq_true, beq_iff_eq] at this
      obtain ⟨⟨⟨⟨⟨h1, h2⟩, h3⟩, h4⟩, h5⟩, h6⟩ := this
      exact ⟨h1, y, hm, h1, h2, h4.trans hv, h5.trans hc, h6⟩
    · rintro ⟨rfl, y, hy, rfl, h2, h4, h5, h6⟩
      have hyk := (mem_pagesOfKey.mp hy).2
      cases hf : listedPage (pagesOfKey scan k) x.tag y.page index with
      | none =>
        have := List.find?_eq_none.mp hf y hy
        simp [h2, hyk, hk, h4, hv, h5, hc, h6] at this
      | some z =>
        have := List.find?_some hf
        simp only [Bool.and_eq_true, beq_iff_eq] at this
        simp [this.1.1.1.1.1]
  unfold invalidList
  rw [hp]
  simp only [List.mem_filterMap, Prod.exists, List.mem_zipIdx_iff_getElem?, listed]
  constructor
  · rintro ⟨p, index, h1, rfl, h2⟩
    exact ⟨index, h1, h2⟩
  · rintro ⟨index, h1, h2⟩
    exact ⟨page, index, h1, rfl, h2⟩

/-- A page of the list assembled from the tags: the lowest of its index. -/
theorem mem_assembledList {scan : List (Nat × ScanRecord)} (rising : (scan.map Prod.fst).Pairwise (· < ·))
    {k : Key} {c : CopyNo} {x : Found} (hx : x ∈ candidates (pagesOfKey scan k) c)
    (hp : ∀ h, x.payload ≠ some (.header h)) {page : Nat} :
    page ∈ invalidList (pagesOfKey scan k) x ↔ ∃ index, index ≤ 15 ∧
      BearsTags scan k (topVersion (pagesOfKey scan k)) c index page ∧
      ∀ q, BearsTags scan k (topVersion (pagesOfKey scan k)) c index q → page ≤ q := by
  obtain ⟨hk, hv, -, hc, -⟩ := (mem_candidates.mp hx).1
  have assembled : ∀ index q, ((pagesOfKey scan k).find? fun y =>
        y.tag.kind == .data && y.tag.version == x.tag.version &&
          y.tag.copyNumber == x.tag.copyNumber && y.tag.dataIndex == some index).map (·.page) = some q ↔
      BearsTags scan k (topVersion (pagesOfKey scan k)) c index q ∧
      ∀ q', BearsTags scan k (topVersion (pagesOfKey scan k)) c index q' → q ≤ q' := by
    intro index q
    simp only [bearsTags_iff, hv, hc]
    constructor
    · intro hq
      obtain ⟨y, hy, rfl⟩ := Option.map_eq_some_iff.mp hq
      have := List.find?_some hy
      simp only [Bool.and_eq_true, beq_iff_eq] at this
      obtain ⟨⟨⟨h1, h2⟩, h3⟩, h4⟩ := this
      refine ⟨⟨y, List.mem_of_find?_eq_some hy, rfl, h1, h2, h3, h4⟩, ?_⟩
      rintro _ ⟨z, hz, rfl, g1, g2, g3, g4⟩
      exact find_lowest (pagesOfKey_rising rising k) hy z hz (by simp [g1, g2, g3, g4])
    · rintro ⟨⟨y, hy, rfl, h1, h2, h3, h4⟩, hle⟩
      cases hf : (pagesOfKey scan k).find? fun y =>
          y.tag.kind == .data && y.tag.version == topVersion (pagesOfKey scan k) &&
            y.tag.copyNumber == copyNumber c && y.tag.dataIndex == some index with
      | none =>
        have := List.find?_eq_none.mp hf y hy
        simp [h1, h2, h3, h4] at this
      | some z =>
        have := List.find?_some hf
        simp only [Bool.and_eq_true, beq_iff_eq] at this
        obtain ⟨⟨⟨g1, g2⟩, g3⟩, g4⟩ := this
        have h := hle z.page ⟨z, List.mem_of_find?_eq_some hf, rfl, g1, g2, g3, g4⟩
        have h' := find_lowest (pagesOfKey_rising rising k) hf y hy (by simp [h1, h2, h3, h4])
        simp [Nat.le_antisymm h' h]
  have shape : invalidList (pagesOfKey scan k) x = (List.range 16).filterMap fun index =>
      ((pagesOfKey scan k).find? fun y =>
        y.tag.kind == .data && y.tag.version == x.tag.version &&
          y.tag.copyNumber == x.tag.copyNumber && y.tag.dataIndex == some index).map (·.page) := by
    unfold invalidList
    split
    · next h heq => exact absurd heq (hp h)
    · rfl
  rw [shape]
  simp only [List.mem_filterMap, List.mem_range, assembled]
  constructor
  · rintro ⟨index, h1, h2⟩
    exact ⟨index, by omega, h2⟩
  · rintro ⟨index, h1, h2⟩
    exact ⟨index, by omega, h2⟩

/-- The invalid descriptor of a copy number that has a candidate is the one of R24 and R156. -/
theorem invalidDescriptor_copy {scan : List (Nat × ScanRecord)}
    (rising : (scan.map Prod.fst).Pairwise (· < ·)) {e : Entry} {c : CopyNo} {d : CopyDescriptor}
    (hv : e.version = topVersion (pagesOfKey scan e.key))
    (h : invalidDescriptor (pagesOfKey scan e.key) c = some d) : InvalidCopy scan e c d := by
  obtain ⟨x, hx, rfl⟩ := Option.map_eq_some_iff.mp h
  obtain ⟨hm, hmax, hfirst⟩ := named_spec hx
  have hc := (mem_candidates.mp hm).1
  have found : ∀ page tag payload,
      Candidate scan e.key (topVersion (pagesOfKey scan e.key)) c page tag payload →
      ∃ y ∈ candidates (pagesOfKey scan e.key) c, y.page = page ∧ y.payload = payload := by
    intro page tag payload hcand
    obtain ⟨-, -, -, -, corrected, hs⟩ := id hcand
    exact ⟨⟨page, tag, corrected, payload⟩, mem_candidates.mpr ⟨hcand, hs⟩, rfl, rfl⟩
  refine ⟨rfl, fun page tag g hg => ?_, fun hno => ?_⟩
  · rw [hv] at hg ⊢
    obtain ⟨y, hy, rfl, hyp⟩ := found _ _ _ hg
    obtain ⟨n, hn, hle⟩ := hmax y hy _ ((candidate_sequence hy).mpr ⟨g, hyp, rfl⟩)
    obtain ⟨g', hg', rfl⟩ := (candidate_sequence hm).mp hn
    exact ⟨x.tag, g', hg' ▸ hc, hle, fun p => mem_readableList hm hg'⟩
  · rw [hv] at hno ⊢
    have hp : ∀ g, x.payload ≠ some (.header g) := fun g hg => hno _ _ g (hg ▸ hc)
    refine ⟨⟨_, _, hc⟩, fun page tag payload hcand => ?_, fun p => mem_assembledList rising hm hp⟩
    obtain ⟨y, hy, rfl, -⟩ := found _ _ _ hcand
    have hnone : x.sequence = none := by
      cases hs : x.sequence with
      | none => rfl
      | some n =>
        obtain ⟨g, hg, -⟩ := (candidate_sequence hm).mp hs
        exact absurd hg (hp g)
    have sorted : (candidates (pagesOfKey scan e.key) c).Pairwise fun a b => a.page < b.page :=
      (((pagesOfKey_rising rising e.key).filter _).filter _).filter _
    have hhead := hfirst hnone
    cases hl : candidates (pagesOfKey scan e.key) c with
    | nil => rw [hl] at hy; cases hy
    | cons a l =>
      rw [hl] at hhead hy sorted
      cases hhead
      rcases List.mem_cons.mp hy with rfl | hy
      · exact le_rfl
      · exact ((List.pairwise_cons.mp sorted).1 y hy).le

/-- The copies and the attributes of a rebuilt entry are those of R155 and R156. -/
theorem headerEntry_copies {scan : List (Nat × ScanRecord)}
    (rising : (scan.map Prod.fst).Pairwise (· < ·)) (k : Key) :
    RebuiltCopies scan (headerEntry k (pagesOfKey scan k)) := by
  have once : (scan.map Prod.fst).Nodup := rising.imp (fun h => Nat.ne_of_lt h)
  rcases headerEntry_cases k (pagesOfKey scan k) with
    ⟨x, hx, ⟨hc, heq⟩ | ⟨hc, heq⟩⟩ | ⟨x, hn, hx, hc, heq⟩ | ⟨hn, hs, heq⟩
  · obtain ⟨hv, -, hmax⟩ := choose_some once hx
    rw [heq]
    refine ⟨⟨fun _ => ⟨_, _, hv⟩, fun _ => rfl⟩, ?_, ?_, ?_, fun _ _ hno => absurd hv (hno _ _), ?_, ?_, ?_⟩
    · rintro d ⟨⟩ -
      exact ⟨_, hv, rfl, ⟨rfl, rfl, rfl, rfl⟩, fun page h hv' => hmax page h hv' (by simp)⟩
    · rintro d ⟨⟩
    · intro d page h _ _ hm
      exact absurd (hc.symm.trans hm) (by decide)
    · intro _ c hc'
      cases c <;> first | rfl | cases hc'
    · intro h
      simp [rebuiltEntry, Entry.judged, Entry.validCopies, chosenDescriptor, hc, integrityOf] at h
    · rintro (_ | _) d ⟨⟩
      exact correctionsFound_eq _ _ _
  · obtain ⟨hv, -, hmax⟩ := choose_some once hx
    rw [heq]
    refine ⟨⟨fun _ => ⟨_, _, hv⟩, fun _ => rfl⟩, ?_, ?_, ?_, fun _ _ hno => absurd hv (hno _ _), ?_, ?_, ?_⟩
    · rintro d ⟨⟩ -
      exact ⟨_, hv, rfl, ⟨rfl, rfl, rfl, rfl⟩, fun page h hv' => hmax page h hv' (by simp)⟩
    · intro d hd _
      cases hy : choose (pagesOfKey scan k) .two x.pages with
      | none => simp [rebuiltEntry, Entry.judged, hy] at hd
      | some y =>
        obtain ⟨hv2, hfree, hmax2⟩ := choose_some once hy
        have hd' : d = chosenDescriptor (pagesOfKey scan k) y := by
          simpa [rebuiltEntry, Entry.judged, hy, eq_comm] using hd
        subst hd'
        exact ⟨hc, _, hv2, rfl, nofun, hfree, hmax2⟩
    · intro d page h _ _ _ hv' hfree
      cases hy : choose (pagesOfKey scan k) .two x.pages with
      | none => exact absurd hfree (choose_none once hy hv')
      | some y => simp [rebuiltEntry, Entry.judged, Entry.copyValid, Entry.copy, chosenDescriptor]
    · intro _ c hc'
      cases c with
      | one => cases hc'
      | two =>
        cases hy : choose (pagesOfKey scan k) .two x.pages with
        | none => simp [rebuiltEntry, Entry.judged, Entry.copy]
        | some y => simp [rebuiltEntry, Entry.judged, Entry.copyValid, Entry.copy, chosenDescriptor, hy] at hc'
    · intro h
      cases hy : choose (pagesOfKey scan k) .two x.pages <;>
        simp [rebuiltEntry, Entry.judged, Entry.validCopies, chosenDescriptor, hc, integrityOf, hy] at h
    · intro c d hd
      cases c with
      | one => cases hd; exact correctionsFound_eq _ _ _
      | two =>
        obtain ⟨y, -, rfl⟩ := Option.map_eq_some_iff.mp
          (show (choose (pagesOfKey scan k) .two x.pages).map (chosenDescriptor _) = some d from hd)
        exact correctionsFound_eq _ _ _
  · obtain ⟨hv, -, hmax⟩ := choose_some once hx
    rw [heq]
    refine ⟨⟨nofun, fun ⟨page, h, hv'⟩ => absurd (by simp) (choose_none once hn hv')⟩, nofun, ?_, nofun,
      fun page h _ hv' _ => ⟨rfl, ?_, _, _, hv, hmax page h hv' (by simp), rfl, rfl, rfl, rfl⟩, ?_, ?_, ?_⟩
    · rintro d ⟨⟩ -
      exact ⟨hc, _, hv, rfl, fun _ => ⟨rfl, rfl, rfl, rfl⟩,
        by simp [descriptorPages, rebuiltEntry, Entry.judged], fun page h hv' _ => hmax page h hv' (by simp)⟩
    · simp [rebuiltEntry, Entry.judged, Entry.validCopies, chosenDescriptor, hc, integrityOf]
    · intro _ c hc'
      cases c <;> first | rfl | cases hc'
    · intro h
      simp [rebuiltEntry, Entry.judged, Entry.validCopies, chosenDescriptor, hc, integrityOf] at h
    · rintro (_ | _) d ⟨⟩
      exact correctionsFound_eq _ _ _
  · have copies : ∀ c, (damagedEntry k (pagesOfKey scan k)).copy c = invalidDescriptor (pagesOfKey scan k) c :=
      fun c => by cases c <;> rfl
    have described : ∀ c d, (damagedEntry k (pagesOfKey scan k)).copy c = some d →
        InvalidCopy scan (damagedEntry k (pagesOfKey scan k)) c d := fun c d hd =>
      invalidDescriptor_copy rising rfl ((copies c).symm.trans hd)
    have invalid : ∀ c d, (damagedEntry k (pagesOfKey scan k)).copy c = some d → d.valid = false :=
      fun c d hd => (described c d hd).invalid
    rw [heq]
    refine ⟨⟨fun h => ?_, fun ⟨page, h, hv'⟩ => absurd (by simp) (choose_none once hn hv')⟩,
      fun d hd hv => ?_, fun d hd hv => ?_, fun d page h hd hv => ?_, fun page h _ hv' hmir => ?_,
      fun h => absurd rfl h, fun _ c => ⟨fun hnone page tag payload hcand => ?_, described c⟩,
      fun c d hd => ?_⟩
    · unfold Entry.copyValid at h
      obtain ⟨d, hd, hv⟩ : ∃ d, (damagedEntry k (pagesOfKey scan k)).copy .one = some d ∧ d.valid = true := by
        revert h
        cases (damagedEntry k (pagesOfKey scan k)).copy .one <;> simp
      rw [invalid _ _ hd] at hv; cases hv
    · rw [invalid .one d hd] at hv; cases hv
    · rw [invalid .two d hd] at hv; cases hv
    · rw [invalid .one d hd] at hv; cases hv
    · cases hy : choose (pagesOfKey scan k) .two [] with
      | none => exact absurd (by simp) (choose_none once hy hv')
      | some y =>
        obtain ⟨hv2, -, hmax⟩ := choose_some once hy
        have := hmir _ _ hv2 (hmax _ _ hv' (by simp))
        rw [hs y hy] at this
        cases this
    · rw [copies] at hnone
      have hempty := named_none (Option.map_eq_none_iff.mp hnone)
      obtain ⟨-, -, -, -, corrected, hm⟩ := id hcand
      have : (⟨page, tag, corrected, payload⟩ : Found) ∈ candidates (pagesOfKey scan k) c :=
        mem_candidates.mpr ⟨hcand, hm⟩
      rw [hempty] at this
      cases this
    · rw [copies] at hd
      obtain ⟨y, -, rfl⟩ := Option.map_eq_some_iff.mp hd
      exact correctionsFound_eq _ _ _

/-- An entry rebuilt DAMAGED is the one made without a chosen copy. -/
theorem headerEntry_damaged {k : Key} {pages : List Found}
    (h : (headerEntry k pages).integrity = .damaged) : headerEntry k pages = damagedEntry k pages := by
  rcases headerEntry_cases k pages with
    ⟨x, -, ⟨hc, heq⟩ | ⟨hc, heq⟩⟩ | ⟨x, -, -, hc, heq⟩ | ⟨-, -, heq⟩
  · rw [heq] at h
    simp [rebuiltEntry, Entry.judged, Entry.validCopies, chosenDescriptor, hc, integrityOf] at h
  · rw [heq] at h
    cases hy : choose pages .two x.pages <;>
      simp [rebuiltEntry, Entry.judged, Entry.validCopies, chosenDescriptor, hc, integrityOf, hy] at h
  · rw [heq] at h
    simp [rebuiltEntry, Entry.judged, Entry.validCopies, chosenDescriptor, hc, integrityOf] at h
  · exact heq

theorem mem_bothCandidates {scan : List (Nat × ScanRecord)} {k : Key} {x : Found} :
    x ∈ candidates (pagesOfKey scan k) .one ++ candidates (pagesOfKey scan k) .two ↔
      (∃ c, Candidate scan k (topVersion (pagesOfKey scan k)) c x.page x.tag x.payload) ∧
        (x.page, .tagged x.tag x.corrected x.payload) ∈ scan := by
  rw [List.mem_append, mem_candidates, mem_candidates]
  constructor
  · rintro (⟨h, hm⟩ | ⟨h, hm⟩)
    exacts [⟨⟨_, h⟩, hm⟩, ⟨⟨_, h⟩, hm⟩]
  · rintro ⟨⟨c, h⟩, hm⟩
    cases c
    exacts [.inl ⟨h, hm⟩, .inr ⟨h, hm⟩]

/-- A DAMAGED entry takes its attributes from the readable candidate of the highest sequence number. -/
theorem damagedEntry_attributes {scan : List (Nat × ScanRecord)} (once : (scan.map Prod.fst).Nodup)
    {k : Key} {c : CopyNo} {page : Nat} {tag : Tag} {h : HeaderPayload}
    (hc : Candidate scan k (topVersion (pagesOfKey scan k)) c page tag (some (.header h)))
    (highest : ∀ c' page' tag' h',
      Candidate scan k (topVersion (pagesOfKey scan k)) c' page' tag' (some (.header h')) →
        page' ≠ page → h'.sequence < h.sequence) :
    TakesAttributes (damagedEntry k (pagesOfKey scan k)) h := by
  obtain ⟨hk, -, hkind, -, corrected, hm⟩ := id hc
  have hx : (⟨page, tag, corrected, some (.header h)⟩ : Found) ∈
      candidates (pagesOfKey scan k) .one ++ candidates (pagesOfKey scan k) .two :=
    mem_bothCandidates.mpr ⟨⟨c, hc⟩, hm⟩
  have hxs : (⟨page, tag, corrected, some (.header h)⟩ : Found).sequence = some h.sequence := by
    simp [Found.sequence, headSequence, hkind]
  rcases highestReadable_spec
      (candidates (pagesOfKey scan k) .one ++ candidates (pagesOfKey scan k) .two)
    with ⟨-, hn⟩ | ⟨y, n, hr, hy, hs, hmax⟩
  · rw [hn _ hx] at hxs; cases hxs
  · obtain ⟨⟨c', hcy⟩, hmy⟩ := mem_bothCandidates.mp hy
    obtain ⟨g, hg⟩ : ∃ g, y.payload = some (.header g) := by
      have hk' := hcy.2.2.1
      revert hs
      unfold Found.sequence headSequence
      rw [hk']
      cases hp : y.payload with
      | none => simp
      | some q => cases q <;> simp
    have hyp : y.page = page := by
      by_contra hne
      have hgs : y.sequence = some g.sequence := by
        simp [Found.sequence, headSequence, hcy.2.2.1, hg]
      have := highest c' y.page y.tag g (hg ▸ hcy) hne
      have := hmax _ hx _ hxs
      rw [hgs] at hs; cases hs
      omega
    have same := found_unique once (mem_pagesOfKey.mpr ⟨hmy, hcy.1⟩)
      ((mem_pagesOfKey (x := ⟨page, tag, corrected, some (.header h)⟩)).mpr ⟨hm, hk⟩) hyp
    simp [TakesAttributes, damagedEntry, hr, same]

/-- Where no candidate reads, a DAMAGED entry has length 0 and no owner. -/
theorem damagedEntry_unreadable {scan : List (Nat × ScanRecord)} {k : Key}
    (h : ∀ c page tag g,
      ¬Candidate scan k (topVersion (pagesOfKey scan k)) c page tag (some (.header g))) :
    (damagedEntry k (pagesOfKey scan k)).length = 0 ∧
      (damagedEntry k (pagesOfKey scan k)).owner = none := by
  have none_read : highestReadable
      (candidates (pagesOfKey scan k) .one ++ candidates (pagesOfKey scan k) .two) = none := by
    rcases highestReadable_spec
        (candidates (pagesOfKey scan k) .one ++ candidates (pagesOfKey scan k) .two)
      with ⟨hr, -⟩ | ⟨y, n, -, hy, hs, -⟩
    · exact hr
    · obtain ⟨⟨c', hcy⟩, -⟩ := mem_bothCandidates.mp hy
      exfalso
      revert hs
      unfold Found.sequence headSequence
      rw [hcy.2.2.1]
      cases hp : y.payload with
      | none => simp
      | some q =>
        cases q with
        | header g => exact fun _ => h _ _ _ g (hp ▸ hcy)
        | _ => simp
  simp [damagedEntry, none_read]

/-! ## Retired keys (R154) -/

/-- The kept RETIRE page, and the count of the key's other pages. -/
theorem retiredEntry_spec {k : Key} {pages : List Found} {x : RetirementEntry}
    (h : retiredEntry k pages = some x) :
    ∃ kept ∈ topHeads pages, kept.tag.kind = .retire ∧
      (∀ y ∈ topHeads pages, y.tag.kind = .retire → ∀ m, y.sequence = some m →
        ∃ n, kept.sequence = some n ∧ m ≤ n) ∧
      (kept.sequence = none →
        ((topHeads pages).filter fun x => x.tag.kind == .retire).head? = some kept) ∧
      x = ⟨k, kept.page, topVersion pages,
        if (pages.filter fun y => y.page != kept.page).length = 0 then 1
        else (pages.filter fun y => y.page != kept.page).length,
        (pages.filter fun y => y.page != kept.page).length == 0⟩ := by
  unfold retiredEntry at h
  obtain ⟨kept, hk, rfl⟩ := Option.map_eq_some_iff.mp h
  obtain ⟨hm, hmax, hfirst⟩ := named_spec hk
  have hm' := List.mem_filter.mp hm
  exact ⟨kept, hm'.1, by simpa using hm'.2,
    fun y hy hyk => hmax y (List.mem_filter.mpr ⟨hy, by simpa using hyk⟩), hfirst, rfl⟩

/-! ## Every key (R154, R157) -/

theorem mem_insertKey {k x : Key} {l : List Key} : x ∈ insertKey k l ↔ x = k ∨ x ∈ l := by
  induction l with
  | nil => simp [insertKey]
  | cons y l ih =>
    unfold insertKey
    split
    · simp
    · split
      · next h => subst h; simp
      · simp [ih]; tauto

theorem mem_foldl_insertKey {x : Key} (l : List Found) (ks : List Key) :
    x ∈ l.foldl (fun ks y => insertKey y.tag.key ks) ks ↔ x ∈ ks ∨ ∃ y ∈ l, y.tag.key = x := by
  induction l generalizing ks with
  | nil => simp
  | cons y l ih =>
    simp only [List.foldl_cons, ih, mem_insertKey, List.mem_cons, exists_eq_or_imp, eq_comm (a := x)]
    tauto

/-- What RESOLVE decides is what it decides for a key with a readable tag. -/
theorem mem_resolutions {scan : List (Nat × ScanRecord)} {r : Resolution} :
    r ∈ resolutions scan ↔
      ∃ k, (∃ y ∈ foundPages scan, y.tag.key = k) ∧ r = resolveKey k (pagesOfKey scan k) := by
  simp only [resolutions, List.mem_map, mem_foldl_insertKey, List.not_mem_nil, false_or]
  exact ⟨fun ⟨k, hk, h⟩ => ⟨k, hk, h.symm⟩, fun ⟨k, hk, h⟩ => ⟨k, hk, h.symm⟩⟩

/-- An entry of the rebuilt directory is the HEADER resolution of its key. -/
theorem mem_rebuiltDirectory {scan : List (Nat × ScanRecord)} {e : Entry}
    (h : e ∈ rebuiltDirectory (resolutions scan)) :
    headPages (pagesOfKey scan e.key) ≠ [] ∧ topIsHeader (pagesOfKey scan e.key) = true ∧
      e = headerEntry e.key (pagesOfKey scan e.key) := by
  unfold rebuiltDirectory at h
  obtain ⟨r, hr, he⟩ := List.mem_filterMap.mp (List.mem_of_mem_take h)
  obtain ⟨k, -, rfl⟩ := mem_resolutions.mp hr
  unfold resolveKey at he
  split at he
  · next e' hres =>
    cases he
    split at hres
    · cases hres
    · next hne =>
      split at hres
      · next htop =>
        cases hres
        rw [headerEntry_key]
        exact ⟨by simpa using hne, htop, rfl⟩
      · split at hres <;> cases hres
  · cases he

/-- A HEADER key has its entry, where the directory is not full. -/
theorem rebuiltDirectory_record {scan : List (Nat × ScanRecord)} {k : Key}
    (hne : headPages (pagesOfKey scan k) ≠ []) (htop : topIsHeader (pagesOfKey scan k) = true)
    (room : (rebuiltDirectory (resolutions scan)).length < 512) :
    headerEntry k (pagesOfKey scan k) ∈ rebuiltDirectory (resolutions scan) := by
  obtain ⟨x, hx⟩ := List.exists_mem_of_ne_nil _ hne
  have hx' := mem_pagesOfKey.mp (mem_headPages.mp hx).1
  have hr : resolveKey k (pagesOfKey scan k) ∈ resolutions scan :=
    mem_resolutions.mpr ⟨k, ⟨x, mem_foundPages.mpr hx'.1, hx'.2⟩, rfl⟩
  have hres : resolveKey k (pagesOfKey scan k) = .record (headerEntry k (pagesOfKey scan k)) := by
    simp [resolveKey, hne, htop]
  rw [hres] at hr
  unfold rebuiltDirectory at room ⊢
  rw [List.length_take] at room
  have size : Config.directoryPlaces = 512 := rfl
  rw [List.take_of_length_le (by omega)]
  exact List.mem_filterMap.mpr ⟨_, hr, rfl⟩

/-- A Retirement List entry is the RETIRE resolution of its key. -/
theorem mem_rebuiltRetirements {scan : List (Nat × ScanRecord)} {x : RetirementEntry} :
    x ∈ rebuiltRetirements (resolutions scan) ↔
      headPages (pagesOfKey scan x.key) ≠ [] ∧ topIsHeader (pagesOfKey scan x.key) = false ∧
        retiredEntry x.key (pagesOfKey scan x.key) = some x := by
  have key : ∀ k y, retiredEntry k (pagesOfKey scan k) = some y → y.key = k := by
    intro k y hy
    obtain ⟨kept, -, -, -, -, rfl⟩ := retiredEntry_spec hy
    rfl
  unfold rebuiltRetirements
  rw [List.mem_filterMap]
  constructor
  · rintro ⟨r, hr, hx⟩
    obtain ⟨k, -, rfl⟩ := mem_resolutions.mp hr
    unfold resolveKey at hx
    split at hx
    · next y hres =>
      cases hx
      split at hres
      · cases hres
      · next hne =>
        split at hres
        · cases hres
        · next htop =>
          split at hres
          · next z hz =>
            cases hres
            rw [key k _ hz]
            exact ⟨by simpa using hne, by simpa using htop, hz⟩
          · cases hres
    · cases hx
  · rintro ⟨hne, htop, hx⟩
    obtain ⟨y, hy⟩ := List.exists_mem_of_ne_nil _ hne
    have hy' := mem_pagesOfKey.mp (mem_headPages.mp hy).1
    exact ⟨_, mem_resolutions.mpr ⟨x.key, ⟨y, mem_foundPages.mpr hy'.1, hy'.2⟩, rfl⟩, by
      simp [resolveKey, hne, htop, hx]⟩

/-- A RETIRE key has a Retirement List entry. -/
theorem retiredEntry_exists {k : Key} {pages : List Found} (h : topIsHeader pages = false) :
    ∃ x, retiredEntry k pages = some x := by
  obtain ⟨y, hy, hyk⟩ := retire_of_topIsHeader h
  have hm : y ∈ (topHeads pages).filter fun x => x.tag.kind == .retire :=
    List.mem_filter.mpr ⟨hy, by simpa using hyk⟩
  unfold retiredEntry named
  cases hh : ((topHeads pages).filter fun x => x.tag.kind == .retire).head? with
  | none => rw [List.head?_eq_none_iff] at hh; rw [hh] at hm; cases hm
  | some z => cases highestReadable ((topHeads pages).filter fun x => x.tag.kind == .retire) <;> simp

end Sys2Proof.Machine
end

