-- ==== Sys2Proof/Laws/Refusals.lean ====
section
/-! SUPPORT. Refusals.lean: the checks the commands make are the checks of the rules, in their order (R44). -/

namespace Sys2Proof.Machine

/-- A check that fails gives its code; where it passes, the later checks decide. -/
theorem firstFailing_cons {code refusal : Completion} {fails : Prop} {b : Bool}
    {later : List (Completion × Prop)} {checks : List (Completion × Bool)}
    (same : fails ↔ b = true)
    (rest : ¬fails → (FirstFailing later refusal ↔ firstFailure checks = some refusal)) :
    FirstFailing ((code, fails) :: later) refusal ↔
      firstFailure ((code, b) :: checks) = some refusal := by
  by_cases h : fails
  · have hb : b = true := same.mp h
    simp [FirstFailing, firstFailure, h, hb, eq_comm]
  · have hb : b = false := by simpa [same] using h
    simpa [FirstFailing, firstFailure, h, hb] using rest h

theorem firstFailing_nil {refusal : Completion} :
    FirstFailing [] refusal ↔ firstFailure [] = some refusal := by simp [FirstFailing, firstFailure]

theorem not_holdsRight {s : State} {ns : Nat} {p : Port} {right : Rights → Bool} :
    ¬HoldsRight s ns p right ↔ lacksRight s ns p right = true := by
  unfold HoldsRight lacksRight
  cases namespaceEntry s ns <;> simp [imp_iff_not_or]

theorem named_iff {s : State} {k : Key} {property : Entry → Prop} {test : Entry → Bool}
    (h : ∀ e, property e ↔ test e = true) : Named s k property ↔ (s.entry k).any test = true := by
  unfold Named
  cases s.entry k <;> simp [h]

theorem updateBarred_iff (s : State) (p : Port) (e : Entry) :
    UpdateBarred s p e ↔ updateProtected s p e = true := by
  unfold UpdateBarred FailsOwnerTest updateProtected ownerTest
  cases e.level <;> simp

theorem raiseBarred_iff (s : State) (p : Port) (e : Entry) :
    RetireBarred s p e ↔ raiseProtected s p e = true := by
  unfold RetireBarred FailsOwnerTest raiseProtected ownerTest
  cases e.level <;> simp

theorem retireBarred_iff (s : State) (p : Port) (e : Entry) :
    RetireBarred s p e ↔ retireProtected s p e = true := by
  unfold RetireBarred FailsOwnerTest retireProtected ownerTest
  cases e.level <;> simp

theorem differs_iff (expected present : Nat) :
    Differs expected present ↔ staleVersion expected present = true := by
  simp [Differs, staleVersion]

theorem busy_iff (l : Lifecycle) : l ≠ .live ↔ l.busy = true := by cases l <;> decide

theorem lacksSpace_iff (s : State) (need : Nat) :
    LacksSpace s need ↔ (!spaceFor s need) = true := by
  unfold LacksSpace spaceFor drawablePages
  have : Config.repairReserve = 34 := rfl
  simp only [this, Bool.not_eq_true', decide_eq_false_iff_not, Nat.not_le]

theorem writeNeed_eq (cls : RecordClass) (length : Nat) :
    writeNeed cls length = pagesOfWrite cls length := by
  cases cls <;> rfl

theorem exhausted_iff (s : State) (e : Entry) : Exhausted s e ↔ recordExhausted s e = true := by
  have : Config.maxNumber = 4294967295 := rfl
  simp [Exhausted, recordExhausted, counterExhausted, this]

theorem createExhausted_iff (s : State) (k : Key) :
    CreateExhausted s k ↔ createExhausted s k = true := by
  have : Config.maxNumber = 4294967295 := rfl
  unfold CreateExhausted createExhausted counterExhausted firstVersion
  cases s.retirement k <;> simp [this]

theorem noClaimLeft_iff (s : State) (p : Port) : NoClaimLeft s p ↔ claimsFull s p = true := by
  have h : (∀ i, (s.slot i).state ≠ .free) ↔ lowestFree s = none := by
    unfold lowestFree
    rw [List.find?_eq_none]
    exact ⟨fun h i _ => by simpa [Slot.isFree] using h i,
      fun h i => by simpa [Slot.isFree] using h i (mem_slotNumbers i)⟩
  simp [NoClaimLeft, claimsFull, h]

theorem directoryFull_iff (s : State) : 512 ≤ s.directory.length ↔ directoryFull s = true :=
  (decide_eq_true_iff (p := 512 ≤ s.directory.length)).symm

/-! ## The commands on keys -/

section Keys
variable {s : State} {p : Port} {f : CommandFields} {refusal : Completion}

theorem reportChecks_iff : FirstFailing (reportRefusals s p f) refusal ↔
    firstFailure (reportChecks s p f) = some refusal :=
  firstFailing_cons (by simp) (fun _ => firstFailing_cons not_holdsRight fun _ =>
    firstFailing_cons (by simp) fun _ => firstFailing_nil)

theorem listChecks_iff : FirstFailing ((reportRefusals s p f).take 2) refusal ↔
    firstFailure [(.badParam, decide (7 < f.ns)), (.noRight, lacksRight s f.ns p (·.read))] =
      some refusal :=
  firstFailing_cons (by simp) (fun _ => firstFailing_cons not_holdsRight fun _ => firstFailing_nil)

theorem readChecks_iff : FirstFailing (readRefusals s p f) refusal ↔
    firstFailure (readChecks s p f) = some refusal := by
  refine firstFailing_cons ?_ (fun _ => firstFailing_cons not_holdsRight fun _ =>
    firstFailing_cons ?_ fun _ => firstFailing_cons (named_iff fun e => by simp) fun _ =>
      firstFailing_nil)
  · rw [named_iff (test := fun e => e.version != 0 && e.length != 0 && decide (e.length ≤ f.offset))
      fun e => by simp [and_assoc]]
    simp [or_assoc]
  · rw [named_iff (test := fun e => e.version == 0) fun e => by simp]
    cases s.entry f.key <;> simp

theorem createChecks_iff : FirstFailing (createRefusals s p f) refusal ↔
    firstFailure (createChecks s p f) = some refusal := by
  refine firstFailing_cons (by simp [or_assoc]) (fun hp => firstFailing_cons not_holdsRight fun hr =>
    firstFailing_cons (by simp [Option.isSome_iff_ne_none]) fun _ =>
      firstFailing_cons (directoryFull_iff s) fun _ =>
        firstFailing_cons ?_ fun _ => firstFailing_cons ?_ fun _ =>
          firstFailing_cons (createExhausted_iff s f.key) fun _ => firstFailing_nil)
  all_goals
    obtain ⟨n, hn, -⟩ := not_not.mp hr
    simp only [not_or] at hp
    obtain ⟨cls, hc⟩ := Option.ne_none_iff_exists'.mp hp.2.1
  · simp [NoQuotaLeft, quotaFull, hn]
  · rw [← lacksSpace_iff, ← writeNeed_eq]
    simp [classTaken, hn, hc]

theorem writeChecks_iff : FirstFailing (writeRefusals s p f) refusal ↔
    firstFailure (writeChecks s p f) = some refusal :=
  firstFailing_cons (by simp [or_assoc]) (fun _ => firstFailing_cons not_holdsRight fun _ =>
    firstFailing_cons (by simp) fun _ => firstFailing_cons (named_iff fun e => busy_iff _) fun _ =>
      firstFailing_cons (named_iff fun e => by simp [Option.isSome_iff_ne_none]) fun _ =>
        firstFailing_cons (named_iff (updateBarred_iff s p)) fun _ =>
          firstFailing_cons (named_iff fun e => differs_iff _ _) fun _ =>
            firstFailing_cons (named_iff fun e => by rw [writeNeed_eq, lacksSpace_iff]) fun _ =>
              firstFailing_cons (named_iff (exhausted_iff s)) fun _ => firstFailing_nil)

theorem raiseChecks_iff : FirstFailing (raiseRefusals s p f) refusal ↔
    firstFailure (raiseChecks s p f) = some refusal := by
  refine firstFailing_cons ?_ (fun _ => firstFailing_cons not_holdsRight fun _ =>
    firstFailing_cons (by simp) fun _ => firstFailing_cons (named_iff fun e => busy_iff _) fun _ =>
      firstFailing_cons (named_iff (raiseBarred_iff s p)) fun _ =>
        firstFailing_cons (named_iff fun e => by simp) fun _ =>
          firstFailing_cons (named_iff fun e => by rw [writeNeed_eq, lacksSpace_iff]) fun _ =>
            firstFailing_cons (named_iff (exhausted_iff s)) fun _ => firstFailing_nil)
  rw [named_iff (test := fun e => decide (f.level ≤ levelCode e.level)) fun e => by simp]
  simp [or_assoc]

theorem retireChecks_iff : FirstFailing (retireRefusals s p f) refusal ↔
    firstFailure (retireChecks s p f) = some refusal :=
  firstFailing_cons (by simp) (fun _ => firstFailing_cons not_holdsRight fun _ =>
    firstFailing_cons (by simp) fun _ => firstFailing_cons (named_iff fun e => busy_iff _) fun _ =>
      firstFailing_cons (named_iff fun e => by simp [Option.isSome_iff_ne_none]) fun _ =>
        firstFailing_cons (named_iff (retireBarred_iff s p)) fun _ =>
          firstFailing_cons (named_iff fun e => differs_iff _ _) fun _ =>
            firstFailing_cons (lacksSpace_iff s 1) fun _ =>
              firstFailing_cons (named_iff (exhausted_iff s)) fun _ => firstFailing_nil)

theorem updateClaimChecks_iff : FirstFailing (updateClaimRefusals s p f) refusal ↔
    firstFailure (updateClaimChecks s p f f.preload) = some refusal := by
  refine firstFailing_cons (by simp) (fun _ => firstFailing_cons not_holdsRight fun _ =>
    firstFailing_cons (by simp) fun _ => firstFailing_cons (named_iff fun e => busy_iff _) fun _ =>
      firstFailing_cons (named_iff fun e => by simp [Option.isSome_iff_ne_none]) fun _ =>
        firstFailing_cons (named_iff (updateBarred_iff s p)) fun _ => firstFailing_cons ?_ fun _ =>
          firstFailing_cons (named_iff fun e => differs_iff _ _) fun _ =>
            firstFailing_cons (noClaimLeft_iff s p) fun _ => firstFailing_nil)
  rw [named_iff (test := fun e => e.integrity == .damaged) fun e => by simp]
  simp

theorem createClaimChecks_iff : FirstFailing (createClaimRefusals s p f) refusal ↔
    firstFailure (createClaimChecks s p f) = some refusal := by
  refine firstFailing_cons (by simp [or_assoc]) (fun _ => firstFailing_cons not_holdsRight fun hr =>
    firstFailing_cons (by simp [Option.isSome_iff_ne_none]) fun _ =>
      firstFailing_cons (noClaimLeft_iff s p) fun _ =>
        firstFailing_cons (directoryFull_iff s) fun _ =>
          firstFailing_cons ?_ fun _ => firstFailing_nil)
  obtain ⟨n, hn, -⟩ := not_not.mp hr
  simp [NoQuotaLeft, quotaFull, hn]

end Keys

/-! ## The commands on handles and on the configuration -/

section Handles
variable {s : State} {p : Port} {f : CommandFields} {refusal : Completion}

/-- Two checks in place of one, the second for the states the first passes over. -/
theorem configRole_iff {maintEn : Bool} {later : List (Completion × Prop)}
    {checks : List (Completion × Bool)}
    (rest : FirstFailing later refusal ↔ firstFailure checks = some refusal) :
    FirstFailing (configRefusals s p maintEn ++ later) refusal ↔
      firstFailure (configRoleChecks s p maintEn ++ checks) = some refusal := by
  by_cases hc : s.configState = some .configFault
  · simp only [configRoleChecks, hc]
    exact firstFailing_cons (by simp [hc, imp_iff_not_or]) fun _ => by simp [FirstFailing, hc, rest]
  · rw [show configRoleChecks s p maintEn =
        [(.noRight, !isMaintenance s p), (.locked, storedLocked s)] by
      unfold configRoleChecks; split <;> simp_all]
    exact firstFailing_cons (by simp [hc]) fun _ => firstFailing_cons (by simp [hc]) fun _ => rest

theorem configClaimed_iff (s : State) :
    (∃ i, (s.slot i).state ≠ .free ∧ (s.slot i).target = some .config) ↔ configClaimed s = true := by
  simp [configClaimed, Slot.isFree, mem_slotNumbers]

theorem configClaimChecks_iff {maintEn : Bool} :
    FirstFailing (configClaimRefusals s p f maintEn) refusal ↔
      firstFailure (configClaimChecks s p f maintEn) = some refusal := by
  simp only [configClaimRefusals, configClaimChecks, List.append_assoc]
  exact firstFailing_cons (by simp) fun _ => configRole_iff (firstFailing_cons
    (configClaimed_iff s) fun _ => firstFailing_cons (differs_iff _ _) fun _ =>
      firstFailing_cons (noClaimLeft_iff s p) fun _ => firstFailing_nil)

theorem configCommitChecks_iff {maintEn : Bool} :
    FirstFailing (configRefusals s p maintEn ++ [(.exhausted, s.sequenceCounter = none)]) refusal ↔
      firstFailure (configRoleChecks s p maintEn ++ [(.exhausted, counterExhausted s)]) =
        some refusal :=
  configRole_iff (firstFailing_cons (by simp [counterExhausted]) fun _ => firstFailing_nil)

/-- How a handle stands, by the table of R86. -/
theorem handleStatus_cases (s : State) (p : Port) (f : CommandFields) :
    (∃ i, CurrentHandle s p f i ∧ handleStatus s p f = .current i) ∨
    ((∀ i, ¬CurrentHandle s p f i) ∧
      ((∃ i : SlotNo, f.slot = i.val ∧ (s.slot i).state = .free ∧
          (s.slot i).lapsed = some (f.generation, p)) ∧ handleStatus s p f = .lapsed ∨
        (¬∃ i : SlotNo, f.slot = i.val ∧ (s.slot i).state = .free ∧
          (s.slot i).lapsed = some (f.generation, p)) ∧ handleStatus s p f = .unknown)) := by
  by_cases hf : f.slot < 8
  · let i : SlotNo := ⟨f.slot, hf⟩
    have hi : f.slot = i.val := rfl
    have only : ∀ j : SlotNo, f.slot = j.val → j = i := fun j h => Fin.ext h.symm
    by_cases hc : CurrentHandle s p f i
    · exact .inl ⟨i, hc, handleStatus_current hc⟩
    · have stale : (s.slot i).state = .free ∨ (s.slot i).generation ≠ f.generation ∨
          (s.slot i).holder ≠ some p := by
        by_contra h
        simp only [not_or, not_not] at h
        exact hc ⟨hi, h.1, h.2.1, h.2.2⟩
      refine .inr ⟨fun j hj => hc (only j hj.slot ▸ hj), ?_⟩
      have eq := handleStatus_stale hi stale
      by_cases hl : (s.slot i).state = .free ∧ (s.slot i).lapsed = some (f.generation, p)
      · exact .inl ⟨⟨i, hi, hl⟩, by rw [eq, if_pos hl]⟩
      · exact .inr ⟨fun ⟨j, hj, h⟩ => hl (only j hj ▸ h), by rw [eq, if_neg hl]⟩
  · have no : ∀ j : SlotNo, f.slot ≠ j.val := fun j h => hf (h ▸ j.isLt)
    exact .inr ⟨fun j hj => no j hj.slot, .inr ⟨fun ⟨j, hj, _⟩ => no j hj, by
      simp [handleStatus, slotOf, hf]⟩⟩

theorem handleChecks_iff : FirstFailing (handleRefusals s p f) refusal ↔
    firstFailure (handleChecks (handleStatus s p f)) = some refusal := by
  rcases handleStatus_cases s p f with ⟨i, hc, hs⟩ | ⟨hn, ⟨hl, hs⟩ | ⟨hl, hs⟩⟩
  · have free : ¬∃ j : SlotNo, f.slot = j.val ∧ (s.slot j).state = .free ∧
        (s.slot j).lapsed = some (f.generation, p) := fun ⟨j, hj, hfree, _⟩ =>
      hc.claimed (Fin.ext (hj.symm.trans hc.slot) ▸ hfree)
    have held : ¬∀ j, ¬CurrentHandle s p f j := fun h => h i hc
    simp [handleRefusals, FirstFailing, free, held, hs, handleChecks, firstFailure]
  · simp only [handleRefusals, FirstFailing, hl, hs, true_and, not_true_eq_false, false_and, or_false]
    show _ ↔ some Completion.claimLapsed = some refusal
    simp [eq_comm]
  · simp only [handleRefusals, FirstFailing, hl, hn, hs, false_and, not_false_eq_true, true_and,
      false_or, implies_true, not_true_eq_false, or_false]
    show _ ↔ some Completion.noClaim = some refusal
    simp [eq_comm]

theorem targetClosed_iff (s : State) (p : Port) (f : CommandFields) :
    (∃ i, CurrentHandle s p f i ∧ ¬TargetOpen s i) ↔ targetClosed s (handleStatus s p f) = true := by
  rcases handleStatus_cases s p f with ⟨i, hc, hs⟩ | ⟨hn, ⟨-, hs⟩ | ⟨-, hs⟩⟩
  · have only : (∃ i, CurrentHandle s p f i ∧ ¬TargetOpen s i) ↔ ¬TargetOpen s i :=
      ⟨fun ⟨j, hj, h⟩ => by rwa [Fin.ext (hj.slot.symm.trans hc.slot)] at h, fun h => ⟨i, hc, h⟩⟩
    rw [only, hs]
    simp only [targetClosed, HandleStatus.slot, TargetOpen, namespaceClosed]
    cases ht : (s.slot i).target with
    | none => simp
    | some x =>
      cases x with
      | config => simp
      | record k => cases hk : namespaceEntry s k.ns <;> simp [hk]
  all_goals
    rw [hs]
    simp only [targetClosed, HandleStatus.slot, Bool.false_eq_true, iff_false]
    exact fun ⟨j, hj, _⟩ => hn j hj

theorem stagingChecks_iff : FirstFailing (stagingRefusals s p f) refusal ↔
    firstFailure (stagingChecks s p f) = some refusal := by
  have size : Config.bufferBytes = 1024 := rfl
  exact firstFailing_cons (by simp [size, or_assoc]) fun _ =>
    firstFailing_cons (targetClosed_iff s p f) fun _ => handleChecks_iff

theorem commitChecks_iff {i : SlotNo} {k : Key} :
    FirstFailing (commitRefusals s p f i k
      (if f.length = 0 then (s.slot i).staged else f.length)) refusal ↔
    firstFailure (commitChecks s p f i k) = some refusal := by
  have size : Config.bufferBytes = 1024 := rfl
  refine firstFailing_cons ?_ (fun _ => firstFailing_cons not_holdsRight fun _ =>
    firstFailing_cons (named_iff fun e => by simp) fun _ => firstFailing_cons ?_ fun _ =>
      firstFailing_cons (named_iff fun e => by rw [writeNeed_eq, lacksSpace_iff]; rfl) fun _ =>
        firstFailing_cons ?_ fun _ => firstFailing_nil)
  · rw [named_iff (test := fun e => decide (f.level < levelCode e.level)) fun e => by simp]
    simp [size, effectiveLength, or_assoc, and_assoc]
  · rw [named_iff (updateBarred_iff s p)]
    simp
  · rw [named_iff (exhausted_iff s), createExhausted_iff]
    by_cases hk : (s.slot i).kind = some .create <;> simp [hk]

end Handles

end Sys2Proof.Machine
end

