-- ==== Sys2Proof/Tests/Slice0.lean ====
section
/-! SUPPORT. Slice0.lean: the well-formedness smoke test; one or two small steps for each command, with
results from the spec's rules and worked examples; and, for each statement of Obligations.lean, a state and
operands that meet its hypotheses (`witness_…`). -/

namespace Sys2Proof.Tests

open Sys2Proof.Machine

set_option Elab.async false

/-! ## Ill-formed commands are refused by the check -/

theorem test_wellFormed_access : Instr.wellFormed (.invalidAccessByte 0 0x3C) = false ∧
    Instr.wellFormed (.invalidAccessByte 0 0xC3) = false ∧
    Instr.wellFormed (.invalidAccessByte 0 0x3D) = true := by decide

theorem test_wellFormed_window : Instr.wellFormed (.windowWrite 0 (.first 0x80) 1) = false ∧
    Instr.wellFormed (.windowWrite 0 (.first 0x82) 1) = false ∧
    Instr.wellFormed (.windowWrite 0 (.first 0x84) 1) = false ∧
    Instr.wellFormed (.windowWrite 0 (.first 0x83) 1) = true := by decide

theorem test_wellFormed_launch : Instr.wellFormed (.launch 0 (.first 0x81) 1) = false ∧
    Instr.wellFormed (.launch 0 (.first 0x80) 1) = true := by decide

theorem test_wellFormed_causes : Instr.wellFormed (.attentionCauseWrite 0 (.first 0x84) 1) = false ∧
    Instr.wellFormed (.attentionCauseWrite 0 (.first 0x82) 1) = true := by decide

theorem test_wellFormed_sticky : Instr.wellFormed (.stickyFlagWrite 0 (.first 0x82) 1) = false ∧
    Instr.wellFormed (.stickyFlagWrite 0 (.first 0x84) 1) = true := by decide

/-! ## Small states -/

/-- The state after an outcome. -/
def after (o : Host.Outcome State Fault Refusal) : State :=
  match o with
  | .next t => t
  | .fault _ => State.reset
  | .refused _ => State.reset

/-- READY, every namespace open with quota 512 and all rights, P0 MAINTENANCE, lease length 25, claim
limit 2; pages 1200 to 1259 ERASED. -/
def ready : State :=
  { State.reset with
    device := .ready
    startup := .idle
    operation := none
    engine := .free
    configState := some .unconfigured
    effective :=
      { defaultConfig with
        namespaces := Vector.replicate 8 ⟨true, false, .opened, 512, Vector.replicate 4 Rights.all⟩ }
    erased := List.range' 1200 60 }

/-- Port `p` has launched the command in window `w` with tag 0x25. -/
def ask (s : State) (p : Port) (w : Memory) : State :=
  { s.setPort p { s.port p with window := w, go := 0x25, state := .queued } with
    dispatchQueue := [p] }

/-- A byte of a port's window. -/
def byteAt (s : State) (p : Port) (a : Nat) : Byte := (s.port p).window.read a

/-- The completion code and the result flags of a port. -/
def answer (s : State) (p : Port) : Byte × Byte := (byteAt s p 0x61, byteAt s p 0x62)

/-- Key 1/12: SINGLE, OPEN, version 7, length 40 (example 4.8). -/
def short : Entry where
  key := ⟨1, 12⟩
  lifecycle := .live
  integrity := .sound
  cls := .single
  level := .opened
  owner := some 0
  length := 40
  version := 7
  claim := none
  copy1 := some ⟨300, [301], true, 0⟩
  copy2 := none

/-- Key 7/65535: MIRRORED, OWNED by P2, the last version but one, 1024 bytes. -/
def long : Entry where
  key := ⟨7, 65535⟩
  lifecycle := .live
  integrity := .sound
  cls := .mirrored
  level := .owned
  owner := some 2
  length := 1024
  version := 4294967294
  claim := none
  copy1 := some ⟨400, List.range' 401 16, true, 0⟩
  copy2 := some ⟨420, List.range' 421 16, true, 0⟩

/-- The tag of a page of the copy 1 of `short`. -/
def shortTag (kind : TagKind) (index : Option Nat) : Tag :=
  ⟨kind, ⟨1, 12⟩, 7, 1, index, some .single, some .opened⟩

/-- The 64 bytes of the data page of `short`: 40 of content, all 0. -/
def shortBytes : List Byte := List.replicate 64 0

def shortHeader : HeaderPayload where
  key := ⟨1, 12⟩
  version := 7
  copyNumber := 1
  cls := .single
  level := .opened
  owner := some 0
  length := 40
  dataPageCount := 1
  dataPages := [301]
  crc := crc32 (shortBytes.take 40)
  sequence := 90

/-- READY with the two records; P2 watches namespace 1. -/
def stocked : State :=
  { ready with
    directory := [short, long]
    live := [300, 301] ++ List.range' 400 17 ++ List.range' 420 17
    array := [(300, ⟨.holds (shortTag .header none), .holds (.header shortHeader)⟩),
      (301, ⟨.holds (shortTag .data (some 0)), .holds (.data shortBytes)⟩)]
    watches := [⟨2, 1, none, false⟩]
    sequenceCounter := some 100 }

/-- Slot `i` of a state. -/
def slotSet (s : State) (i : SlotNo) (x : Slot) : State := s.setSlot i x

/-- An update claim of P1 on key 1/12, at slot 1 and generation 7 (example 5.7), 40 bytes staged. -/
def heldSlot : Slot :=
  { state := .held, generation := 7, holder := some 1, target := some (.record ⟨1, 12⟩),
    kind := some .update, base := 7, buffer := [(0, 0x11)], staged := 40, lease := some 500,
    lapsed := none }

/-- The record 1/12 under the claim `heldSlot`. -/
def claimed : State :=
  { stocked.setSlot 1 heldSlot with
    directory := [{ short with claim := some ⟨1, 7⟩ }, long] }

theorem ask_taking {s : State} (h1 : s.isReady = true) (h2 : s.restarting = none) (p : Port)
    (w : Memory) : Taking (ask s p w) p [] (commandFields w) where
  ready := h1
  noRestart := h2
  head := rfl
  fields := by
    show _ = commandFields ((s.setPort p _).port p).window
    rw [State.port_setPort_self]

theorem ask_canonical {s : State} (h : MemoriesCanonical s) (p : Port) {w : Memory} (hw : Memory.wf w) :
    MemoriesCanonical (ask s p w) where
  array := h.array
  windows q := by
    show Memory.wf ((s.setPort p _).port q).window
    rw [State.port_setPort]
    split
    · exact hw
    · exact h.windows q
  buffers := h.buffers

theorem canonical_ready : MemoriesCanonical ready :=
  ⟨by decide +kernel, by decide +kernel, by decide +kernel⟩

theorem canonical_stocked : MemoriesCanonical stocked :=
  ⟨by decide +kernel, by decide +kernel, by decide +kernel⟩

theorem canonical_claimed : MemoriesCanonical claimed :=
  ⟨by decide +kernel, by decide +kernel, by decide +kernel⟩

/-- Every port holds every right in the namespaces of these states. -/
theorem holds {s : State} (h : s.effective = ready.effective) {ns : Nat} (hn : ns < 8) (p : Port)
    {right : Rights → Bool} (hr : right Rights.all = true) : HoldsRight s ns p right := by
  refine ⟨⟨true, false, .opened, 512, Vector.replicate 4 Rights.all⟩, ?_, rfl, ?_⟩
  · unfold namespaceEntry
    rw [h]
    simp only [ready]
    rw [Vector.getElem?_eq_getElem hn]
    simp
  · simpa using hr

/-! ## Power, pins and start-up -/

def off : State := { State.reset with powered := false }

theorem test_powerOn : (after (exec .powerOn off)).device = .starting ∧
    (after (exec .powerOn off)).resetCause = .powerOn ∧
    (after (exec .powerOn off)).operation = some (.read 0) := by decide +kernel

theorem test_resetNAssert : readyPin ready = true ∧
    readyPin (after (exec .resetNAssert ready)) = false := by decide +kernel

theorem test_resetNDeassert :
    (after (exec .resetNDeassert { stocked with resetAsserted := true })).resetCause = .pin ∧
    (after (exec .resetNDeassert { stocked with resetAsserted := true })).directory = [] ∧
    (after (exec .resetNDeassert { stocked with resetAsserted := true })).array = stocked.array := by
  decide +kernel

theorem test_powerLoss : (after (exec .powerLoss stocked)).powered = false ∧
    (after (exec .powerLoss stocked)).watches = [] ∧
    (after (exec .powerLoss stocked)).array = stocked.array := by decide +kernel

/-- A cut configuration header never reads whole (R57); a cut record page may. -/
theorem test_cutPage_header : (∀ r, cutResultOn 0 r ≠ .whole) ∧ (∀ r, cutResultOn 4 r ≠ .whole) ∧
    cutResultOn 8 .whole = .whole := by
  refine ⟨fun r => ?_, fun r => ?_, rfl⟩ <;> cases r <;> decide

/-- A command on the Dispatch Queue completes HALTED, committed no, and HALT is set at every port (R159). -/
theorem test_pfwNAssert : answer (after (exec (.pfwNAssert true) (ask ready 1 [(0, 0x60)]))) 1 = (2, 0) ∧
    attentionCauses (after (exec (.pfwNAssert true) ready)) 3 = 0x10 := by decide +kernel

theorem test_pfwNDeassert :
    (after (exec .pfwNDeassert (after (exec (.pfwNAssert true) ready)))).device = .halted := by
  decide +kernel

/-- All eight configuration pages ERASED: UNCONFIGURED, P0 MAINTENANCE (R59, R60). -/
def lastConfigRead : State :=
  { State.reset with
    startup := .configLoad (List.replicate 7 .erased), operation := some (.read 7) }

theorem test_configLoadPageRead :
    (after (exec (.configLoadPageRead ⟨.clean, .clean⟩) lastConfigRead)).configState =
      some .unconfigured ∧
    isMaintenance (after (exec (.configLoadPageRead ⟨.clean, .clean⟩) lastConfigRead)) 0 = true ∧
    (after (exec (.configLoadPageRead ⟨.clean, .clean⟩) lastConfigRead)).operation =
      some (.read 8) := by decide +kernel

/-! ### Rebuild of key 1/77, after example 9.5 with one data page in each copy -/

def tag77 (kind : TagKind) (version copy : Nat) (index : Option Nat) : Tag :=
  ⟨kind, ⟨1, 77⟩, version, copy, index, some .mirrored, some .owned⟩

def data77 (b : Byte) : Payload := .data (List.replicate 64 b)

def header77 (version copy length : Nat) (pages : List Nat) (crc : BitVec 32) (sequence : Nat) :
    Payload :=
  .header ⟨⟨1, 77⟩, version, copy, .mirrored, .owned, some 2, length, pages.length, pages, crc, sequence⟩

def crc6 : BitVec 32 := crc32 (List.replicate 4 0xB0)
def crc5 : BitVec 32 := crc32 (List.replicate 3 0xC0)

/-- The scan records: version 5 whole; version 6 with a replaced data page, 1305, and a copy 2 whose data
page cannot be read. -/
def records77 : List (Nat × ScanRecord) :=
  [(900, .tagged (tag77 .header 5 1 none) false (some (header77 5 1 3 [901] crc5 8410))),
    (901, .tagged (tag77 .data 5 1 (some 0)) false (some (data77 0xC0))),
    (910, .tagged (tag77 .header 5 2 none) false (some (header77 5 2 3 [911] crc5 8411))),
    (911, .tagged (tag77 .data 5 2 (some 0)) true (some (data77 0xC0))),
    (1300, .tagged (tag77 .header 6 1 none) false (some (header77 6 1 4 [1301] crc6 8812))),
    (1301, .tagged (tag77 .data 6 1 (some 0)) true (some (data77 0xB0))),
    (1305, .tagged (tag77 .data 6 1 (some 0)) false (some (data77 0xEE))),
    (1310, .tagged (tag77 .header 6 2 none) false (some (header77 6 2 4 [1312] crc6 8813))),
    (1312, .tagged (tag77 .data 6 2 (some 0)) false none)]

/-- The last page read of the scan, with those records made and page 4095 ERASED. -/
def lastScanRead : State :=
  { State.reset with
    startup := .scan records77 8813, operation := some (.read 4095), configState := some .unconfigured,
    effective := defaultConfig }

theorem test_scanPageRead_entry :
    (after (exec (.scanPageRead ⟨.clean, .clean⟩) lastScanRead)).entry ⟨1, 77⟩ =
      some ⟨⟨1, 77⟩, .live, .degraded, .mirrored, .owned, some 2, 4, 6, none,
        some ⟨1300, [1301], true, 1⟩, none⟩ ∧
    (after (exec (.scanPageRead ⟨.clean, .clean⟩) lastScanRead)).repairList =
      [⟨⟨1, 77⟩, 6, .two, .lost, false, false⟩] := by decide +kernel

theorem test_scanPageRead_pools :
    (after (exec (.scanPageRead ⟨.clean, .clean⟩) lastScanRead)).eraseList.map Prod.fst =
      [900, 901, 910, 911, 1305, 1310, 1312] ∧
    (after (exec (.scanPageRead ⟨.clean, .clean⟩) lastScanRead)).live = [1300, 1301] ∧
    (after (exec (.scanPageRead ⟨.clean, .clean⟩) lastScanRead)).sequenceCounter = some 8814 := by
  decide +kernel

/-! ## The link (example 11.9) -/

theorem test_invalidAccessByte :
    stickyFlags ((after (exec (.invalidAccessByte 1 0x55) ready)).port 1) = 1 := by decide +kernel

/-- The transaction from 0x00 to GO, at its last data byte. -/
def atGo : State :=
  ready.setPort 1 { ready.port 1 with window := [(0, 0x10), (2, 3), (5, 1), (6, 0xA1)], link := .writing 0x80 }

theorem test_launch : (after (exec (.launch 1 .following 0x25) atGo)).dispatchQueue = [1] ∧
    windowRead (after (exec (.launch 1 .following 0x25) atGo)) 1 0x80 = 0x25 ∧
    windowRead (after (exec (.launch 1 .following 0x25) atGo)) 1 0x81 = 1 := by decide +kernel

theorem test_windowWrite_locked :
    byteAt (after (exec (.windowWrite 1 (.first 2) 2) (after (exec (.launch 1 .following 0x25) atGo)))) 1 2
      = 3 ∧
    windowRead (after (exec (.windowWrite 1 (.first 2) 2)
      (after (exec (.launch 1 .following 0x25) atGo)))) 1 0x84 = 4 := by decide +kernel

/-- After offset 255 comes offset 0 (R171). -/
theorem test_windowWrite_wraps :
    ((after (exec (.windowWrite 1 (.first 0xFF) 9) ready)).port 1).link = .writing 0 := by decide +kernel

/-- In a read from offset 255 the first data byte leads to offset 0, whose byte SDOn then shifts out. -/
theorem test_windowWrite_reading :
    ((after (exec (.windowWrite 1 ⟨[.deselect, .select, .readAccess, .offset 0xFF]⟩ 9) atGo)).port 1).link =
      .reading 0 ∧
    serialOut (after (exec (.windowWrite 1 ⟨[.deselect, .select, .readAccess, .offset 0xFF]⟩ 9) atGo)) 1 =
      some 0x10 := by decide +kernel

theorem test_attentionCauseWrite :
    attentionCauses (after (exec (.attentionCauseWrite 1 (.first 0x82) 0x01)
      (ready.setPort 1 { ready.port 1 with complete := true, lapse := true }))) 1 = 0x04 := by
  decide +kernel

theorem test_stickyFlagWrite :
    stickyFlags ((after (exec (.stickyFlagWrite 1 (.first 0x84) 0x04)
      (ready.setPort 1 { ready.port 1 with windowLocked := true, framing := true }))).port 1) = 1 := by
  decide +kernel

/-! ## The Record Controller's commands -/

/-- Example 4.8: LIVE, SOUND, version 7, length 40, SINGLE, OPEN. -/
theorem test_lookup : (List.range' 0x60 13).map (byteAt
    (after (exec .lookup (ask stocked 0 [(0, 0x10), (2, 1), (6, 12)]))) 0) =
    [0x25, 0, 0, 2, 1, 1, 1, 0, 0, 0, 7, 0, 40] := by decide +kernel

/-- Owner 0, no holder, copy 1 valid at page 300 with data page 301 (R34, R178). -/
theorem test_describe : (List.range' 0x76 10).map (byteAt
    (after (exec .describe (ask stocked 0 [(0, 0x11), (2, 1), (6, 12)]))) 0) =
    [0, 0xFF, 1, 0, 1, 0x2C, 0, 0, 0, 0] ∧
    (List.range' 0x20 4).map (byteAt
      (after (exec .describe (ask stocked 0 [(0, 0x11), (2, 1), (6, 12)]))) 0) = [1, 0x2D, 0, 0] := by
  decide +kernel

/-- Ten LIVE entries of namespace 4 (example 2.7.1). -/
def walked : State :=
  { ready with directory := [3, 10, 17, 25, 40, 41, 90, 120, 200, 250].map fun i =>
      { short with key := ⟨4, i⟩ } }

theorem test_list : byteAt (after (exec .list (ask walked 2 [(0, 0x12), (2, 4)]))) 2 0x62 = 4 ∧
    byteAt (after (exec .list (ask walked 2 [(0, 0x12), (2, 4)]))) 2 0x6E = 8 ∧
    byteAt (after (exec .list (ask walked 2 [(0, 0x12), (2, 4)]))) 2 0x59 = 120 := by decide +kernel

theorem test_list_end : byteAt (after (exec .list (ask walked 2 [(0, 0x12), (2, 4), (6, 121)]))) 2 0x62
      = 0 ∧
    byteAt (after (exec .list (ask walked 2 [(0, 0x12), (2, 4), (6, 121)]))) 2 0x6E = 2 := by
  decide +kernel

theorem test_read : ((after (exec .read (ask stocked 2 [(0, 0x20), (2, 1), (6, 12), (0xC, 64)]))).jobQueue.map
    fun j => (j.kind, j.port, j.params.count)) = [(.read, some 2, 64)] := by decide +kernel

/-- A READ at the record's length is out of range (R66). -/
theorem test_read_beyond : answer (after (exec .read
    (ask stocked 2 [(0, 0x20), (2, 1), (6, 12), (0xA, 40), (0xC, 1)]))) 2 = (4, 0) := by decide +kernel

def createWindow : Memory := [(0, 0x21), (2, 1), (3, 1), (4, 1), (6, 13), (0xC, 8), (0x20, 0xEE)]

theorem test_create : ((after (exec .create (ask stocked 1 createWindow))).entry ⟨1, 13⟩).map
    (fun e => (e.lifecycle, e.version, e.owner)) = some (.writing, 0, some 1) ∧
    (after (exec .create (ask stocked 1 createWindow))).reservation = 2 := by decide +kernel

theorem test_create_exists : answer (after (exec .create
    (ask stocked 1 [(0, 0x21), (2, 1), (3, 1), (4, 1), (6, 12), (0xC, 8)]))) 1 = (8, 0) := by
  decide +kernel

def writeWindow : Memory := [(0, 0x22), (2, 1), (6, 12), (0xC, 50), (0x10, 7)]

/-- Example 4.8: WRITING at version 7, reservation 2. -/
theorem test_write : ((after (exec .write (ask stocked 1 writeWindow))).entry ⟨1, 12⟩).map
    (fun e => (e.lifecycle, e.version)) = some (.writing, 7) ∧
    (after (exec .write (ask stocked 1 writeWindow))).reservation = 2 := by decide +kernel

/-- STALE: the expected version is one that no longer stands. -/
theorem test_write_stale : answer (after (exec .write
    (ask stocked 1 [(0, 0x22), (2, 1), (6, 12), (0xC, 20), (0x10, 6)]))) 1 = (0x0D, 0) := by decide +kernel

theorem test_raise : ((after (exec .raise (ask stocked 1 [(0, 0x23), (2, 1), (3, 2), (6, 12)]))).jobQueue.map
    fun j => (j.cause, j.params.level)) = [(some .raise, .owned)] := by decide +kernel

theorem test_raise_same : answer (after (exec .raise (ask stocked 1 [(0, 0x23), (2, 1), (3, 1), (6, 12)]))) 1
    = (4, 0) := by decide +kernel

theorem test_retire : ((after (exec .retire (ask stocked 3 [(0, 0x24), (2, 1), (6, 12), (0x10, 7)]))).entry
    ⟨1, 12⟩).map (·.lifecycle) = some .retiring := by decide +kernel

/-- A caller that is neither owner nor MAINTENANCE (R10). -/
theorem test_retire_protected : answer (after (exec .retire
    (ask stocked 1 [(0, 0x24), (2, 7), (5, 0xFF), (6, 0xFF)]))) 1 = (0x0B, 0) := by decide +kernel

/-- Slot 0, generation 1, base 7, lease 25 (R91). -/
theorem test_claimForUpdate : (List.range' 0x6F 7).map (byteAt (after (exec .claimForUpdate
    (ask stocked 1 [(0, 0x30), (2, 1), (6, 12)]))) 1) = [0, 1, 0, 0, 0, 7, 25] := by decide +kernel

/-- Example 5.7: a second claim is refused CLAIMED. -/
theorem test_claimForUpdate_claimed : answer (after (exec .claimForUpdate
    (ask claimed 2 [(0, 0x30), (2, 1), (6, 12)]))) 2 = (0x0A, 0) := by decide +kernel

theorem test_claimWithPreload : ((after (exec .claimWithPreload
    (ask stocked 1 [(0, 0x30), (1, 1), (2, 1), (6, 12), (0x10, 7)]))).slot 0).state = .preloading ∧
    ((after (exec .claimWithPreload
    (ask stocked 1 [(0, 0x30), (1, 1), (2, 1), (6, 12), (0x10, 7)]))).slot 0).lease = none := by
  decide +kernel

theorem test_claimWithCreate : ((after (exec .claimWithCreate
    (ask stocked 2 [(0, 0x30), (1, 2), (2, 7), (4, 1), (6, 3)]))).entry ⟨7, 3⟩).map
    (fun e => (e.lifecycle, e.claim)) = some (.forming, some ⟨0, 1⟩) := by decide +kernel

theorem test_claimWithConfig : ((after (exec (.claimWithConfig false)
    (ask stocked 0 [(0, 0x30), (1, 4)]))).slot 0).target = some .config := by decide +kernel

/-- A HOST port (R46). -/
theorem test_claimWithConfig_host : answer (after (exec (.claimWithConfig false)
    (ask stocked 1 [(0, 0x30), (1, 4)]))) 1 = (5, 0) := by decide +kernel

/-- Example 5.7: offset 64 is 0x40; 16 bytes staged beyond the staged length of 40 make it 80. -/
theorem test_stage : ((after (exec .stage (ask { claimed with now := 40 } 1
    [(0, 0x31), (7, 1), (8, 7), (0xA, 64), (0xC, 16), (0x20, 0x77)]))).slot 1).staged = 80 ∧
    ((after (exec .stage (ask { claimed with now := 40 } 1
    [(0, 0x31), (7, 1), (8, 7), (0xA, 64), (0xC, 16), (0x20, 0x77)]))).slot 1).lease = some 540 := by
  decide +kernel

/-- Another port's handle is NO_CLAIM. -/
theorem test_stage_other : answer (after (exec .stage
    (ask claimed 2 [(0, 0x31), (7, 1), (8, 7), (0xC, 4)]))) 2 = (0x0E, 0) := by decide +kernel

theorem test_fetch : byteAt (after (exec .fetch (ask claimed 1 [(0, 0x32), (7, 1), (8, 7), (0xC, 64)]))) 1
    0x20 = 0x11 ∧
    byteAt (after (exec .fetch (ask claimed 1 [(0, 0x32), (7, 1), (8, 7), (0xC, 64)]))) 1 0x6E = 40 := by
  decide +kernel

theorem test_renew : ((after (exec .renew (ask { claimed with now := 499 } 1
    [(0, 0x33), (7, 1), (8, 7)]))).slot 1).lease = some 999 := by decide +kernel

/-- After a lapse the holder's handle is CLAIM_LAPSED (example 5.7). -/
theorem test_renew_lapsed : answer (after (exec .renew (ask (after (exec (.leaseExpiry 1)
    { claimed with now := 500 })) 1 [(0, 0x33), (7, 1), (8, 7)]))) 1 = (0x0F, 0) := by decide +kernel

theorem test_commit : ((after (exec (.commit false) (ask claimed 1 [(0, 0x34), (7, 1), (8, 7)]))).jobQueue.map
    fun j => (j.cause, j.params.length, j.need)) = [(some .commitRecord, 40, 2)] ∧
    ((after (exec (.commit false) (ask claimed 1 [(0, 0x34), (7, 1), (8, 7)]))).slot 1).state =
      .committing := by decide +kernel

theorem test_abandon : ((after (exec .abandon (ask claimed 1 [(0, 0x35), (7, 1), (8, 7)]))).entry
    ⟨1, 12⟩).map (·.claim) = some none := by decide +kernel

theorem test_watch : (after (exec .watch (ask stocked 3 [(0, 0x40), (1, 8), (2, 1), (6, 9)]))).watches =
    [⟨2, 1, none, false⟩, ⟨3, 1, some 9, false⟩] := by decide +kernel

theorem test_unwatch : (after (exec .unwatch (ask stocked 2 [(0, 0x41), (2, 1)]))).watches = [] ∧
    answer (after (exec .unwatch (ask stocked 3 [(0, 0x41), (2, 1)]))) 3 = (7, 0) := by decide +kernel

/-- Example 10.5, the last taking: 1/300 UPDATED v13; overflow reported and cleared. -/
def overflowing : State := stocked.setChanges 2 ⟨[⟨⟨1, 300⟩, .updated, 13⟩], true⟩

theorem test_takeChanges : (List.range' 0x20 8).map (byteAt
    (after (exec .takeChanges (ask overflowing 2 [(0, 0x42)]))) 2) = [1, 1, 0x2C, 2, 0, 0, 0, 13] ∧
    answer (after (exec .takeChanges (ask overflowing 2 [(0, 0x42)]))) 2 = (0, 8) ∧
    (after (exec .takeChanges (ask overflowing 2 [(0, 0x42)]))).changes 2 = ⟨[], false⟩ := by
  decide +kernel

/-- P1 narrows its own rights in namespace 2 to READ and WATCH; a wider request is NOT_NARROWER. -/
def restrictWindow (rights : Byte) : Memory :=
  [(0, 0x50), (2, 2), (3, 1), (0x11, 1), (0x12, rights), (0x13, 2), (0x16, 1)]

theorem test_restrict : ((after (exec .restrict (ask stocked 1 (restrictWindow 0x11)))).effective.namespaces[2]).rights[1] =
      ⟨true, false, false, false, true⟩ ∧
    answer (after (exec .restrict (ask (after (exec .restrict (ask stocked 1 (restrictWindow 0x11)))) 1
      (restrictWindow 0x13)))) 1 = (0x15, 0) := by decide +kernel

/-- The effective image: format 1, lock OPEN, patrol period 50, refresh threshold 8, P0 MAINTENANCE. -/
theorem test_readConfig : (List.range' 0x20 6).map (byteAt
    (after (exec .readConfig (ask stocked 1 [(0, 0x51)]))) 1) = [1, 0, 50, 8, 1, 25] ∧
    answer (after (exec .readConfig (ask stocked 1 [(0, 0x51), (0x11, 1)]))) 1 = (7, 0) := by
  decide +kernel

theorem test_status : (List.range' 0x20 4).map (byteAt
    (after (exec .status (ask stocked 1 [(0, 0x60)]))) 1) = [2, 1, 2, 0] := by decide +kernel

theorem test_detach : (after (exec .detach (ask claimed 1 [(0, 0x61)]))).entry ⟨1, 12⟩ = some short ∧
    ((after (exec .detach (ask claimed 1 [(0, 0x61)]))).slot 1).state = .free := by decide +kernel

theorem test_restart : (after (exec .restart (ask stocked 0 [(0, 0x62)]))).resetCause = .restart ∧
    answer (after (exec .restart (ask stocked 1 [(0, 0x62)]))) 1 = (5, 0) := by decide +kernel

theorem test_restartDrainEnd :
    (after (exec .restartDrainEnd { stocked with restarting := some 0 })).device = .starting := by
  decide +kernel

theorem test_unknownCommandCode : answer (after (exec .unknownCommandCode (ask ready 1 [(0, 0x13)]))) 1 =
    (3, 0) := by decide +kernel

/-! ## Timers -/

/-- Example 5.7: the claim lapses at its expiry time, and not before. -/
theorem test_leaseExpiry : ((after (exec (.leaseExpiry 1) { claimed with now := 500 })).slot 1).lapsed =
      some (7, 1) ∧
    attentionCauses (after (exec (.leaseExpiry 1) { claimed with now := 500 })) 1 = 4 ∧
    ((after (exec (.leaseExpiry 1) { claimed with now := 499 })).slot 1).state = .held := by decide +kernel

theorem test_patrolTimerExpiry : (after (exec .patrolTimerExpiry
    { ready with patrolTimer := some 5000, now := 5000 })).patrolTimer = some 10000 := by decide +kernel

/-! ## The Array Engine -/

/-- A job runs, with a page operation in progress. -/
def busy (s : State) (r : RunningJob) (op : PageOperation) : State :=
  { s with engine := .running, running := some r, operation := some op }

/-- P1's WRITE of 50 bytes to key 1/12 (example 4.8). -/
def writeJob : Job :=
  ⟨.writeCopy, some 1, some (.record ⟨1, 12⟩), some .write, none,
    { length := 50, content := List.replicate 50 0 }, 2⟩

/-- The record 1/12 WRITING, its write's job queued. -/
def queued : State :=
  { stocked with
    directory := [{ short with lifecycle := .writing }, long], jobQueue := [writeJob], reservation := 2 }

/-- The job draws two pages, and the reservation count falls to 0. -/
theorem test_jobSelect : (after (exec .jobSelect queued)).inWrite = [1200, 1201] ∧
    (after (exec .jobSelect queued)).reservation = 0 ∧
    ((after (exec .jobSelect queued)).running.map (·.versionWritten)) = some (some 8) := by
  decide +kernel

/-- With an empty queue the patrol step chooses the first record (R147). -/
theorem test_jobSelect_patrol :
    (after (exec .jobSelect { stocked with patrolDue := true })).operation = some (.read 300) ∧
    (after (exec .jobSelect { stocked with patrolDue := true })).patrolCursor = some ⟨1, 12⟩ := by
  decide +kernel

/-- The write's job with its two pages drawn; `first`: the data page is programmed. -/
def writeRun (first : Bool) : RunningJob :=
  { newRun writeJob (some { short with lifecycle := .writing }) with
    versionWritten := some 8
    drawn := [⟨1200, .data .one 0, first⟩, ⟨1201, .header .one, false⟩]
    content := List.replicate 50 0 }

def dataTag : Tag := jobTag (writeRun false) .data 1 (some 0)
def dataPayload : Payload := .data (List.replicate 64 0)
def headTag : Tag := jobTag (writeRun true) .header 1 none
def headPayload : Payload := .header (headerPayload (writeRun true) .one 100)

def writingState : State :=
  { queued with
    jobQueue := [], reservation := 0, erased := List.range' 1202 58, inWrite := [1200, 1201] }

def atData : State := busy writingState (writeRun false) (.program 1200 dataTag dataPayload)
def atHeader : State := busy writingState (writeRun true) (.program 1201 headTag headPayload)

/-- The header follows its data page, with the next write sequence number (R124, R127). -/
theorem test_dataPageProgramDone :
    (after (exec (.dataPageProgramDone true) atData)).page 1200 = ⟨.holds dataTag, .holds dataPayload⟩ ∧
    (after (exec (.dataPageProgramDone true) atData)).sequenceCounter = some 101 ∧
    ((after (exec (.dataPageProgramDone true) atData)).operation.map (·.page)) = some 1201 := by
  decide +kernel

/-- A failure (R130, example 7.13): the page goes to the Erase List with the key, and the head of ERASED
takes its role. -/
theorem test_dataPageProgramDone_failed :
    (after (exec (.dataPageProgramDone false) atData)).eraseList = [(1200, some ⟨1, 12⟩)] ∧
    ((after (exec (.dataPageProgramDone false) atData)).operation.map (·.page)) = some 1202 ∧
    (after (exec (.dataPageProgramDone false) atData)).inWrite = [1201, 1202] := by decide +kernel

/-- Example 4.8: LIVE at version 8, length 50; UPDATED 1/12 version 8 to P2; P1 DONE, committed yes. -/
theorem test_commitPoint : ((after (exec .commitPoint atHeader)).entry ⟨1, 12⟩).map
      (fun e => (e.lifecycle, e.version, e.length, e.copy1)) =
      some (.live, 8, 50, some ⟨1201, [1200], true, 0⟩) ∧
    (after (exec .commitPoint atHeader)).changes 2 = ⟨[⟨⟨1, 12⟩, .updated, 8⟩], false⟩ ∧
    answer (after (exec .commitPoint atHeader)) 1 = (0, 1) := by decide +kernel

/-- The pages of version 7 stand on the Erase List with the key. -/
theorem test_commitPoint_pages : (after (exec .commitPoint atHeader)).eraseList =
      [(300, some ⟨1, 12⟩), (301, some ⟨1, 12⟩)] := by decide +kernel

theorem test_headerProgramFailure :
    (after (exec .headerProgramFailure atHeader)).eraseList = [(1201, some ⟨1, 12⟩)] ∧
    ((after (exec .headerProgramFailure atHeader)).running.map (·.failures)) = some 1 ∧
    ((after (exec .headerProgramFailure atHeader)).entry ⟨1, 12⟩).map (·.version) = some 7 := by
  decide +kernel

/-- A write of 64 bytes to the MIRRORED key 7/65535 by P2, with three of its four pages programmed. -/
def mirrorRun (header1 data2 : Bool) : RunningJob :=
  { newRun ⟨.writeCopy, some 2, some (.record ⟨7, 65535⟩), some .write, none,
      { cls := .mirrored, level := .owned, length := 64, content := List.replicate 64 0 }, 4⟩
      (some { long with lifecycle := .writing }) with
    versionWritten := some 4294967295
    phase := if header1 then .afterCommit else .beforeCommit
    drawn := [⟨1200, .data .one 0, true⟩, ⟨1201, .header .one, header1⟩, ⟨1202, .data .two 0, data2⟩,
      ⟨1203, .header .two, false⟩]
    content := List.replicate 64 0 }

def mirrorState : State :=
  { stocked with
    directory := [short, { long with lifecycle := .writing }], erased := List.range' 1204 56
    inWrite := [1200, 1201, 1202, 1203] }

def atHeader1 : State :=
  busy mirrorState (mirrorRun false false) (.program 1201 (jobTag (mirrorRun false false) .header 1 none)
    (.header (headerPayload (mirrorRun false false) .one 100)))

def atHeader2 : State :=
  busy { mirrorState with
      directory := [short, { long with
        lifecycle := .writing, version := 4294967295, length := 64
        copy1 := some ⟨1201, [1200], true, 0⟩, copy2 := none }]
      inWrite := [1202, 1203] }
    (mirrorRun true true) (.program 1203 (jobTag (mirrorRun true true) .header 2 none)
      (.header (headerPayload (mirrorRun true true) .two 101)))

theorem test_copy2Installed : ((after (exec .copy2Installed atHeader2)).entry ⟨7, 65535⟩).map
      (fun e => (e.lifecycle, e.copy2)) = some (.live, some ⟨1203, [1202], true, 0⟩) ∧
    (after (exec .copy2Installed atHeader2)).inWrite = [] ∧
    answer (after (exec .copy2Installed atHeader2)) 2 = (0, 1) := by decide +kernel

/-! ### Example 6.8: retirement of key 6/21 -/

def retired : Entry :=
  { short with key := ⟨6, 21⟩, lifecycle := .retiring, length := 30, version := 4, copy1 := some ⟨512, [513], true, 0⟩ }

def retireRun : RunningJob :=
  { newRun ⟨.retire, some 3, some (.record ⟨6, 21⟩), some .retire, none, {}, 1⟩ (some retired) with
    versionWritten := some 5, drawn := [⟨1200, .retirement, false⟩] }

def retiringState : State :=
  busy { ready with
      directory := [retired], live := [512, 513], inWrite := [1200], erased := List.range' 1201 59
      eraseList := [(300, some ⟨6, 21⟩), (301, some ⟨6, 21⟩)] }
    retireRun (.program 1200 (jobTag retireRun .retire 1 none) (.retire ⟨6, 21⟩ 5 100))

theorem test_retirementCommitPoint :
    (after (exec .retirementCommitPoint retiringState)).retirementList =
      [⟨⟨6, 21⟩, 1200, 5, 4, false⟩] ∧
    (after (exec .retirementCommitPoint retiringState)).live = [1200] ∧
    (after (exec .retirementCommitPoint retiringState)).eraseList.map Prod.fst = [300, 301, 512, 513] := by
  decide +kernel

/-- The erases that follow: count 3 after a success, and still 3 after a failure, whose page is BAD. -/
def erasing (page count : Nat) : State :=
  busy { ready with
      retirementList := [⟨⟨6, 21⟩, 1200, 5, count, false⟩], eraseList := [(page, some ⟨6, 21⟩)]
      live := [1200] }
    { newRun (backgroundJob .erase (some (.record ⟨6, 21⟩))) none with stage := .erasing } (.erase page)

theorem test_eraseComplete :
    (after (exec (.eraseComplete true) (erasing 300 4))).retirementList = [⟨⟨6, 21⟩, 1200, 5, 3, false⟩] ∧
    (after (exec (.eraseComplete false) (erasing 301 3))).retirementList =
      [⟨⟨6, 21⟩, 1200, 5, 3, false⟩] ∧
    (after (exec (.eraseComplete false) (erasing 301 3))).bad = [(301, some ⟨6, 21⟩)] := by decide +kernel

/-- Had the last erase brought the count to 0: released, its header on the Erase List, count 1. -/
theorem test_eraseComplete_release :
    (after (exec (.eraseComplete true) (erasing 513 1))).retirementList = [⟨⟨6, 21⟩, 1200, 5, 1, true⟩] ∧
    (after (exec (.eraseComplete true) (erasing 513 1))).eraseList = [(1200, some ⟨6, 21⟩)] := by
  decide +kernel

/-! ### Reads -/

/-- A READ of 64 bytes by P2, at the one data page of copy 1 of key 1/12. -/
def readRun : RunningJob :=
  { newRun ⟨.read, some 2, some (.record ⟨1, 12⟩), some .read, none, { count := 64 }, 0⟩ (some short) with
    stage := .reading .one [301] [] }

def reading : State := busy stocked readRun (.read 301)

/-- The count is trimmed to the length, 40 (R67, R69). -/
theorem test_readJobPageRead : (List.range' 0x67 8).map (byteAt
    (after (exec (.readJobPageRead ⟨.clean, .clean⟩) reading)) 2) = [0, 0, 0, 7, 0, 40, 0, 40] ∧
    answer (after (exec (.readJobPageRead ⟨.clean, .clean⟩) reading)) 2 = (0, 0) := by decide +kernel

/-- UNCORRECTABLE, SINGLE: the record is DAMAGED, and so is the answer (R18, R68). -/
theorem test_readJobPageRead_damaged :
    ((after (exec (.readJobPageRead ⟨.clean, .uncorrectable⟩) reading)).entry ⟨1, 12⟩).map (·.integrity) =
      some .damaged ∧
    answer (after (exec (.readJobPageRead ⟨.clean, .uncorrectable⟩) reading)) 2 = (0x0C, 0) := by
  decide +kernel

/-- P1's PRELOAD of key 1/12, at page `page` of copy 1. -/
def preloadRun (header : Option HeaderPayload) (left : List Nat) : RunningJob :=
  { newRun ⟨.preload, some 1, some (.record ⟨1, 12⟩), some .claimPreload, some ⟨1, 7⟩, {}, 0⟩
      (some short) with stage := .source .one header left [] }

def preloading : State :=
  { claimed with claims := claimed.claims.set 1 { heldSlot with
      state := .preloading, buffer := [], staged := 0, lease := none } }

/-- Example 5.7: HELD, the record staged, the lease running for 500 ms. -/
theorem test_copySourcePageRead :
    ((after (exec (.copySourcePageRead ⟨.clean, .clean⟩)
      (busy preloading (preloadRun (some shortHeader) [301]) (.read 301)))).slot 1).state = .held ∧
    ((after (exec (.copySourcePageRead ⟨.clean, .clean⟩)
      (busy preloading (preloadRun (some shortHeader) [301]) (.read 301)))).slot 1).lease = some 500 := by
  decide +kernel

/-! ### Example 8.5: patrol and repair of key 5/30 -/

def patrolled530 : Entry :=
  { short with
    key := ⟨5, 30⟩, cls := .mirrored, length := 64, version := 3
    copy1 := some ⟨900, [901], true, 7⟩, copy2 := some ⟨950, [951], true, 0⟩ }

def header530 (copy : Nat) (page : Nat) : HeaderPayload :=
  { shortHeader with
    key := ⟨5, 30⟩, version := 3, copyNumber := copy, cls := .mirrored, length := 64
    dataPages := [page], crc := crc32 (List.replicate 64 0) }

def cell530 (kind : TagKind) (copy : Nat) (index : Option Nat) (p : Payload) : PageCell :=
  ⟨.holds ⟨kind, ⟨5, 30⟩, 3, copy, index, some .mirrored, some .opened⟩, .holds p⟩

def shared : State :=
  { ready with
    directory := [patrolled530], live := [900, 901, 950, 951], erased := List.range' 2200 60
    sequenceCounter := some 7000
    array := [(900, cell530 .header 1 none (.header (header530 1 901))),
      (901, cell530 .data 1 (some 0) (.data (List.replicate 64 0))),
      (950, cell530 .header 2 none (.header (header530 2 951))),
      (951, cell530 .data 2 (some 0) (.data (List.replicate 64 0)))] }

def patrolRun (c : CopyNo) (header : Option HeaderPayload) (left : List Nat) : RunningJob :=
  { newRun (backgroundJob .patrol (some (.record ⟨5, 30⟩))) (some patrolled530) with
    stage := .source c header left [] }

/-- Page 901 CORRECTED: count 8, and a REFRESH entry for copy 1. -/
theorem test_patrolPageRead :
    ((after (exec (.patrolPageRead ⟨.clean, .corrected⟩)
      (busy shared (patrolRun .one (some (header530 1 901)) [901]) (.read 901)))).entry ⟨5, 30⟩).map
        (·.copy1.map (·.corrections)) = some (some 8) ∧
    (after (exec (.patrolPageRead ⟨.clean, .corrected⟩)
      (busy shared (patrolRun .one (some (header530 1 901)) [901]) (.read 901)))).repairList =
        [⟨⟨5, 30⟩, 3, .one, .refresh, false, false⟩] := by decide +kernel

/-- The repair of copy 1 with the running entry on the Repair List. -/
def repairing (cause : RepairCause) : State :=
  { shared with repairList := [⟨⟨5, 30⟩, 3, .one, cause, false, true⟩] }

def repairRun (source : CopyNo) (header : Option HeaderPayload) (left : List Nat) : RunningJob :=
  { newRun ⟨.repair, none, some (.record ⟨5, 30⟩), none, none,
      { cls := .mirrored, level := .opened, length := 64, copy := .one }, 0⟩ (some patrolled530) with
    versionWritten := some 3, stage := .source source header left [] }

/-- The refresh's source page 901 UNCORRECTABLE: DEGRADED, and a LOST entry at the job's end. -/
theorem test_repairSourcePageRead :
    (after (exec (.repairSourcePageRead ⟨.clean, .uncorrectable⟩)
      (busy (repairing .refresh) (repairRun .one (some (header530 1 901)) [901]) (.read 901)))).repairList =
        [⟨⟨5, 30⟩, 3, .one, .lost, false, false⟩] ∧
    ((after (exec (.repairSourcePageRead ⟨.clean, .uncorrectable⟩)
      (busy (repairing .refresh) (repairRun .one (some (header530 1 901)) [901]) (.read 901)))).entry
        ⟨5, 30⟩).map (·.integrity) = some .degraded := by decide +kernel

/-- The repaired copy with its header in progress; copy 1 is invalid. -/
def repairHeader : RunningJob :=
  { repairRun .two none [] with
    stage := .programming, drawn := [⟨2200, .data .one 0, true⟩, ⟨2201, .header .one, false⟩] }

def degraded530 : Entry :=
  { patrolled530 with integrity := .degraded, copy1 := some ⟨900, [901], false, 8⟩ }

def atRepairHeader : State :=
  busy { repairing .lost with
      directory := [degraded530], inWrite := [2200, 2201], erased := List.range' 2202 58 }
    repairHeader (.program 2201 (jobTag repairHeader .header 1 none)
      (.header (headerPayload repairHeader .one 7000)))

theorem test_repairPageProgramDone :
    ((after (exec (.repairPageProgramDone true) atRepairHeader)).entry ⟨5, 30⟩).map
      (fun e => (e.integrity, e.copy1)) = some (.sound, some ⟨2201, [2200], true, 0⟩) ∧
    (after (exec (.repairPageProgramDone true) atRepairHeader)).repairList = [] ∧
    (after (exec (.repairPageProgramDone true) atRepairHeader)).eraseList =
      [(900, some ⟨5, 30⟩), (901, some ⟨5, 30⟩)] := by decide +kernel

/-! ### Example 3.9: a first configuration -/

def image : List Byte := composeImage defaultConfig

def configRun (step : Nat) : RunningJob :=
  { newRun ⟨.configWrite, some 0, some .config, some .commitConfig, some ⟨0, 1⟩,
      { length := 128, content := image, copy := .one }, 0⟩ none with
    content := image, stage := .config step }

def configState : State :=
  { ready with
    claims := ready.claims.set 0 { heldSlot with
      state := .committing, generation := 1, holder := some 0, target := some .config, base := 0 }
    copyStateA := .invalid }

/-- The erases go on in ascending page order, and a failure ends the job ARRAY_FAULT. -/
theorem test_configPageOperationDone :
    (after (exec (.configPageOperationDone true) (busy configState (configRun 0) (.erase 0)))).operation =
      some (.erase 1) ∧
    answer (after (exec (.configPageOperationDone false) (busy configState (configRun 0) (.erase 0)))) 0 =
      (0x16, 0) := by decide +kernel

def atConfigHeader : State :=
  busy configState (configRun 6) (.program 0 (configTag .one none) (.config 1 1 0))

/-- VALID, 1; the stored sequence is 1; P0 DONE, committed yes. -/
theorem test_configurationCommitPoint :
    (after (exec .configurationCommitPoint atConfigHeader)).copyStateA = .valid 1 ∧
    (after (exec .configurationCommitPoint atConfigHeader)).storedSequence = 1 ∧
    answer (after (exec .configurationCommitPoint atConfigHeader)) 0 = (0, 1) := by decide +kernel

/-! ## States and operands that meet the statements' hypotheses -/

theorem witness_StepTakesFront :
    ({ ready with pending := [.lookup] } : State).pending = .lookup :: [] := rfl

/-- READY at 20 ms, slot 7 HELD with a lease that ended at 0. -/
def overdue : State := { ready.setSlot 7 { heldSlot with lease := some 0 } with now := 20 }

theorem witness_IdleStepPassesTime :
    (State.reset.pending = [] ∧ State.reset.isReady = false) ∧
    (overdue.pending = [] ∧ overdue.isReady = true ∧ leaseOverdue overdue 7 = true ∧
      (∀ j, j < 7 → leaseOverdue overdue j = false) ∧
      leaseOverdue { overdue with now := 19 } 7 = false) ∧
    (ready.pending = [] ∧ ready.isReady = true ∧ (∀ i, leaseOverdue ready i = false) ∧
      ({ ready with patrolTimer := some 0 } : State).patrolTimer = some ready.now ∧
      ∀ expiry, ({ ready with patrolTimer := some 1 } : State).patrolTimer = some expiry →
        ready.now < expiry) := by
  refine ⟨by decide +kernel, by decide +kernel, by decide +kernel, by decide +kernel,
    by decide +kernel, by decide +kernel, fun expiry h => ?_⟩
  cases h
  decide

theorem witness_EntriesToStarting :
    (off.powered = false ∧ off.resetAsserted = false ∧ off.pfwAsserted = false) ∧
    (({ ready with resetAsserted := true } : State).powered = true ∧
      ({ ready with resetAsserted := true } : State).pfwAsserted = false) ∧
    (({ stocked with restarting := some 0 } : State).isReady = true ∧
      ({ stocked with restarting := some 0 } : State).engine = .free ∧
      ({ stocked with restarting := some 0 } : State).jobQueue = [] ∧
      stocked.pfwAsserted = false) := by decide +kernel

/-- A program of the last page, and an erase of the first record page, in progress. -/
theorem witness_CutOperationLeavesAllowedPage :
    (PageArray.wf stocked.array ∧ stocked.powered = true ∧ stocked.resetAsserted = false) ∧
    ({ stocked with operation := some (.program 4095 dataTag dataPayload) } : State).operation =
      some (.program 4095 dataTag dataPayload) ∧
    ({ stocked with operation := some (.erase 8) } : State).operation = some (.erase 8) ∧
    ({ stocked with operation := some (.erase 0) } : State).operation = some (.erase 0) ∧
    ({ stocked with operation := some (.program 4 dataTag dataPayload) } : State).operation =
      some (.program 4 dataTag dataPayload) ∧ stocked.operation = none := by
  decide +kernel

theorem witness_PowerFailOutsideReady :
    State.reset.isStarting = true ∧
    (({ ready with device := .halted } : State).isReady = false ∧
      ({ ready with device := .halted } : State).isStarting = false) ∧
    (({ off with pfwAsserted := true } : State).powered = false ∧
      ({ off with pfwAsserted := true } : State).resetAsserted = false) ∧
    (({ ready with resetAsserted := true, pfwAsserted := true } : State).powered = true ∧
      ({ ready with resetAsserted := true, pfwAsserted := true } : State).resetAsserted = true) := by
  decide +kernel

/-- Page 6 of CONFIG LOAD; pages 8 and 4094 of SCAN. -/
theorem witness_StartupReadsOn :
    (State.reset.isStarting = true ∧ State.reset.startup = .configLoad [] ∧
      State.reset.operation = some (.read 0)) ∧
    (({ State.reset with operation := some (.read 6) } : State).isStarting = true) ∧
    (({ lastScanRead with operation := some (.read 8) } : State).startup = .scan records77 8813 ∧
      ({ lastScanRead with operation := some (.read 4094) } : State).isStarting = true) := by
  decide +kernel

theorem witness_ConfigLoadChoosesState :
    lastConfigRead.isStarting = true ∧
    lastConfigRead.startup = .configLoad (List.replicate 7 .erased) ∧
    lastConfigRead.operation = some (.read 7) ∧
    (∀ x ∈ List.replicate 7 PageReport.erased ++ [readCell (lastConfigRead.page 7) ⟨.clean, .clean⟩],
      x = PageReport.erased) ∧
    (∃ n, n < 8 ∧ (List.replicate 7 PageReport.erased ++ [PageReport.parts none none]).getD n .erased ≠ .erased) ∧
    configCopyFound (List.replicate 7 .erased ++ [PageReport.parts none none]) .one = none ∧
    configCopyFound (List.replicate 7 .erased ++ [PageReport.parts none none]) .two = none := by
  refine ⟨rfl, rfl, rfl, by decide +kernel, ⟨7, by decide⟩, by decide +kernel, by decide +kernel⟩

/-- The reports of configuration copy `c`, which holds the image `a ++ b` with sequence number `n`. -/
def copyReports (c : CopyNo) (a b : List Byte) (n : Nat) : List PageReport :=
  [.parts (some (configTag c none, false)) (some (.config (copyNumber c) n (crc32 (a ++ b)), false)),
    .parts (some (configTag c (some 0), false)) (some (.data a, false)),
    .parts (some (configTag c (some 1), false)) (some (.data b, false)), .erased]

/-- Only copy 1 valid; only copy 2 valid; and both, copy 2 the newer. -/
theorem witness_ConfigLoadChoosesState_valid :
    let a := image.take 64
    let b := image.drop 64
    (configCopyFound (copyReports .one a b 3 ++ List.replicate 4 .erased) .one = some (a ++ b, 3) ∧
      configCopyFound (copyReports .one a b 3 ++ List.replicate 4 .erased) .two = none) ∧
    (configCopyFound (List.replicate 4 .erased ++ copyReports .two a b 3) .two = some (a ++ b, 3) ∧
      configCopyFound (List.replicate 4 .erased ++ copyReports .two a b 3) .one = none) ∧
    (configCopyFound (copyReports .one a b 3 ++ copyReports .two a b 4) .one = some (a ++ b, 3) ∧
      configCopyFound (copyReports .one a b 3 ++ copyReports .two a b 4) .two = some (a ++ b, 4)) := by
  have hv : imageValid (image.take 64 ++ image.drop 64) = true := by decide +kernel
  generalize image.take 64 = a at *
  generalize image.drop 64 = b at *
  simp [configCopyFound, configHalf, copyReports, configBase, configTag, copyNumber, hv]

theorem witness_ScanEndsInReady : lastScanRead.isStarting = true ∧
    lastScanRead.startup = .scan records77 8813 ∧ lastScanRead.operation = some (.read 4095) ∧
    ({ lastScanRead with startup := .scan [] 4294967295 } : State).startup = .scan [] 4294967295 := by
  decide +kernel

theorem witness_RebuiltPoolsAndEntries_pools :
    ((List.range' 8 4087).map fun n => (n, ScanRecord.erased)).map Prod.fst = List.range' 8 4087 := by
  rw [List.map_map]
  exact List.map_id _

/-- The rebuilt record of this scan is DEGRADED (`test_scanPageRead_entry`). -/
theorem witness_RebuiltPoolsAndEntries : lastScanRead.isStarting = true ∧
    lastScanRead.startup = .scan records77 8813 ∧ lastScanRead.operation = some (.read 4095) := by
  decide +kernel

/-- The first and the last byte of the command and data areas, in IDLE and in QUEUED; the mask; and
locations that a host only reads. -/
theorem witness_WindowWriteByLocation : ready.active = true ∧ Memory.wf (ready.port 1).window ∧
    (∀ o : Byte, ByteAt ready 1 (.first o) o) ∧ ByteAt atGo 1 .following 0x80 ∧
    (ready.port 1).state = .idle ∧ ((ask ready 1 []).port 1).state = .queued ∧
    (0x00 : Byte).toNat < 0x60 ∧ (0x5F : Byte).toNat < 0x60 ∧ 0x60 ≤ (0x60 : Byte).toNat ∧
    0x60 ≤ (0xFF : Byte).toNat :=
  ⟨rfl, by decide +kernel, fun o => ByteAt.first _ _ o, ByteAt.following rfl, rfl, rfl, by decide⟩

/-- The first and the fourth data byte of a read from offset 255, and the end of a transaction. -/
theorem witness_WindowWriteByLocation_reads : ready.active = true ∧
    (⟨[.deselect, .select, .readAccess, .offset 0xFF]⟩ : LinkByte).before =
      [.deselect, .select, .readAccess, .offset 0xFF] ++ List.replicate 0 .dataByte ∧
    (⟨[.deselect, .select, .readAccess, .offset 0xFF, .dataByte, .dataByte, .dataByte]⟩ :
      LinkByte).before =
      [.deselect, .select, .readAccess, .offset 0xFF] ++ List.replicate 3 .dataByte ∧
    (⟨[.deselect]⟩ : LinkByte).before = [.deselect] := by decide +kernel

theorem witness_LaunchOutcomes : ByteAt atGo 1 .following 0x80 ∧ atGo.active = true ∧
    Memory.wf (atGo.port 1).window ∧ (atGo.port 1).state = .idle ∧ atGo.device = .ready ∧
    ((ask ready 1 []).port 1).state ≠ .idle ∧ (ask ready 1 []).active = true ∧
    State.reset.active = true ∧ (State.reset.port 1).state = .idle ∧ State.reset.device = .starting ∧
    ({ ready with device := .halted } : State).active = true ∧ (0x25 : Byte) ≠ 0 :=
  ⟨ByteAt.following rfl, by decide +kernel⟩

theorem witness_LinkFlagWrites : ready.active = true ∧ ByteAt ready 1 (.first 0x82) 0x82 ∧
    ByteAt ready 1 (.first 0x84) 0x84 ∧ (0x3D : Byte) ≠ 0x3C ∧ (0x3D : Byte) ≠ 0xC3 :=
  ⟨rfl, ByteAt.first _ _ _, ByteAt.first _ _ _, by decide⟩

/-! ### The Record Controller -/

theorem witness_HostsReachOwnPortOnly :
    linkPort (.launch 1 .following 0x25) = some 1 ∧
    exec (.launch 1 .following 0x25) atGo = .next (after (exec (.launch 1 .following 0x25) atGo)) ∧
    (ask stocked 0 [(0, 0x10), (2, 1), (6, 12)]).dispatchQueue = 0 :: [] ∧
    exec .lookup (ask stocked 0 [(0, 0x10), (2, 1), (6, 12)]) =
      .next (after (exec .lookup (ask stocked 0 [(0, 0x10), (2, 1), (6, 12)]))) := ⟨rfl, rfl, rfl, rfl⟩

/-- What the statements about a taking share, for a command in window `w`. -/
theorem asks {s : State} (h : MemoriesCanonical s) (h1 : s.isReady = true) (h2 : s.restarting = none)
    (p : Port) (w : Memory) (hw : Memory.wf w) :
    MemoriesCanonical (ask s p w) ∧ Taking (ask s p w) p [] (commandFields w) :=
  ⟨ask_canonical h p hw, ask_taking h1 h2 p w⟩

/-- Namespaces 1 and 7, the latter at its last item. -/
theorem witness_LookupAndDescribeReport :
    (MemoriesCanonical (ask stocked 0 [(0, 0x10), (2, 1), (6, 12)]) ∧
      Taking (ask stocked 0 [(0, 0x10), (2, 1), (6, 12)]) 0 []
        (commandFields [(0, 0x10), (2, 1), (6, 12)])) ∧
    (MemoriesCanonical (ask stocked 3 [(0, 0x11), (2, 7), (5, 0xFF), (6, 0xFF)]) ∧
      Taking (ask stocked 3 [(0, 0x11), (2, 7), (5, 0xFF), (6, 0xFF)]) 3 []
        (commandFields [(0, 0x11), (2, 7), (5, 0xFF), (6, 0xFF)])) ∧
    HoldsRight (ask stocked 0 [(0, 0x10), (2, 1), (6, 12)]) 1 0 (·.read) ∧
    HoldsRight (ask stocked 3 [(0, 0x11), (2, 7), (5, 0xFF), (6, 0xFF)]) 7 3 (·.read) ∧
    stocked.entry ⟨1, 12⟩ = some short ∧ stocked.entry ⟨7, 65535⟩ = some long ∧
    (commandFields [(0, 0x10), (2, 1), (6, 12)]).code = 0x10 ∧
    (commandFields [(0, 0x10), (2, 1), (6, 12)]).key = ⟨1, 12⟩ ∧
    (commandFields [(0, 0x11), (2, 7), (5, 0xFF), (6, 0xFF)]).key = ⟨7, 65535⟩ :=
  ⟨asks canonical_stocked rfl rfl 0 _ (by decide), asks canonical_stocked rfl rfl 3 _ (by decide),
    holds rfl (by decide) 0 rfl, holds rfl (by decide) 3 rfl, by decide +kernel⟩

theorem witness_ListReports : MemoriesCanonical (ask walked 2 [(0, 0x12), (2, 4)]) ∧
    DirectoryOrdered (ask walked 2 [(0, 0x12), (2, 4)]) ∧
    Taking (ask walked 2 [(0, 0x12), (2, 4)]) 2 [] (commandFields [(0, 0x12), (2, 4)]) ∧
    HoldsRight (ask walked 2 [(0, 0x12), (2, 4)]) 4 2 (·.read) :=
  ⟨ask_canonical ⟨by decide +kernel, by decide +kernel, by decide +kernel⟩ 2 (by decide),
    ⟨by decide +kernel, by decide +kernel⟩, ask_taking rfl rfl 2 _, holds rfl (by decide) 2 rfl⟩

theorem witness_ReadIsQueued :
    Taking (ask stocked 2 [(0, 0x20), (2, 1), (6, 12), (0xA, 39), (0xC, 1)]) 2 []
      (commandFields [(0, 0x20), (2, 1), (6, 12), (0xA, 39), (0xC, 1)]) ∧
    HoldsRight (ask stocked 2 [(0, 0x20), (2, 1), (6, 12), (0xA, 39), (0xC, 1)]) 1 2 (·.read) ∧
    (commandFields [(0, 0x20), (2, 1), (6, 12), (0xA, 39), (0xC, 1)]).offset < short.length ∧
    (commandFields [(0, 0x20), (2, 1), (6, 12), (0xA, 39), (0xC, 1)]).length = 1 ∧
    stocked.entry ⟨1, 12⟩ = some short ∧ short.version ≠ 0 ∧ short.integrity ≠ .damaged :=
  ⟨ask_taking rfl rfl 2 _, holds rfl (by decide) 2 rfl, by decide +kernel⟩

/-- The last ERASED pages: reservation 22, floor 34, need 4 make up the 60; the item is the last. -/
def lastCreate : Memory := [(0, 0x21), (2, 7), (3, 4), (4, 2), (5, 0xFF), (6, 0xFF), (0xC, 64)]

theorem witness_CreateMakesEntry :
    Taking (ask { ready with reservation := 22 } 1 lastCreate) 1 [] (commandFields lastCreate) ∧
    HoldsRight (ask { ready with reservation := 22 } 1 lastCreate) 7 1 (·.create) ∧
    namespaceEntry ready 7 = some ⟨true, false, .opened, 512, Vector.replicate 4 Rights.all⟩ ∧
    classOf (commandFields lastCreate).cls = some .mirrored ∧
    levelOf (commandFields lastCreate).level = some .permanent ∧
    (commandFields lastCreate).length = 64 ∧ ready.entry ⟨7, 65535⟩ = none ∧
    ready.directory.length < 512 ∧ namespaceCount ready 7 < 512 ∧
    22 + 34 + 2 * (1 + (64 + 63) / 64) ≤ ready.erased.length + ready.eraseList.length ∧
    ready.retirement ⟨7, 65535⟩ = none ∧ ready.sequenceCounter ≠ none :=
  ⟨ask_taking rfl rfl 1 _, holds rfl (by decide) 1 rfl, by decide +kernel⟩

/-- The MIRRORED, OWNED record's owner, P2, at the last version but one: WRITE, RAISE, RETIRE. -/
def longWrite : Memory := [(0, 0x22), (2, 7), (5, 0xFF), (6, 0xFF), (0xC, 64)]
def longRaise : Memory := [(0, 0x23), (2, 7), (3, 4), (5, 0xFF), (6, 0xFF)]
def longRetire : Memory :=
  [(0, 0x24), (2, 7), (5, 0xFF), (6, 0xFF), (0xD, 0xFF), (0xE, 0xFF), (0xF, 0xFF), (0x10, 0xFE)]

theorem witness_WriteRaiseRetireAreAccepted :
    (Taking (ask stocked 2 longWrite) 2 [] (commandFields longWrite) ∧
      HoldsRight (ask stocked 2 longWrite) 7 2 (·.write) ∧ (commandFields longWrite).code = 0x22 ∧
      (commandFields longWrite).key = ⟨7, 65535⟩) ∧
    (Taking (ask stocked 2 longRaise) 2 [] (commandFields longRaise) ∧
      HoldsRight (ask stocked 2 longRaise) 7 2 (·.write) ∧
      levelOf (commandFields longRaise).level = some .permanent) ∧
    (Taking (ask stocked 2 longRetire) 2 [] (commandFields longRetire) ∧
      HoldsRight (ask stocked 2 longRetire) 7 2 (·.retire) ∧
      (commandFields longRetire).expected = long.version) ∧
    stocked.entry ⟨7, 65535⟩ = some long ∧ long.lifecycle = .live ∧ long.claim = none ∧
    updateProtected (ask stocked 2 longWrite) 2 long = false ∧ long.owner = some 2 ∧
    long.integrity ≠ .damaged ∧ long.version < 4294967295 ∧ stocked.sequenceCounter ≠ none ∧
    stocked.reservation + 34 + 2 * (1 + (64 + 63) / 64) ≤ stocked.erased.length ∧
    ({ stocked with erased := List.range' 1200 68 } : State).erased.length =
      stocked.reservation + 34 + 2 * (1 + (long.length + 63) / 64) :=
  ⟨⟨ask_taking rfl rfl 2 _, holds rfl (by decide) 2 rfl, by decide +kernel⟩,
    ⟨ask_taking rfl rfl 2 _, holds rfl (by decide) 2 rfl, by decide +kernel⟩,
    ⟨ask_taking rfl rfl 2 _, holds rfl (by decide) 2 rfl, by decide +kernel⟩, by decide +kernel⟩

/-- Key 1/13 is absent; slot 7 was never claimed; slot 1 is P1's at generation 7. -/
theorem witness_RefusalsGiveFirstFailingCheck :
    (MemoriesCanonical (ask stocked 1 [(0, 0x10), (2, 1), (6, 13)]) ∧
      Taking (ask stocked 1 [(0, 0x10), (2, 1), (6, 13)]) 1 []
        (commandFields [(0, 0x10), (2, 1), (6, 13)])) ∧
    (HoldsRight (ask stocked 1 [(0, 0x10), (2, 1), (6, 13)]) 1 1 (·.read) ∧
      HoldsRight (ask stocked 1 [(0, 0x22), (2, 1), (6, 13), (0xC, 64)]) 1 1 (·.write) ∧
      HoldsRight (ask stocked 1 [(0, 0x24), (2, 1), (6, 13)]) 1 1 (·.retire)) ∧
    stocked.entry ⟨1, 13⟩ = none ∧
    ((commandFields [(0, 0x20), (2, 1), (6, 13), (9, 3), (0xA, 0xFF), (0xC, 1)]).offset = 1023 ∧
      (commandFields [(0, 0x22), (2, 1), (6, 13), (0xC, 64)]).length = 64 ∧
      (levelOf (commandFields [(0, 0x23), (2, 1), (3, 4), (6, 13)]).level).isSome ∧
      (commandFields [(0, 0x30), (2, 1), (6, 13)]).preload = false) ∧
    (MemoriesCanonical (ask claimed 1 [(0, 0x33), (7, 7)]) ∧
      Taking (ask claimed 1 [(0, 0x33), (7, 7)]) 1 [] (commandFields [(0, 0x33), (7, 7)])) ∧
    ((commandFields [(0, 0x33), (7, 7)]).slot = (7 : SlotNo).val ∧ (claimed.slot 7).state = .free) ∧
    ((claimed.slot 1).generation ≠ (commandFields [(0, 0x35), (7, 1), (8, 6)]).generation) ∧
    ((claimed.slot 1).holder ≠ some 2 ∧
      (commandFields [(0, 0x31), (7, 1), (8, 7), (9, 3), (0xA, 0xC0), (0xC, 64)]).offset + 64 = 1024 ∧
      (commandFields [(0, 0x34), (3, 4), (7, 1), (8, 7), (0xB, 4)]).length = 1024 ∧
      (commandFields [(0, 0x34), (3, 4), (7, 1), (8, 7), (0xB, 4)]).level = 4) ∧
    ((after (exec (.leaseExpiry 1) { claimed with now := 500 })).slot 1).lapsed = some (7, 1) :=
  ⟨asks canonical_stocked rfl rfl 1 _ (by decide),
    ⟨holds rfl (by decide) 1 rfl, holds rfl (by decide) 1 rfl, holds rfl (by decide) 1 rfl⟩,
    by decide +kernel, by decide +kernel, asks canonical_claimed rfl rfl 1 _ (by decide),
    by decide +kernel⟩

/-! ### Claims -/

def claimWindow (flags : Byte) : Memory :=
  if flags = 0 then [(0, 0x30), (2, 1), (6, 12)] else [(0, 0x30), (1, flags), (2, 1), (6, 12)]

/-- Every slot but the last is held, by P3. -/
def crowded : State :=
  { stocked with claims := (Vector.replicate 8 { heldSlot with holder := some 3 }).set 7 Slot.reset }

theorem canonical_crowded : MemoriesCanonical crowded :=
  ⟨by decide +kernel, by decide +kernel, by decide +kernel⟩

theorem witness_UpdateClaimsAreGranted :
    (MemoriesCanonical (ask crowded 1 (claimWindow 0)) ∧
      Taking (ask crowded 1 (claimWindow 0)) 1 [] (commandFields (claimWindow 0))) ∧
    HoldsRight (ask crowded 1 (claimWindow 0)) 1 1 (·.write) ∧
    HoldsRight (ask crowded 1 (claimWindow 1)) 1 1 (·.write) ∧
    LowestFree (ask crowded 1 (claimWindow 0)) 7 ∧ LowestFree (ask stocked 1 (claimWindow 1)) 0 ∧
    (claimsHeldBy (ask crowded 1 (claimWindow 0)) 1 < crowded.effective.portSettings[(1 : Port)].claimLimit ∧
      crowded.entry ⟨1, 12⟩ = some short ∧ short.lifecycle = .live ∧ short.claim = none ∧
      updateProtected (ask crowded 1 (claimWindow 0)) 1 short = false ∧ short.integrity ≠ .damaged ∧
      (commandFields (claimWindow 0)).key = ⟨1, 12⟩ ∧ (commandFields (claimWindow 0)).expected = 0 ∧
      (commandFields (claimWindow 1)).preload = true ∧ (commandFields (claimWindow 1)).create = false ∧
      (commandFields (claimWindow 1)).config = false) :=
  ⟨asks canonical_crowded rfl rfl 1 _ (by decide), holds rfl (by decide) 1 rfl,
    holds rfl (by decide) 1 rfl, ⟨by decide +kernel, by decide +kernel⟩,
    ⟨by decide +kernel, by decide +kernel⟩, by decide +kernel⟩

def createClaim : Memory := [(0, 0x30), (1, 2), (2, 7), (4, 1), (6, 3)]
def configClaim : Memory := [(0, 0x30), (1, 4)]

/-- UNCONFIGURED with P0 MAINTENANCE, and CONFIG_FAULT with the strap asserted. -/
def faulty : State := { stocked with configState := some .configFault }

theorem canonical_faulty : MemoriesCanonical faulty :=
  ⟨by decide +kernel, by decide +kernel, by decide +kernel⟩

theorem witness_CreateAndConfigClaimsAreGranted :
    (MemoriesCanonical (ask stocked 2 createClaim) ∧
      Taking (ask stocked 2 createClaim) 2 [] (commandFields createClaim)) ∧
    HoldsRight (ask stocked 2 createClaim) 7 2 (·.create) ∧
    LowestFree (ask stocked 2 createClaim) 0 ∧
    ((commandFields createClaim).create = true ∧ (commandFields createClaim).config = false ∧
      (commandFields createClaim).preload = false ∧ classOf (commandFields createClaim).cls = some .single ∧
      namespaceEntry stocked 7 = some ⟨true, false, .opened, 512, Vector.replicate 4 Rights.all⟩ ∧
      stocked.entry ⟨7, 3⟩ = none ∧ stocked.directory.length < 512 ∧ namespaceCount stocked 7 < 512 ∧
      claimsHeldBy (ask stocked 2 createClaim) 2 < stocked.effective.portSettings[(2 : Port)].claimLimit) ∧
    (MemoriesCanonical (ask faulty 0 configClaim) ∧
      Taking (ask faulty 0 configClaim) 0 [] (commandFields configClaim)) ∧
    (ConfigAllowed (ask stocked 0 configClaim) 0 false ∧ ConfigAllowed (ask faulty 0 configClaim) 0 true) ∧
    ((commandFields configClaim).config = true ∧ (commandFields configClaim).create = false ∧
      (commandFields configClaim).preload = false ∧ (commandFields configClaim).expected = 0 ∧
      (∀ j, ((ask faulty 0 configClaim).slot j).state = .free) ∧
      LowestFree (ask faulty 0 configClaim) 0 ∧
      claimsHeldBy (ask faulty 0 configClaim) 0 < faulty.effective.portSettings[(0 : Port)].claimLimit) :=
  ⟨asks canonical_stocked rfl rfl 2 _ (by decide), holds rfl (by decide) 2 rfl,
    ⟨by decide +kernel, by decide +kernel⟩, by decide +kernel,
    asks canonical_faulty rfl rfl 0 _ (by decide),
    ⟨.inl (by decide +kernel), .inr (by decide +kernel)⟩,
    by decide +kernel, by decide +kernel, by decide +kernel, by decide +kernel, by decide +kernel,
    ⟨by decide +kernel, by decide +kernel⟩, by decide +kernel⟩

/-- A handle command of P1 on slot 1; `bytes` are its further fields. -/
def handleWindow (code : Byte) (bytes : Memory) : Memory := [(0, code), (7, 1), (8, 7)] ++ bytes

theorem ask_slot (s : State) (p : Port) (w : Memory) (i : SlotNo) : (ask s p w).slot i = s.slot i := rfl

theorem current (w : Memory) (h1 : (commandFields w).slot = 1) (h2 : (commandFields w).generation = 7) :
    CurrentHandle (ask claimed 1 w) 1 (commandFields w) 1 where
  slot := h1
  claimed := by rw [ask_slot]; decide +kernel
  generation := h2.symm
  holder := by rw [ask_slot]; decide +kernel

theorem openTarget (w : Memory) : TargetOpen (ask claimed 1 w) 1 := by
  intro k h
  have hk : some (Target.record ⟨1, 12⟩) = some (.record k) := h
  cases hk
  exact ⟨⟨true, false, .opened, 512, Vector.replicate 4 Rights.all⟩,
    show namespaceEntry ready 1 = _ by decide +kernel, rfl⟩

/-- The last byte of the buffer, and the last 64. -/
theorem witness_StagingRestartsLease :
    (∀ w, Memory.wf w → MemoriesCanonical (ask claimed 1 w) ∧
      Taking (ask claimed 1 w) 1 [] (commandFields w)) ∧
    (∀ w, TargetOpen (ask claimed 1 w) 1) ∧
    CurrentHandle (ask claimed 1 (handleWindow 0x31 [(9, 3), (0xA, 0xFF), (0xC, 1)])) 1
      (commandFields (handleWindow 0x31 [(9, 3), (0xA, 0xFF), (0xC, 1)])) 1 ∧
    CurrentHandle (ask claimed 1 (handleWindow 0x32 [(9, 3), (0xA, 0xC0), (0xC, 64)])) 1
      (commandFields (handleWindow 0x32 [(9, 3), (0xA, 0xC0), (0xC, 64)])) 1 ∧
    CurrentHandle (ask claimed 1 (handleWindow 0x33 [])) 1 (commandFields (handleWindow 0x33 [])) 1 ∧
    Memory.wf (handleWindow 0x32 [(9, 3), (0xA, 0xC0), (0xC, 64)]) ∧
    (commandFields (handleWindow 0x31 [(9, 3), (0xA, 0xFF), (0xC, 1)])).offset = 1023 ∧
    (commandFields (handleWindow 0x31 [(9, 3), (0xA, 0xFF), (0xC, 1)])).length = 1 ∧
    (commandFields (handleWindow 0x32 [(9, 3), (0xA, 0xC0), (0xC, 64)])).offset + 64 = 1024 :=
  ⟨fun w hw => asks canonical_claimed rfl rfl 1 w hw, openTarget,
    current _ (by decide +kernel) (by decide +kernel), current _ (by decide +kernel) (by decide +kernel),
    current _ (by decide +kernel) (by decide +kernel), by decide +kernel⟩

/-- P2's create-claim on key 7/3, 5 bytes staged, at slot 7. -/
def formingState : State :=
  { stocked.setSlot 7 { heldSlot with
      generation := 255, holder := some 2, target := some (.record ⟨7, 3⟩), kind := some .create
      base := 0, staged := 1024 } with
    directory := [short, ⟨⟨7, 3⟩, .forming, .sound, .mirrored, .opened, some 2, 0, 0, some ⟨7, 255⟩, none,
      none⟩, long] }

theorem canonical_forming : MemoriesCanonical formingState :=
  ⟨by decide +kernel, by decide +kernel, by decide +kernel⟩

/-- P0's configuration claim at slot 0 with the image staged. -/
def configHeld : State :=
  stocked.setSlot 0 { heldSlot with
    generation := 1, holder := some 0, target := some .config, base := 0
    buffer := Memory.writeRange [] 0 image, staged := 128 }

theorem canonical_configHeld : MemoriesCanonical configHeld :=
  ⟨by decide +kernel, by decide +kernel, by decide +kernel⟩

theorem current_forming (w : Memory) (h1 : (commandFields w).slot = 7)
    (h2 : (commandFields w).generation = 255) :
    CurrentHandle (ask formingState 2 w) 2 (commandFields w) 7 where
  slot := h1
  claimed := by rw [ask_slot]; decide +kernel
  generation := h2.symm
  holder := by rw [ask_slot]; decide +kernel

theorem current_config (w : Memory) (h1 : (commandFields w).slot = 0)
    (h2 : (commandFields w).generation = 1) :
    CurrentHandle (ask configHeld 0 w) 0 (commandFields w) 0 where
  slot := h1
  claimed := by rw [ask_slot]; decide +kernel
  generation := h2.symm
  holder := by rw [ask_slot]; decide +kernel

/-- An update claim, a create-claim and a configuration claim. -/
theorem witness_AbandonReleases :
    (MemoriesCanonical (ask claimed 1 (handleWindow 0x35 [])) ∧
      Taking (ask claimed 1 (handleWindow 0x35 [])) 1 [] (commandFields (handleWindow 0x35 [])) ∧
      CurrentHandle (ask claimed 1 (handleWindow 0x35 [])) 1 (commandFields (handleWindow 0x35 [])) 1 ∧
      (claimed.entry ⟨1, 12⟩).map (·.claim) = some (some ⟨1, 7⟩)) ∧
    (MemoriesCanonical (ask formingState 2 [(0, 0x35), (7, 7), (8, 255)]) ∧
      CurrentHandle (ask formingState 2 [(0, 0x35), (7, 7), (8, 255)]) 2
        (commandFields [(0, 0x35), (7, 7), (8, 255)]) 7 ∧
      (formingState.entry ⟨7, 3⟩).map (·.claim) = some (some ⟨7, 255⟩)) ∧
    (MemoriesCanonical (ask configHeld 0 [(0, 0x35), (8, 1)]) ∧
      CurrentHandle (ask configHeld 0 [(0, 0x35), (8, 1)]) 0 (commandFields [(0, 0x35), (8, 1)]) 0 ∧
      (configHeld.slot 0).target = some .config) :=
  ⟨⟨ask_canonical canonical_claimed 1 (by decide), ask_taking rfl rfl 1 _,
      current _ (by decide +kernel) (by decide +kernel), by decide +kernel⟩,
    ⟨ask_canonical canonical_forming 2 (by decide),
      current_forming _ (by decide +kernel) (by decide +kernel), by decide +kernel⟩,
    ⟨ask_canonical canonical_configHeld 0 (by decide),
      current_config _ (by decide +kernel) (by decide +kernel), by decide +kernel⟩⟩

/-- The whole buffer of the create-claim at level PERMANENT, and the staged length of the update claim. -/
theorem witness_CommitIsAccepted :
    (Taking (ask claimed 1 (handleWindow 0x34 [])) 1 [] (commandFields (handleWindow 0x34 [])) ∧
      CurrentHandle (ask claimed 1 (handleWindow 0x34 [])) 1 (commandFields (handleWindow 0x34 [])) 1 ∧
      HoldsRight (ask claimed 1 (handleWindow 0x34 [])) 1 1 (·.write)) ∧
    (Taking (ask formingState 2 [(0, 0x34), (3, 4), (7, 7), (8, 255), (0xB, 4)]) 2 []
        (commandFields [(0, 0x34), (3, 4), (7, 7), (8, 255), (0xB, 4)]) ∧
      CurrentHandle (ask formingState 2 [(0, 0x34), (3, 4), (7, 7), (8, 255), (0xB, 4)]) 2
        (commandFields [(0, 0x34), (3, 4), (7, 7), (8, 255), (0xB, 4)]) 7 ∧
      HoldsRight (ask formingState 2 [(0, 0x34), (3, 4), (7, 7), (8, 255), (0xB, 4)]) 7 2 (·.write)) ∧
    ((claimed.slot 1).kind = some .update ∧ (claimed.slot 1).staged ≠ 0 ∧
      (claimed.entry ⟨1, 12⟩).map (·.lifecycle) = some .live ∧
      claimed.reservation + 34 + 1 * (1 + (40 + 63) / 64) ≤ claimed.erased.length ∧
      claimed.sequenceCounter ≠ none) ∧
    ((formingState.slot 7).kind = some .create ∧
      (commandFields [(0, 0x34), (3, 4), (7, 7), (8, 255), (0xB, 4)]).length = 1024 ∧
      formingState.retirement ⟨7, 3⟩ = none ∧
      ({ formingState with erased := List.range' 1200 68 } : State).erased.length =
        formingState.reservation + 34 + 2 * (1 + (1024 + 63) / 64)) :=
  ⟨⟨ask_taking rfl rfl 1 _, current _ (by decide +kernel) (by decide +kernel), holds rfl (by decide) 1 rfl⟩,
    ⟨ask_taking rfl rfl 2 _, current_forming _ (by decide +kernel) (by decide +kernel),
      holds rfl (by decide) 2 rfl⟩, by decide +kernel, by decide +kernel⟩

theorem witness_CommitIsAccepted_config :
    Taking (ask configHeld 0 [(0, 0x34), (8, 1), (0xC, 128)]) 0 []
      (commandFields [(0, 0x34), (8, 1), (0xC, 128)]) ∧
    CurrentHandle (ask configHeld 0 [(0, 0x34), (8, 1), (0xC, 128)]) 0
      (commandFields [(0, 0x34), (8, 1), (0xC, 128)]) 0 ∧
    ConfigAllowed (ask configHeld 0 [(0, 0x34), (8, 1), (0xC, 128)]) 0 false ∧
    imageValid (Memory.readRange (configHeld.slot 0).buffer 0 128) = true ∧
    (configHeld.slot 0).target = some .config ∧ (configHeld.slot 0).staged ≠ 0 ∧
    (commandFields [(0, 0x34), (8, 1), (0xC, 128)]).level = 0 ∧
    (commandFields [(0, 0x34), (8, 1), (0xC, 128)]).length = 128 ∧ configHeld.sequenceCounter ≠ none :=
  ⟨ask_taking rfl rfl 0 _, current_config _ (by decide +kernel) (by decide +kernel),
    .inl (by decide +kernel), by decide +kernel⟩

/-! ### Watches, configuration, device -/

/-- P3 adds an item watch at the last item; P2 renews and removes its namespace watch. -/
theorem witness_WatchAndUnwatch :
    (MemoriesCanonical (ask stocked 3 [(0, 0x40), (1, 8), (2, 7), (5, 0xFF), (6, 0xFF)]) ∧
      Taking (ask stocked 3 [(0, 0x40), (1, 8), (2, 7), (5, 0xFF), (6, 0xFF)]) 3 []
        (commandFields [(0, 0x40), (1, 8), (2, 7), (5, 0xFF), (6, 0xFF)])) ∧
    HoldsRight (ask stocked 3 [(0, 0x40), (1, 8), (2, 7), (5, 0xFF), (6, 0xFF)]) 7 3 (·.watch) ∧
    HoldsRight (ask stocked 2 [(0, 0x40), (1, 0x10), (2, 1)]) 1 2 (·.watch) ∧
    ((∀ w ∈ stocked.watches, ¬(w.port = 3 ∧ w.ns = 7 ∧ w.item = some 65535)) ∧
      watchesOf stocked.watches 3 < 16 ∧
      (∃ w ∈ stocked.watches, w.port = 2 ∧ w.ns = 1 ∧ w.item = none) ∧
      (commandFields [(0, 0x40), (1, 8), (2, 7), (5, 0xFF), (6, 0xFF)]).itemScope = true ∧
      (commandFields [(0, 0x40), (1, 8), (2, 7), (5, 0xFF), (6, 0xFF)]).item = 65535 ∧
      (commandFields [(0, 0x41), (2, 1)]).code = 0x41 ∧
      (commandFields [(0, 0x41), (2, 1)]).itemScope = false ∧
      namespaceEntry stocked 1 = some ⟨true, false, .opened, 512, Vector.replicate 4 Rights.all⟩) :=
  ⟨asks canonical_stocked rfl rfl 3 _ (by decide), holds rfl (by decide) 3 rfl, holds rfl (by decide) 2 rfl,
    by decide +kernel⟩

/-- Namespace 7 closed; 16 watches of P2, and 64 of the four ports. -/
def shut : State := { stocked with effective := defaultConfig }
def watchedOut (n : Nat) : State :=
  { stocked with watches := (List.range n).map fun i => ⟨⟨2 + i / 16 % 2, by omega⟩, 3, some i, false⟩ }

/-- The refusals of WATCH and UNWATCH: namespace 8, closed namespaces, 16 and 64 entries, no equal entry. -/
theorem witness_WatchAndUnwatch_refusals :
    (∀ s w, (s = stocked ∨ s = shut ∨ s = watchedOut 16 ∨ s = watchedOut 64) → Memory.wf w →
      MemoriesCanonical (ask s 2 w) ∧ Taking (ask s 2 w) 2 [] (commandFields w)) ∧
    ((commandFields [(0, 0x40), (2, 8)]).ns = 8 ∧ (commandFields [(0, 0x41), (2, 8)]).ns = 8 ∧
      (commandFields [(0, 0x40), (2, 8)]).code = 0x40 ∧ (commandFields [(0, 0x41), (2, 8)]).code = 0x41) ∧
    ¬HoldsRight (ask shut 2 [(0, 0x40), (2, 7)]) 7 2 (·.watch) ∧
    (∃ n, namespaceEntry (ask shut 2 [(0, 0x41), (2, 7)]) 7 = some n ∧ n.isOpen = false) ∧
    HoldsRight (ask (watchedOut 16) 2 [(0, 0x40)]) 0 2 (·.watch) ∧
    HoldsRight (ask (watchedOut 64) 2 [(0, 0x40)]) 0 2 (·.watch) ∧
    (watchesOf (watchedOut 16).watches 2 = 16 ∧ (watchedOut 64).watches.length = 64 ∧
      (∀ w ∈ (watchedOut 64).watches, ¬(w.port = 2 ∧ w.ns = 0 ∧ w.item = none)) ∧
      (∀ w ∈ (watchedOut 16).watches, ¬(w.port = 2 ∧ w.ns = 0 ∧ w.item = none)) ∧
      (∀ w ∈ stocked.watches, ¬(w.port = 2 ∧ w.ns = 0 ∧ w.item = none)) ∧
      namespaceEntry stocked 0 = some ⟨true, false, .opened, 512, Vector.replicate 4 Rights.all⟩) := by
  refine ⟨?_, by decide +kernel, ?_, ⟨_, rfl, by decide +kernel⟩, holds rfl (by decide) 2 rfl, holds rfl (by decide) 2 rfl,
    by decide +kernel⟩
  · rintro s w (rfl | rfl | rfl | rfl) hw
    · exact asks canonical_stocked rfl rfl 2 w hw
    · exact asks (s := shut) ⟨by decide +kernel, by decide +kernel, by decide +kernel⟩ rfl rfl 2 w hw
    · exact asks (s := watchedOut 16) ⟨by decide +kernel, by decide +kernel, by decide +kernel⟩ rfl rfl 2 w hw
    · exact asks (s := watchedOut 64) ⟨by decide +kernel, by decide +kernel, by decide +kernel⟩ rfl rfl 2 w hw
  · rintro ⟨n, hn, ho, -⟩
    have : namespaceEntry (ask shut 2 [(0, 0x40), (2, 7)]) 7 = some defaultConfig.namespaces[7] := by
      decide +kernel
    rw [this] at hn
    cases hn
    exact absurd ho (by decide +kernel)

theorem witness_TakeChangesTakesOldest :
    MemoriesCanonical (ask overflowing 2 [(0, 0x42)]) ∧
    Taking (ask overflowing 2 [(0, 0x42)]) 2 [] (commandFields [(0, 0x42)]) ∧
    (commandFields [(0, 0x42)]).code = 0x42 :=
  ⟨ask_canonical ⟨by decide +kernel, by decide +kernel, by decide +kernel⟩ 2 (by decide),
    ask_taking rfl rfl 2 _, by decide +kernel⟩

/-- P1 keeps READ and WATCH; P0 closes the namespace and takes every right from P3, to quota 0. -/
def closeWindow : Memory := [(0, 0x50), (2, 7), (3, 4), (0x11, 3), (0x15, 1)]

theorem witness_RestrictNarrows :
    (MemoriesCanonical (ask stocked 1 (restrictWindow 0x11)) ∧
      Taking (ask stocked 1 (restrictWindow 0x11)) 1 [] (commandFields (restrictWindow 0x11))) ∧
    (MemoriesCanonical (ask stocked 0 closeWindow) ∧
      Taking (ask stocked 0 closeWindow) 0 [] (commandFields closeWindow)) ∧
    (MayRestrict (ask stocked 1 (restrictWindow 0x11)) 1 (commandFields (restrictWindow 0x11))
        stocked.effective.namespaces[(2 : Fin 8)] 1 ∧
      NarrowerOrEqual (commandFields (restrictWindow 0x11)) stocked.effective.namespaces[(2 : Fin 8)] 1 ∧
      stocked.effective.namespaces[(2 : Fin 8)].isOpen = true ∧
      (commandFields (restrictWindow 0x11)).ns = (2 : Fin 8).val ∧
      (commandFields (restrictWindow 0x11)).target = (1 : Port).val ∧
      levelOf (commandFields (restrictWindow 0x11)).level = some .opened) ∧
    (MayRestrict (ask stocked 0 closeWindow) 0 (commandFields closeWindow)
        stocked.effective.namespaces[(7 : Fin 8)] 3 ∧
      NarrowerOrEqual (commandFields closeWindow) stocked.effective.namespaces[(7 : Fin 8)] 3 ∧
      (commandFields closeWindow).ns = (7 : Fin 8).val ∧
      (commandFields closeWindow).target = (3 : Port).val ∧
      levelOf (commandFields closeWindow).level = some .permanent) := by
  refine ⟨asks canonical_stocked rfl rfl 1 _ (by decide), asks canonical_stocked rfl rfl 0 _ (by decide), ?_, ?_⟩
  · exact ⟨.inr (by decide +kernel), ⟨by decide +kernel, by decide +kernel, by decide +kernel, by decide +kernel⟩,
      by decide +kernel⟩
  · exact ⟨.inl (by decide +kernel), ⟨by decide +kernel, by decide +kernel, by decide +kernel, by decide +kernel⟩,
      by decide +kernel⟩

/-- After P1 has narrowed its rights, a request that takes WRITE back is not narrower; P2 may not ask for
P1; and quota 513, level 5 and namespace 8 are out of range. -/
def narrowed : State := after (exec .restrict (ask stocked 1 (restrictWindow 0x11)))

theorem witness_RestrictNarrows_refusals :
    (MemoriesCanonical (ask narrowed 1 (restrictWindow 0x15)) ∧
      Taking (ask narrowed 1 (restrictWindow 0x15)) 1 [] (commandFields (restrictWindow 0x15))) ∧
    (MemoriesCanonical (ask stocked 2 (restrictWindow 0x11)) ∧
      Taking (ask stocked 2 (restrictWindow 0x11)) 2 [] (commandFields (restrictWindow 0x11))) ∧
    (MayRestrict (ask narrowed 1 (restrictWindow 0x15)) 1 (commandFields (restrictWindow 0x15))
        narrowed.effective.namespaces[(2 : Fin 8)] 1 ∧
      ¬NarrowerOrEqual (commandFields (restrictWindow 0x15)) narrowed.effective.namespaces[(2 : Fin 8)] 1 ∧
      narrowed.effective.namespaces[(2 : Fin 8)].isOpen = true) ∧
    ¬MayRestrict (ask stocked 2 (restrictWindow 0x11)) 2 (commandFields (restrictWindow 0x11))
        stocked.effective.namespaces[(2 : Fin 8)] 1 ∧
    shut.effective.namespaces[(7 : Fin 8)].isOpen = false ∧
    ((commandFields [(0, 0x50), (2, 8)]).code = 0x50 ∧ (commandFields [(0, 0x50), (2, 8)]).ns = 8 ∧
      (commandFields [(0, 0x50), (0x13, 2), (0x14, 1)]).quota = 513 ∧
      levelOf (commandFields [(0, 0x50), (3, 5)]).level = none) := by
  refine ⟨asks (s := narrowed) ⟨by decide +kernel, by decide +kernel, by decide +kernel⟩ (by decide +kernel)
      (by decide +kernel) 1 _ (by decide), asks canonical_stocked rfl rfl 2 _ (by decide),
    ⟨.inr (by decide +kernel), ?_, by decide +kernel⟩, ?_, by decide +kernel, by decide +kernel⟩
  · intro h
    exact absurd (h.1 2 (by decide) (by decide +kernel)) (by decide +kernel)
  · rintro (h | h)
    · exact absurd h (by decide +kernel)
    · exact absurd h.1 (by decide)

theorem witness_ReadConfigStatusAndUnknownCode :
    (∀ w, Memory.wf w → MemoriesCanonical (ask stocked 1 w) ∧
      Taking (ask stocked 1 w) 1 [] (commandFields w)) ∧
    ((commandFields [(0, 0x51), (0xA, 64)]).code = 0x51 ∧
      (commandFields [(0, 0x51), (0xA, 64)]).offset = 64 ∧ (commandFields [(0, 0x51), (0xA, 64)]).target = 0 ∧
      (commandFields [(0, 0x51), (0x11, 1)]).offset = 0 ∧ (commandFields [(0, 0x51), (0x11, 1)]).target = 1 ∧
      stocked.storedImage = none ∧
      ({ stocked with storedImage := some image } : State).storedImage = some image) ∧
    (commandFields [(0, 0x60)]).code = 0x60 ∧
    (commandFields [(0, 0x0F)]).code ∉ [0x10, 0x11, 0x12, 0x20, 0x21, 0x22, 0x23, 0x24, 0x30, 0x31, 0x32,
      0x33, 0x34, 0x35, 0x40, 0x41, 0x42, 0x50, 0x51, 0x60, 0x61, 0x62] :=
  ⟨fun w hw => asks canonical_stocked rfl rfl 1 w hw, by decide +kernel⟩

/-- An update claim and a create-claim in progress, each named by its entry's claim field. -/
theorem heldClaims :
    ((claimed.slot 1).state = .held ∧ (claimed.slot 1).target = some (.record ⟨1, 12⟩) ∧
      claimed.entry ⟨1, 12⟩ = some { short with claim := some ⟨1, (claimed.slot 1).generation⟩ }) ∧
    ((formingState.slot 7).state = .held ∧ (formingState.slot 7).target = some (.record ⟨7, 3⟩) ∧
      (formingState.slot 7).kind = some .create ∧
      formingState.entry ⟨7, 3⟩ = some ⟨⟨7, 3⟩, .forming, .sound, .mirrored, .opened, some 2, 0, 0,
        some ⟨7, (formingState.slot 7).generation⟩, none, none⟩) := by decide +kernel

/-- `heldClaims`: P1's update claim, and P2's create-claim. -/
theorem witness_DetachGivesUpClaimsAndWatches :
    (MemoriesCanonical (ask claimed 1 [(0, 0x61)]) ∧
      Taking (ask claimed 1 [(0, 0x61)]) 1 [] (commandFields [(0, 0x61)])) ∧
    (MemoriesCanonical (ask formingState 2 [(0, 0x61)]) ∧
      Taking (ask formingState 2 [(0, 0x61)]) 2 [] (commandFields [(0, 0x61)])) ∧
    (commandFields [(0, 0x61)]).code = 0x61 ∧ (claimed.slot 1).holder = some 1 ∧
    (formingState.slot 7).holder = some 2 :=
  ⟨asks canonical_claimed rfl rfl 1 _ (by decide), asks canonical_forming rfl rfl 2 _ (by decide),
    by decide +kernel⟩

/-- `heldClaims`, and a command that waits. -/
theorem witness_PowerFailHaltsReady :
    (MemoriesCanonical (ask claimed 1 [(0, 0x60)]) ∧ (ask claimed 1 [(0, 0x60)]).isReady = true ∧
      (ask claimed 1 [(0, 0x60)]).dispatchQueue = [1]) ∧
    MemoriesCanonical formingState ∧ formingState.isReady = true :=
  ⟨⟨ask_canonical canonical_claimed 1 (by decide +kernel), rfl, rfl⟩, canonical_forming, rfl⟩

theorem witness_RestartDrainsOrStarts :
    (∀ p, MemoriesCanonical (ask stocked p [(0, 0x62)]) ∧
      Taking (ask stocked p [(0, 0x62)]) p [] (commandFields [(0, 0x62)])) ∧
    (commandFields [(0, 0x62)]).code = 0x62 ∧ stocked.pfwAsserted = false ∧
    isMaintenance (ask stocked 1 [(0, 0x62)]) 1 = false ∧
    isMaintenance (ask stocked 0 [(0, 0x62)]) 0 = true ∧ stocked.engine = .free ∧
    stocked.jobQueue = [] ∧ queued.jobQueue ≠ [] :=
  ⟨fun p => asks canonical_stocked rfl rfl p _ (by decide), by decide +kernel⟩

/-- A record claim, a create-claim and a configuration claim. -/
theorem witness_TimersExpire :
    (claimed.isReady = true ∧ (claimed.slot 1).state = .held ∧ (claimed.slot 1).lease = some 500 ∧
      (claimed.slot 1).holder = some 1 ∧ (claimed.entry ⟨1, 12⟩).map (·.claim) = some (some ⟨1, 7⟩)) ∧
    ((formingState.slot 7).lease = some 500 ∧ (formingState.slot 7).holder = some 2 ∧
      (formingState.entry ⟨7, 3⟩).map (·.lifecycle) = some .forming) ∧
    ((configHeld.slot 0).lease = some 500 ∧ (configHeld.slot 0).target = some .config) ∧
    (({ claimed with now := 500 } : State).now = 500 ∧ ({ claimed with now := 499 } : State).now < 500) ∧
    (({ ready with patrolTimer := some 5000, now := 5000 } : State).patrolTimer = some 5000 ∧
      ready.effective.patrolPeriod ≠ 0) := by decide +kernel

/-! ### The Array Engine -/

theorem witness_EngineEventsFrame :
    exec .jobSelect queued = .next (after (exec .jobSelect queued)) ∧
    exec .commitPoint atHeader = .next (after (exec .commitPoint atHeader)) := ⟨rfl, rfl⟩

theorem witness_JobSelectOrder :
    (queued.isReady = true ∧ queued.engine = .free ∧ queued.jobQueue = writeJob :: []) ∧
    (({ stocked with restarting := some 0 } : State).restarting.isSome = true ∧ stocked.jobQueue = []) ∧
    (({ stocked with eraseList := [(4095, none)] } : State).eraseList = (4095, none) :: [] ∧
      stocked.repairList = [] ∧ stocked.restarting = none) ∧ stocked.patrolDue = false := by decide +kernel

/-- Key 5/30 with a Repair List entry for copy 1; its pages are exactly those left. -/
def repairDue (cause : RepairCause) (version : Nat) (superseded : Bool) : State :=
  { shared with
    repairList := [⟨⟨5, 30⟩, version, .one, cause, superseded, false⟩], erased := [2200, 2201, 2202]
    reservation := 1 }

/-- A LOST and a REFRESH entry; entries superseded, of another version, and of a DAMAGED and an absent
record. -/
theorem witness_JobSelectOrder_repair :
    ((repairDue .lost 3 false).isReady = true ∧ (repairDue .lost 3 false).engine = .free ∧
      (repairDue .lost 3 false).jobQueue = [] ∧ (repairDue .lost 3 false).restarting = none ∧
      (repairDue .lost 3 false).repairList = ⟨⟨5, 30⟩, 3, .one, .lost, false, false⟩ :: [] ∧
      (repairDue .lost 3 false).entry ⟨5, 30⟩ = some patrolled530 ∧
      patrolled530.copy .two = some ⟨950, [951], true, 0⟩ ∧
      (repairDue .refresh 3 false).repairList = ⟨⟨5, 30⟩, 3, .one, .refresh, false, false⟩ :: [] ∧
      patrolled530.copy .one = some ⟨900, [901], true, 7⟩ ∧
      (repairDue .lost 3 false).reservation + (1 + (patrolled530.length + 63) / 64) =
        (repairDue .lost 3 false).erased.length + (repairDue .lost 3 false).eraseList.length) ∧
    ((repairDue .lost 3 true).repairList = ⟨⟨5, 30⟩, 3, .one, .lost, true, false⟩ :: [] ∧
      (repairDue .lost 2 false).repairList = ⟨⟨5, 30⟩, 2, .one, .lost, false, false⟩ :: [] ∧
      ({ repairDue .lost 3 false with
        directory := [{ patrolled530 with integrity := .damaged }] } : State).entry ⟨5, 30⟩ =
        some { patrolled530 with integrity := .damaged } ∧
      ({ repairDue .lost 3 false with directory := [] } : State).entry ⟨5, 30⟩ = none) := by
  decide +kernel

/-- An entry that waits for its pages, and one that waits for pages reserved. -/
theorem witness_JobSelectOrder_noRepair :
    NoRepair stocked ∧ NoRepair { repairDue .lost 3 false with erased := [2200, 2201] } ∧
    NoRepair { repairDue .lost 3 true with erased := [] } :=
  ⟨.inl rfl, .inr (.inr ⟨_, [], patrolled530, rfl, by decide +kernel⟩), .inr (.inl (by decide +kernel))⟩

/-- A due patrol step: from an absent cursor, past a record, around the end, and to a record whose copy 1 is
not valid; and one that finds every record passed over. -/
def patrolDue (cursor : Option Key) : State := { stocked with patrolDue := true, patrolCursor := cursor }

theorem witness_JobSelectOrder_patrol :
    (DirectoryOrdered (patrolDue none) ∧ (patrolDue none).isReady = true ∧
      (patrolDue none).engine = .free ∧ (patrolDue none).jobQueue = [] ∧
      (patrolDue none).restarting = none ∧ NoRepair (patrolDue none) ∧ (patrolDue none).eraseList = []) ∧
    PatrolNext (patrolDue none) short ∧ PatrolNext (patrolDue (some ⟨1, 12⟩)) long ∧
    PatrolNext (patrolDue (some ⟨7, 65535⟩)) short ∧
    PatrolNext { shared with directory := [degraded530] } degraded530 ∧
    (degraded530.copy .two = some ⟨950, [951], true, 0⟩ ∧ degraded530.copyValid .one = false) ∧
    (∀ e ∈ ({ stocked with directory := [{ short with integrity := .damaged }] } : State).directory,
      ¬Visited e) := by
  refine ⟨⟨⟨by decide +kernel, by decide +kernel⟩, rfl, rfl, rfl, rfl, .inl rfl, rfl⟩,
    ⟨by decide +kernel, ⟨rfl, by decide⟩, .inr ⟨(fun _ h => by cases h), ?_⟩⟩,
    ⟨by decide +kernel, ⟨rfl, by decide⟩, .inl ⟨_, rfl, by decide +kernel, ?_⟩⟩,
    ⟨by decide +kernel, ⟨rfl, by decide⟩, .inr ⟨fun c h => ?_, ?_⟩⟩,
    ⟨by decide +kernel, ⟨rfl, by decide⟩, .inr ⟨(fun _ h => by cases h), ?_⟩⟩, by decide +kernel, ?_⟩
  · unfold Visited; decide +kernel
  · unfold Visited; decide +kernel
  · cases h
    unfold Visited; decide +kernel
  · unfold Visited; decide +kernel
  · unfold Visited; decide +kernel
  · unfold Visited; decide +kernel

/-- A READ job of P2: all of key 1/12, or its last byte; an absent key; a DAMAGED record. -/
def readJob (k : Key) (offset : Nat) : Job :=
  ⟨.read, some 2, some (.record k), some .read, none, { offset := offset, count := 64 }, 0⟩

def readQueued (k : Key) (offset : Nat) : State :=
  { stocked with
    directory := [{ short with key := ⟨1, 5⟩, integrity := .damaged }, short, long]
    jobQueue := [readJob k offset] }

theorem witness_ReadJobStarts :
    (∀ k offset, MemoriesCanonical (readQueued k offset) ∧ (readQueued k offset).isReady = true ∧
      (readQueued k offset).engine = .free ∧
      (readQueued k offset).jobQueue = readJob k offset :: []) ∧
    ((readQueued ⟨1, 12⟩ 39).entry ⟨1, 12⟩ = some short ∧ 39 < short.length ∧
      ([301].drop (39 / 64)).take ((39 + min 64 (short.length - 39) - 1) / 64 - 39 / 64 + 1) = 301 :: []) ∧
    (readQueued ⟨1, 13⟩ 0).entry ⟨1, 13⟩ = none ∧
    ((readQueued ⟨1, 5⟩ 0).entry ⟨1, 5⟩).map (·.integrity) = some .damaged :=
  ⟨fun _ _ => ⟨⟨canonical_stocked.array, canonical_stocked.windows, canonical_stocked.buffers⟩, rfl, rfl, rfl⟩,
    by decide +kernel⟩

theorem witness_WriteJobDrawsPages :
    queued.isReady = true ∧ queued.engine = .free ∧ queued.jobQueue = writeJob :: [] ∧
    writeJob.cause ≠ some .raise ∧
    queued.entry ⟨1, 12⟩ = some { short with lifecycle := .writing } ∧
    1 * (1 + (writeJob.params.length + 63) / 64) = 2 ∧ queued.erased.take 2 = 1200 :: [1201] ∧
    2 ≤ queued.erased.length := by decide +kernel

/-- The last page of a READ with three Retirement List entries: due for release, due for removal, neither. -/
def settling : State :=
  { reading with
    retirementList := [⟨⟨6, 21⟩, 1300, 5, 0, false⟩, ⟨⟨6, 22⟩, 1301, 5, 0, true⟩,
      ⟨⟨6, 23⟩, 1302, 5, 1, false⟩]
    live := 1300 :: 1302 :: reading.live }

theorem witness_JobEndSettlesRetirements :
    settling.isReady = true ∧ settling.running = some readRun ∧ readRun.job.kind = .read ∧
    exec (.readJobPageRead ⟨.clean, .clean⟩) settling =
      .next (after (exec (.readJobPageRead ⟨.clean, .clean⟩) settling)) ∧
    (after (exec (.readJobPageRead ⟨.clean, .clean⟩) settling)).isReady = true ∧
    (after (exec (.readJobPageRead ⟨.clean, .clean⟩) settling)).running = none ∧
    (⟨⟨6, 21⟩, 1300, 5, 0, false⟩ : RetirementEntry) ∈ settling.retirementList ∧
    (⟨⟨6, 22⟩, 1301, 5, 0, true⟩ : RetirementEntry) ∈ settling.retirementList :=
  ⟨rfl, rfl, rfl, rfl, by decide +kernel⟩

/-- The one page of a READ, and the first of two. -/
theorem witness_ReadJobReturnsBytes :
    MemoriesCanonical reading ∧
    (reading.isReady = true ∧ reading.running = some readRun ∧ readRun.job.kind = .read ∧
      readRun.job.port = some 2 ∧ readRun.stage = .reading .one (301 :: []) [] ∧
      readRun.entry = some short ∧ reading.operation = some (.read 301) ∧
      reading.page 301 = ⟨.holds (shortTag .data (some 0)), .holds (.data shortBytes)⟩) ∧
    (busy stocked { readRun with stage := .reading .one [301, 302] [] } (.read 301)).running =
      some { readRun with stage := .reading .one [301, 302] [] } :=
  ⟨⟨by decide +kernel, by decide +kernel, by decide +kernel⟩, by decide +kernel⟩

/-- P2's READ of key 5/30, at the data page of copy 1 or 2. -/
def readShared (c : CopyNo) (page : Nat) : RunningJob :=
  { newRun ⟨.read, some 2, some (.record ⟨5, 30⟩), some .read, none, { count := 64 }, 0⟩
      (some patrolled530) with stage := .reading c [page] [] }

/-- A page CORRECTED below and at the refresh threshold; an UNCORRECTABLE page of copy 1 with copy 2 to go
to, of copy 2, and of a SINGLE record. -/
theorem witness_ReadJobReturnsBytes_faults :
    ((busy stocked { readRun with stage := .reading .one [301, 302] [] } (.read 301)).entry ⟨1, 12⟩ =
        some short ∧ short.copy .one = some ⟨300, [301], true, 0⟩ ∧
      stocked.effective.refreshThreshold = 8) ∧
    (MemoriesCanonical (busy shared (readShared .one 901) (.read 901)) ∧
      (busy shared (readShared .one 901) (.read 901)).running = some (readShared .one 901) ∧
      shared.entry ⟨5, 30⟩ = some patrolled530 ∧ shared.page 901 ≠ PageCell.blank ∧
      patrolled530.copy .one = some ⟨900, [901], true, 7⟩ ∧
      patrolled530.copy2 = some ⟨950, [951], true, 0⟩ ∧
      ([951].drop (0 / 64)).take ((0 + min 64 (patrolled530.length - 0) - 1) / 64 - 0 / 64 + 1) =
        951 :: []) ∧
    (shared.page 951 ≠ PageCell.blank ∧ stocked.page 301 ≠ PageCell.blank ∧ short.cls = .single) :=
  ⟨by decide +kernel, ⟨⟨by decide +kernel, by decide +kernel, by decide +kernel⟩, by decide +kernel⟩,
    by decide +kernel⟩

/-- A RAISE's source read of key 1/12. -/
def raiseRun : RunningJob :=
  { newRun { writeJob with cause := some .raise } (some { short with lifecycle := .writing }) with
    stage := .source .one none [300, 301] [] }

/-- A PRELOAD, a RAISE, a REPAIR and a patrol step at their header pages. -/
theorem witness_SourceReadGoesOn :
    Sourcing (busy preloading (preloadRun none [300, 301]) (.read 300)) (preloadRun none [300, 301])
      { short with claim := some ⟨1, 7⟩ } ⟨300, [301], true, 0⟩ .one none 300 [301] [] ∧
    Sourcing (busy queued raiseRun (.read 300)) raiseRun
      { short with lifecycle := .writing } ⟨300, [301], true, 0⟩ .one none 300 [301] [] ∧
    Sourcing (busy (repairing .refresh) (repairRun .two none [950, 951]) (.read 950))
      (repairRun .two none [950, 951]) patrolled530 ⟨950, [951], true, 0⟩ .two none 950 [951] [] ∧
    Sourcing (busy shared (patrolRun .one none [900, 901]) (.read 900)) (patrolRun .one none [900, 901])
      patrolled530 ⟨900, [901], true, 7⟩ .one none 900 [901] [] ∧
    queued.page 300 = ⟨.holds (shortTag .header none), .holds (.header shortHeader)⟩ ∧
    shortHeader.key = short.key ∧ shortHeader.version = short.version ∧
    shortHeader.copyNumber = copyNumber .one ∧ shortHeader.dataPages = [301] ∧
    (header530 2 951).copyNumber = copyNumber .two ∧ (header530 1 901).dataPages = [901] :=
  ⟨⟨rfl, rfl, rfl, by decide +kernel, rfl, rfl⟩, ⟨rfl, rfl, rfl, by decide +kernel, rfl, rfl⟩,
    ⟨rfl, rfl, rfl, by decide +kernel, rfl, rfl⟩, ⟨rfl, rfl, rfl, by decide +kernel, rfl, rfl⟩,
    by decide +kernel, rfl, rfl, rfl, rfl, rfl, rfl⟩

theorem witness_SourceReadGoesOn_end :
    MemoriesCanonical (busy preloading (preloadRun (some shortHeader) [301]) (.read 301)) ∧
    Sourcing (busy preloading (preloadRun (some shortHeader) [301]) (.read 301))
      (preloadRun (some shortHeader) [301]) { short with claim := some ⟨1, 7⟩ } ⟨300, [301], true, 0⟩ .one
      (some shortHeader) 301 [] [] ∧
    (preloadRun (some shortHeader) [301]).job.handle = some ⟨1, 7⟩ ∧
    preloading.page 301 = ⟨.holds (shortTag .data (some 0)), .holds (.data shortBytes)⟩ ∧
    crc32 (([] ++ shortBytes).take short.length) = shortHeader.crc :=
  ⟨⟨by decide +kernel, by decide +kernel, by decide +kernel⟩,
    ⟨rfl, rfl, rfl, by decide +kernel, rfl, rfl⟩, rfl, by decide +kernel, rfl⟩

/-- P1's RAISE of key 5/30, at the header page of copy 1. -/
def raiseShared : RunningJob :=
  { newRun { writeJob with target := some (.record ⟨5, 30⟩), cause := some .raise } (some patrolled530) with
    stage := .source .one none [900, 901] [] }

/-- A PRELOAD, a RAISE and a REPAIR at a header page, a RAISE with copy 2 to go to, and a PRELOAD at its last
page, whose header gives another CRC. -/
theorem witness_SourceReadFails :
    (MemoriesCanonical (busy preloading (preloadRun none [300, 301]) (.read 300)) ∧
      Sourcing (busy preloading (preloadRun none [300, 301]) (.read 300)) (preloadRun none [300, 301])
        { short with claim := some ⟨1, 7⟩ } ⟨300, [301], true, 0⟩ .one none 300 [301] []) ∧
    (MemoriesCanonical (busy queued raiseRun (.read 300)) ∧
      Sourcing (busy queued raiseRun (.read 300)) raiseRun
        { short with lifecycle := .writing } ⟨300, [301], true, 0⟩ .one none 300 [301] []) ∧
    (MemoriesCanonical (busy shared raiseShared (.read 900)) ∧
      Sourcing (busy shared raiseShared (.read 900)) raiseShared patrolled530 ⟨900, [901], true, 7⟩ .one
        none 900 [901] [] ∧ patrolled530.copy2 = some ⟨950, [951], true, 0⟩) ∧
    (MemoriesCanonical (busy (repairing .refresh) (repairRun .two none [950, 951]) (.read 950)) ∧
      Sourcing (busy (repairing .refresh) (repairRun .two none [950, 951]) (.read 950))
        (repairRun .two none [950, 951]) patrolled530 ⟨950, [951], true, 0⟩ .two none 950 [951] []) ∧
    (MemoriesCanonical (busy preloading (preloadRun (some { shortHeader with crc := 0 }) [301]) (.read 301)) ∧
      Sourcing (busy preloading (preloadRun (some { shortHeader with crc := 0 }) [301]) (.read 301))
        (preloadRun (some { shortHeader with crc := 0 }) [301]) { short with claim := some ⟨1, 7⟩ }
        ⟨300, [301], true, 0⟩ .one (some { shortHeader with crc := 0 }) 301 [] []) :=
  ⟨⟨⟨by decide +kernel, by decide +kernel, by decide +kernel⟩, ⟨rfl, rfl, rfl, by decide +kernel, rfl, rfl⟩⟩,
    ⟨⟨by decide +kernel, by decide +kernel, by decide +kernel⟩, ⟨rfl, rfl, rfl, by decide +kernel, rfl, rfl⟩⟩,
    ⟨⟨by decide +kernel, by decide +kernel, by decide +kernel⟩, ⟨rfl, rfl, rfl, by decide +kernel, rfl, rfl⟩, rfl⟩,
    ⟨⟨by decide +kernel, by decide +kernel, by decide +kernel⟩, ⟨rfl, rfl, rfl, by decide +kernel, rfl, rfl⟩⟩,
    ⟨⟨by decide +kernel, by decide +kernel, by decide +kernel⟩, ⟨rfl, rfl, rfl, by decide +kernel, rfl, rfl⟩⟩⟩

/-- An UNCORRECTABLE page, a header of another version, and the wrong CRC of the PRELOAD above. -/
theorem witness_SourceReadFails_pages :
    SourceFails shared patrolled530 ⟨900, [901], true, 7⟩ .one none 900 [901] [] ⟨.clean, .uncorrectable⟩ ∧
    SourceFails shared { patrolled530 with version := 4 } ⟨900, [901], true, 7⟩ .one none 900 [901] []
      ⟨.clean, .clean⟩ ∧
    SourceFails preloading { short with claim := some ⟨1, 7⟩ } ⟨300, [301], true, 0⟩ .one
      (some { shortHeader with crc := 0 }) 301 [] [] ⟨.clean, .clean⟩ :=
  ⟨.inl (by decide +kernel),
    .inr (.inl ⟨⟨.header, ⟨5, 30⟩, 3, 1, none, some .mirrored, some .opened⟩, header530 1 901, by decide +kernel, rfl, rfl, by decide +kernel⟩),
    .inr (.inr ⟨shortTag .data (some 0), shortBytes, { shortHeader with crc := 0 }, by decide +kernel, rfl, rfl, rfl,
      by decide +kernel⟩)⟩

/-- Key 5/30 with a second data page in copy 1 and `corrections` corrections. -/
def twoPages (corrections : Nat) : Entry :=
  { patrolled530 with length := 100, copy1 := some ⟨900, [901, 902], true, corrections⟩ }

def twoPageState (corrections : Nat) : State :=
  busy { shared with directory := [twoPages corrections] }
    (patrolRun .one (some (header530 1 901)) [901, 902]) (.read 901)

/-- The last page of copy 2, and the first data page of copy 1 below, at and beyond the threshold. -/
theorem witness_PatrolReportsCopies :
    Sourcing (busy shared (patrolRun .two (some (header530 2 951)) [951]) (.read 951))
      (patrolRun .two (some (header530 2 951)) [951]) patrolled530 ⟨950, [951], true, 0⟩ .two
      (some (header530 2 951)) 951 [] [] ∧
    shared.page 951 ≠ PageCell.blank ∧
    Sourcing (twoPageState 6) (patrolRun .one (some (header530 1 901)) [901, 902]) (twoPages 6)
      ⟨900, [901, 902], true, 6⟩ .one (some (header530 1 901)) 901 [902] [] ∧
    Sourcing (twoPageState 7) (patrolRun .one (some (header530 1 901)) [901, 902]) (twoPages 7)
      ⟨900, [901, 902], true, 7⟩ .one (some (header530 1 901)) 901 [902] [] ∧
    Sourcing (twoPageState 255) (patrolRun .one (some (header530 1 901)) [901, 902]) (twoPages 255)
      ⟨900, [901, 902], true, 255⟩ .one (some (header530 1 901)) 901 [902] [] ∧
    shared.page 901 = cell530 .data 1 (some 0) (.data (List.replicate 64 0)) ∧
    shared.effective.refreshThreshold = 8 :=
  ⟨⟨rfl, rfl, rfl, by decide +kernel, rfl, rfl⟩, by decide +kernel,
    ⟨rfl, rfl, rfl, by decide +kernel, rfl, rfl⟩, ⟨rfl, rfl, rfl, by decide +kernel, rfl, rfl⟩,
    ⟨rfl, rfl, rfl, by decide +kernel, rfl, rfl⟩, by decide +kernel, by decide +kernel⟩

theorem programming_atData : Programming atData (writeRun false) ⟨1200, .data .one 0, false⟩ dataTag
    dataPayload := ⟨rfl, rfl, rfl, by decide +kernel, rfl⟩

theorem programming_atHeader : Programming atHeader (writeRun true) ⟨1201, .header .one, false⟩ headTag
    headPayload := ⟨rfl, rfl, rfl, by decide +kernel, rfl⟩

theorem programming_atRepairHeader : Programming atRepairHeader repairHeader ⟨2201, .header .one, false⟩
    (jobTag repairHeader .header 1 none) (.header (headerPayload repairHeader .one 7000)) :=
  ⟨rfl, rfl, rfl, by decide +kernel, rfl⟩

theorem programming_retire : Programming retiringState retireRun ⟨1200, .retirement, false⟩
    (jobTag retireRun .retire 1 none) (.retire ⟨6, 21⟩ 5 100) :=
  ⟨rfl, rfl, rfl, by decide +kernel, rfl⟩

/-- A write with two data pages, at the first; a repair at its data page. -/
def twoRun : RunningJob :=
  { writeRun false with
    drawn := [⟨1200, .data .one 0, false⟩, ⟨1201, .data .one 1, false⟩, ⟨1202, .header .one, false⟩] }

def repairData : RunningJob :=
  { repairHeader with drawn := [⟨2200, .data .one 0, false⟩, ⟨2201, .header .one, false⟩] }

theorem witness_ProgramGoesOn :
    Programming atData (writeRun false) ⟨1200, .data .one 0, false⟩ dataTag dataPayload ∧
    PageArray.wf atData.array ∧ (writeRun false).job.kind = .writeCopy ∧
    currentPage (markProgrammed (writeRun false) ⟨1200, .data .one 0, false⟩) =
      some ⟨1201, .header .one, false⟩ ∧ atData.sequenceCounter = some 100 ∧
    Programming (busy writingState twoRun (.program 1200 dataTag dataPayload)) twoRun
      ⟨1200, .data .one 0, false⟩ dataTag dataPayload ∧
    currentPage (markProgrammed twoRun ⟨1200, .data .one 0, false⟩) = some ⟨1201, .data .one 1, false⟩ ∧
    Programming (busy (repairing .lost) repairData (.program 2200 dataTag dataPayload)) repairData
      ⟨2200, .data .one 0, false⟩ dataTag dataPayload ∧
    currentPage (markProgrammed repairData ⟨2200, .data .one 0, false⟩) =
      some ⟨2201, .header .one, false⟩ ∧ (repairing .lost).sequenceCounter = some 7000 ∧
    PageArray.wf (repairing .lost).array :=
  ⟨programming_atData, by decide +kernel, rfl, by decide +kernel, rfl,
    ⟨rfl, rfl, rfl, by decide +kernel, rfl⟩, by decide +kernel, ⟨rfl, rfl, rfl, by decide +kernel, rfl⟩,
    by decide +kernel, rfl, by decide +kernel⟩

/-- The four failures before the third, and the third failure of the write. -/
theorem witness_ProgramFailures :
    Programming atData (writeRun false) ⟨1200, .data .one 0, false⟩ dataTag dataPayload ∧
    Programming atHeader (writeRun true) ⟨1201, .header .one, false⟩ headTag headPayload ∧
    Programming retiringState retireRun ⟨1200, .retirement, false⟩ (jobTag retireRun .retire 1 none)
      (.retire ⟨6, 21⟩ 5 100) ∧
    Programming atRepairHeader repairHeader ⟨2201, .header .one, false⟩
      (jobTag repairHeader .header 1 none) (.header (headerPayload repairHeader .one 7000)) ∧
    (atData.erased = 1202 :: List.range' 1203 57 ∧ retiringState.erased = 1201 :: List.range' 1202 58 ∧
      atRepairHeader.erased = 2202 :: List.range' 2203 57) ∧
    (atData.sequenceCounter ≠ none ∧ retiringState.sequenceCounter ≠ none ∧
      atRepairHeader.sequenceCounter ≠ none) ∧
    MemoriesCanonical (busy writingState { writeRun false with failures := 2 }
      (.program 1200 dataTag dataPayload)) ∧
    Programming (busy writingState { writeRun false with failures := 2 } (.program 1200 dataTag dataPayload))
      { writeRun false with failures := 2 } ⟨1200, .data .one 0, false⟩ dataTag dataPayload ∧
    (writeRun false).phase = .beforeCommit ∧ (writeRun false).job.handle = none ∧
    writingState.entry ⟨1, 12⟩ = some { short with lifecycle := .writing } :=
  ⟨programming_atData, programming_atHeader, programming_retire, programming_atRepairHeader,
    by decide +kernel, by decide +kernel, ⟨by decide +kernel, by decide +kernel, by decide +kernel⟩,
    ⟨rfl, rfl, rfl, by decide +kernel, rfl⟩, by decide +kernel⟩

/-- A repair's data page before the third failure; and the third failures of a retirement, of copy 2's header
and data pages, and of a repair. -/
def retireThird : State := busy retiringState { retireRun with failures := 2 }
  (.program 1200 (jobTag retireRun .retire 1 none) (.retire ⟨6, 21⟩ 5 100))

def copy2Third (data : Bool) : State :=
  busy atHeader2 { mirrorRun true data with failures := 2 }
    (.program (if data then 1203 else 1202) dataTag dataPayload)

def repairThird : State := busy (repairing .lost) { repairData with failures := 2 }
  (.program 2200 dataTag dataPayload)

theorem witness_ProgramFailures_third :
    Programming (busy (repairing .lost) repairData (.program 2200 dataTag dataPayload)) repairData
      ⟨2200, .data .one 0, false⟩ dataTag dataPayload ∧
    (MemoriesCanonical retireThird ∧
      Programming retireThird { retireRun with failures := 2 } ⟨1200, .retirement, false⟩
        (jobTag retireRun .retire 1 none) (.retire ⟨6, 21⟩ 5 100) ∧
      retireRun.phase = .beforeCommit ∧ retireRun.job.port = some 3 ∧ retireRun.job.handle = none ∧
      retiringState.entry ⟨6, 21⟩ = some retired) ∧
    ((∀ b, MemoriesCanonical (copy2Third b)) ∧
      Programming (copy2Third true) { mirrorRun true true with failures := 2 }
        ⟨1203, .header .two, false⟩ dataTag dataPayload ∧
      Programming (copy2Third false) { mirrorRun true false with failures := 2 }
        ⟨1202, .data .two 0, false⟩ dataTag dataPayload ∧
      (mirrorRun true true).phase = .afterCommit ∧ (mirrorRun true true).job.cause = some .write ∧
      (mirrorRun true true).versionWritten = some 4294967295 ∧
      (atHeader2.entry ⟨7, 65535⟩).isSome) ∧
    Programming repairThird { repairData with failures := 2 } ⟨2200, .data .one 0, false⟩ dataTag
      dataPayload :=
  ⟨⟨rfl, rfl, rfl, by decide +kernel, rfl⟩,
    ⟨⟨by decide +kernel, by decide +kernel, by decide +kernel⟩, ⟨rfl, rfl, rfl, by decide +kernel, rfl⟩,
      by decide +kernel⟩,
    ⟨by intro b; cases b <;> exact ⟨by decide +kernel, by decide +kernel, by decide +kernel⟩,
      ⟨rfl, rfl, rfl, by decide +kernel, rfl⟩, ⟨rfl, rfl, rfl, by decide +kernel, rfl⟩, by decide +kernel⟩,
    ⟨rfl, rfl, rfl, by decide +kernel, rfl⟩⟩

/-- A SINGLE record's, and a MIRRORED one's. -/
theorem witness_CommitPointInstallsVersion :
    Programming atHeader (writeRun true) ⟨1201, .header .one, false⟩ headTag headPayload ∧
    PageArray.wf atHeader.array ∧ (writeRun true).job.handle = none ∧
    (writeRun true).versionWritten = some 8 ∧ (writeRun true).cls = .single ∧
    atHeader.entry ⟨1, 12⟩ = some { short with lifecycle := .writing } ∧
    Programming atHeader1 (mirrorRun false false) ⟨1201, .header .one, false⟩
      (jobTag (mirrorRun false false) .header 1 none)
      (.header (headerPayload (mirrorRun false false) .one 100)) ∧
    PageArray.wf atHeader1.array ∧ (mirrorRun false false).cls = .mirrored ∧
    atHeader1.entry ⟨7, 65535⟩ = some { long with lifecycle := .writing } ∧
    currentPage (markProgrammed (mirrorRun false false) ⟨1201, .header .one, false⟩) =
      some ⟨1202, .data .two 0, false⟩ :=
  ⟨programming_atHeader, by decide +kernel, rfl, rfl, rfl, by decide +kernel,
    ⟨rfl, rfl, rfl, by decide +kernel, rfl⟩, by decide +kernel, rfl, by decide +kernel, by decide +kernel⟩

/-- The write of `atHeader` as the COMMIT of the claim of slot 1. -/
def commitRun : RunningJob :=
  { writeRun true with job := { writeJob with cause := some .commitRecord, handle := some ⟨1, 7⟩ } }

def committing : State :=
  busy { writingState.setSlot 1 { heldSlot with state := .committing, lease := none } with
      directory := [{ short with lifecycle := .writing, claim := some ⟨1, 7⟩ }, long] }
    commitRun (.program 1201 headTag headPayload)

theorem witness_WriteAndCommitEndDone :
    MemoriesCanonical atHeader ∧
    Programming atHeader (writeRun true) ⟨1201, .header .one, false⟩ headTag headPayload ∧
    MemoriesCanonical atHeader2 ∧
    Programming atHeader2 (mirrorRun true true) ⟨1203, .header .two, false⟩
      (jobTag (mirrorRun true true) .header 2 none)
      (.header (headerPayload (mirrorRun true true) .two 101)) ∧
    (atHeader2.entry ⟨7, 65535⟩).isSome ∧
    MemoriesCanonical committing ∧
    Programming committing commitRun ⟨1201, .header .one, false⟩ headTag headPayload ∧
    (committing.entry ⟨1, 12⟩ = some { short with lifecycle := .writing, claim := some ⟨1, 7⟩ } ∧
      (committing.slot 1).generation = 7 ∧ (committing.slot 1).target = some (.record ⟨1, 12⟩) ∧
      commitRun.job.handle = some ⟨1, 7⟩ ∧ commitRun.cls = .single) :=
  ⟨⟨by decide +kernel, by decide +kernel, by decide +kernel⟩, programming_atHeader,
    ⟨by decide +kernel, by decide +kernel, by decide +kernel⟩, ⟨rfl, rfl, rfl, by decide +kernel, rfl⟩,
    by decide +kernel, ⟨by decide +kernel, by decide +kernel, by decide +kernel⟩,
    ⟨rfl, rfl, rfl, by decide +kernel, rfl⟩, by decide +kernel⟩

theorem witness_RetirementRemovesRecord :
    MemoriesCanonical retiringState ∧
    Programming retiringState retireRun ⟨1200, .retirement, false⟩ (jobTag retireRun .retire 1 none)
      (.retire ⟨6, 21⟩ 5 100) ∧
    retiringState.entry ⟨6, 21⟩ = some retired ∧ retireRun.versionWritten = some 5 ∧
    retireRun.job.port = some 3 ∧ retireRun.job.cause = some .retire ∧ entryPages retired ≠ [] :=
  ⟨⟨by decide +kernel, by decide +kernel, by decide +kernel⟩, programming_retire, by decide +kernel, rfl,
    rfl, rfl, by decide⟩

theorem witness_RepairInstallsCopy :
    Programming atRepairHeader repairHeader ⟨2201, .header .one, false⟩
      (jobTag repairHeader .header 1 none) (.header (headerPayload repairHeader .one 7000)) ∧
    PageArray.wf atRepairHeader.array ∧ repairHeader.job.kind = .repair ∧
    repairHeader.job.params.copy = .one ∧ atRepairHeader.entry ⟨5, 30⟩ = some degraded530 ∧
    degraded530.cls = .mirrored ∧
    currentPage (markProgrammed repairHeader ⟨2201, .header .one, false⟩) = none :=
  ⟨programming_atRepairHeader, by decide +kernel, rfl, rfl, by decide +kernel, rfl, by decide +kernel⟩

theorem witness_ErasesMovePages : PageArray.wf (erasing 4095 1).array ∧
    (erasing 4095 1).isReady = true ∧ (erasing 4095 1).operation = some (.erase 4095) ∧
    ((erasing 4095 1).running.map (·.stage)) = some .erasing ∧
    (erasing 4095 1).eraseList = (4095, some ⟨6, 21⟩) :: [] := by decide +kernel

/-- The write of `queued` in a draw of its two pages, the head of the Erase List being erased. -/
def drawRun (role : Option PageRole) : RunningJob :=
  { writeRun false with
    drawn := if role.isSome then (writeRun false).drawn else []
    stage := .drawing (if role.isSome then 1 else 2) role }

def drawing (role : Option PageRole) (erased : List Nat) (rest : List (Nat × Option Key)) : State :=
  busy { queued with jobQueue := [], erased := erased, eraseList := (4095, some ⟨6, 21⟩) :: rest }
    (drawRun role) (.erase 4095)

/-- A write and a retirement with too few pages; a draw that needs another erase, one that has enough, a
replacement, and one with nothing left to erase. -/
theorem witness_ErasesMovePages_draws :
    (queued.entry ⟨1, 12⟩ = some { short with lifecycle := .writing } ∧
      ({ queued with erased := [1200], eraseList := [(300, none)] } : State).erased.length <
        1 * (1 + (writeJob.params.length + 63) / 64) ∧
      ({ queued with jobQueue := [{ retireRun.job with target := some (.record ⟨1, 12⟩) }] } :
        State).jobQueue = { retireRun.job with target := some (.record ⟨1, 12⟩) } :: []) ∧
    (∀ role erased rest, PageArray.wf (drawing role erased rest).array ∧
      (drawing role erased rest).isReady = true ∧
      (drawing role erased rest).running = some (drawRun role) ∧
      (drawing role erased rest).operation = some (.erase 4095) ∧
      (drawing role erased rest).sequenceCounter ≠ none) ∧
    ((drawRun none).stage = .drawing 2 none ∧ (drawRun (some (.data .one 0))).stage =
        .drawing 1 (some (.data .one 0)) ∧
      2 = (allocationRoles (drawRun none)).length ∧
      currentPage (drawRun (some (.data .one 0))) = some ⟨1200, .data .one 0, false⟩) ∧
    (MemoriesCanonical (drawing none [] []) ∧ (drawing none [] []).erased.length < 2 ∧
      (drawRun none).phase = .beforeCommit ∧ (drawRun none).job.cause = some .write ∧
      (drawing none [] []).entry ⟨1, 12⟩ = some { short with lifecycle := .writing }) :=
  ⟨by decide +kernel,
    fun _ _ _ => ⟨canonical_stocked.array, rfl, rfl, rfl, fun h => by cases h⟩, by decide +kernel,
    ⟨⟨by decide +kernel, by decide +kernel, by decide +kernel⟩, by decide +kernel⟩⟩

/-- The first and the last erase, the two data programs and the header. -/
theorem witness_ConfigWriteRuns :
    (∀ step op, MemoriesCanonical (busy configState (configRun step) op) ∧
      (busy configState (configRun step) op).isReady = true ∧
      (busy configState (configRun step) op).running = some (configRun step) ∧
      (busy configState (configRun step) op).operation = some op ∧
      (configRun step).stage = .config step ∧ (configRun step).job.kind = .configWrite ∧
      (configRun step).job.target = some .config ∧ (configRun step).job.cause = some .commitConfig ∧
      (configRun step).job.port = some 0 ∧ (configRun step).job.handle = some ⟨0, 1⟩) ∧
    configState.sequenceCounter = some 1 ∧
    ({ configState with sequenceCounter := none } : State).sequenceCounter = none ∧
    MemoriesCanonical atConfigHeader ∧
    atConfigHeader.operation = some (.program 0 (configTag .one none) (.config 1 1 0)) ∧
    (atConfigHeader.slot 0).target = some .config := by
  have h : MemoriesCanonical configState := ⟨by decide +kernel, by decide +kernel, by decide +kernel⟩
  have h' : ∀ step op, MemoriesCanonical (busy configState (configRun step) op) := fun _ _ =>
    ⟨h.array, h.windows, h.buffers⟩
  exact ⟨fun step op => ⟨h' step op, rfl, rfl, rfl, rfl, rfl, rfl, rfl, rfl, rfl⟩, by decide +kernel, rfl,
    h' _ _, rfl, by decide +kernel⟩

/-! ### Whole-machine rules and invariants -/

theorem witness_EffectiveAndArrayChangeOnlyAt :
    (after (exec .restrict (ask stocked 0 closeWindow))).effective ≠
      (ask stocked 0 closeWindow).effective ∧
    (after (exec .commitPoint atHeader)).array ≠ atHeader.array := by decide +kernel

/-- The states of these tests meet the invariants: in READY with a claim, and with a job and its port. -/
theorem witness_invariants_claimed : MemoriesCanonical claimed ∧ DirectoryOrdered claimed ∧
    PortLaw claimed ∧ EngineLaw claimed ∧ LeaseLaw claimed :=
  ⟨canonical_claimed, ⟨by decide +kernel, by decide +kernel⟩,
    ⟨by decide +kernel, by decide +kernel, by decide +kernel⟩, ⟨by decide +kernel, by decide +kernel⟩,
    by decide +kernel, fun _ => by
      intro i hi
      have : i = 1 := by revert i; decide +kernel
      subst this
      exact ⟨500, rfl, by decide +kernel⟩⟩

/-- The write's state with its port ACTIVE. -/
def working : State := atHeader.setPort 1 { atHeader.port 1 with state := .active }

theorem witness_StepKeepsMemoriesCanonical : MemoriesCanonical claimed ∧
    step { claimed with pending := [.leaseExpiry 1] } =
      .next (after (step { claimed with pending := [.leaseExpiry 1] })) := ⟨canonical_claimed, rfl⟩

theorem witness_StepKeepsDirectoryOrdered :
    DirectoryOrdered { claimed with pending := [.leaseExpiry 1], now := 500 } ∧
    step { claimed with pending := [.leaseExpiry 1], now := 500 } =
      .next (after (step { claimed with pending := [.leaseExpiry 1], now := 500 })) :=
  ⟨⟨by decide +kernel, by decide +kernel⟩, rfl⟩

theorem witness_StepKeepsPortLaw : PortLaw { working with pending := [.commitPoint] } ∧
    step { working with pending := [.commitPoint] } =
      .next (after (step { working with pending := [.commitPoint] })) :=
  ⟨⟨by decide +kernel, by decide +kernel, by decide +kernel⟩, rfl⟩

theorem witness_StepKeepsEngineLaw : EngineLaw { working with pending := [.commitPoint] } ∧
    step { working with pending := [.commitPoint] } =
      .next (after (step { working with pending := [.commitPoint] })) :=
  ⟨⟨by decide +kernel, by decide +kernel⟩, rfl⟩

theorem witness_StepKeepsLeaseLaw : LeaseLaw claimed ∧
    step claimed = .next (after (step claimed)) := ⟨witness_invariants_claimed.2.2.2.2, rfl⟩

/-- READY with every page of the record area in a pool and the write of key 1/12 at its header. -/
def pooledRun : RunningJob :=
  { writeRun true with drawn := [⟨300, .data .one 0, true⟩, ⟨301, .header .one, false⟩] }

def pooled : State :=
  busy { ready with
      directory := [{ short with lifecycle := .writing, copy1 := some ⟨302, [303], true, 0⟩ }]
      erased := List.range' 8 292, inWrite := [300, 301], live := [302, 303]
      bad := (List.range' 304 3792).map fun n => (n, none) }
    pooledRun (.program 301 headTag headPayload)

theorem pools_pooled : PoolLaw pooled where
  scanning h := absurd h (by decide +kernel)
  pools _ := by
    refine List.Perm.of_eq ?_
    show List.range' 8 292 ++ List.range' 300 2 ++ List.range' 302 2 ++ [] ++
      ((List.range' 304 3792).map fun n => (n, (none : Option Key))).map Prod.fst = _
    rw [List.map_map, show Prod.fst ∘ (fun n : Nat => (n, (none : Option Key))) = id from rfl, List.map_id,
      List.append_nil, List.range'_append_1, List.range'_append_1, List.range'_append_1]
  named _ := by decide +kernel
  job _ r hr := by
    cases hr
    exact ⟨⟨by decide +kernel, by decide +kernel⟩, by decide +kernel, by decide +kernel⟩

theorem witness_StepKeepsClaimLaw : DirectoryOrdered { claimed with pending := [.leaseExpiry 1] } ∧
    ClaimLaw { claimed with pending := [.leaseExpiry 1] } ∧
    step { claimed with pending := [.leaseExpiry 1] } =
      .next (after (step { claimed with pending := [.leaseExpiry 1] })) := by
  refine ⟨⟨by decide +kernel, by decide +kernel⟩, fun e he h hc => ?_, rfl⟩
  have hm : e = { short with claim := some ⟨1, 7⟩ } ∨ e = long := by
    simpa [claimed] using he
  rcases hm with rfl | rfl
  · cases hc
    decide +kernel
  · cases hc

/-- P2's watch, and a Change Set with one entry. -/
theorem witness_StepKeepsWatchLaw : WatchLaw { overflowing with pending := [.commitPoint] } ∧
    step { overflowing with pending := [.commitPoint] } =
      .next (after (step { overflowing with pending := [.commitPoint] })) :=
  ⟨⟨by decide +kernel, by decide +kernel, by decide +kernel, by decide +kernel⟩, rfl⟩

theorem witness_StepKeepsPoolLaw : DirectoryOrdered { pooled with pending := [.commitPoint] } ∧
    PoolLaw { pooled with pending := [.commitPoint] } ∧
    step { pooled with pending := [.commitPoint] } =
      .next (after (step { pooled with pending := [.commitPoint] })) :=
  ⟨⟨by decide +kernel, by decide +kernel⟩,
    ⟨pools_pooled.scanning, pools_pooled.pools, pools_pooled.named, pools_pooled.job⟩, rfl⟩

/-! ### Refusals -/

/-- `stocked` with another entry of key 1/12. -/
def shortAs (e : Entry) : State := { stocked with directory := [e, long] }

/-- Key 1/12: a READ of its last byte and of the byte after it, and P1's WRITE, RAISE and RETIRE. -/
def readAt (offset : Byte) : Memory := [(0, 0x20), (2, 1), (6, 12), (0xA, offset), (0xC, 1)]
def writeAt (expected : Byte) : Memory := [(0, 0x22), (2, 1), (6, 12), (0xC, 64), (0x10, expected)]
def raiseTo (level : Byte) : Memory := [(0, 0x23), (2, 1), (3, level), (6, 12)]
def retireAt (expected : Byte) : Memory := [(0, 0x24), (2, 1), (6, 12), (0x10, expected)]

/-- Namespace 8; a closed namespace; a READ at the record's length, of version 0, and of a DAMAGED record. -/
theorem witness_RefusalsGiveFirstFailingCheck_reads :
    FirstFailing (reportRefusals (ask stocked 1 [(0, 0x10), (2, 8)]) 1 (commandFields [(0, 0x10), (2, 8)]))
      .badParam ∧
    FirstFailing ((reportRefusals (ask shut 2 [(0, 0x12), (2, 7)]) 2
      (commandFields [(0, 0x12), (2, 7)])).take 2) .noRight ∧
    FirstFailing (readRefusals (ask stocked 2 (readAt 40)) 2 (commandFields (readAt 40))) .badParam ∧
    FirstFailing (readRefusals (ask formingState 2 [(0, 0x20), (2, 7), (6, 3), (0xC, 64)]) 2
      (commandFields [(0, 0x20), (2, 7), (6, 3), (0xC, 64)])) .notFound ∧
    FirstFailing (readRefusals (ask (shortAs { short with integrity := .damaged }) 2 (readAt 39)) 2
      (commandFields (readAt 39))) .damaged :=
  ⟨reportChecks_iff.mpr (by decide +kernel), listChecks_iff.mpr (by decide +kernel),
    readChecks_iff.mpr (by decide +kernel), readChecks_iff.mpr (by decide +kernel),
    readChecks_iff.mpr (by decide +kernel)⟩

/-- WRITING; claimed; OWNED by another; expected 6, not 7; one page too few; the last version. -/
theorem witness_RefusalsGiveFirstFailingCheck_writes :
    FirstFailing (writeRefusals (ask queued 1 (writeAt 6)) 1 (commandFields (writeAt 6))) .busyRecord ∧
    FirstFailing (writeRefusals (ask claimed 1 (writeAt 6)) 1 (commandFields (writeAt 6))) .claimed ∧
    FirstFailing (writeRefusals (ask (shortAs { short with level := .owned }) 1 (writeAt 6)) 1
      (commandFields (writeAt 6))) .levelProtected ∧
    FirstFailing (writeRefusals (ask stocked 1 (writeAt 6)) 1 (commandFields (writeAt 6))) .stale ∧
    FirstFailing (writeRefusals (ask { stocked with reservation := 25 } 1 (writeAt 7)) 1
      (commandFields (writeAt 7))) .noSpace ∧
    FirstFailing (writeRefusals (ask (shortAs { short with version := 4294967295 }) 1 (writeAt 0)) 1
      (commandFields (writeAt 0))) .exhausted :=
  ⟨writeChecks_iff.mpr (by decide +kernel), writeChecks_iff.mpr (by decide +kernel),
    writeChecks_iff.mpr (by decide +kernel), writeChecks_iff.mpr (by decide +kernel),
    writeChecks_iff.mpr (by decide +kernel), writeChecks_iff.mpr (by decide +kernel)⟩

/-- A RAISE to the level that stands, to level 5, of a DAMAGED record, of another's FROZEN one; a RETIRE of a
PERMANENT record, of an absent one, and with one page too few. -/
theorem witness_RefusalsGiveFirstFailingCheck_raises :
    FirstFailing (raiseRefusals (ask stocked 1 (raiseTo 1)) 1 (commandFields (raiseTo 1))) .badParam ∧
    FirstFailing (raiseRefusals (ask stocked 1 (raiseTo 5)) 1 (commandFields (raiseTo 5))) .badParam ∧
    FirstFailing (raiseRefusals (ask (shortAs { short with integrity := .damaged }) 1 (raiseTo 2)) 1
      (commandFields (raiseTo 2))) .damaged ∧
    FirstFailing (raiseRefusals (ask (shortAs { short with level := .frozen }) 1 (raiseTo 4)) 1
      (commandFields (raiseTo 4))) .levelProtected ∧
    FirstFailing (retireRefusals (ask (shortAs { short with level := .permanent }) 0 (retireAt 7)) 0
      (commandFields (retireAt 7))) .levelProtected ∧
    FirstFailing (retireRefusals (ask { stocked with directory := [long] } 1 (retireAt 7)) 1
      (commandFields (retireAt 7))) .notFound ∧
    FirstFailing (retireRefusals (ask { stocked with reservation := 26 } 1 (retireAt 7)) 1
      (commandFields (retireAt 7))) .noSpace :=
  ⟨raiseChecks_iff.mpr (by decide +kernel), raiseChecks_iff.mpr (by decide +kernel),
    raiseChecks_iff.mpr (by decide +kernel), raiseChecks_iff.mpr (by decide +kernel),
    retireChecks_iff.mpr (by decide +kernel), retireChecks_iff.mpr (by decide +kernel),
    retireChecks_iff.mpr (by decide +kernel)⟩

/-- P1's CREATE of 64 bytes under key 7/3, and the quota of namespace 7 at 1, which key 7/65535 takes. -/
def createSmall : Memory := [(0, 0x21), (2, 7), (3, 1), (4, 1), (6, 3), (0xC, 64)]
def quotaOne : State :=
  { stocked with effective := { stocked.effective with
      namespaces := Vector.replicate 8 ⟨true, false, .opened, 1, Vector.replicate 4 Rights.all⟩ } }

/-- A CREATE under a key in FORMING, beyond the quota, in a full directory, with one page too few, and above the
last retired version; a CLAIM with CREATE beyond the quota, and with PRELOAD. -/
theorem witness_RefusalsGiveFirstFailingCheck_creates :
    FirstFailing (createRefusals (ask formingState 1 createSmall) 1 (commandFields createSmall)) .keyExists ∧
    FirstFailing (createRefusals (ask quotaOne 1 createSmall) 1 (commandFields createSmall)) .quotaFull ∧
    FirstFailing (createRefusals (ask { stocked with directory := List.replicate 512 short } 1 createSmall) 1
      (commandFields createSmall)) .directoryFull ∧
    FirstFailing (createRefusals (ask { stocked with reservation := 25 } 1 createSmall) 1
      (commandFields createSmall)) .noSpace ∧
    FirstFailing (createRefusals
      (ask { stocked with retirementList := [⟨⟨7, 3⟩, 300, 4294967295, 1, false⟩] } 1 createSmall) 1
      (commandFields createSmall)) .exhausted ∧
    FirstFailing (createClaimRefusals (ask quotaOne 2 createClaim) 2 (commandFields createClaim)) .quotaFull ∧
    FirstFailing (createClaimRefusals (ask stocked 2 [(0, 0x30), (1, 3), (4, 1)]) 2
      (commandFields [(0, 0x30), (1, 3), (4, 1)])) .badParam :=
  ⟨createChecks_iff.mpr (by decide +kernel), createChecks_iff.mpr (by decide +kernel),
    createChecks_iff.mpr (by decide +kernel), createChecks_iff.mpr (by decide +kernel),
    createChecks_iff.mpr (by decide +kernel), createClaimChecks_iff.mpr (by decide +kernel),
    createClaimChecks_iff.mpr (by decide +kernel)⟩

/-- An update claim on a DAMAGED record with PRELOAD, and at the port's limit; a configuration claim of a HOST,
of a MAINTENANCE port without the strap in CONFIG_FAULT, under a locked stored image, beside another, and on
another stored sequence. -/
theorem witness_RefusalsGiveFirstFailingCheck_claims :
    FirstFailing (updateClaimRefusals (ask (shortAs { short with integrity := .damaged }) 1 (claimWindow 1)) 1
      (commandFields (claimWindow 1))) .damaged ∧
    FirstFailing (updateClaimRefusals
      (ask { crowded with claims := Vector.replicate 8 heldSlot } 2 (claimWindow 0)) 2
      (commandFields (claimWindow 0))) .claimsFull ∧
    FirstFailing (updateClaimRefusals (ask crowded 3 (claimWindow 0)) 3 (commandFields (claimWindow 0)))
      .claimsFull ∧
    FirstFailing (configClaimRefusals (ask stocked 1 configClaim) 1 (commandFields configClaim) true) .noRight ∧
    FirstFailing (configClaimRefusals (ask faulty 0 configClaim) 0 (commandFields configClaim) false) .noRight ∧
    FirstFailing (configClaimRefusals (ask { stocked with storedImage := some [0, 1] } 0 configClaim) 0
      (commandFields configClaim) true) .locked ∧
    FirstFailing (configClaimRefusals (ask configHeld 0 configClaim) 0 (commandFields configClaim) false)
      .claimed ∧
    FirstFailing (configClaimRefusals (ask stocked 0 [(0, 0x30), (1, 4), (0x10, 1)]) 0
      (commandFields [(0, 0x30), (1, 4), (0x10, 1)]) false) .stale :=
  ⟨updateClaimChecks_iff.mpr (by decide +kernel), updateClaimChecks_iff.mpr (by decide +kernel),
    updateClaimChecks_iff.mpr (by decide +kernel), configClaimChecks_iff.mpr (by decide +kernel),
    configClaimChecks_iff.mpr (by decide +kernel), configClaimChecks_iff.mpr (by decide +kernel),
    configClaimChecks_iff.mpr (by decide +kernel), configClaimChecks_iff.mpr (by decide +kernel)⟩

/-- A STAGE that ends one byte after the buffer, on a closed namespace, and on a lapsed handle; RENEW and ABANDON
of slot 8; COMMIT with no current handle, of 1025 bytes. -/
theorem witness_RefusalsGiveFirstFailingCheck_handles :
    FirstFailing (stagingRefusals (ask claimed 1 (handleWindow 0x31 [(9, 3), (0xA, 0xC1), (0xC, 64)])) 1
      (commandFields (handleWindow 0x31 [(9, 3), (0xA, 0xC1), (0xC, 64)]))) .badParam ∧
    FirstFailing (stagingRefusals
      (ask { claimed with effective := defaultConfig } 1 (handleWindow 0x32 [(9, 3), (0xA, 0xC0), (0xC, 64)])) 1
      (commandFields (handleWindow 0x32 [(9, 3), (0xA, 0xC0), (0xC, 64)]))) .noRight ∧
    FirstFailing (stagingRefusals
      (ask (claimed.setSlot 1 { heldSlot with state := .free, lapsed := some (7, 1) }) 1
        (handleWindow 0x31 [(0xC, 1)])) 1
      (commandFields (handleWindow 0x31 [(0xC, 1)]))) .claimLapsed ∧
    (∀ s p w, (commandFields w).slot = 8 →
      FirstFailing ((.badParam, 7 < (commandFields w).slot) :: targetRefusals s p (commandFields w) ++
        handleRefusals s p (commandFields w)) .badParam ∧
      FirstFailing ((.badParam, 7 < (commandFields w).slot) :: handleRefusals s p (commandFields w)) .badParam ∧
      (∀ i, ¬CurrentHandle s p (commandFields w) i)) ∧
    (commandFields [(0, 0x33), (7, 8)]).slot = 8 :=
  ⟨stagingChecks_iff.mpr (by decide +kernel), stagingChecks_iff.mpr (by decide +kernel),
    stagingChecks_iff.mpr (by decide +kernel),
    fun _ _ _ h => ⟨.inl ⟨by omega, rfl⟩, .inl ⟨by omega, rfl⟩, fun i hi => by have := hi.slot; omega⟩,
    by decide +kernel⟩

/-- P1's COMMIT of the claim of slot 1, with a level; and `claimed` with another entry of key 1/12. -/
def commitWindow (level : Byte) : Memory := handleWindow 0x34 [(3, level)]
def claimedAs (e : Entry) : State := { claimed with directory := [{ e with claim := some ⟨1, 7⟩ }, long] }

/-- The condition of the third clause on the COMMIT of `claimed`. -/
def CommitRefused (s : State) (level : Byte) (refusal : Completion) : Prop :=
  FirstFailing (commitRefusals (ask s 1 (commitWindow level)) 1 (commandFields (commitWindow level)) 1 ⟨1, 12⟩
    (if (commandFields (commitWindow level)).length = 0 then ((ask s 1 (commitWindow level)).slot 1).staged
      else (commandFields (commitWindow level)).length)) refusal

/-- Level 5; a level below the one that a RAISE has left; a closed namespace; a RAISE in progress; FROZEN; one
page too few; the counter exhausted. -/
theorem witness_RefusalsGiveFirstFailingCheck_commits :
    CommitRefused claimed 5 .badParam ∧ CommitRefused (claimedAs { short with level := .frozen }) 2 .badParam ∧
    CommitRefused { claimed with effective := defaultConfig } 0 .noRight ∧
    CommitRefused (claimedAs { short with lifecycle := .writing }) 0 .busyRecord ∧
    CommitRefused (claimedAs { short with level := .frozen }) 0 .levelProtected ∧
    CommitRefused { claimed with reservation := 25 } 0 .noSpace ∧
    CommitRefused { claimed with sequenceCounter := none } 0 .exhausted ∧
    CurrentHandle (ask claimed 1 (commitWindow 5)) 1 (commandFields (commitWindow 5)) 1 :=
  ⟨commitChecks_iff.mpr (by decide +kernel), commitChecks_iff.mpr (by decide +kernel),
    commitChecks_iff.mpr (by decide +kernel), commitChecks_iff.mpr (by decide +kernel),
    commitChecks_iff.mpr (by decide +kernel), commitChecks_iff.mpr (by decide +kernel),
    commitChecks_iff.mpr (by decide +kernel), current _ (by decide +kernel) (by decide +kernel)⟩

/-- P0's COMMIT of the configuration claim of slot 0, of 128 bytes, with an image whose byte 87 is 0x20. -/
def commitConfigWindow (level : Byte) : Memory := [(0, 0x34), (3, level), (8, 1), (0xC, 128)]

def badImage : List Byte := image.set 87 0x20

/-- A level of 1, no byte staged, a bad byte, an exhausted counter, and P0 a HOST. -/
theorem witness_RefusalsGiveFirstFailingCheck_config :
    ((commandFields (commitConfigWindow 1)).level ≠ 0 ∧ (commandFields (commitConfigWindow 0)).level = 0 ∧
      (commandFields (commitConfigWindow 0)).length = 128 ∧
      imageValid (Memory.readRange (configHeld.slot 0).buffer 0 128) = true ∧
      (configHeld.slot 0).target = some .config) ∧
    CurrentHandle (ask configHeld 0 (commitConfigWindow 0)) 0 (commandFields (commitConfigWindow 0)) 0 ∧
    (imageFieldValid badImage 87 = false ∧ ∀ o, o < 87 → imageFieldValid badImage o = true) ∧
    FirstFailing (configRefusals { configHeld with sequenceCounter := none } 0 false ++
      [(.exhausted, ({ configHeld with sequenceCounter := none } : State).sequenceCounter = none)]) .exhausted ∧
    FirstFailing (configRefusals { configHeld with effective := faultConfig } 1 true ++
      [(.exhausted, configHeld.sequenceCounter = none)]) .noRight :=
  ⟨by decide +kernel, current_config _ (by decide +kernel) (by decide +kernel), by decide +kernel,
    configCommitChecks_iff.mpr (by decide +kernel),
    configCommitChecks_iff.mpr (by decide +kernel)⟩

/-- P2 may not ask for P1's rights (`witness_RestrictNarrows_refusals`). -/
theorem witness_RefusalsGiveFirstFailingCheck_restrict :
    exec .restrict (ask stocked 2 (restrictWindow 0x11)) =
      .next (after (exec .restrict (ask stocked 2 (restrictWindow 0x11)))) ∧
    windowRead (after (exec .restrict (ask stocked 2 (restrictWindow 0x11)))) 2 0x61 =
      BitVec.ofNat 8 (completionCode .noRight) ∧
    windowRead (after (exec .restrict (ask narrowed 1 (restrictWindow 0x15)))) 1 0x61 =
      BitVec.ofNat 8 (completionCode .notNarrower) := ⟨rfl, by decide +kernel⟩

/-! ### The rebuild -/

/-- Besides key 1/77, a key with a HEADER and a RETIRE page of version 5, the RETIRE page the newer. -/
def tag621 (kind : TagKind) : Tag := ⟨kind, ⟨6, 21⟩, 5, 1, none, some .single, some .opened⟩

/-- Key 2/9 at version 3 with a whole copy 2 alone, and key 3/3 with an unreadable header of copy 1 and one data
page, twice. -/
def tag29 (kind : TagKind) (index : Option Nat) : Tag := ⟨kind, ⟨2, 9⟩, 3, 2, index, some .mirrored, some .owned⟩
def tag33 (kind : TagKind) (index : Option Nat) : Tag := ⟨kind, ⟨3, 3⟩, 2, 1, index, some .single, some .opened⟩

def header29 : HeaderPayload := ⟨⟨2, 9⟩, 3, 2, .mirrored, .owned, some 2, 4, 1, [1411], crc6, 7⟩

def recordsLone : List (Nat × ScanRecord) :=
  [(1410, .tagged (tag29 .header none) false (some (.header header29))),
    (1411, .tagged (tag29 .data (some 0)) true (some (data77 0xB0))),
    (1420, .tagged (tag33 .header none) true none), (1421, .tagged (tag33 .data (some 0)) false (some (data77 0))),
    (1422, .tagged (tag33 .data (some 0)) false (some (data77 0))), (1423, .unreadable), (1424, .erased)]

def recordsFound : List (Nat × ScanRecord) :=
  records77 ++ [(1400, .tagged (tag621 .header) false (some (.header { shortHeader with key := ⟨6, 21⟩, sequence := 8000 }))),
    (1401, .tagged (tag621 .retire) false (some (.retire ⟨6, 21⟩ 5 8001)))] ++ recordsLone

def recordAt (page : Nat) : ScanRecord :=
  ((recordsFound.find? (·.1 = page)).map (·.2)).getD .erased

/-- The records of pages 8 to 4094, and the whole scan: page 4095 is ERASED. -/
def partScan : List (Nat × ScanRecord) := (List.range' 8 4087).map fun page => (page, recordAt page)
def fullScan : List (Nat × ScanRecord) := partScan ++ [(4095, .erased)]

theorem mem_fullScan {page : Nat} {tag : Tag} {corrected : Bool} {payload : Option Payload}
    (h : (page, .tagged tag corrected payload) ∈ fullScan) :
    (page, .tagged tag corrected payload) ∈ recordsFound := by
  obtain ⟨n, -, hn⟩ := List.mem_map.mp ((List.mem_append.mp h).resolve_right (by simp))
  obtain ⟨rfl, hr⟩ := Prod.mk.inj hn
  unfold recordAt at hr
  cases hf : recordsFound.find? (·.1 = n) with
  | none => rw [hf] at hr; cases hr
  | some x =>
    rw [hf] at hr
    have h1 : x.1 = n := by simpa using List.find?_some hf
    have h2 := List.mem_of_find?_eq_some hf
    cases x
    cases h1
    cases hr
    exact h2

theorem fullScan_mem {page : Nat} {r : ScanRecord} (h : 8 ≤ page ∧ page < 4095) (hr : recordAt page = r) :
    (page, r) ∈ fullScan :=
  List.mem_append_left _ (List.mem_map.mpr ⟨page, by simp [List.mem_range'_1]; omega, by rw [hr]⟩)

/-- The version that a page's tag bears, the key, and what a RETIRE page is newer than. -/
def headOf : ScanRecord → Option (TagKind × Key × Nat × Option Nat)
  | .tagged tag _ payload => some (tag.kind, tag.key, tag.version, headSequence tag payload)
  | _ => none

theorem headAt_found {k : Key} {v page : Nat} {kind : TagKind} {n : Option Nat}
    (h : HeadAt fullScan k v kind page n) :
    ∃ x ∈ recordsFound, headOf x.2 = some (kind, k, v, n) := by
  obtain ⟨tag, corrected, payload, hm, rfl, rfl, rfl, rfl⟩ := h
  exact ⟨_, mem_fullScan hm, rfl⟩

def lastOfScan : State := { lastScanRead with startup := .scan partScan 8813 }

theorem witness_RebuiltPoolsAndEntries_keys :
    (partScan.map Prod.fst = List.range' 8 4087 ∧
      fullScan = partScan ++ [(4095, scanRecordOf (readCell (lastOfScan.page 4095) ⟨.clean, .clean⟩))] ∧
      lastOfScan.isStarting = true ∧ lastOfScan.operation = some (.read 4095)) ∧
    (HighestVersion fullScan ⟨1, 77⟩ 6 ∧ RecordAt fullScan ⟨1, 77⟩ 6) ∧
    (HighestVersion fullScan ⟨6, 21⟩ 5 ∧ RetiredAt fullScan ⟨6, 21⟩ 5) := by
  have h1300 : HeadAt fullScan ⟨1, 77⟩ 6 .header 1300 (some 8812) :=
    ⟨_, _, _, fullScan_mem (r := .tagged (tag77 .header 6 1 none) false
      (some (header77 6 1 4 [1301] crc6 8812))) (by decide) (by decide +kernel), rfl, rfl, rfl, by decide +kernel⟩
  have h1401 : HeadAt fullScan ⟨6, 21⟩ 5 .retire 1401 (some 8001) :=
    ⟨_, _, _, fullScan_mem (r := .tagged (tag621 .retire) false (some (.retire ⟨6, 21⟩ 5 8001))) (by decide)
      (by decide +kernel), rfl, rfl, rfl, by decide +kernel⟩
  have top : ∀ (k : Key) (v : Nat), (∀ x ∈ recordsFound, ∀ y ∈ headOf x.2, y.2.1 = k → y.2.2.1 ≤ v) →
      ∀ u page n, HeadAt fullScan k u .header page n ∨ HeadAt fullScan k u .retire page n → u ≤ v := by
    rintro k v hv u page n (h | h)
    all_goals
      obtain ⟨x, hx, hh⟩ := headAt_found h
      exact hv x hx _ hh rfl
  refine ⟨⟨by rw [partScan, List.map_map]; exact List.map_id _, rfl, rfl, rfl⟩,
    ⟨⟨⟨_, _, .inl h1300⟩, top _ _ (by decide +kernel)⟩, ⟨_, _, h1300⟩, .inl fun page n h => ?_⟩,
    ⟨⟨⟨_, _, .inr h1401⟩, top _ _ (by decide +kernel)⟩, ⟨_, _, h1401⟩, fun page m h => ⟨1401, 8001, ?_, h1401⟩⟩⟩
  · obtain ⟨x, hx, hh⟩ := headAt_found h
    exact absurd rfl ((by decide +kernel : ∀ x ∈ recordsFound, ∀ y ∈ headOf x.2, y.2.1 = ⟨1, 77⟩ →
      y.1 ≠ .retire) x hx _ hh rfl)
  · obtain ⟨x, hx, hh⟩ := headAt_found h
    exact (by decide +kernel : ∀ x ∈ recordsFound, ∀ y ∈ headOf x.2, y.2.1 = ⟨6, 21⟩ → y.1 = .header →
      ∀ m ∈ y.2.2.2, m < 8001) x hx _ hh rfl rfl m rfl

/-! ### The starts and the ends of jobs -/

/-- A job of P1 on a record. -/
def jobOf (kind : JobKind) (cause : JobCause) (k : Key) (handle : Option Handle) : Job :=
  ⟨kind, some 1, some (.record k), some cause, handle, { level := .frozen }, 1⟩

def waiting (s : State) (j : Job) : State := { s with jobQueue := [j] }

/-- The starts of a PRELOAD and a RAISE, on copy 1 and where copy 2 alone is valid; of a PRELOAD of a DAMAGED
record; and of a RETIRE with the last page and the last sequence number. -/
theorem witness_JobSelectOrder_starts :
    (∀ j, (waiting shared j).isReady = true ∧ (waiting shared j).engine = .free ∧
      (waiting shared j).jobQueue = j :: []) ∧
    (shared.entry ⟨5, 30⟩ = some patrolled530 ∧ patrolled530.copy .one = some ⟨900, [901], true, 7⟩ ∧
      patrolled530.version ≠ 0 ∧
      ({ shared with directory := [degraded530] } : State).entry ⟨5, 30⟩ = some degraded530 ∧
      degraded530.copy .two = some ⟨950, [951], true, 0⟩ ∧ degraded530.copyValid .one = false ∧
      degraded530.integrity ≠ .damaged ∧ degraded530.version ≠ 0) ∧
    (MemoriesCanonical (waiting preloading (jobOf .preload .claimPreload ⟨1, 12⟩ (some ⟨1, 7⟩))) ∧
      ({ preloading with directory := [{ short with integrity := .damaged, claim := some ⟨1, 7⟩ }] } :
        State).entry ⟨1, 12⟩ = some { short with integrity := .damaged, claim := some ⟨1, 7⟩ } ∧
      ClaimOf preloading ⟨1, 12⟩ { short with integrity := .damaged, claim := some ⟨1, 7⟩ } ⟨1, 7⟩) ∧
    (({ stocked with erased := [1200] } : State).erased = 1200 :: [] ∧ stocked.sequenceCounter = some 100 ∧
      ({ stocked with sequenceCounter := some 4294967295 } : State).sequenceCounter = some 4294967295 ∧
      stocked.entry ⟨7, 65535⟩ = some long) :=
  ⟨fun _ => ⟨rfl, rfl, rfl⟩, by decide +kernel,
    ⟨⟨by decide +kernel, by decide +kernel, by decide +kernel⟩, by decide +kernel, rfl, by decide +kernel,
      by decide +kernel⟩, by decide +kernel⟩

/-- A record with two data pages, at the first of them, in a RAISE, a REPAIR and a patrol step. -/
def twoPageRun (r : RunningJob) : RunningJob :=
  { r with stage := .source .one (some (header530 1 901)) [901, 902] [] }

theorem witness_SourceReadGoesOn_middle :
    (∀ r, r.key = ⟨5, 30⟩ → ∀ n, Sourcing (busy (twoPageState n) (twoPageRun r) (.read 901)) (twoPageRun r)
      (twoPages n) ⟨900, [901, 902], true, n⟩ .one (some (header530 1 901)) 901 [902] []) ∧
    raiseShared.key = ⟨5, 30⟩ ∧ (repairRun .one none []).key = ⟨5, 30⟩ ∧ (patrolRun .one none []).key = ⟨5, 30⟩ ∧
    (∀ o, SourceEvent raiseShared o (.copySourcePageRead o) ∧
      SourceEvent (preloadRun none []) o (.copySourcePageRead o) ∧
      SourceEvent (repairRun .one none []) o (.repairSourcePageRead o) ∧
      SourceEvent (patrolRun .one none []) o (.patrolPageRead o)) ∧
    (twoPageState 7).page 901 = cell530 .data 1 (some 0) (.data (List.replicate 64 0)) ∧
    (twoPageState 7).effective.refreshThreshold = 8 :=
  ⟨fun r hk n => ⟨rfl, rfl, rfl, by
      show (twoPageState n).entry r.key = _
      rw [hk]; rfl, rfl, rfl⟩, rfl, rfl, rfl,
    fun _ => ⟨.inl ⟨rfl, .inr rfl⟩, .inl ⟨rfl, .inl rfl⟩, .inr (.inl ⟨rfl, rfl⟩), .inr (.inr ⟨rfl, rfl⟩)⟩,
    by decide +kernel, by decide +kernel⟩

/-- P1's RAISE of key 5/30 at the last page of copy 1, four pages in need, and its REPAIR at the last page of
copy 2. -/
def raiseLast : RunningJob :=
  { newRun { writeJob with
        target := some (.record ⟨5, 30⟩), cause := some .raise, need := 4
        params := { cls := .mirrored, level := .frozen, length := 64 } } (some patrolled530) with
    versionWritten := some 4, stage := .source .one (some (header530 1 901)) [901] [] }

def repairLast : RunningJob := repairRun .two (some (header530 2 951)) [951]

/-- A full draw, a draw that has exactly its pages, and one that must erase first; and the last pages of a patrol
step on copy 1, with copy 2 valid or not, and on copy 2. -/
theorem witness_SourceReadGoesOn_ends :
    (∀ erased dirty, Sourcing (busy { shared with erased := erased, eraseList := dirty } raiseLast (.read 901))
        raiseLast patrolled530 ⟨900, [901], true, 7⟩ .one (some (header530 1 901)) 901 [] [] ∧
      Sourcing (busy { repairing .lost with erased := erased, eraseList := dirty } repairLast (.read 951)) repairLast
        patrolled530 ⟨950, [951], true, 0⟩ .two (some (header530 2 951)) 951 [] []) ∧
    (shared.page 901 = cell530 .data 1 (some 0) (.data (List.replicate 64 0)) ∧
      shared.page 951 = cell530 .data 2 (some 0) (.data (List.replicate 64 0)) ∧
      crc32 (([] ++ List.replicate 64 0).take patrolled530.length) = (header530 1 901).crc ∧
      crc32 (([] ++ List.replicate 64 0).take patrolled530.length) = (header530 2 951).crc) ∧
    (raiseLast.job.kind = .writeCopy ∧ raiseLast.job.need = 4 ∧ raiseLast.entry = some patrolled530 ∧
      raiseLast.versionWritten = some 4 ∧ 4 = 2 * (1 + (raiseLast.job.params.length + 63) / 64) ∧
      repairLast.job.kind = .repair ∧ repairLast.job.need = 0 ∧ repairLast.job.params.copy = .one ∧
      2 = 1 * (1 + (repairLast.job.params.length + 63) / 64) ∧
      [2200, 2201, 2202, 2203].take 4 = 2200 :: [2201, 2202, 2203] ∧ [2200, 2201].take 2 = 2200 :: [2201] ∧
      [2200, 2201, 2202].length < 4 ∧ [2200].length < 2) ∧
    (∀ e, e = patrolled530 ∨ e = { patrolled530 with copy2 := some ⟨950, [951], false, 0⟩ } →
      Sourcing (busy { shared with directory := [e] } (patrolRun .one (some (header530 1 901)) [901]) (.read 901))
        (patrolRun .one (some (header530 1 901)) [901]) e ⟨900, [901], true, 7⟩ .one (some (header530 1 901)) 901
        [] []) ∧
    ({ patrolled530 with copy2 := some ⟨950, [951], false, 0⟩ } : Entry).copyValid .two = false :=
  ⟨fun _ _ => ⟨⟨rfl, rfl, rfl, by rfl, rfl, rfl⟩, ⟨rfl, rfl, rfl, by rfl, rfl, rfl⟩⟩, by decide +kernel,
    by decide +kernel, by rintro e (rfl | rfl) <;> exact ⟨rfl, rfl, rfl, by rfl, rfl, rfl⟩, by decide +kernel⟩

theorem witness_SourceReadFails_claim :
    ClaimOf (busy preloading (preloadRun none [300, 301]) (.read 300)) ⟨1, 12⟩
      { short with claim := some ⟨1, 7⟩ } ⟨1, 7⟩ := ⟨rfl, by decide +kernel, by decide +kernel⟩

/-- The write of `atData` and of `atHeader` with another job, failure count, counter, or page programmed. -/
def writeEnd (cause : JobCause) (handle : Option Handle) (failures : Nat) (data header : Bool) : RunningJob :=
  { writeRun data with
    job := { writeJob with cause := some cause, handle := handle }
    failures := failures
    drawn := [⟨1200, .data .one 0, data⟩, ⟨1201, .header .one, header⟩] }

/-- A record of version 0 in WRITING: a first write's. -/
def firstWrite (handle : Option Handle) : Entry :=
  { short with lifecycle := .writing, version := 0, length := 0, copy1 := none, claim := handle }

def endState (e : Entry) (counter : Option Nat) (r : RunningJob) (page : Nat) : State :=
  busy { writingState with
      claims := committing.claims, directory := [e, long], sequenceCounter := counter } r
    (.program page dataTag dataPayload)

theorem canonical_endState (e : Entry) (counter : Option Nat) (r : RunningJob) (page : Nat) :
    MemoriesCanonical (endState e counter r page) :=
  ⟨canonical_stocked.array, canonical_stocked.windows,
    (show ∀ i, Memory.wf (committing.slot i).buffer by decide +kernel)⟩

/-- The third failure at a data page and at the header; the counter exhausted after the last data page, and at a
replacement of the header. A CREATE, a WRITE and a COMMIT; a first write's entry and a committed one's. -/
theorem witness_ProgramFailures_before :
    (∀ cause handle e counter, e.key = ⟨1, 12⟩ →
      let third (data : Bool) := writeEnd cause handle 2 data false
      let first (data : Bool) := writeEnd cause handle 0 data false
      (Programming (endState e counter (third false) 1200) (third false) ⟨1200, .data .one 0, false⟩ dataTag
          dataPayload ∧
        WriteEnds (endState e counter (third false) 1200) (third false) ⟨1200, .data .one 0, false⟩ .one
          (.dataPageProgramDone false) .arrayFault) ∧
      (Programming (endState e counter (third true) 1201) (third true) ⟨1201, .header .one, false⟩ dataTag
          dataPayload ∧
        WriteEnds (endState e counter (third true) 1201) (third true) ⟨1201, .header .one, false⟩ .one
          .headerProgramFailure .arrayFault) ∧
      (Programming (endState e none (first false) 1200) (first false) ⟨1200, .data .one 0, false⟩ dataTag
          dataPayload ∧
        WriteEnds (endState e none (first false) 1200) (first false) ⟨1200, .data .one 0, false⟩ .one
          (.dataPageProgramDone true) .exhausted) ∧
      WriteEnds (endState e none (first true) 1201) (first true) ⟨1201, .header .one, false⟩ .one
        .headerProgramFailure .exhausted ∧
      (endState e counter (first true) 1201).entry ⟨1, 12⟩ = some e) ∧
    (firstWrite none).key = ⟨1, 12⟩ ∧
    (∀ counter r page, ClaimOf (endState (firstWrite (some ⟨1, 7⟩)) counter r page) ⟨1, 12⟩
      (firstWrite (some ⟨1, 7⟩)) ⟨1, 7⟩) ∧
    (∀ s, Reports s (writeEnd .create none 2 true false) false false 0 { cls := 1, level := 1 } ∧
      Reports s (writeEnd .raise none 2 true false) false false 0 {} ∧
      Reports (endState short none (writeRun true) 1201) (writeEnd .commitCreate (some ⟨1, 7⟩) 2 true false)
        false false 0 { base := 7, cls := 1, length := 50 }) := by
  refine ⟨fun cause handle e counter hk => ?_, rfl, fun _ _ _ => ⟨rfl, (show (committing.slot 1).generation = 7 by decide +kernel),
      (show (committing.slot 1).target = some (.record ⟨1, 12⟩) by decide +kernel)⟩,
    fun s => ⟨.inr (.inl ⟨rfl, rfl⟩), .inr (.inr (.inl ⟨rfl, rfl⟩)), .inr (.inr (.inr ⟨.inr rfl, _, rfl, by decide +kernel⟩))⟩⟩
  refine ⟨⟨⟨rfl, rfl, rfl, rfl, rfl⟩, .inl ⟨rfl, rfl, .inl ⟨rfl, _, rfl⟩⟩⟩,
    ⟨⟨rfl, rfl, rfl, rfl, rfl⟩, .inl ⟨rfl, rfl, .inr ⟨rfl, rfl⟩⟩⟩,
    ⟨⟨rfl, rfl, rfl, rfl, rfl⟩, .inr ⟨rfl, rfl, .inl ⟨rfl, ⟨_, rfl⟩, ⟨1201, .header .one, false⟩, rfl, rfl⟩⟩⟩,
    .inr ⟨rfl, rfl, .inr ⟨rfl, rfl, Nat.zero_lt_two, List.cons_ne_nil _ _⟩⟩, ?_⟩
  show [e, long].find? _ = _
  simp [hk]

/-- The counter exhausted: at the replacement of a retirement header, at a RETIRE's start, and after a repair's
last data page and at the replacement of its header. -/
theorem witness_ProgramFailures_exhausted :
    (MemoriesCanonical { retiringState with sequenceCounter := none } ∧
      Programming { retiringState with sequenceCounter := none } retireRun ⟨1200, .retirement, false⟩
        (jobTag retireRun .retire 1 none) (.retire ⟨6, 21⟩ 5 100) ∧
      retireRun.failures = 0 ∧ retiringState.erased ≠ [] ∧ retireRun.job.cause = some .retire) ∧
    (MemoriesCanonical (waiting { stocked with sequenceCounter := none } retireRun.job) ∧
      (waiting { stocked with sequenceCounter := none } retireRun.job).engine = .free ∧
      ({ stocked with directory := [retired], erased := [1200] } : State).entry ⟨6, 21⟩ = some retired ∧
      retired.version ≠ 0 ∧ ({ stocked with erased := [1200] } : State).erased = 1200 :: []) ∧
    (Programming (busy { repairing .lost with sequenceCounter := none } repairData
        (.program 2200 dataTag dataPayload)) repairData ⟨2200, .data .one 0, false⟩ dataTag dataPayload ∧
      currentPage (markProgrammed repairData ⟨2200, .data .one 0, false⟩) = some ⟨2201, .header .one, false⟩ ∧
      Programming (busy { repairing .lost with sequenceCounter := none } repairHeader
        (.program 2201 dataTag dataPayload)) repairHeader ⟨2201, .header .one, false⟩ dataTag dataPayload ∧
      repairHeader.failures = 0 ∧ (repairing .lost).erased ≠ []) :=
  ⟨⟨⟨by decide +kernel, by decide +kernel, by decide +kernel⟩, ⟨rfl, rfl, rfl, rfl, rfl⟩, by decide +kernel⟩,
    ⟨⟨by decide +kernel, by decide +kernel, by decide +kernel⟩, by decide +kernel⟩,
    ⟨rfl, rfl, rfl, rfl, rfl⟩, by decide +kernel, ⟨rfl, rfl, rfl, rfl, rfl⟩, by decide +kernel⟩

/-- Copy 2 of the MIRRORED write, as a WRITE and as the COMMIT of a claim of slot 1: its third failures
(`copy2Third`), and the counter exhausted after its data page and at the replacement of its header. -/
def copy2Run (cause : JobCause) (handle : Option Handle) (failures : Nat) (data : Bool) : RunningJob :=
  { mirrorRun true data with
    job := { (mirrorRun true data).job with cause := some cause, handle := handle }, failures := failures }

def copy2Entry (handle : Option Handle) : Entry :=
  { long with
    lifecycle := .writing, version := 4294967295, length := 64, claim := handle
    copy1 := some ⟨1201, [1200], true, 0⟩, copy2 := none }

def copy2State (handle : Option Handle) (counter : Option Nat) (r : RunningJob) (page : Nat) : State :=
  busy { atHeader2 with
      claims := atHeader2.claims.set 1 { heldSlot with
        state := .committing, holder := some 2, target := some (.record ⟨7, 65535⟩), lease := none }
      directory := [short, copy2Entry handle], sequenceCounter := counter } r (.program page dataTag dataPayload)

theorem witness_ProgramFailures_after :
    (∀ cause handle counter,
      let third (data : Bool) := copy2Run cause handle 2 data
      let first (data : Bool) := copy2Run cause handle 0 data
      (WriteEnds (copy2State handle counter (third false) 1202) (third false) ⟨1202, .data .two 0, false⟩ .two
          (.dataPageProgramDone false) .arrayFault ∧
        WriteEnds (copy2State handle counter (third true) 1203) (third true) ⟨1203, .header .two, false⟩ .two
          .headerProgramFailure .arrayFault) ∧
      (Programming (copy2State handle none (first false) 1202) (first false) ⟨1202, .data .two 0, false⟩
          dataTag dataPayload ∧
        WriteEnds (copy2State handle none (first false) 1202) (first false) ⟨1202, .data .two 0, false⟩ .two
          (.dataPageProgramDone true) .exhausted) ∧
      WriteEnds (copy2State handle none (first true) 1203) (first true) ⟨1203, .header .two, false⟩ .two
        .headerProgramFailure .exhausted ∧
      (copy2State handle counter (first true) 1203).entry ⟨7, 65535⟩ = some (copy2Entry handle)) ∧
    (∀ counter r page, ClaimOf (copy2State (some ⟨1, 7⟩) counter r page) ⟨7, 65535⟩ (copy2Entry (some ⟨1, 7⟩))
      ⟨1, 7⟩) ∧
    Reports atHeader2 (copy2Run .write none 2 true) true true 4294967295
      { committed := true, copyPending := true, version := 4294967295 } :=
  ⟨fun _ _ _ => ⟨⟨.inl ⟨rfl, rfl, .inl ⟨rfl, _, rfl⟩⟩, .inl ⟨rfl, rfl, .inr ⟨rfl, rfl⟩⟩⟩,
      ⟨⟨rfl, rfl, rfl, rfl, rfl⟩, .inr ⟨rfl, rfl, .inl ⟨rfl, ⟨_, rfl⟩, ⟨1203, .header .two, false⟩, rfl, rfl⟩⟩⟩,
      .inr ⟨rfl, rfl, .inr ⟨rfl, rfl, Nat.zero_lt_two, List.cons_ne_nil _ _⟩⟩, rfl⟩,
    fun _ _ _ => ⟨rfl, rfl, rfl⟩, .inl ⟨rfl, rfl⟩⟩

/-- A first write above a Retirement List entry, released or not, with Repair List entries below, at and above
the version that it installs. -/
def firstCommit (released : Bool) : State :=
  { atHeader with
    directory := [firstWrite none, long], retirementList := [⟨⟨1, 12⟩, 310, 7, 2, released⟩]
    live := if released then [] else [310]
    repairList := [⟨⟨1, 12⟩, 7, .one, .refresh, false, false⟩, ⟨⟨1, 12⟩, 8, .two, .refresh, false, false⟩,
      ⟨⟨7, 65535⟩, 7, .one, .refresh, false, false⟩] }

theorem witness_CommitPointInstallsVersion_first : ∀ b,
    Programming (firstCommit b) (writeRun true) ⟨1201, .header .one, false⟩ headTag headPayload ∧
    PageArray.wf (firstCommit b).array ∧ (firstCommit b).entry ⟨1, 12⟩ = some (firstWrite none) ∧
    (firstWrite none).version = 0 ∧ (firstCommit b).retirement ⟨1, 12⟩ = some ⟨⟨1, 12⟩, 310, 7, 2, b⟩ ∧
    (writeRun true).versionWritten = some 8 ∧ (writeRun true).cls = .single := by
  intro b
  cases b <;> exact ⟨⟨rfl, rfl, rfl, rfl, rfl⟩, by decide +kernel⟩

/-- A CREATE and a RAISE at the commit point, and what they report. -/
theorem witness_WriteAndCommitEndDone_reports :
    (∀ cause, Programming (endState (firstWrite none) (some 100) (writeEnd cause none 0 true false) 1201)
        (writeEnd cause none 0 true false) ⟨1201, .header .one, false⟩ dataTag dataPayload ∧
      (writeEnd cause none 0 true false).cls = .single ∧
      (writeEnd cause none 0 true false).versionWritten = some 8) ∧
    (∀ s, Reports s (writeEnd .create none 0 true false) true false 8
        { committed := true, version := 8, cls := 1, level := 1 } ∧
      Reports s (writeEnd .raise none 0 true false) true false 8
        { committed := true, version := 8, level := 1 }) :=
  ⟨fun _ => ⟨⟨rfl, rfl, rfl, rfl, rfl⟩, rfl, rfl⟩, fun _ => ⟨.inr (.inl ⟨rfl, rfl⟩), .inr (.inr (.inl ⟨rfl, rfl⟩))⟩⟩

/-- A CONFIG WRITE's start with copy A the newer, the older, and neither valid. -/
def configDue (a b : CopyState) : State :=
  { waiting configState (configRun 0).job with copyStateA := a, copyStateB := b }

theorem witness_ConfigWriteRuns_start :
    (∀ a b, (configDue a b).isReady = true ∧ (configDue a b).engine = .free ∧
      (configDue a b).jobQueue = (configRun 0).job :: [] ∧ (configRun 0).job.kind = .configWrite) ∧
    (∃ n, (configDue (.valid 4) (.valid 3)).copyStateA = .valid n ∧
      ∀ m, (configDue (.valid 4) (.valid 3)).copyStateB = .valid m → m < n) ∧
    (∀ n, (configDue (.valid 3) (.valid 4)).copyStateA = .valid n →
      ∃ m, (configDue (.valid 3) (.valid 4)).copyStateB = .valid m ∧ n < m) ∧
    (∀ n, (configDue .erased .invalid).copyStateA = .valid n →
      ∃ m, (configDue .erased .invalid).copyStateB = .valid m ∧ n < m) :=
  ⟨fun _ _ => ⟨rfl, rfl, rfl, rfl⟩, ⟨4, rfl, fun m h => by cases h; decide⟩,
    fun n h => ⟨4, rfl, by cases h; decide⟩, fun n h => by cases h⟩

/-! ### The power-fail halt, and the jobs that end without pages -/

/-- A state with the port of its running job ACTIVE. -/
def activeAt (s : State) (p : Port) : State := s.setPort p { s.port p with state := .active }

/-- A write of P1 at its data page or its header, P2's command on the Dispatch Queue, P3's READ on the Job Queue,
and P0's RESTART accepted. -/
def halting (s : State) : State :=
  { activeAt (activeAt (activeAt (s.setPort 2 { s.port 2 with state := .queued }) 1) 3) 0 with
    dispatchQueue := [2], restarting := some 0
    jobQueue := [⟨.read, some 3, some (.record ⟨1, 12⟩), some .read, none, { count := 64 }, 0⟩] }

theorem law_halting : ∀ header : Bool, PortLaw (halting (if header then atHeader else atData)) ∧
    MemoriesCanonical (halting (if header then atHeader else atData)) := by
  intro header
  cases header <;> exact ⟨⟨by decide +kernel, by decide +kernel, by decide +kernel⟩,
    ⟨by decide +kernel, by decide +kernel, by decide +kernel⟩⟩

/-- Before the commit point, at it, and after it; at a retirement header and a configuration header; in a READ. -/
theorem witness_PowerFailHaltsReady_ports :
    (∀ header : Bool, (halting (if header then atHeader else atData)).isReady = true ∧
      2 ∈ (halting (if header then atHeader else atData)).dispatchQueue ∧
      (∃ j ∈ (halting (if header then atHeader else atData)).jobQueue, j.port = some 3) ∧
      (halting (if header then atHeader else atData)).restarting = some 0 ∧
      (halting (if header then atHeader else atData)).running = some (writeRun header)) ∧
    AtCommitPoint (halting atHeader) (writeRun true) ∧ ¬AtCommitPoint (halting atData) (writeRun false) ∧
    (∀ b, Reports (halting atHeader) (writeRun true) b false (if b then 8 else 0)
      { committed := b, version := if b then 8 else 0 }) ∧
    (PortLaw (activeAt atHeader2 2) ∧ atHeader2.running = some (mirrorRun true true) ∧
      (mirrorRun true true).phase = .afterCommit ∧
      Reports (activeAt atHeader2 2) (mirrorRun true true) true false 4294967295
        { committed := true, version := 4294967295 }) ∧
    (PortLaw (activeAt retiringState 3) ∧ MemoriesCanonical (activeAt retiringState 3) ∧
      AtCommitPoint (activeAt retiringState 3) retireRun ∧ retireRun.job.cause = some .retire) ∧
    (PortLaw (activeAt atConfigHeader 0) ∧ MemoriesCanonical (activeAt atConfigHeader 0) ∧
      AtCommitPoint (activeAt atConfigHeader 0) (configRun 6) ∧
      (configRun 6).job.cause = some .commitConfig) ∧
    (PortLaw (activeAt reading 2) ∧ MemoriesCanonical (activeAt reading 2) ∧
      ¬AtCommitPoint (activeAt reading 2) readRun ∧ readRun.job.cause ∈ [some .read, some .claimPreload]) := by
  refine ⟨fun header => ?_, ⟨_, _, _, rfl, .inl ⟨rfl, _, rfl, rfl⟩⟩, ?_, fun _ => .inl ⟨rfl, rfl⟩,
    ⟨⟨by decide +kernel, by decide +kernel, by decide +kernel⟩, rfl, rfl, .inl ⟨rfl, rfl⟩⟩,
    ⟨⟨by decide +kernel, by decide +kernel, by decide +kernel⟩,
      ⟨by decide +kernel, by decide +kernel, by decide +kernel⟩, ⟨_, _, _, rfl, .inr (.inl ⟨rfl, _, rfl⟩)⟩, rfl⟩,
    ⟨⟨by decide +kernel, by decide +kernel, by decide +kernel⟩,
      ⟨by decide +kernel, by decide +kernel, by decide +kernel⟩,
      ⟨_, _, _, rfl, .inr (.inr ⟨rfl, _, _, _, rfl⟩)⟩, rfl⟩,
    ⟨⟨by decide +kernel, by decide +kernel, by decide +kernel⟩,
      ⟨by decide +kernel, by decide +kernel, by decide +kernel⟩, ?_, by decide⟩⟩
  · cases header <;> exact ⟨rfl, by decide, ⟨_, .head _, rfl⟩, rfl, rfl⟩
  · rintro ⟨_, _, _, _, ⟨-, d, h, hr⟩ | ⟨h, -⟩ | ⟨h, -⟩⟩
    · cases h
      cases hr
    · cases h
    · cases h
  · rintro ⟨_, _, _, h, -⟩
    cases h

/-- The operations that the halt finishes: the last page's erase of an ERASE job, a data page, and the first erase
and the header of a CONFIG WRITE. -/
theorem witness_PowerFailHaltsReady_operations :
    (MemoriesCanonical (erasing 4095 1) ∧ (erasing 4095 1).isReady = true ∧
      ((erasing 4095 1).running.map (·.job.kind)) = some .erase ∧
      (erasing 4095 1).operation = some (.erase 4095) ∧
      (erasing 4095 1).eraseList = (4095, some ⟨6, 21⟩) :: []) ∧
    (atData.running = some (writeRun false) ∧
      atData.operation = some (.program 1200 dataTag dataPayload) ∧
      (writeRun false).job.kind ≠ .configWrite) ∧
    (MemoriesCanonical (busy configState (configRun 0) (.erase 0)) ∧
      (busy configState (configRun 0) (.erase 0)).running = some (configRun 0) ∧
      (configRun 0).job.kind = .configWrite) ∧
    (atConfigHeader.running = some (configRun 6) ∧ (configRun 6).job.params.copy = .one ∧
      atConfigHeader.operation = some (.program 0 (configTag .one none) (.config 1 1 0))) ∧
    ((∀ page, reading.operation ≠ some (.erase page)) ∧
      ∀ page tag payload, reading.operation ≠ some (.program page tag payload)) :=
  ⟨⟨⟨by decide +kernel, by decide +kernel, by decide +kernel⟩, by decide +kernel⟩, ⟨rfl, rfl, by decide⟩,
    ⟨⟨by decide +kernel, by decide +kernel, by decide +kernel⟩, rfl, rfl⟩, ⟨rfl, rfl, rfl⟩,
    ⟨(fun _ h => by cases h), (fun _ _ _ h => by cases h)⟩⟩

/-- READ CONFIG of source 2, and at the offsets next to 0 and 64. -/
theorem witness_ReadConfigStatusAndUnknownCode_refusals :
    (∀ w, Memory.wf w → MemoriesCanonical (ask stocked 1 w) ∧
      Taking (ask stocked 1 w) 1 [] (commandFields w)) ∧
    ((commandFields [(0, 0x51), (0x11, 2)]).code = 0x51 ∧ (commandFields [(0, 0x51), (0x11, 2)]).target = 2) ∧
    [1, 63, 65].map (fun b => (commandFields [(0, 0x51), (0xA, b)]).offset) = [1, 63, 65] ∧
    (commandFields [(0, 0x51), (0xA, 1)]).code = 0x51 :=
  ⟨fun w hw => asks canonical_stocked rfl rfl 1 w hw, by decide +kernel⟩

/-- A head of the Repair List short of one page, with a page to erase, with none, and with a due patrol step. -/
theorem witness_JobSelectOrder_waits :
    (∀ dirty, ({ repairDue .lost 3 false with erased := [2200], eraseList := dirty } : State).isReady = true ∧
      ({ repairDue .lost 3 false with erased := [2200], eraseList := dirty } : State).engine = .free ∧
      ({ repairDue .lost 3 false with erased := [2200], eraseList := dirty } : State).jobQueue = []) ∧
    (repairDue .lost 3 false).restarting = none ∧
    (repairDue .lost 3 false).repairList = ⟨⟨5, 30⟩, 3, .one, .lost, false, false⟩ :: [] ∧
    (repairDue .lost 3 false).entry ⟨5, 30⟩ = some patrolled530 ∧
    [2200].length + [((4095 : Nat), some (⟨6, 21⟩ : Key))].length <
      (repairDue .lost 3 false).reservation + (1 + (patrolled530.length + 63) / 64) ∧
    (repairDue .lost 3 false).patrolDue = false ∧
    ({ repairDue .lost 3 false with erased := [2200, 2201], patrolDue := true } : State).erased.length + 1 =
      (repairDue .lost 3 false).reservation + (1 + (patrolled530.length + 63) / 64) :=
  ⟨fun _ => ⟨rfl, rfl, rfl⟩, by decide +kernel⟩

/-- A READ at the record's length, one of version 0, and one of a record whose copy 2 alone is valid, at its last
byte. -/
theorem witness_ReadJobStarts_ends :
    ((readQueued ⟨1, 12⟩ 40).entry ⟨1, 12⟩ = some short ∧ short.length ≤ (readJob ⟨1, 12⟩ 40).params.offset ∧
      short.version ≠ 0 ∧ short.integrity ≠ .damaged) ∧
    (writingState.isReady = true ∧
      ({ writingState with directory := [firstWrite none] } : State).entry ⟨1, 12⟩ = some (firstWrite none) ∧
      (firstWrite none).version = 0) ∧
    (MemoriesCanonical { shared with directory := [degraded530], jobQueue := [readJob ⟨5, 30⟩ 63] } ∧
      ({ shared with directory := [degraded530] } : State).entry ⟨5, 30⟩ = some degraded530 ∧
      degraded530.copy .two = some ⟨950, [951], true, 0⟩ ∧ degraded530.copyValid .one = false ∧
      63 < degraded530.length ∧
      ([951].drop (63 / 64)).take ((63 + min 64 (degraded530.length - 63) - 1) / 64 - 63 / 64 + 1) =
        951 :: []) :=
  ⟨by decide +kernel, by decide +kernel,
    ⟨⟨by decide +kernel, by decide +kernel, by decide +kernel⟩, by decide +kernel⟩⟩

/-- The ends of the source reads of `witness_SourceReadGoesOn_ends`, one page short and nothing to erase. -/
theorem witness_SourceReadGoesOn_noSpace :
    MemoriesCanonical (busy { shared with erased := [2200, 2201, 2202], eraseList := [] } raiseLast (.read 901)) ∧
    MemoriesCanonical (busy { repairing .lost with erased := [2200], eraseList := [] } repairLast (.read 951)) ∧
    raiseLast.phase = .beforeCommit ∧ raiseLast.job.port = some 1 ∧ raiseLast.job.handle = none ∧
    [2200, 2201, 2202].length < 2 * (1 + (raiseLast.job.params.length + 63) / 64) ∧
    [2200].length < 1 * (1 + (repairLast.job.params.length + 63) / 64) :=
  ⟨⟨by decide +kernel, by decide +kernel, by decide +kernel⟩,
    ⟨by decide +kernel, by decide +kernel, by decide +kernel⟩, by decide +kernel⟩

/-- A failed page with ERASED empty, and the Erase List empty or not; the entry of version 0 that the start-up gave
copies; and the Repair List entries that keep no LOST entry off: none, and a superseded one. -/
theorem witness_ProgramFailures_erasesFirst :
    (∀ dirty, Programming { atData with erased := [], eraseList := dirty } (writeRun false)
        ⟨1200, .data .one 0, false⟩ dataTag dataPayload) ∧
    (writeRun false).failures < 2 ∧ ([] : List (Nat × Option Key)) ++ [(1200, some ⟨1, 12⟩)] = (1200, some ⟨1, 12⟩) :: [] ∧
    [((4095 : Nat), (none : Option Key))] ++ [(1200, some ⟨1, 12⟩)] = (4095, none) :: [(1200, some ⟨1, 12⟩)] ∧
    (∀ counter r page, (endState { short with lifecycle := .writing, version := 0 } counter r page).entry ⟨1, 12⟩ =
      some { short with lifecycle := .writing, version := 0 }) ∧
    entryPages { short with lifecycle := .writing, version := 0 } = [300, 301] ∧
    (∀ x ∈ (copy2Third true).repairList, x.isFor ⟨7, 65535⟩ .two = true → x.running = false) ∧
    ∀ x ∈ [(⟨⟨7, 65535⟩, 4294967294, .two, .refresh, true, false⟩ : RepairEntry)],
      x.isFor ⟨7, 65535⟩ .two = true → x.running = false :=
  ⟨fun _ => ⟨rfl, rfl, rfl, rfl, rfl⟩, by decide +kernel, rfl, rfl, fun _ _ _ => rfl, by decide +kernel,
    by decide +kernel, by decide +kernel⟩

/-- The COMMIT of a MIRRORED record at the header of copy 2. -/
theorem witness_WriteAndCommitEndDone_copy2 :
    Programming (copy2State (some ⟨1, 7⟩) (some 102) (copy2Run .commitRecord (some ⟨1, 7⟩) 0 true) 1203)
      (copy2Run .commitRecord (some ⟨1, 7⟩) 0 true) ⟨1203, .header .two, false⟩ dataTag dataPayload ∧
    MemoriesCanonical (copy2State (some ⟨1, 7⟩) (some 102) (copy2Run .commitRecord (some ⟨1, 7⟩) 0 true) 1203) ∧
    (copy2Entry (some ⟨1, 7⟩)).claim = some ⟨1, 7⟩ ∧
    (copy2Run .commitRecord (some ⟨1, 7⟩) 0 true).versionWritten = some 4294967295 :=
  ⟨⟨rfl, rfl, rfl, rfl, rfl⟩, ⟨by decide +kernel, by decide +kernel, by decide +kernel⟩, rfl, rfl⟩

/-- A draw at the last page of the Erase List. -/
def lastDraw (s : State) (r : RunningJob) (count : Nat) (role : Option PageRole) : State :=
  busy { s with erased := [], eraseList := [(4095, none)] } { r with stage := .drawing count role } (.erase 4095)

/-- A write's draw of two pages, and the draws of one page: a retirement's, a replacement before and after the
commit point, and a repair's. -/
theorem witness_ErasesMovePages_noSpace :
    (∀ s r count role, (lastDraw s r count role).running = some { r with stage := .drawing count role } ∧
      (lastDraw s r count role).operation = some (.erase 4095) ∧
      (lastDraw s r count role).eraseList = (4095, none) :: [] ∧ (lastDraw s r count role).erased.length = 0 ∧
      (MemoriesCanonical s → MemoriesCanonical (lastDraw s r count role))) ∧
    (MemoriesCanonical atData ∧ MemoriesCanonical retiringState ∧ MemoriesCanonical atHeader2 ∧
      MemoriesCanonical (repairing .lost)) ∧
    (atData.isReady = true ∧ (writeRun false).phase = .beforeCommit ∧
      atData.entry ⟨1, 12⟩ = some { short with lifecycle := .writing } ∧ 0 + 1 < 2) ∧
    (retiringState.isReady = true ∧ retireRun.phase = .beforeCommit ∧ retireRun.job.port = some 3 ∧
      retireRun.job.cause = some .retire ∧ retireRun.job.handle = none ∧
      retiringState.entry ⟨6, 21⟩ = some retired) ∧
    (atHeader2.isReady = true ∧ (mirrorRun true false).phase = .afterCommit ∧
      (mirrorRun true false).job.port = some 2 ∧ (atHeader2.entry ⟨7, 65535⟩).isSome ∧
      (mirrorRun true false).versionWritten = some 4294967295) ∧
    ((repairing .lost).isReady = true ∧ repairData.job.kind = .repair) ∧
    (MemoriesCanonical queued ∧ queued.entry ⟨1, 12⟩ = some { short with lifecycle := .writing } ∧
      ({ queued with erased := [1200], eraseList := [] } : State).erased.length <
        1 * (1 + (writeJob.params.length + 63) / 64)) ∧
    (MemoriesCanonical (waiting { stocked with erased := [], directory := [retired] } retireRun.job) ∧
      (waiting { stocked with erased := [], directory := [retired] } retireRun.job).engine = .free ∧
      stocked.eraseList = [] ∧
      (waiting { stocked with erased := [], directory := [retired] } retireRun.job).entry ⟨6, 21⟩ = some retired) := by
  refine ⟨fun s r count role => ⟨rfl, rfl, rfl, rfl, fun h => ⟨h.array, h.windows, h.buffers⟩⟩,
    ⟨⟨?_, ?_, ?_⟩, ⟨?_, ?_, ?_⟩, ⟨?_, ?_, ?_⟩, ⟨?_, ?_, ?_⟩⟩, ?_, ?_, ?_, ?_, ⟨⟨?_, ?_, ?_⟩, ?_⟩, ⟨⟨?_, ?_, ?_⟩, ?_⟩⟩ <;>
    decide +kernel

/-- The third failure of a write to an entry of version 0 that has copies: its pages leave LIVE with it (R110). -/
theorem test_dataPageProgramDone_version0 :
    let t := after (exec (.dataPageProgramDone false)
      (endState { short with lifecycle := .writing, version := 0 } (some 100)
        (writeEnd .write none 2 false false) 1200))
    t.eraseList.map Prod.fst = [1200, 1201, 300, 301] ∧ 300 ∉ t.live ∧ t.entry ⟨1, 12⟩ = none := by
  decide +kernel

/-- The scan of `recordsLone`: key 2/9 is DEGRADED from copy 2, with its attributes and corrections; key 3/3 is
DAMAGED, naming its lowest data page; and every other page is in the pool of R157. -/
theorem test_scanPageRead_lone :
    let t := after (exec (.scanPageRead ⟨.clean, .clean⟩)
      { lastScanRead with startup := .scan recordsLone 7 })
    t.entry ⟨2, 9⟩ = some ⟨⟨2, 9⟩, .live, .degraded, .mirrored, .owned, some 2, 4, 3, none, none,
      some ⟨1410, [1411], true, 1⟩⟩ ∧
    (t.entry ⟨3, 3⟩).map (fun e => (e.integrity, e.length, e.copy1)) =
      some (.damaged, 0, some ⟨1420, [1421], false, 1⟩) ∧
    t.live = [1410, 1411, 1420, 1421] ∧ t.erased = [1424, 4095] ∧
    t.eraseList = [(1422, some ⟨3, 3⟩), (1423, none)] := by decide +kernel

/-- The key and the copy number of a header page's tag, and the class of its payload. -/
def headerOf : ScanRecord → Option (Key × Nat × RecordClass)
  | .tagged tag _ (some (.header h)) => some (tag.key, tag.copyNumber, h.cls)
  | _ => none

theorem witness_RebuiltPoolsAndEntries_lone :
    ValidCandidate fullScan ⟨2, 9⟩ 3 .two 1410 header29 ∧
    (∀ p h, ¬ValidCandidate fullScan ⟨2, 9⟩ 3 .one p h) ∧
    (∀ p h, ValidCandidate fullScan ⟨2, 9⟩ 3 .two p h → header29.sequence ≤ h.sequence → h.cls = .mirrored) ∧
    HighestVersion fullScan ⟨2, 9⟩ 3 := by
  have hm : (1410, .tagged (tag29 .header none) false (some (.header header29))) ∈ fullScan :=
    fullScan_mem (by decide) (by decide +kernel)
  have hd : (1411, .tagged (tag29 .data (some 0)) true (some (data77 0xB0))) ∈ fullScan :=
    fullScan_mem (by decide) (by decide +kernel)
  refine ⟨⟨⟨_, ⟨rfl, rfl, rfl, rfl, _, hm⟩, rfl, rfl, rfl, rfl, rfl⟩, by decide, by decide, by decide,
    [List.replicate 64 0xB0], rfl, fun index p bytes h1 h2 => ?_, by decide +kernel⟩, ?_, ?_,
    ⟨⟨1410, some 7, .inl ⟨_, _, _, hm, rfl, rfl, rfl, rfl⟩⟩, ?_⟩⟩
  · match index, h1, h2 with
    | 0, h1, h2 =>
      cases h1
      cases h2
      exact ⟨_, _, hd, rfl, rfl, rfl, rfl, rfl⟩
  · rintro p h ⟨⟨tag, ⟨hk, -, hkind, hc, corrected, hs⟩, -⟩, -⟩
    have := (by decide +kernel : ∀ x ∈ recordsFound, ∀ y ∈ headerOf x.2, y.1 = ⟨2, 9⟩ → y.2.1 = 2) _
      (mem_fullScan hs) _ rfl hk
    exact absurd (hc.symm.trans this) (by decide)
  · rintro p h ⟨⟨tag, ⟨hk, -, hkind, hc, corrected, hs⟩, -⟩, -⟩ -
    exact (by decide +kernel : ∀ x ∈ recordsFound, ∀ y ∈ headerOf x.2, y.1 = ⟨2, 9⟩ → y.2.2 = .mirrored) _
      (mem_fullScan hs) _ rfl hk
  · rintro v page n (h | h)
    all_goals
      obtain ⟨x, hx, hh⟩ := headAt_found h
      exact (by decide +kernel : ∀ x ∈ recordsFound, ∀ y ∈ headOf x.2, y.2.1 = ⟨2, 9⟩ → y.2.2.1 ≤ 3) x hx _ hh rfl

/-- A RAISE at the head of the queue, of a record that has lost its one copy. -/
def lostShort : Entry :=
  { short with lifecycle := .writing, integrity := .damaged, copy1 := some ⟨300, [301], false, 0⟩ }

theorem witness_JobSelectOrder_raiseDamaged :
    MemoriesCanonical (waiting { stocked with directory := [lostShort, long] } (jobOf .writeCopy .raise ⟨1, 12⟩ none)) ∧
    (waiting { stocked with directory := [lostShort, long] } (jobOf .writeCopy .raise ⟨1, 12⟩ none)).engine = .free ∧
    (waiting { stocked with directory := [lostShort, long] } (jobOf .writeCopy .raise ⟨1, 12⟩ none)).entry ⟨1, 12⟩ =
      some lostShort ∧
    lostShort.copyValid .one = false ∧ lostShort.copyValid .two = false ∧
    (jobOf .writeCopy .raise ⟨1, 12⟩ none).port = some 1 :=
  ⟨⟨by decide +kernel, by decide +kernel, by decide +kernel⟩, by decide +kernel⟩

/-- The header of copy 1 of another version, and the CRC of copy 1 and of copy 2 after their last pages; copy 2 valid
or not; and no entry of the pair running. -/
theorem witness_PatrolReportsCopies_faulty :
    (∀ e, e = { patrolled530 with version := 4 } ∨
        e = { patrolled530 with version := 4, copy2 := some ⟨950, [951], false, 0⟩ } →
      Sourcing (busy { shared with directory := [e] } (patrolRun .one none [900, 901]) (.read 900))
        (patrolRun .one none [900, 901]) e ⟨900, [901], true, 7⟩ .one none 900 [901] [] ∧
      SourceFails (busy { shared with directory := [e] } (patrolRun .one none [900, 901]) (.read 900)) e
        ⟨900, [901], true, 7⟩ .one none 900 [901] [] ⟨.clean, .clean⟩) ∧
    (∀ c page, c = .one ∧ page = 901 ∨ c = .two ∧ page = 951 →
      SourceFails shared patrolled530 ⟨900, [901], true, 7⟩ c (some { header530 1 901 with crc := 0 }) page [] []
        ⟨.clean, .clean⟩) ∧
    Sourcing (busy shared (patrolRun .two (some { header530 2 951 with crc := 0 }) [951]) (.read 951))
      (patrolRun .two (some { header530 2 951 with crc := 0 }) [951]) patrolled530 ⟨950, [951], true, 0⟩ .two
      (some { header530 2 951 with crc := 0 }) 951 [] [] ∧
    SourceFails shared patrolled530 ⟨950, [951], true, 0⟩ .two none 950 [951] [] ⟨.uncorrectable, .clean⟩ ∧
    shared.repairList = [] := by
  refine ⟨?_, ?_, ⟨rfl, rfl, rfl, rfl, rfl, rfl⟩, .inl (by decide +kernel), rfl⟩
  · rintro e (rfl | rfl) <;>
      exact ⟨⟨rfl, rfl, rfl, rfl, rfl, rfl⟩, .inr (.inl ⟨⟨.header, ⟨5, 30⟩, 3, 1, none, some .mirrored, some .opened⟩,
        header530 1 901, by decide +kernel, rfl, rfl, by decide +kernel⟩)⟩
  · rintro c page (⟨rfl, rfl⟩ | ⟨rfl, rfl⟩)
    · exact .inr (.inr ⟨_, List.replicate 64 0, _, (by decide +kernel : shared.page 901 = cell530 .data 1 (some 0) _),
        rfl, rfl, rfl, by decide +kernel⟩)
    · exact .inr (.inr ⟨_, List.replicate 64 0, _, (by decide +kernel : shared.page 951 = cell530 .data 2 (some 0) _),
        rfl, rfl, rfl, by decide +kernel⟩)

/-- The counter exhausted: at a failed data page, and at the last erase of the draws of headers (`lastDraw`): a
retirement's, and replacements before and after the commit point and in a repair. -/
theorem witness_ProgramFailures_exhaustedDraws :
    (Programming { atData with sequenceCounter := none } (writeRun false) ⟨1200, .data .one 0, false⟩ dataTag
        dataPayload ∧ (writeRun false).failures < 2 ∧ atData.erased = 1202 :: List.range' 1203 57) ∧
    (∀ s r role, (lastDraw { s with sequenceCounter := none } r 1 role).sequenceCounter = none ∧
      (lastDraw { s with sequenceCounter := none } r 1 role).erased = [] ∧
      (lastDraw { s with sequenceCounter := none } r 1 role).running = some { r with stage := .drawing 1 role } ∧
      (lastDraw { s with sequenceCounter := none } r 1 role).operation = some (.erase 4095) ∧
      (MemoriesCanonical s → MemoriesCanonical (lastDraw { s with sequenceCounter := none } r 1 role))) ∧
    (retireRun.job.kind = .retire ∧ currentPage retireRun = some ⟨1200, .retirement, false⟩ ∧
      currentPage (writeRun true) = some ⟨1201, .header .one, false⟩ ∧
      currentPage (mirrorRun true true) = some ⟨1203, .header .two, false⟩ ∧
      currentPage repairHeader = some ⟨2201, .header .one, false⟩) :=
  ⟨⟨⟨rfl, rfl, rfl, rfl, rfl⟩, by decide +kernel⟩,
    fun _ _ _ => ⟨rfl, rfl, rfl, rfl, fun h => ⟨h.array, h.windows, h.buffers⟩⟩, by decide +kernel⟩

/-- A draw one page short with another page to erase; and the last erase of a write's draw with the counter
exhausted. -/
theorem witness_ErasesMovePages_oneShort :
    (drawing none [1200] [(300, none)]).eraseList = (4095, some ⟨6, 21⟩) :: [(300, none)] ∧
    (drawing none [1200] [(300, none)]).erased.length + 1 = 2 ∧
    (drawRun none).stage = .drawing 2 none ∧ 2 = (allocationRoles (drawRun none)).length ∧
    (drawRun none).job.kind ≠ .retire ∧ 1 ≤ (drawRun none).job.params.length ∧
    currentPage (drawRun (some (.data .one 0))) = some ⟨1200, .data .one 0, false⟩ := by decide +kernel

end Sys2Proof.Tests
end

/-! RESTRICT (R47, R48): its checks are the checks of the rules, and what it answers. -/

namespace Sys2Proof.Machine

/-! ## Codes -/

theorem levelCode_of_levelOf {code : Nat} {l : Level} (h : levelOf code = some l) :
    levelCode l = code := by
  unfold levelOf at h
  split at h <;> cases h <;> rfl

theorem bitAt_beq_one {n : Nat} (h : n ≤ 1) : bitAt (n == 1) 0 = n := by
  interval_cases n <;> rfl

theorem rightsCode_rightsOf {n : Nat} (h : n ≤ 31) : rightsCode (rightsOf n) = n := by
  revert n
  decide

theorem rightsOf_rightsCode (r : Rights) : rightsOf (rightsCode r) = r := by
  obtain ⟨read, create, write, retire, watch⟩ := r
  revert read create write retire watch
  decide

/-- One set of rights lies within another when its rights byte sets no bit that the other's leaves clear. -/
theorem rightsOf_within_rightsOf (a b : Nat) :
    (rightsOf a).within (rightsOf b) = true ↔ ∀ i, i < 5 → a.testBit i = true → b.testBit i = true := by
  simp only [Nat.forall_lt_succ_right, Nat.not_lt_zero, false_imp_iff, implies_true, true_and]
  simp [Rights.within, rightsOf, imp_iff_not_or]

/-! ## The result area as a host reads it -/

/-- The tag and the completion code stand first (R178). The appends are nested to the right before anything
computes: reducing them as they stand takes exponential time. -/
theorem resultBytes_eq_cons (tag : Byte) (c : Completion) (r : Result) :
    ∃ fields, resultBytes tag c r = tag :: BitVec.ofNat 8 (completionCode c) :: fields := by
  have codeByte : beBytes 1 (completionCode c) = [BitVec.ofNat 8 (completionCode c)] := by
    simp [beBytes]
  unfold resultBytes
  repeat rw [List.append_assoc]
  rw [codeByte]
  exact ⟨_, rfl⟩

theorem resultArea_eq_cons (t : State) (p : Port) :
    ∃ later, resultArea t p = windowRead t p 0x60 :: windowRead t p 0x61 :: later :=
  ⟨(t.port p).window.readRange 0x62 30, rfl⟩

theorem windowRead_of_resultArea {t : State} {p : Port} {tag : Byte} {c : Completion} {r : Result}
    (h : resultArea t p = resultBytes tag c r) :
    windowRead t p 0x60 = tag ∧ windowRead t p 0x61 = BitVec.ofNat 8 (completionCode c) := by
  obtain ⟨later, area⟩ := resultArea_eq_cons t p
  obtain ⟨fields, bytes⟩ := resultBytes_eq_cons tag c r
  rw [area, bytes] at h
  injection h with tagByte rest
  injection rest with codeByte
  exact ⟨tagByte, codeByte⟩

/-! ## The checks -/

/-- The checks of a RESTRICT whose fields are in range, in the order of R44. -/
def restrictChecks (s : State) (p : Port) (f : CommandFields) (n : NamespaceEntry) (target : Port) :
    List (Completion × Bool) :=
  [(.noRight, !isMaintenance s p && (target != p || touchesNamespace n f)), (.noRight, !n.isOpen),
    (.notNarrower, !narrowerOrEqual n target f)]

section Checks
variable {s : State} {p target : Port} {f : CommandFields} {n : NamespaceEntry}

theorem restrictOutOfRange_iff : restrictOutOfRange f = true ↔
    7 < f.ns ∨ 3 < f.target ∨ 31 < f.rights ∨ 512 < f.quota ∨ levelOf f.level = none ∨ 1 < f.mirror ∨
      1 < f.isOpen := by
  simp [restrictOutOfRange, or_assoc]

theorem touchesNamespace_eq_false_iff : touchesNamespace n f = false ↔
    f.quota = n.quota ∧ f.level = levelCode n.floor ∧
      f.mirror = (if n.mirrorRequired then 1 else 0) ∧ f.isOpen = (if n.isOpen then 1 else 0) := by
  simp [touchesNamespace, bitAt, and_assoc]

theorem mayRestrict_iff : MayRestrict s p f n target ↔
    (!isMaintenance s p && (target != p || touchesNamespace n f)) = false := by
  rw [MayRestrict, ← touchesNamespace_eq_false_iff]
  simp [or_iff_not_imp_left]

theorem narrowerOrEqual_iff : NarrowerOrEqual f n target ↔ narrowerOrEqual n target f = true := by
  have rights := rightsOf_within_rightsOf f.rights (rightsCode n.rights[target])
  rw [rightsOf_rightsCode] at rights
  rw [NarrowerOrEqual, ← rights]
  simp [narrowerOrEqual, and_assoc]

/-- The first failing check gives the code R47 and R48 name. -/
theorem restrictChecks_fail {refusal : Completion}
    (fails : (¬MayRestrict s p f n target ∨ n.isOpen = false) ∧ refusal = .noRight ∨
      MayRestrict s p f n target ∧ n.isOpen = true ∧ ¬NarrowerOrEqual f n target ∧
        refusal = .notNarrower) :
    firstFailure (restrictChecks s p f n target) = some refusal := by
  have inOrder : FirstFailing [(.noRight, ¬MayRestrict s p f n target), (.noRight, n.isOpen = false),
        (.notNarrower, ¬NarrowerOrEqual f n target)] refusal ↔
      firstFailure (restrictChecks s p f n target) = some refusal :=
    firstFailing_cons (by rw [mayRestrict_iff, Bool.not_eq_false]) fun _ =>
      firstFailing_cons (by simp) fun _ => firstFailing_cons (by simp [narrowerOrEqual_iff]) fun _ =>
        firstFailing_nil
  rw [← inOrder]
  simp only [FirstFailing]
  rcases fails with ⟨barred | closed, code⟩ | ⟨may, opened, wider, code⟩
  · exact .inl ⟨barred, code⟩
  · by_cases may : MayRestrict s p f n target
    · exact .inr ⟨not_not.mpr may, .inl ⟨closed, code⟩⟩
    · exact .inl ⟨may, code⟩
  · exact .inr ⟨not_not.mpr may, .inr ⟨by simp [opened], .inl ⟨wider, code⟩⟩⟩

theorem restrictChecks_pass (may : MayRestrict s p f n target) (opened : n.isOpen = true)
    (narrow : NarrowerOrEqual f n target) :
    ∀ x ∈ restrictChecks s p f n target, x.2 = false := by
  rw [restrictChecks, mayRestrict_iff.mp may, opened, narrowerOrEqual_iff.mp narrow]
  simp

end Checks

/-! ## The body -/

theorem portOf_val {n : Nat} {p : Port} (h : n = p.val) : portOf n = some p := by
  subst h; simp [portOf]

theorem restrictBody_outOfRange {f : CommandFields} (h : restrictOutOfRange f = true) (s : State)
    (p : Port) : restrictBody s p f = post s p .badParam {} none := by
  simp [restrictBody, h]

/-- A request in range is judged by `restrictChecks` against the entry of its namespace. -/
theorem restrictBody_inRange {f : CommandFields} {ns : Fin 8} {target : Port}
    (h : restrictOutOfRange f = false) (hns : f.ns = ns.val) (ht : f.target = target.val) (s : State)
    (p : Port) :
    restrictBody s p f =
      judge s p (restrictChecks s p f s.effective.namespaces[ns] target)
        (post (setNamespace s ns (restrictedEntry s.effective.namespaces[ns] target f)) p .done
          (restrictResult (restrictedEntry s.effective.namespaces[ns] target f) target) none) := by
  simp [restrictBody, h, slotOf_val hns, portOf_val ht, restrictChecks]

/-- What an accepted RESTRICT reports is the request itself (R48). -/
theorem restrictResult_restrictedEntry {f : CommandFields} {l : Level} (n : NamespaceEntry)
    (target : Port) (rights : f.rights ≤ 31) (level : levelOf f.level = some l) (mirror : f.mirror ≤ 1)
    (isOpen : f.isOpen ≤ 1) :
    restrictResult (restrictedEntry n target f) target =
      { level := f.level, at76 := f.rights, at77 := f.quota / 256, at78 := f.quota % 256,
        at79 := f.mirror, at7A := f.isOpen * 256 } := by
  simp [restrictResult, restrictedEntry, level, levelCode_of_levelOf level, rightsCode_rightsOf rights,
    bitAt_beq_one mirror, bitAt_beq_one isOpen]

@[simp] theorem setNamespace_port (s : State) (ns : Fin 8) (n : NamespaceEntry) (q : Port) :
    (setNamespace s ns n).port q = s.port q := rfl

/-! ## The taking -/

section Taking
variable {s : State} {p : Port} {rest : List Port} {f : CommandFields}

theorem exec_restrict_taking (h : Taking s p rest f) (code : f.code = 0x50) :
    exec .restrict s = .next (restrictBody (takeHead s p rest) p f) :=
  congrArg Host.Outcome.next (takeCommand_taking h _ (by simp [code, codeRestrict]) restrictBody)

/-- The checks and the narrowed entry read nothing that the taking of the head changes. -/
theorem restrictBody_taken {ns : Fin 8} {target : Port} (h : restrictOutOfRange f = false)
    (hns : f.ns = ns.val) (ht : f.target = target.val) :
    restrictBody (takeHead s p rest) p f =
      judge (takeHead s p rest) p (restrictChecks s p f s.effective.namespaces[ns] target)
        (post (setNamespace (takeHead s p rest) ns
            (restrictedEntry s.effective.namespaces[ns] target f)) p .done
          (restrictResult (restrictedEntry s.effective.namespaces[ns] target f) target) none) :=
  restrictBody_inRange h hns ht _ p

/-- A RESTRICT that its body refuses changes nothing but the caller's answer, which bears the code. -/
theorem restrict_refused (hc : MemoriesCanonical s) (h : Taking s p rest f) (code : f.code = 0x50)
    {refusal : Completion}
    (body : restrictBody (takeHead s p rest) p f = post (takeHead s p rest) p refusal {} none) :
    ∃ t, exec .restrict s = .next t ∧ AnsweredOnly s t p rest false ∧
      windowRead t p 0x60 = (s.port p).go ∧
      windowRead t p 0x61 = BitVec.ofNat 8 (completionCode refusal) :=
  ⟨_, body ▸ exec_restrict_taking h code, answeredOnly_post rest (hc.windows p) refusal {} none,
    windowRead_of_resultArea (resultArea_post_takeHead rest (hc.windows p) refusal {} none)⟩

/-- A RESTRICT that passes its checks leaves the narrowed entry, and answers with it. -/
theorem restrict_accepted (hc : MemoriesCanonical s) (h : Taking s p rest f) (code : f.code = 0x50)
    {ns : Fin 8} {n : NamespaceEntry} {r : Result}
    (body : restrictBody (takeHead s p rest) p f =
      post (setNamespace (takeHead s p rest) ns n) p .done r none) :
    ∃ t, exec .restrict s = .next t ∧ PortAnswered s t p false ∧
      t = { s with
        ports := t.ports, dispatchQueue := rest
        effective := { s.effective with namespaces := s.effective.namespaces.set ns n } } ∧
      resultArea t p = resultBytes (s.port p).go .done r := by
  have window := hc.windows p
  have unit : (setNamespace (takeHead s p rest) ns n).port p = { s.port p with state := .active } := by
    simp
  refine ⟨_, body ▸ exec_restrict_taking h code, ?_, rfl, ?_⟩
  · exact post_answered (s' := setNamespace (takeHead s p rest) ns n) .active
      (fun _ hq => takeHead_port_ne s p rest hq) unit window .done r none
  · rw [post_resultArea _ _ _ _ _ (by rw [unit]; exact window), unit]

end Taking

/-- Settles O30: in range, the body is the judging by the checks of R47 and R48, so the request is refused
with the code of the first that fails, or its entry stands; out of range it is refused BAD_PARAM. -/
theorem restrictNarrows : Obligations.RestrictNarrows := by
  refine ⟨?_, ?_⟩
  · intro s p rest f ns target n l hc taking code hns htarget hn rights quota level mirror isOpen
    subst hn
    have range : restrictOutOfRange f = false := by
      have known : levelOf f.level ≠ none := Option.ne_none_iff_exists'.mpr ⟨l, level⟩
      rw [← Bool.not_eq_true, restrictOutOfRange_iff]
      simp only [known, false_or]
      omega
    have body := restrictBody_taken (s := s) (p := p) (rest := rest) range hns htarget
    refine ⟨fun may opened narrow => ?_, fun refusal fails => ?_⟩
    · rw [judge_accepted (restrictChecks_pass may opened narrow),
        restrictResult_restrictedEntry _ _ rights level mirror isOpen] at body
      simpa [restrictedEntry, level] using restrict_accepted hc taking code body
    · exact restrict_refused hc taking code (body.trans (judge_refused (restrictChecks_fail fails)))
  · intro s p rest f hc taking code outside
    exact restrict_refused hc taking code
      (restrictBody_outOfRange (restrictOutOfRange_iff.mpr outside) _ p)

end Sys2Proof.Machine

/-! WATCH, UNWATCH and TAKE CHANGES (R163, R164, R168): the Watch Table and the Change Set after them, the
checks, and what they answer. -/

namespace Sys2Proof.Machine

/-! ## The Watch Table -/

theorem Watch.equals_iff {w : Watch} {p : Port} {f : CommandFields} :
    w.equals p f = true ↔ w.port = p ∧ w.ns = f.ns ∧ w.item = watchItem f := by
  simp [Watch.equals, and_assoc]

/-- The Watch Table that an accepted WATCH leaves (R163). -/
def watchesAfterWatch (ws : List Watch) (p : Port) (f : CommandFields) : List Watch :=
  if ws.any (·.equals p f) then
    ws.map fun w => if w.equals p f then { w with includeOwn := f.includeOwn } else w
  else ws ++ [⟨p, f.ns, watchItem f, f.includeOwn⟩]

section Table
variable {ws : List Watch} {p : Port} {f : CommandFields}

theorem any_equals_of_new (new : ∀ w ∈ ws, ¬w.equals p f = true) :
    ws.any (·.equals p f) = false := by simpa using new

theorem any_equals_of_present (present : ∃ w ∈ ws, w.equals p f = true) :
    ws.any (·.equals p f) = true := by simpa using present

theorem watchesAfterWatch_new (new : ∀ w ∈ ws, ¬w.equals p f = true) :
    watchesAfterWatch ws p f = ws ++ [⟨p, f.ns, watchItem f, f.includeOwn⟩] := by
  simp [watchesAfterWatch, any_equals_of_new new]

theorem watchesAfterWatch_present (present : ∃ w ∈ ws, w.equals p f = true) :
    watchesAfterWatch ws p f =
      ws.map fun w => if w.equals p f then { w with includeOwn := f.includeOwn } else w :=
  if_pos (any_equals_of_present present)

/-- An entry added for a port is one more that it holds. -/
theorem watchesOf_concat_self (ws : List Watch) (p : Port) (ns : Nat) (item : Option Nat) (own : Bool) :
    watchesOf (ws ++ [⟨p, ns, item, own⟩]) p = watchesOf ws p + 1 := by
  simp [watchesOf]

/-- A change of entries that leaves each its port leaves each port its count. -/
theorem watchesOf_map {g : Watch → Watch} (port : ∀ w, (g w).port = w.port) (ws : List Watch)
    (p : Port) : watchesOf (ws.map g) p = watchesOf ws p := by
  simp [watchesOf, List.filter_map, Function.comp_def, port]

theorem watchesOf_watchesAfterWatch_present (present : ∃ w ∈ ws, w.equals p f = true) :
    watchesOf (watchesAfterWatch ws p f) p = watchesOf ws p := by
  rw [watchesAfterWatch_present present]
  exact watchesOf_map (fun w => by split <;> rfl) ws p

end Table

/-! ## The checks -/

/-- The checks of a WATCH, in the order of R44. -/
def watchChecks (s : State) (p : Port) (f : CommandFields) : List (Completion × Bool) :=
  [(.badParam, 7 < f.ns), (.noRight, lacksRight s f.ns p (·.watch)),
    (.watchesFull, !s.watches.any (·.equals p f) && watchesFull s p)]

/-- The checks of an UNWATCH, in the order of R44. -/
def unwatchChecks (s : State) (p : Port) (f : CommandFields) : List (Completion × Bool) :=
  [(.badParam, 7 < f.ns), (.noRight, namespaceClosed s f.ns),
    (.notFound, !s.watches.any (·.equals p f))]

section Checks
variable {s : State} {p : Port} {f : CommandFields}

/-- A namespace that has an entry in the Effective Namespace Table is in range. -/
theorem le_seven_of_namespaceEntry {ns : Nat} {n : NamespaceEntry} (h : namespaceEntry s ns = some n) :
    ns ≤ 7 := by
  obtain ⟨inRange, -⟩ := Vector.getElem?_eq_some_iff.mp h
  omega

theorem HoldsRight.ns_le_seven {ns : Nat} {right : Rights → Bool} (h : HoldsRight s ns p right) :
    ns ≤ 7 := by
  obtain ⟨_, entry, -⟩ := h
  exact le_seven_of_namespaceEntry entry

theorem watchesFull_iff :
    watchesFull s p = true ↔ 64 ≤ s.watches.length ∨ 16 ≤ watchesOf s.watches p := by
  rw [watchesFull, Bool.or_eq_true, decide_eq_true_iff, decide_eq_true_iff]
  rfl

/-- A WATCH passes with the right, where an equal entry stands or a place is left for another. -/
theorem watchChecks_pass (right : HoldsRight s f.ns p (·.watch))
    (room : s.watches.any (·.equals p f) = true ∨ watchesFull s p = false) :
    ∀ x ∈ watchChecks s p f, x.2 = false := by
  simpa [watchChecks, lacksRight_eq_false right, right.ns_le_seven, or_iff_not_imp_left] using room

/-- An UNWATCH passes in an open namespace where an equal entry stands. -/
theorem unwatchChecks_pass {n : NamespaceEntry} (entry : namespaceEntry s f.ns = some n)
    (opened : n.isOpen = true) (present : ∃ w ∈ s.watches, w.equals p f = true) :
    ∀ x ∈ unwatchChecks s p f, x.2 = false := by
  have inRange := le_seven_of_namespaceEntry entry
  simpa [unwatchChecks, namespaceClosed, entry, opened, inRange] using present

/-- The first failing check of a WATCH gives the code R163 names. -/
theorem watchChecks_fail {refusal : Completion}
    (fails : 7 < f.ns ∧ refusal = .badParam ∨
      f.ns ≤ 7 ∧ ¬HoldsRight s f.ns p (·.watch) ∧ refusal = .noRight ∨
      HoldsRight s f.ns p (·.watch) ∧ (∀ w ∈ s.watches, ¬w.equals p f = true) ∧
        (64 ≤ s.watches.length ∨ 16 ≤ watchesOf s.watches p) ∧ refusal = .watchesFull) :
    firstFailure (watchChecks s p f) = some refusal := by
  rcases fails with ⟨outside, rfl⟩ | ⟨inRange, lacks, rfl⟩ | ⟨right, new, full, rfl⟩
  · simp [watchChecks, firstFailure, outside]
  · simp [watchChecks, firstFailure, not_lt.mpr inRange, not_holdsRight.mp lacks]
  · simp [watchChecks, firstFailure, not_lt.mpr right.ns_le_seven, lacksRight_eq_false right,
      any_equals_of_new new, watchesFull_iff.mpr full]

/-- The first failing check of an UNWATCH gives the code R164 names. -/
theorem unwatchChecks_fail {refusal : Completion}
    (fails : 7 < f.ns ∧ refusal = .badParam ∨
      (∃ n, namespaceEntry s f.ns = some n ∧ n.isOpen = false) ∧ refusal = .noRight ∨
      (∃ n, namespaceEntry s f.ns = some n ∧ n.isOpen = true) ∧
        (∀ w ∈ s.watches, ¬w.equals p f = true) ∧ refusal = .notFound) :
    firstFailure (unwatchChecks s p f) = some refusal := by
  rcases fails with ⟨outside, rfl⟩ | ⟨⟨n, entry, closed⟩, rfl⟩ | ⟨⟨n, entry, opened⟩, new, rfl⟩
  · simp [unwatchChecks, firstFailure, outside]
  · have inRange := le_seven_of_namespaceEntry entry
    simp [unwatchChecks, firstFailure, namespaceClosed, entry, closed, not_lt.mpr inRange]
  · have inRange := le_seven_of_namespaceEntry entry
    simp [unwatchChecks, firstFailure, namespaceClosed, entry, opened, not_lt.mpr inRange,
      any_equals_of_new new]

end Checks

/-! ## The Change Set -/

/-- The overflow flag outlasts a taking only where more than 8 entries stood (R168). -/
theorem changesAfterTaking_eq (c : ChangeSet) : changesAfterTaking c =
    ⟨c.entries.drop 8, if c.entries.length ≤ 8 then false else c.overflow⟩ := by
  by_cases few : c.entries.length ≤ 8 <;> simp [changesAfterTaking, Config.entriesPerAnswer, few]

theorem changesAfterTaking_isEmpty (c : ChangeSet) :
    (!(changesAfterTaking c).entries.isEmpty) = decide (8 < c.entries.length) := by
  by_cases few : c.entries.length ≤ 8 <;>
    simp [changesAfterTaking, Config.entriesPerAnswer, few, not_lt.mpr, not_le.mp]

/-- What TAKE CHANGES leaves in the caller's Change Set, and what it posts (R168). -/
theorem takeChangesBody_eq (s : State) (p : Port) (f : CommandFields) : takeChangesBody s p f =
    post (s.setChanges p ⟨(s.changes p).entries.drop 8,
        if (s.changes p).entries.length ≤ 8 then false else (s.changes p).overflow⟩) p .done
      { count := min 8 (s.changes p).entries.length,
        more := decide (8 < (s.changes p).entries.length), overflow := (s.changes p).overflow }
      (some (((s.changes p).entries.take 8).flatMap changeBytes)) := by
  rw [← changesAfterTaking_eq, ← changesAfterTaking_isEmpty, ← List.length_take]
  rfl

/-! ## The taking -/

section Taking
variable {s : State} {p : Port} {rest : List Port} {f : CommandFields}

theorem exec_watch_taking (h : Taking s p rest f) (code : f.code = 0x40) :
    exec .watch s = .next (judge (takeHead s p rest) p (watchChecks s p f)
      (post { takeHead s p rest with watches := watchesAfterWatch s.watches p f } p .done
        { updated := s.watches.any (·.equals p f),
          count := watchesOf (watchesAfterWatch s.watches p f) p } none)) :=
  congrArg Host.Outcome.next (takeCommand_taking h _ (by simp [code, codeWatch]) watchBody)

theorem exec_unwatch_taking (h : Taking s p rest f) (code : f.code = 0x41) :
    exec .unwatch s = .next (judge (takeHead s p rest) p (unwatchChecks s p f)
      (post { takeHead s p rest with watches := s.watches.filter fun w => !w.equals p f } p .done
        { count := watchesOf (s.watches.filter fun w => !w.equals p f) p } none)) :=
  congrArg Host.Outcome.next (takeCommand_taking h _ (by simp [code, codeUnwatch]) unwatchBody)

theorem exec_takeChanges_taking (h : Taking s p rest f) (code : f.code = 0x42) :
    exec .takeChanges s = .next (takeChangesBody (takeHead s p rest) p f) :=
  congrArg Host.Outcome.next (takeCommand_taking h _ (by simp [code, codeTakeChanges]) takeChangesBody)

/-- A change of the taken state that touches no port unit leaves the caller's as the taking made it. -/
theorem port_of_ports_takeHead {u : State} (units : u.ports = (takeHead s p rest).ports) :
    u.port p = { s.port p with state := .active } :=
  (congrArg (·[p]) units).trans (takeHead_port_self s p rest)

/-- A posting to the caller, made after changes of the taken state that touch no port unit. -/
theorem post_answered_of_ports {u : State} (units : u.ports = (takeHead s p rest).ports)
    (window : (s.port p).window.wf) (c : Completion) (r : Result) (data : Option (List Byte)) :
    PortAnswered s (post u p c r data) p data.isSome :=
  post_answered .active (fun q hq => (congrArg (·[q]) units).trans (takeHead_port_ne s p rest hq))
    (port_of_ports_takeHead units) window c r data

theorem resultArea_post_of_ports {u : State} (units : u.ports = (takeHead s p rest).ports)
    (window : (s.port p).window.wf) (c : Completion) (r : Result) (data : Option (List Byte)) :
    resultArea (post u p c r data) p = resultBytes (s.port p).go c r := by
  have caller := port_of_ports_takeHead units
  rw [post_resultArea _ _ _ _ _ (by rw [caller]; exact window), caller]

/-- A command that only sets the Watch Table is answered, and nothing else changes. -/
theorem watches_set_answered {command : Instr} {ws : List Watch} {r : Result}
    (window : (s.port p).window.wf)
    (run : exec command s = .next (post { takeHead s p rest with watches := ws } p .done r none)) :
    ∃ t, exec command s = .next t ∧ PortAnswered s t p false ∧
      t = { s with ports := t.ports, dispatchQueue := rest, watches := ws } ∧
      resultArea t p = resultBytes (s.port p).go .done r :=
  ⟨_, run, post_answered_of_ports (rest := rest) (by rfl) window .done r none, rfl,
    resultArea_post_of_ports (rest := rest) (by rfl) window .done r none⟩

/-- A command that fails a check is answered with the check's code, and nothing else changes. -/
theorem refused_answeredOnly {command : Instr} {checks : List (Completion × Bool)} {accepted : State}
    {refusal : Completion} (window : (s.port p).window.wf)
    (run : exec command s = .next (judge (takeHead s p rest) p checks accepted))
    (fails : firstFailure checks = some refusal) :
    ∃ t, exec command s = .next t ∧ AnsweredOnly s t p rest false ∧
      resultArea t p = resultBytes (s.port p).go refusal {} := by
  rw [judge_refused fails] at run
  exact ⟨_, run, answeredOnly_post rest window refusal {} none,
    resultArea_post_takeHead rest window refusal {} none⟩

theorem watch_new_answered (window : (s.port p).window.wf) (h : Taking s p rest f)
    (code : f.code = 0x40) (right : HoldsRight s f.ns p (·.watch))
    (new : ∀ w ∈ s.watches, ¬w.equals p f = true) (places : s.watches.length < 64)
    (perPort : watchesOf s.watches p < 16) :
    ∃ t, exec .watch s = .next t ∧ PortAnswered s t p false ∧
      t = { s with
        ports := t.ports, dispatchQueue := rest
        watches := s.watches ++ [⟨p, f.ns, watchItem f, f.includeOwn⟩] } ∧
      resultArea t p = resultBytes (s.port p).go .done
        { updated := false, count := watchesOf s.watches p + 1 } := by
  have room : watchesFull s p = false := by
    rw [← Bool.not_eq_true, watchesFull_iff]
    omega
  have run := exec_watch_taking h code
  rw [judge_accepted (watchChecks_pass right (.inr room)), any_equals_of_new new,
    watchesAfterWatch_new new, watchesOf_concat_self] at run
  exact watches_set_answered window run

theorem watch_present_answered (window : (s.port p).window.wf) (h : Taking s p rest f)
    (code : f.code = 0x40) (right : HoldsRight s f.ns p (·.watch))
    (present : ∃ w ∈ s.watches, w.equals p f = true) :
    ∃ t, exec .watch s = .next t ∧ PortAnswered s t p false ∧
      t = { s with
        ports := t.ports, dispatchQueue := rest
        watches := s.watches.map fun w =>
          if w.equals p f then { w with includeOwn := f.includeOwn } else w } ∧
      resultArea t p = resultBytes (s.port p).go .done
        { updated := true, count := watchesOf s.watches p } := by
  have stands := any_equals_of_present present
  have run := exec_watch_taking h code
  rw [judge_accepted (watchChecks_pass right (.inl stands)), stands,
    watchesOf_watchesAfterWatch_present present, watchesAfterWatch_present present] at run
  exact watches_set_answered window run

theorem unwatch_present_answered (window : (s.port p).window.wf) (h : Taking s p rest f)
    (code : f.code = 0x41) {n : NamespaceEntry} (entry : namespaceEntry s f.ns = some n)
    (opened : n.isOpen = true) (present : ∃ w ∈ s.watches, w.equals p f = true) :
    ∃ t, exec .unwatch s = .next t ∧ PortAnswered s t p false ∧
      t = { s with
        ports := t.ports, dispatchQueue := rest
        watches := s.watches.filter fun w => !w.equals p f } ∧
      resultArea t p = resultBytes (s.port p).go .done { count := watchesOf t.watches p } := by
  have run := exec_unwatch_taking h code
  rw [judge_accepted (unwatchChecks_pass entry opened present)] at run
  obtain ⟨t, next, answered, frame, result⟩ := watches_set_answered window run
  have table : t.watches = s.watches.filter fun w => !w.equals p f := congrArg State.watches frame
  exact ⟨t, next, answered, frame, by rw [result, table]⟩

end Taking

/-- Settles O28: each command is judged by its checks, and sets the Watch Table alone where it passes. -/
theorem watchAndUnwatch : Obligations.WatchAndUnwatch := by
  intro s p rest f item hc taking named
  have window := hc.windows p
  obtain rfl : item = watchItem f := named
  simp only [← Watch.equals_iff, decide_not, Bool.decide_eq_true]
  refine ⟨watch_new_answered window taking, watch_present_answered window taking,
    fun code ⟨_, entry, opened⟩ => unwatch_present_answered window taking code entry opened, ?_⟩
  rintro command refusal (⟨code, rfl, fails⟩ | ⟨code, rfl, fails⟩)
  · exact refused_answeredOnly window (exec_watch_taking taking code) (watchChecks_fail fails)
  · exact refused_answeredOnly window (exec_unwatch_taking taking code) (unwatchChecks_fail fails)

/-- Settles O29: the posting follows the taking from the caller's Change Set, which touches no port unit. -/
theorem takeChangesTakesOldest : Obligations.TakeChangesTakesOldest := by
  rintro s p rest f c hc taking code rfl
  have window := hc.windows p
  have run := exec_takeChanges_taking taking code
  rw [takeChangesBody_eq] at run
  exact ⟨_, run, post_answered_of_ports (rest := rest) (by rfl) window .done _ (some _), rfl,
    resultArea_post_of_ports (rest := rest) (by rfl) window .done _ _,
    post_dataArea _ _ _ _ (takeHead_wf rest window) _⟩

end Sys2Proof.Machine

/-! What a step can touch: every command is a chain of the changes of `Touch`, so that an invariant which each of
them keeps is kept by every step. -/

namespace Sys2Proof.Machine

/-! ## The changes a command is made of -/

/-- The fields that the invariants kept change by change read. -/
def invariantFields (s : State) :=
  (s.array, s.ports, s.claims, s.directory, s.watches, s.changeSets, s.powered, s.resetAsserted,
    s.device, s.now, s.pending)

/-- A handle names a claim slot that is in use, at its generation, with the key for its target (R30, R84). -/
def Names (s : State) (hd : Handle) (k : Key) : Prop :=
  (s.slot hd.slot).state ≠ .free ∧ (s.slot hd.slot).generation = hd.generation ∧
    (s.slot hd.slot).target = some (.record k)

/-- What a Claim Unit operation other than a release may make of slot `i` (R91, R92, R97, R100): a claim in use
goes on as the same claim, and a HELD slot has a lease that runs. -/
structure SlotStep (s : State) (i : SlotNo) (x : Slot) : Prop where
  ready : s.isReady = true
  buffer : Memory.wf (s.slot i).buffer → Memory.wf x.buffer
  lease : x.state = .held → ∃ expiry, x.lease = some expiry ∧ s.now ≤ expiry
  claim : (s.slot i).state ≠ .free →
    x.state ≠ .free ∧ x.generation = (s.slot i).generation ∧ x.target = (s.slot i).target

/-- The Watch Table is within its bounds, with no two equal entries (R162). -/
structure WatchesFit (ws : List Watch) : Prop where
  places : ws.length ≤ 64
  perPort : ∀ p, watchesOf ws p ≤ 16
  distinct : ws.Pairwise fun a b => ¬(a.port = b.port ∧ a.ns = b.ns ∧ a.item = b.item)

/-- The volatile structures that the invariants read have their values at entry to STARTING (R150). -/
structure Cleared (s t : State) : Prop where
  array : t.array = s.array
  pending : t.pending = s.pending
  windows : ∀ p, (t.port p).window = []
  claims : t.claims = Vector.replicate 8 Slot.reset
  directory : t.directory = []
  watches : t.watches = []
  changeSets : t.changeSets = Vector.replicate 4 ⟨[], false⟩

/-- The changes that a command is made of. -/
inductive Touch : State → State → Prop
  | elsewhere {s t : State} (h : invariantFields t = invariantFields s) : Touch s t
  | page (s : State) (n : Nat) (c : PageCell) : Touch s (s.setPage n c)
  | units (s : State) (ports : Vector PortUnit 4)
      (h : ∀ p : Port, (s.port p).window.wf → (ports[p]).window.wf) : Touch s { s with ports := ports }
  | entry (s : State) (k : Key) (f : Entry → Entry) (key : ∀ e, e.key = k → (f e).key = k)
      (claim : ∀ e, s.entry k = some e → ∀ hd, (f e).claim = some hd → e.claim = some hd ∨ Names s hd k) :
      Touch s (s.modifyEntry k f)
  | made (s : State) (e : Entry) (absent : s.entry e.key = none) (room : s.directory.length < 512)
      (claim : ∀ hd, e.claim = some hd → Names s hd e.key) : Touch s (s.addEntry e)
  | removed (s : State) (k : Key) : Touch s (s.removeEntry k)
  | released (s : State) (i : SlotNo) (cause : ReleaseCause) : Touch s (releaseSlot s i cause)
  | slot (s : State) (i : SlotNo) (x : Slot) (h : SlotStep s i x) : Touch s (s.setSlot i x)
  | noticed (s : State) (kind : NoticeKind) (k : Key) (version : Nat) (cause : Option Port) :
      Touch s (notify s kind k version cause)
  | watched (s : State) (ws : List Watch) (h : WatchesFit s.watches → WatchesFit ws) :
      Touch s { s with watches := ws }
  | taken (s : State) (p : Port) (c : ChangeSet) (h : c.entries.Sublist (s.changes p).entries) :
      Touch s (s.setChanges p c)
  | cleared {s t : State} (h : Cleared s t) : Touch s t
  | stopped (s : State) (powered resetAsserted : Bool) (device : DeviceState)
      (h : (powered && !resetAsserted) = false ∨ device = .halted) :
      Touch s { s with powered := powered, resetAsserted := resetAsserted, device := device }
  | rebuilt (s : State) (directory : List Entry)
      (ordered : directory.Pairwise fun a b => a.key.before b.key = true)
      (bounded : directory.length ≤ 512) (claim : ∀ e ∈ directory, e.claim = none) :
      Touch s { s with directory := directory }
  | ready (s : State) (h : s.isStarting = true) : Touch s { s with device := .ready }
  | tick (s : State) (h : s.isReady = true → ∀ i, leaseOverdue s i = false) :
      Touch s { s with now := s.now + 1 }

/-- A chain of changes, each within a frame. -/
def Touches (Frame : State → State → Prop) : State → State → Prop :=
  Relation.ReflTransGen fun s t => Frame s t ∧ Touch s t

/-- What an engine event leaves alone: an event that only reads, selects or ends a job leaves the array alone too
(R104). -/
structure EventFrame (reads : Bool) (s t : State) : Prop where
  engine : EngineFrame s t
  array : reads = true → t.array = s.array

/-- A chain of changes within what the Array Engine may touch. -/
abbrev EngineTouches (reads : Bool) : State → State → Prop := Touches (EventFrame reads)

section Chains
variable {Frame Frame' : State → State → Prop} {s t u : State}

theorem Touches.refl : Touches Frame s s := Relation.ReflTransGen.refl

theorem Touches.trans (h₁ : Touches Frame s t) (h₂ : Touches Frame t u) : Touches Frame s u :=
  Relation.ReflTransGen.trans h₁ h₂

theorem Touches.one (frame : Frame s t) (h : Touch s t) : Touches Frame s t :=
  Relation.ReflTransGen.single ⟨frame, h⟩

theorem Touches.mono (h : ∀ s t, Frame s t → Frame' s t) (h₁ : Touches Frame s t) : Touches Frame' s t :=
  Relation.ReflTransGen.mono (fun a b hab => ⟨h a b hab.1, hab.2⟩) _ _ h₁

/-- A frame that composes holds along the whole chain. -/
theorem Touches.frame (refl : ∀ s, Frame s s) (trans : ∀ {s t u}, Frame s t → Frame t u → Frame s u)
    (h : Touches Frame s t) : Frame s t := by
  induction h with
  | refl => exact refl s
  | tail _ last ih => exact trans ih last.1

/-- A property that every change keeps holds along the whole chain. -/
theorem Touches.keeps {P : State → Prop} (keeps : ∀ s t, Touch s t → P s → P t)
    (h : Touches Frame s t) (hs : P s) : P t := by
  induction h with
  | refl => exact hs
  | tail _ last ih => exact keeps _ _ last.2 ih

end Chains

/-! ## Shared operations -/

section Shared
variable {reads : Bool} variable (s : State) (r : RunningJob) (k : Key) (c : CopyNo)

theorem elsewhere_touches {s t : State} (frame : EngineFrame s t)
    (h : invariantFields t = invariantFields s) : EngineTouches reads s t :=
  .one ⟨frame, fun _ => congrArg Prod.fst h⟩ (.elsewhere h)

/-- A change elsewhere, and what follows it. -/
theorem elsewhere_then {s t u : State} (h₂ : EngineTouches reads t u) (frame : EngineFrame s t)
    (h : invariantFields t = invariantFields s) : EngineTouches reads s u :=
  (elsewhere_touches frame h).trans h₂

theorem modifyEntry_touches (f : Entry → Entry) (key : ∀ e, e.key = k → (f e).key = k)
    (claim : ∀ e, s.entry k = some e → ∀ hd, (f e).claim = some hd → e.claim = some hd) :
    EngineTouches reads s (s.modifyEntry k f) :=
  .one ⟨rfl, fun _ => rfl⟩ (.entry s k f key fun e he hd h => .inl (claim e he hd h))

/-- A change of the entry that stands, which keeps its key and its claim field. -/
theorem replaceEntry_touches {s : State} {k : Key} {e e' : Entry} (he : s.entry k = some e)
    (key : e'.key = e.key) (claim : e'.claim = e.claim) :
    EngineTouches reads s (s.modifyEntry k fun _ => e') := by
  refine modifyEntry_touches s k _ (fun _ _ => key.trans (State.entry_some he).2) fun x hx hd h => ?_
  obtain rfl : e = x := Option.some.inj (he.symm.trans hx)
  exact claim ▸ h

theorem removeEntry_touches : EngineTouches reads s (s.removeEntry k) := .one ⟨rfl, fun _ => rfl⟩ (.removed s k)

theorem setPage_touches (n : Nat) (cell : PageCell) : EngineTouches false s (s.setPage n cell) :=
  .one ⟨rfl, Bool.noConfusion⟩ (.page s n cell)

theorem spoilPage_touches (n : Nat) : EngineTouches false s (s.spoilPage n) :=
  (setPage_touches s n _).trans (elsewhere_touches rfl rfl)

/-- The posting of a completion writes the window by whole bytes. -/
theorem post_touch (p : Port) (code : Completion) (res : Result) (data : Option (List Byte)) :
    Touch s (post s p code res data) := by
  refine .units s _ fun q hq => ?_
  have unit : (s.port q).window.wf → ((post s p code res data).port q).window.wf := by
    by_cases h : q = p
    · subst h
      rw [post_port_self]
      exact postUnit_wf _ code res data
    · rw [post_port_ne _ _ _ _ _ h]
      exact id
  exact unit hq

theorem completeJob_touches (code : Completion) (res : Result) (data : Option (List Byte)) :
    EngineTouches reads s (completeJob s r code res data) := by
  unfold completeJob
  split
  · exact .one ⟨rfl, fun _ => rfl⟩ (post_touch s _ code res data)
  · exact .refl

theorem inWriteToDirty_touches : EngineTouches reads s (inWriteToDirty s k) := elsewhere_touches rfl rfl

theorem inWriteToLive_touches (pages : List Nat) : EngineTouches reads s (inWriteToLive s pages) :=
  elsewhere_touches rfl rfl

theorem liveToDirty_touches (pages : List Nat) : EngineTouches reads s (liveToDirty s pages k) :=
  elsewhere_touches rfl rfl

theorem inWritePageToDirty_touches (page : Nat) : EngineTouches reads s (inWritePageToDirty s page k) :=
  elsewhere_touches rfl rfl

theorem finishJob_touches : EngineTouches reads s (finishJob s) := elsewhere_touches rfl rfl

theorem releaseJobSlot_touches (cause : ReleaseCause) : EngineTouches reads s (releaseJobSlot s r cause) := by
  unfold releaseJobSlot
  split
  · next hd _ =>
    refine .one ⟨?_, fun _ => by rw [releaseSlot_frame]⟩ (.released s hd.slot cause)
    unfold EngineFrame
    rw [releaseSlot_frame]
  · exact .refl

theorem notify_touches (kind : NoticeKind) (version : Nat) (cause : Option Port) :
    EngineTouches reads s (notify s kind k version cause) := .one ⟨rfl, fun _ => rfl⟩ (.noticed s kind k version cause)

theorem repairRequest_touches (version : Nat) (cause : RepairCause) :
    EngineTouches reads s (repairRequest s k version c cause) := by
  rw [repairRequest_frame]
  exact elsewhere_touches rfl rfl

theorem placeLost_touches (version : Nat) : EngineTouches reads s (placeLost s k version c) := by
  rw [placeLost_frame]
  exact elsewhere_touches rfl rfl

end Shared

@[simp] theorem Entry.setCopy_key (e : Entry) (c : CopyNo) (d : Option CopyDescriptor) :
    (e.setCopy c d).key = e.key := by cases c <;> rfl

@[simp] theorem Entry.setCopy_claim (e : Entry) (c : CopyNo) (d : Option CopyDescriptor) :
    (e.setCopy c d).claim = e.claim := by cases c <;> rfl

@[simp] theorem Entry.judged_key (e : Entry) : e.judged.key = e.key := rfl

@[simp] theorem Entry.judged_claim (e : Entry) : e.judged.claim = e.claim := rfl

/-! ## Reports of page reads -/

section Reports
variable {reads : Bool} variable (s : State) (k : Key) (c : CopyNo)

theorem chargeCorrection_touches (faulty : Bool) : EngineTouches reads s (chargeCorrection s k c faulty) := by
  unfold chargeCorrection
  split
  · exact .refl
  · split
    · exact .refl
    · next d _ =>
      have charged : EngineTouches reads s (s.modifyEntry k fun e =>
          e.setCopy c (some { d with corrections := min 255 (d.corrections + 1) })) :=
        modifyEntry_touches s k _ (by simp) (by simp)
      split
      · exact .refl
      · simp only
        split
        · exact charged.trans (repairRequest_touches _ _ _ _ _)
        · exact charged

theorem copyFault_touches : EngineTouches reads s (copyFault s k c) := by
  unfold copyFault
  split
  · exact .refl
  · next e he =>
    split
    · exact .refl
    · next d _ =>
      have judged : EngineTouches reads s
          (s.modifyEntry k fun _ => (e.setCopy c (some { d with valid := false })).judged) :=
        replaceEntry_touches he (by simp) (by simp)
      split
      · exact .refl
      · simp only
        split
        · exact judged
        · exact judged.trans (repairRequest_touches _ _ _ _ _)
        · split
          · exact judged
          · exact judged.trans (notify_touches _ _ _ _ _)

theorem reportPage_touches (report : PageReport) (pageFaulty copyFaulty : Bool) :
    EngineTouches reads s (reportPage s k c report pageFaulty copyFaulty) := by
  have charged : EngineTouches reads s
      (if report.corrected then chargeCorrection s k c pageFaulty else s) := by
    split
    · exact chargeCorrection_touches s k c pageFaulty
    · exact .refl
  unfold reportPage
  simp only
  cases copyFaulty
  · exact charged
  · exact charged.trans (copyFault_touches _ k c)

end Reports

/-! ## The ends of jobs -/

section Ends
variable {reads : Bool} variable (s : State) (r : RunningJob)

theorem backToLive_touches (k : Key) : EngineTouches reads s (backToLive s k) :=
  modifyEntry_touches s k _ (fun _ h => h) fun _ _ _ h => h

/-- A job's answer and its end. -/
theorem finish_completeJob_touches (code : Completion) (res : Result) (data : Option (List Byte)) :
    EngineTouches reads s (finishJob (completeJob s r code res data)) :=
  (completeJob_touches s r code res data).trans (finishJob_touches _)

theorem endWriteDone_touches : EngineTouches reads s (endWriteDone s r) :=
  (backToLive_touches s r.key).trans
    ((releaseJobSlot_touches _ r .committed).trans (finish_completeJob_touches _ r _ _ _))

theorem endCopyPending_touches : EngineTouches reads s (endCopyPending s r) := by
  unfold endCopyPending
  refine (inWriteToDirty_touches s r.key).trans (Touches.trans ?_ (finish_completeJob_touches _ r _ _ _))
  refine Touches.trans ?_ (releaseJobSlot_touches _ r .committed)
  refine Touches.trans ?_ (repairRequest_touches _ _ _ _ _)
  exact modifyEntry_touches _ _ _ (fun _ h => h) fun _ _ _ h => h

theorem undoEntry_touches : EngineTouches reads s (undoEntry s r) := by
  unfold undoEntry
  split
  · exact .refl
  · split
    · exact (removeEntry_touches s r.key).trans (liveToDirty_touches _ _ _)
    · exact backToLive_touches s r.key

theorem endBeforeCommit_touches (code : Completion) : EngineTouches reads s (endBeforeCommit s r code) := by
  unfold endBeforeCommit
  exact (inWriteToDirty_touches s r.key).trans ((undoEntry_touches _ r).trans
    ((releaseJobSlot_touches _ r .failed).trans (finish_completeJob_touches _ r _ _ _)))

theorem closeRepair_touches : EngineTouches reads s (closeRepair s r) := by
  have dropped : EngineTouches reads s (dropRepair s r.key r.job.params.copy) := elsewhere_touches rfl rfl
  refine dropped.trans (Touches.trans ?_ (finishJob_touches _))
  rw [replaceLost_frame]
  exact elsewhere_touches rfl rfl

theorem endRepairWithout_touches : EngineTouches reads s (endRepairWithout s r) :=
  (inWriteToDirty_touches s r.key).trans (closeRepair_touches _ r)

theorem installRepair_touches : EngineTouches reads s (installRepair s r) := by
  unfold installRepair
  simp only
  split
  · exact .refl
  · next e he =>
    have judged : EngineTouches reads s (s.modifyEntry r.key fun _ =>
        (e.setCopy r.job.params.copy (some (descriptorOf r r.job.params.copy))).judged) :=
      replaceEntry_touches he (by simp) (by simp)
    have moved := judged.trans ((liveToDirty_touches _ r.key
      (descriptorPages (e.copy r.job.params.copy))).trans (inWriteToLive_touches _
        ((descriptorOf r r.job.params.copy).header :: (descriptorOf r r.job.params.copy).dataPages)))
    split
    · exact moved.trans (placeLost_touches _ _ _ _)
    · exact moved

theorem endRepairInstalled_touches : EngineTouches reads s (endRepairInstalled s r) :=
  (installRepair_touches s r).trans (closeRepair_touches _ r)

theorem failJob_touches (code : Completion) : EngineTouches reads s (failJob s r code) := by
  unfold failJob
  split
  · exact endRepairWithout_touches s r
  · exact endBeforeCommit_touches s r code
  · exact endCopyPending_touches s r

end Ends

/-! ## Programs and draws -/

section Draws
variable {reads : Bool} variable (s : State) (r : RunningJob)

theorem beginHeader_touches (page : Nat) (tag : Tag) (payload : Nat → Payload) :
    EngineTouches reads s (beginHeader s r page tag payload) := by
  unfold beginHeader
  split
  · exact failJob_touches s r .exhausted
  · exact elsewhere_touches rfl rfl

theorem programNext_touches : EngineTouches reads s (programNext s r) := by
  unfold programNext
  split
  · exact elsewhere_touches rfl rfl
  · split
    · exact elsewhere_touches rfl rfl
    · exact beginHeader_touches s r _ _ _
    · exact beginHeader_touches s r _ _ _

theorem continueDraw_touches (count : Nat) (role : Option PageRole) :
    EngineTouches reads s (continueDraw s r count role) := by
  unfold continueDraw
  split
  · unfold drawNow
    simp only
    split
    · exact elsewhere_then (programNext_touches _ _) rfl rfl
    · exact elsewhere_then (programNext_touches _ _) rfl rfl
  · split
    · exact elsewhere_touches rfl rfl
    · split
      · exact elsewhere_then (failJob_touches _ r .noSpace) rfl rfl
      · exact failJob_touches s r .noSpace

theorem programFailed_touches (d : DrawnPage) : EngineTouches false s (programFailed s r d) := by
  have moved := (spoilPage_touches s d.page).trans (inWritePageToDirty_touches _ r.key d.page)
  unfold programFailed
  simp only
  split
  · exact moved.trans (failJob_touches _ _ _)
  · exact moved.trans (continueDraw_touches _ _ _ _)

end Draws

/-! ## The starts of jobs -/

section Starts
variable {reads : Bool} variable (s : State) (r : RunningJob)

theorem endRead_touches (code : Completion) (res : Result) (data : List Byte) :
    EngineTouches reads s (endRead s r code res data) := finish_completeJob_touches s r code res (some data)

theorem beginRead_touches (e : Entry) (c : CopyNo) : EngineTouches reads s (beginRead s r e c) := by
  unfold beginRead
  split
  · exact elsewhere_touches rfl rfl
  · exact endRead_touches s r _ _ _

theorem startRead_touches (j : Job) (k : Key) : EngineTouches reads s (startRead s j k) := by
  unfold startRead
  simp only
  split
  · exact endRead_touches _ _ _ _ _
  · split
    · exact endRead_touches _ _ _ _ _
    · split
      · exact endRead_touches _ _ _ _ _
      · split
        · exact endRead_touches _ _ _ _ _
        · split
          · exact beginRead_touches _ _ _ _
          · exact endRead_touches _ _ _ _ _

theorem endPreloadDamaged_touches : EngineTouches reads s (endPreloadDamaged s r) :=
  (releaseJobSlot_touches s r .failed).trans (finish_completeJob_touches _ r _ _ _)

theorem beginSource_touches (c : CopyNo) (d : CopyDescriptor) :
    EngineTouches reads s (beginSource s r c d) := elsewhere_touches rfl rfl

theorem beginChosenSource_touches (e : Entry) {failed : State} (h : EngineTouches reads s failed) :
    EngineTouches reads s (beginChosenSource s r e failed) := by
  unfold beginChosenSource
  split
  · exact h
  · split
    · exact h
    · exact beginSource_touches s r _ _

theorem startPreload_touches (j : Job) (k : Key) : EngineTouches reads s (startPreload s j k) := by
  unfold startPreload
  simp only
  split
  · exact endPreloadDamaged_touches s _
  · split
    · exact endPreloadDamaged_touches s _
    · exact beginChosenSource_touches s _ _ (endPreloadDamaged_touches s _)

theorem endRaiseDamaged_touches : EngineTouches reads s (endRaiseDamaged s r) := by
  have withdrawn : EngineTouches reads s { s with reservation := s.reservation - r.job.need } :=
    elsewhere_touches rfl rfl
  exact withdrawn.trans (endBeforeCommit_touches _ r .damaged)

theorem startWriteCopy_touches (j : Job) (k : Key) : EngineTouches reads s (startWriteCopy s j k) := by
  unfold startWriteCopy
  split
  · exact endBeforeCommit_touches s _ _
  · simp only
    split
    · exact beginChosenSource_touches s _ _ (endRaiseDamaged_touches s _)
    · exact continueDraw_touches s _ _ _

theorem startRetire_touches (j : Job) (k : Key) : EngineTouches reads s (startRetire s j k) := by
  unfold startRetire
  split
  · exact endBeforeCommit_touches s _ _
  · exact continueDraw_touches s _ _ _

theorem endConfig_touches (code : Completion) (committed : Bool) :
    EngineTouches reads s (endConfig s r code committed) :=
  (releaseJobSlot_touches s r _).trans (finish_completeJob_touches _ r _ _ _)

theorem beginConfigStep_touches (step : Nat) : EngineTouches reads s (beginConfigStep s r step) := by
  unfold beginConfigStep
  simp only
  split
  · exact elsewhere_touches rfl rfl
  · exact elsewhere_touches rfl rfl
  · split
    · exact endConfig_touches s _ _ _
    · exact elsewhere_touches rfl rfl
  · exact elsewhere_touches rfl rfl

theorem setCopyState_touches (c : CopyNo) (x : CopyState) : EngineTouches reads s (setCopyState s c x) := by
  cases c <;> exact elsewhere_touches rfl rfl

theorem startConfigWrite_touches (j : Job) : EngineTouches reads s (startConfigWrite s j) := by
  unfold startConfigWrite
  exact (setCopyState_touches s (configTarget s) .invalid).trans (beginConfigStep_touches _ _ _)

theorem startRepair_touches (x : RepairEntry) : EngineTouches reads s (startRepair s x) := by
  have marked : EngineTouches reads s { markRunning s x.key x.copy with engine := .running } :=
    elsewhere_touches rfl rfl
  refine marked.trans ?_
  unfold startRepair
  simp only
  split
  · exact endRepairWithout_touches _ _
  · split
    · exact endRepairWithout_touches _ _
    · split
      · exact endRepairWithout_touches _ _
      · exact beginSource_touches _ _ _ _

theorem patrolFrom_touches (copies : List CopyNo) : EngineTouches reads s (patrolFrom s r copies) := by
  induction copies with
  | nil => exact finishJob_touches s
  | cons c rest ih =>
    unfold patrolFrom
    split
    · split
      · exact beginSource_touches s r _ _
      · exact ih
    · exact ih

theorem startPatrol_touches : EngineTouches reads s (startPatrol s) := by
  have due : EngineTouches reads s { s with engine := .running, patrolDue := false } :=
    elsewhere_touches rfl rfl
  refine due.trans ?_
  unfold startPatrol
  simp only
  split
  · exact finishJob_touches _
  · exact elsewhere_then (patrolFrom_touches _ _ _) rfl rfl

theorem startJob_touches (j : Job) : EngineTouches reads s (startJob s j) := by
  unfold startJob
  split
  · exact startConfigWrite_touches s j
  · exact startRead_touches s j _
  · exact startPreload_touches s j _
  · exact startWriteCopy_touches s j _
  · exact startRetire_touches s j _
  · exact finishJob_touches s

theorem selectEraseOrPatrol_touches : EngineTouches reads s (selectEraseOrPatrol s) := by
  unfold selectEraseOrPatrol
  split
  · exact elsewhere_touches rfl rfl
  · split
    · exact startPatrol_touches s
    · exact .refl

theorem selectBackground_touches : EngineTouches reads s (selectBackground s) := by
  unfold selectBackground
  split
  · split
    · exact startRepair_touches s _
    · exact selectEraseOrPatrol_touches s
  · exact selectEraseOrPatrol_touches s

theorem selectJob_touches : EngineTouches reads s (selectJob s) := by
  unfold selectJob
  split
  · exact elsewhere_then (startJob_touches _ _) rfl rfl
  · split
    · exact .refl
    · exact selectBackground_touches s

end Starts

/-! ## The ends of page reads -/

section Reads
variable {reads : Bool} variable (s : State) (r : RunningJob)

theorem readFaulty_touches (c : CopyNo) : EngineTouches reads s (readFaulty s r c) := by
  unfold readFaulty
  split
  · exact beginRead_touches s r _ _
  · exact endRead_touches s r _ _ _

theorem readPageDone_touches (o : ReadOutcome) : EngineTouches reads s (readPageDone o s r) := by
  unfold readPageDone
  split
  · next c page _ _ _ _ _ _ =>
    split
    · refine (reportPage_touches s r.key c (readCell (s.page page) o)
        (readCell (s.page page) o).dataBytes.isNone (readCell (s.page page) o).dataBytes.isNone).trans ?_
      simp only
      split
      · exact readFaulty_touches _ r _
      · exact endRead_touches _ r _ _ _
      · exact elsewhere_touches rfl rfl
    · exact .refl
  · exact .refl

/-- A page of a whole-copy read, whatever goes on from it. -/
theorem sourcePageDone_touches (o : ReadOutcome) {next : State → CopyNo → SourceStep → State}
    (h : ∀ c step b b', EngineTouches reads
      (reportPage s r.key c (readCell (s.page (r.stage.sourcePage.getD 0)) o) b b')
      (next (reportPage s r.key c (readCell (s.page (r.stage.sourcePage.getD 0)) o) b b') c step)) :
    EngineTouches reads s (sourcePageDone o s r next) := by
  unfold sourcePageDone
  split
  · next hst _ =>
    split
    · exact .refl
    · split
      · have hp := hst ▸ h
        exact (reportPage_touches s r.key _ _ _ _).trans (hp _ _ _ _)
      · exact .refl
  · exact .refl

theorem continueSource_touches (stage : Stage) : EngineTouches reads s (continueSource s r stage) :=
  elsewhere_touches rfl rfl

theorem sourceFaulty_touches (c : CopyNo) {failed : State} (h : EngineTouches reads s failed) :
    EngineTouches reads s (sourceFaulty s r c failed) := by
  unfold sourceFaulty
  split
  · exact h
  · split
    · exact beginSource_touches s r _ _
    · exact h

theorem beginDraw_touches : EngineTouches reads s (beginDraw s r) := continueDraw_touches s r _ none

theorem endPreloadDone_touches (ready : s.isReady = true) (e : Entry) (bytes : List Byte) :
    EngineTouches reads s (endPreloadDone s r e bytes) := by
  unfold endPreloadDone
  split
  · next hd p _ _ =>
    have slot : EngineTouches reads s
        (s.setSlot hd.slot (preloadSlot s (s.slot hd.slot) p bytes e.length)) :=
      .one ⟨rfl, fun _ => rfl⟩ (.slot s _ _
        { ready := ready
          buffer := fun h => Memory.wf_writeRange h 0 bytes
          lease := fun _ => ⟨_, rfl, Nat.le_add_right _ _⟩
          claim := fun _ => ⟨by simp [preloadSlot], rfl, rfl⟩ })
    exact slot.trans (Touches.trans (.one ⟨EngineFrame.post _ _ _ _ _, fun _ => rfl⟩ (post_touch _ _ _ _ _))
      (finishJob_touches _))
  · exact finishJob_touches s

theorem preloadStep_touches (ready : s.isReady = true) (c : CopyNo) (step : SourceStep) :
    EngineTouches reads s (preloadStep r s c step) := by
  unfold preloadStep
  split
  · exact continueSource_touches s r _
  · exact sourceFaulty_touches s r c (endPreloadDamaged_touches s r)
  · split
    · exact endPreloadDone_touches s r ready _ _
    · exact endPreloadDamaged_touches s r

theorem raiseStep_touches (c : CopyNo) (step : SourceStep) : EngineTouches reads s (raiseStep r s c step) := by
  unfold raiseStep
  split
  · exact continueSource_touches s r _
  · exact sourceFaulty_touches s r c (endRaiseDamaged_touches s r)
  · exact beginDraw_touches s _

theorem repairStep_touches (c : CopyNo) (step : SourceStep) : EngineTouches reads s (repairStep r s c step) := by
  unfold repairStep
  split
  · exact continueSource_touches s r _
  · exact endRepairWithout_touches s r
  · exact beginDraw_touches s _

theorem patrolStep_touches (c : CopyNo) (step : SourceStep) : EngineTouches reads s (patrolStep r s c step) := by
  unfold patrolStep
  split
  · exact continueSource_touches s r _
  · exact patrolFrom_touches s r _
  · exact patrolFrom_touches s r _

@[simp] theorem reportPage_isReady (k : Key) (c : CopyNo) (report : PageReport) (b b' : Bool) :
    (reportPage s k c report b b').isReady = s.isReady := by
  rw [reportPage_frame]; rfl

theorem copySourcePageDone_touches (ready : s.isReady = true) (o : ReadOutcome) :
    EngineTouches reads s (copySourcePageDone o s r) := by
  unfold copySourcePageDone
  split
  · exact sourcePageDone_touches s r o fun c step _ _ =>
      preloadStep_touches _ r (by rw [reportPage_isReady]; exact ready) c step
  · exact sourcePageDone_touches s r o fun c step _ _ => raiseStep_touches _ r c step
  · exact .refl

theorem repairSourcePageDone_touches (o : ReadOutcome) :
    EngineTouches reads s (repairSourcePageDone o s r) := by
  unfold repairSourcePageDone
  split
  · exact sourcePageDone_touches s r o fun c step _ _ => repairStep_touches _ r c step
  · exact .refl

theorem patrolPageDone_touches (o : ReadOutcome) : EngineTouches reads s (patrolPageDone o s r) := by
  unfold patrolPageDone
  split
  · exact sourcePageDone_touches s r o fun c step _ _ => patrolStep_touches _ r c step
  · exact .refl

end Reads

/-! ## The ends of programs and erases -/

section Programs
variable (s : State) (r : RunningJob)

theorem pageProgrammed_touches (d : DrawnPage) (tag : Tag) (payload : Payload) :
    EngineTouches false s (pageProgrammed s d tag payload) := setPage_touches s _ _

theorem dataPageDone_touches (success : Bool) : EngineTouches false s (dataPageDone success s r) := by
  unfold dataPageDone
  split
  · simp only
    split
    · exact (pageProgrammed_touches s _ _ _).trans (programNext_touches _ _)
    · exact programFailed_touches s r _
  · exact .refl

theorem dropRetirement_touches (k : Key) : EngineTouches false s (dropRetirement s k) := by
  rw [dropRetirement_frame]
  exact elsewhere_touches rfl rfl

theorem supersedeBelow_touches (k : Key) (version : Nat) :
    EngineTouches false s (supersedeBelow s k version) := elsewhere_touches rfl rfl

theorem applyCommit_touches : EngineTouches false s (applyCommit s r) := by
  unfold applyCommit
  simp only
  split
  · exact .refl
  · next e he =>
    have installed := (replaceEntry_touches (reads := false) (e' := committedEntry e r) he rfl rfl).trans
      ((liveToDirty_touches _ r.key (entryPages e)).trans
        (inWriteToLive_touches _ (descriptorPages (some (descriptorOf r .one)))))
    refine Touches.trans ?_ (notify_touches _ _ _ _ _)
    refine Touches.trans ?_ (supersedeBelow_touches _ _ _)
    split
    · exact installed.trans (dropRetirement_touches _ _)
    · exact installed

theorem commitPointDone_touches : EngineTouches false s (commitPointDone s r) := by
  unfold commitPointDone
  split
  · next page done tag payload _ _ =>
    simp only
    refine (pageProgrammed_touches s ⟨page, .header .one, done⟩ tag payload).trans
      ((applyCommit_touches _
        { markProgrammed r ⟨page, .header .one, done⟩ with phase := .afterCommit }).trans ?_)
    split
    · exact endWriteDone_touches _ _
    · exact programNext_touches _ _
  · exact .refl

theorem applyCopy2_touches : EngineTouches false s (applyCopy2 s r) := by
  unfold applyCopy2
  refine Touches.trans ?_ (inWriteToLive_touches _ _)
  exact modifyEntry_touches _ _ _ (fun _ h => h) fun _ _ _ h => h

theorem copy2Done_touches : EngineTouches false s (copy2Done s r) := by
  unfold copy2Done
  split
  · simp only
    exact (pageProgrammed_touches s _ _ _).trans ((applyCopy2_touches _ _).trans (endWriteDone_touches _ _))
  · exact .refl

theorem supersedeKey_touches (k : Key) : EngineTouches false s (supersedeKey s k) := elsewhere_touches rfl rfl

theorem applyRetirement_touches (page : Nat) : EngineTouches false s (applyRetirement s r page) := by
  unfold applyRetirement
  simp only
  split
  · exact .refl
  · refine Touches.trans ?_ (notify_touches _ _ _ _ _)
    refine Touches.trans ?_ (supersedeKey_touches _ _)
    refine Touches.trans ?_ (inWriteToLive_touches _ _)
    exact (removeEntry_touches s r.key).trans
      ((liveToDirty_touches _ r.key _).trans (elsewhere_touches rfl rfl))

theorem retirementDone_touches : EngineTouches false s (retirementDone s r) := by
  unfold retirementDone
  split
  · exact (pageProgrammed_touches s _ _ _).trans
      ((applyRetirement_touches _ _ _).trans (finish_completeJob_touches _ _ _ _ _))
  · exact .refl

theorem repairPageDone_touches (success : Bool) : EngineTouches false s (repairPageDone success s r) := by
  unfold repairPageDone
  split
  · next d tag payload _ _ =>
    split
    · refine (pageProgrammed_touches s d tag payload).trans ?_
      simp only
      split
      · exact endRepairInstalled_touches _ _
      · exact programNext_touches _ _
    · exact programFailed_touches s r _
  · exact .refl

theorem eraseHeadDone_touches (success : Bool) : EngineTouches false s (eraseHeadDone s success) := by
  cases h : s.eraseList with
  | nil => simp only [eraseHeadDone, h]; exact .refl
  | cons x rest =>
    obtain ⟨page, k⟩ := x
    cases success
    · rw [eraseHeadDone_failure h]
      exact (spoilPage_touches s page).trans (elsewhere_touches rfl rfl)
    · rw [eraseHeadDone_success h]
      exact (setPage_touches s page _).trans (elsewhere_touches rfl rfl)

theorem eraseDone_touches (success : Bool) : EngineTouches false s (eraseDone success s r) := by
  unfold eraseDone
  split
  · exact (eraseHeadDone_touches s success).trans (finishJob_touches _)
  · exact (eraseHeadDone_touches s success).trans (continueDraw_touches _ r _ _)
  · exact .refl

theorem configPageDone_touches (success : Bool) : EngineTouches false s (configPageDone success s r) := by
  unfold configPageDone
  split
  · split
    · exact .refl
    · split
      · exact (setPage_touches s _ _).trans (beginConfigStep_touches _ _ _)
      · exact (spoilPage_touches s _).trans (endConfig_touches _ _ _ _)
  · exact .refl

theorem applyConfigCommit_touches (sequence : Nat) :
    EngineTouches false s (applyConfigCommit s r sequence) :=
  (setCopyState_touches s _ _).trans (elsewhere_touches rfl rfl)

theorem configCommitDone_touches : EngineTouches false s (configCommitDone s r) := by
  unfold configCommitDone
  split
  · exact (setPage_touches s _ _).trans
      ((applyConfigCommit_touches _ _ _).trans (endConfig_touches _ _ _ _))
  · exact .refl

theorem headerFailed_touches : EngineTouches false s (headerFailed s r) := by
  have failed : EngineTouches false s (match currentProgram s r with
      | some (d, _, _) => if d.role.isHeader then programFailed s r d else s
      | none => s) := by
    split
    · split
      · exact programFailed_touches s r _
      · exact .refl
    · exact .refl
  unfold headerFailed
  split
  · exact (spoilPage_touches s _).trans (endConfig_touches _ _ _ _)
  · exact failed
  · exact failed
  · exact .refl

end Programs

/-! ## Every event of the Array Engine -/

/-- The commands of the Array Engine (section 7). -/
def isEngineEvent : Instr → Bool
  | .jobSelect | .readJobPageRead _ | .copySourcePageRead _ | .repairSourcePageRead _
  | .patrolPageRead _ | .dataPageProgramDone _ | .commitPoint | .copy2Installed
  | .retirementCommitPoint | .repairPageProgramDone _ | .eraseComplete _
  | .configPageOperationDone _ | .configurationCommitPoint | .headerProgramFailure => true
  | _ => false

/-- The events that select a job or end a page read, and so change no page (R104, R105). -/
def isReadEvent : Instr → Bool
  | .jobSelect | .readJobPageRead _ | .copySourcePageRead _ | .repairSourcePageRead _
  | .patrolPageRead _ => true
  | _ => false

theorem jobEvent_touches {reads : Bool} (s : State) {body : RunningJob → State}
    (h : s.isReady = true → ∀ r, EngineTouches reads s (body r)) :
    EngineTouches reads s (jobEvent s body) := by
  rcases jobEvent_cases s body with heq | ⟨r, ready, -, heq⟩
  · rw [heq]; exact .refl
  · rw [heq]; exact h ready r

/-- Every event of the Array Engine is a chain of changes within its frame. -/
theorem exec_engine_touches {c : Instr} {s t : State} (engine : isEngineEvent c = true)
    (h : exec c s = .next t) : EngineTouches (isReadEvent c) s t := by
  cases c <;> first
    | exact absurd engine Bool.false_ne_true
    | (injection h with h; subst h)
  case jobSelect =>
    split
    · exact selectJob_touches s
    · exact .refl
  case readJobPageRead o => exact jobEvent_touches s fun _ r => readPageDone_touches s r o
  case copySourcePageRead o =>
    exact jobEvent_touches s fun ready r => copySourcePageDone_touches s r ready o
  case repairSourcePageRead o => exact jobEvent_touches s fun _ r => repairSourcePageDone_touches s r o
  case patrolPageRead o => exact jobEvent_touches s fun _ r => patrolPageDone_touches s r o
  case dataPageProgramDone b => exact jobEvent_touches s fun _ r => dataPageDone_touches s r b
  case commitPoint => exact jobEvent_touches s fun _ r => commitPointDone_touches s r
  case copy2Installed => exact jobEvent_touches s fun _ r => copy2Done_touches s r
  case retirementCommitPoint => exact jobEvent_touches s fun _ r => retirementDone_touches s r
  case repairPageProgramDone b => exact jobEvent_touches s fun _ r => repairPageDone_touches s r b
  case eraseComplete b => exact jobEvent_touches s fun _ r => eraseDone_touches s r b
  case configPageOperationDone b => exact jobEvent_touches s fun _ r => configPageDone_touches s r b
  case configurationCommitPoint => exact jobEvent_touches s fun _ r => configCommitDone_touches s r
  case headerProgramFailure => exact jobEvent_touches s fun _ r => headerFailed_touches s r

theorem EventFrame.refl {reads : Bool} (s : State) : EventFrame reads s s := ⟨.refl s, fun _ => rfl⟩

theorem EventFrame.trans {reads : Bool} {s t u : State} (h₁ : EventFrame reads s t)
    (h₂ : EventFrame reads t u) : EventFrame reads s u :=
  ⟨h₁.engine.trans h₂.engine, fun r => (h₂.array r).trans (h₁.array r)⟩

/-- A chain of changes of an event is within its frame as a whole. -/
theorem EngineTouches.event_frame {reads : Bool} {s t : State} (h : EngineTouches reads s t) :
    EventFrame reads s t := h.frame EventFrame.refl EventFrame.trans

theorem exec_engine_frame {c : Instr} {s t : State} (engine : isEngineEvent c = true)
    (h : exec c s = .next t) : EngineFrame s t :=
  (exec_engine_touches engine h).event_frame.engine

/-- Settles O35: each change of an engine event's chain lies within the frame. -/
theorem engineEventsFrame : Obligations.EngineEventsFrame := by
  intro s t o success c member next
  refine exec_engine_frame ?_ next
  simp only [List.mem_cons, List.not_mem_nil, or_false] at member
  rcases member with rfl | rfl | rfl | rfl | rfl | rfl | rfl | rfl | rfl | rfl | rfl | rfl | rfl | rfl <;>
    rfl

end Sys2Proof.Machine

/-! What the Record Controller touches as it takes a command and judges it (R176): a chain of the changes of
`Touch`, and then the answer, the job placed in the queue, or nothing. -/

namespace Sys2Proof.Machine

/-! ## The pages that descriptors name (R108) -/

section Named
variable {s : State} {k : Key}

/-- A change of an entry that leaves its descriptors' pages. -/
theorem entryPages_modifyEntry {f : Entry → Entry}
    (pages : ∀ e ∈ s.directory, e.key = k → entryPages (f e) = entryPages e) :
    (s.modifyEntry k f).directory.flatMap entryPages = s.directory.flatMap entryPages := by
  show (s.directory.map _).flatMap _ = _
  rw [List.flatMap_map]
  refine List.flatMap_congr fun e member => ?_
  split
  · next key => exact pages e member key
  · rfl

/-- A new entry names no page. -/
theorem entryPages_addEntry {e : Entry} (pageless : entryPages e = []) :
    (s.addEntry e).directory.flatMap entryPages = s.directory.flatMap entryPages := by
  show (insertEntry e s.directory).flatMap entryPages = _
  induction s.directory with
  | nil => simp [insertEntry, pageless]
  | cons x rest ih =>
    simp only [insertEntry]
    split
    · simp [pageless]
    · simp [ih]

theorem entryPages_removeEntry :
    ((s.removeEntry k).directory.flatMap entryPages).Sublist (s.directory.flatMap entryPages) :=
  List.filter_sublist.flatMap _

/-- A release clears a claim field or removes a FORMING entry (R87). -/
theorem entryPages_releaseEntry {hd : Handle} {kind : Option ClaimKind} {cause : ReleaseCause} :
    ((releaseEntry s k hd kind cause).directory.flatMap entryPages).Sublist
      (s.directory.flatMap entryPages) := by
  unfold releaseEntry
  split
  · exact .refl _
  · split
    · exact .refl _
    · split
      · exact entryPages_removeEntry
      · rw [entryPages_modifyEntry]
        exact fun _ _ _ => rfl

theorem entryPages_releaseSlot {i : SlotNo} {cause : ReleaseCause} :
    ((releaseSlot s i cause).directory.flatMap entryPages).Sublist (s.directory.flatMap entryPages) := by
  unfold releaseSlot
  simp only
  split
  · split <;> exact entryPages_releaseEntry
  · split <;> exact .refl _

end Named

/-! ## The judging of a command -/

/-- What the judging of a command of port `p` may touch before it answers the command or queues its job: no page that
a descriptor names is added. -/
structure JudgedFrame (p : Port) (s t : State) : Prop where
  rest : t = { s with
    maintEnAsserted := t.maintEnAsserted, directory := t.directory, claims := t.claims,
    watches := t.watches, changeSets := t.changeSets, ports := t.ports }
  others : ∀ q, q ≠ p → t.port q = s.port q
  state : (t.port p).state = (s.port p).state
  pages : (t.directory.flatMap entryPages).Sublist (s.directory.flatMap entryPages)

/-- The frame of RESTRICT, which sets the effective configuration too (R48). -/
def RestrictFrame (p : Port) (s t : State) : Prop :=
  JudgedFrame p { s with effective := t.effective } t

abbrev JudgedTouches (p : Port) : State → State → Prop := Touches (JudgedFrame p)

/-- How the judging of a command of port `p` ends, after changes within a frame: with the command unanswered, with
a completion posted, or with its job in the queue. -/
inductive Judged (Frame : Port → State → State → Prop) (p : Port) (s : State) : State → Prop
  | unanswered {t : State} (h : Touches (Frame p) s t) : Judged Frame p s t
  | answered {t : State} (c : Completion) (r : Result) (data : Option (List Byte))
      (h : Touches (Frame p) s t) : Judged Frame p s (post t p c r data)
  | queued {t : State} (j : Job) (port : j.port = some p) (h : Touches (Frame p) s t) :
      Judged Frame p s (enqueue t j)

section Frames
variable {p : Port} {s t u : State}

theorem JudgedFrame.of_ports (h : t = { s with
    maintEnAsserted := t.maintEnAsserted, directory := t.directory, claims := t.claims,
    watches := t.watches, changeSets := t.changeSets })
    (pages : (t.directory.flatMap entryPages).Sublist (s.directory.flatMap entryPages)) : JudgedFrame p s t where
  rest := by rw [h]
  others _ _ := by rw [h]; rfl
  state := by rw [h]; rfl
  pages := pages

theorem JudgedFrame.refl (p : Port) (s : State) : JudgedFrame p s s := .of_ports rfl (.refl _)

theorem JudgedFrame.trans (h₁ : JudgedFrame p s t) (h₂ : JudgedFrame p t u) : JudgedFrame p s u where
  rest := by rw [h₂.rest, h₁.rest]
  others q hq := (h₂.others q hq).trans (h₁.others q hq)
  state := h₂.state.trans h₁.state
  pages := h₂.pages.trans h₁.pages

theorem JudgedFrame.restrict (h : JudgedFrame p s t) : RestrictFrame p s t where
  rest := by rw [h.rest]
  others := h.others
  state := h.state
  pages := h.pages

theorem RestrictFrame.refl (p : Port) (s : State) : RestrictFrame p s s := JudgedFrame.refl p s

theorem RestrictFrame.trans (h₁ : RestrictFrame p s t) (h₂ : RestrictFrame p t u) :
    RestrictFrame p s u where
  rest := by
    have rest₁ := h₁.rest
    have rest₂ := h₂.rest
    rw [rest₂, rest₁]
  others q hq := (h₂.others q hq).trans (h₁.others q hq)
  state := h₂.state.trans h₁.state
  pages := h₂.pages.trans h₁.pages

theorem judgedFrame_releaseSlot {s : State} {i : SlotNo} {cause : ReleaseCause}
    (noLapse : cause ≠ .lapsed) : JudgedFrame p s (releaseSlot s i cause) where
  rest := by rw [releaseSlot_frame]
  others _ _ := congrArg (·[_]) (releaseSlot_ports noLapse)
  state := congrArg (fun ports : Vector PortUnit 4 => ports[p].state) (releaseSlot_ports noLapse)
  pages := entryPages_releaseSlot

end Frames

section Judging
variable {p : Port} {s t u : State}

theorem Judged.mono {Frame Frame' : Port → State → State → Prop}
    (h : ∀ s t, Frame p s t → Frame' p s t) (j : Judged Frame p s t) : Judged Frame' p s t := by
  cases j with
  | unanswered touches => exact .unanswered (touches.mono h)
  | answered c r data touches => exact .answered c r data (touches.mono h)
  | queued j port touches => exact .queued j port (touches.mono h)

theorem Judged.restrict (h : Judged JudgedFrame p s t) : Judged RestrictFrame p s t :=
  h.mono fun _ _ => JudgedFrame.restrict

/-- What goes before the judging. -/
theorem Judged.after {Frame : Port → State → State → Prop} (h₁ : Touches (Frame p) s t)
    (h₂ : Judged Frame p t u) : Judged Frame p s u := by
  cases h₂ with
  | unanswered touches => exact .unanswered (h₁.trans touches)
  | answered c r data touches => exact .answered c r data (h₁.trans touches)
  | queued j port touches => exact .queued j port (h₁.trans touches)

theorem judge_judged {Frame : Port → State → State → Prop} {checks : List (Completion × Bool)}
    {accepted : State} (h : (∀ x ∈ checks, x.2 = false) → Judged Frame p s accepted) :
    Judged Frame p s (judge s p checks accepted) := by
  rcases judge_cases s p checks accepted with ⟨heq, pass⟩ | ⟨c, heq⟩
  · rw [heq]; exact h pass
  · rw [heq]; exact .answered c {} none .refl

theorem answered_here (p : Port) (s : State) (c : Completion) (r : Result) (data : Option (List Byte)) :
    Judged JudgedFrame p s (post s p c r data) := .answered c r data .refl

end Judging

/-! ## What the checks give -/

section Checks
variable {s : State} {p : Port} {f : CommandFields}

theorem entry_absent_of_keyExists {k : Key} (h : (s.entry k).isSome = false) : s.entry k = none := by
  simpa using h

theorem room_of_directoryFull (h : directoryFull s = false) : s.directory.length < 512 :=
  Nat.lt_of_not_le (of_decide_eq_false h)

theorem lowestFree_free {i : SlotNo} (h : lowestFree s = some i) : (s.slot i).state = .free := by
  simpa [Slot.isFree] using List.find?_some h

end Checks

/-! ## Shared operations of the commands -/

section Shared
variable (s : State) (p : Port)

/-- A change that leaves the directory. -/
theorem judged_one {t : State} (touch : Touch s t) (frame : t = { s with
    maintEnAsserted := t.maintEnAsserted, claims := t.claims,
    watches := t.watches, changeSets := t.changeSets }) : JudgedTouches p s t := by
  refine .one (.of_ports ?_ ?_) touch
  · rw [frame]
  · rw [frame]

/-- A change of the directory that adds no named page. -/
theorem judged_entries {t : State} (touch : Touch s t) (frame : t = { s with directory := t.directory })
    (pages : (t.directory.flatMap entryPages).Sublist (s.directory.flatMap entryPages)) : JudgedTouches p s t := by
  refine .one (.of_ports ?_ pages) touch
  rw [frame]

/-- A lifecycle change of an entry. -/
theorem setLifecycle_touches (k : Key) (f : Entry → Entry) (key : ∀ e, (f e).key = e.key)
    (claim : ∀ e, (f e).claim = e.claim) (pages : ∀ e, entryPages (f e) = entryPages e) :
    JudgedTouches p s (s.modifyEntry k f) :=
  judged_entries s p (.entry s k f (fun e he => (key e).trans he) fun e _ _ h => .inl (claim e ▸ h)) rfl
    (by rw [entryPages_modifyEntry fun e _ _ => pages e])

theorem addEntry_touches (e : Entry) (absent : s.entry e.key = none) (room : s.directory.length < 512)
    (claim : ∀ hd, e.claim = some hd → Names s hd e.key) (pageless : entryPages e = []) :
    JudgedTouches p s (s.addEntry e) :=
  judged_entries s p (.made s e absent room claim) rfl (by rw [entryPages_addEntry pageless])

/-- A slot that is granted is in use for its new handle (R91). -/
theorem grantSlot_names (i : SlotNo) (k : Key) (kind : ClaimKind) (base : Nat) (preload : Bool) :
    Names (grantSlot s i p (.record k) kind base preload) (nextHandle s i) k := by
  unfold Names nextHandle grantSlot
  simp only [State.slot_setSlot_self]
  cases preload <;> simp

theorem grantSlot_touches {i : SlotNo} (ready : s.isReady = true) (free : (s.slot i).state = .free)
    (target : Target) (kind : ClaimKind) (base : Nat) (preload : Bool) :
    JudgedTouches p s (grantSlot s i p target kind base preload) := by
  refine judged_one s p (.slot s i _ ⟨ready, fun _ => Memory.wf_nil, fun held => ?_, fun used => ?_⟩) rfl
  · cases preload with
    | true => cases held
    | false => exact ⟨_, rfl, Nat.le_add_right _ _⟩
  · exact absurd free used

theorem grantUpdate_touches {i : SlotNo} (ready : s.isReady = true) (free : (s.slot i).state = .free)
    (e : Entry) (preload : Bool) : JudgedTouches p s (grantUpdate s i p e preload) := by
  refine (grantSlot_touches s p ready free (.record e.key) .update e.version preload).trans ?_
  refine judged_entries _ p (.entry _ e.key _ (fun _ h => h) fun _ _ hd claim => .inr ?_) rfl ?_
  · cases claim
    exact grantSlot_names s p i e.key .update e.version preload
  · rw [grantUpdate, entryPages_modifyEntry]
    exact fun _ _ _ => rfl

/-- A change of a HELD slot's buffer with its lease started anew (R93, R97). -/
theorem restarted_touches {i : SlotNo} {x : Slot} (ready : s.isReady = true)
    (buffer : Memory.wf (s.slot i).buffer → Memory.wf x.buffer) (state : x.state = (s.slot i).state)
    (generation : x.generation = (s.slot i).generation) (target : x.target = (s.slot i).target) :
    JudgedTouches p s (s.setSlot i { x with lease := some (leaseExpiryTime s p) }) :=
  judged_one s p (.slot s i _ ⟨ready, buffer, fun _ => ⟨_, rfl, Nat.le_add_right _ _⟩,
    fun used => ⟨state ▸ used, generation, target⟩⟩) rfl

theorem restartLease_touches (i : SlotNo) (ready : s.isReady = true) :
    JudgedTouches p s (restartLease s i p) :=
  restarted_touches s p ready id rfl rfl rfl

theorem toCommitting_touches (i : SlotNo) (ready : s.isReady = true) :
    JudgedTouches p s (toCommitting s i) := by
  refine judged_one s p (.slot s i _ ⟨ready, id, fun held => ?_, fun _ => ⟨?_, rfl, rfl⟩⟩) rfl
  · cases held
  · simp

theorem releaseSlot_touches (i : SlotNo) {cause : ReleaseCause} (noLapse : cause ≠ .lapsed) :
    JudgedTouches p s (releaseSlot s i cause) :=
  .one (judgedFrame_releaseSlot noLapse) (.released s i cause)

end Shared

/-! ## Record commands -/

section Record
variable (s : State) (p : Port) (f : CommandFields)

theorem lookupBody_judged : Judged JudgedFrame p s (lookupBody s p f) := by
  refine judge_judged fun _ => ?_
  split
  · exact answered_here p s _ _ _
  · exact .unanswered .refl

theorem describeBody_judged : Judged JudgedFrame p s (describeBody s p f) := by
  refine judge_judged fun _ => ?_
  split
  · exact answered_here p s _ _ _
  · exact .unanswered .refl

theorem listBody_judged : Judged JudgedFrame p s (listBody s p f) :=
  judge_judged fun _ => answered_here p s _ _ _

theorem readBody_judged : Judged JudgedFrame p s (readBody s p f) :=
  judge_judged fun _ => .queued _ rfl .refl

theorem createBody_judged : Judged JudgedFrame p s (createBody s p f) := by
  refine judge_judged fun pass => .queued _ rfl (addEntry_touches s p _ ?_ ?_ ?_ rfl)
  · exact entry_absent_of_keyExists (pass (.keyExists, (s.entry f.key).isSome) (by simp [createChecks]))
  · exact room_of_directoryFull (pass (.directoryFull, directoryFull s) (by simp [createChecks]))
  · exact fun _ claim => nomatch claim

theorem writeBody_judged : Judged JudgedFrame p s (writeBody s p f) := by
  refine judge_judged fun _ => ?_
  split
  · exact .queued _ rfl (setLifecycle_touches s p _ _ (fun _ => rfl) (fun _ => rfl) fun _ => rfl)
  · exact .unanswered .refl

theorem raiseBody_judged : Judged JudgedFrame p s (raiseBody s p f) := by
  refine judge_judged fun _ => ?_
  split
  · exact .queued _ rfl (setLifecycle_touches s p _ _ (fun _ => rfl) (fun _ => rfl) fun _ => rfl)
  · exact .unanswered .refl

theorem retireBody_judged : Judged JudgedFrame p s (retireBody s p f) :=
  judge_judged fun _ => .queued _ rfl (setLifecycle_touches s p _ _ (fun _ => rfl) (fun _ => rfl) fun _ => rfl)

end Record

/-! ## Claim commands -/

section Claim
variable {s : State} (p : Port) (f : CommandFields) (ready : s.isReady = true)
include ready

theorem claimForUpdateBody_judged : Judged JudgedFrame p s (claimForUpdateBody s p f) := by
  refine judge_judged fun _ => ?_
  split
  · next e i _ free =>
    exact .answered _ _ _ (grantUpdate_touches s p ready (lowestFree_free free) e false)
  · exact .unanswered .refl

theorem claimWithPreloadBody_judged : Judged JudgedFrame p s (claimWithPreloadBody s p f) := by
  refine judge_judged fun _ => ?_
  split
  · next e i _ free =>
    exact .queued _ rfl (grantUpdate_touches s p ready (lowestFree_free free) e true)
  · exact .unanswered .refl

theorem claimWithCreateBody_judged : Judged JudgedFrame p s (claimWithCreateBody s p f) := by
  refine judge_judged fun pass => ?_
  split
  · next i free =>
    refine .answered _ _ _ ((grantSlot_touches s p ready (lowestFree_free free) _ _ _ _).trans
      (addEntry_touches _ p _ ?_ ?_ (fun hd claim => ?_) rfl))
    · exact entry_absent_of_keyExists
        (pass (.keyExists, (s.entry f.key).isSome) (by simp [createClaimChecks]))
    · exact room_of_directoryFull (pass (.directoryFull, directoryFull s) (by simp [createClaimChecks]))
    · cases claim
      exact grantSlot_names s p i f.key .create 0 false
  · exact .unanswered .refl

omit ready in
/-- The sampling of MAINT_EN_N (R46). -/
theorem maintEn_touches (b : Bool) : JudgedTouches p s { s with maintEnAsserted := b } :=
  judged_one s p (.elsewhere rfl) rfl

theorem claimWithConfigBody_judged (b : Bool) :
    Judged JudgedFrame p s (claimWithConfigBody b s p f) := by
  refine .after (maintEn_touches p b) (judge_judged fun _ => ?_)
  split
  · next i free =>
    refine .answered _ _ _ (grantSlot_touches _ p ?_ ?_ _ _ _ _)
    · exact ready
    · exact lowestFree_free free
  · exact .unanswered .refl

theorem stageBody_judged : Judged JudgedFrame p s (stageBody s p f) := by
  refine judge_judged fun _ => ?_
  split
  · next i _ =>
    refine .answered _ _ _ ?_
    have once : ∀ x, restartLease (s.setSlot i x) i p =
        s.setSlot i { x with lease := some (leaseExpiryTime s p) } := by
      intro x
      unfold restartLease
      rw [State.slot_setSlot_self]
      simp [State.setSlot, leaseExpiryTime, leaseLengthOf]
    rw [once]
    exact restarted_touches s p ready (fun h => Memory.wf_writeRange h _ _) rfl rfl rfl
  · exact .unanswered .refl

theorem fetchBody_judged : Judged JudgedFrame p s (fetchBody s p f) := by
  refine judge_judged fun _ => ?_
  split
  · exact .answered _ _ _ (restartLease_touches s p _ ready)
  · exact .unanswered .refl

theorem renewBody_judged : Judged JudgedFrame p s (renewBody s p f) := by
  refine judge_judged fun _ => ?_
  split
  · exact .answered _ _ _ (restartLease_touches s p _ ready)
  · exact .unanswered .refl

omit ready in
theorem abandonBody_judged : Judged JudgedFrame p s (abandonBody s p f) := by
  refine judge_judged fun _ => ?_
  split
  · exact .answered _ _ _ (releaseSlot_touches s p _ (by simp))
  · exact .unanswered .refl

theorem commitConfigBody_judged (b : Bool) (i : SlotNo) :
    Judged JudgedFrame p s (commitConfigBody b s p f i) := by
  unfold commitConfigBody
  refine .after (maintEn_touches p b) ?_
  simp only
  split
  · exact answered_here p _ _ _ _
  · exact judge_judged fun _ => .queued _ rfl (toCommitting_touches _ p i ready)

theorem commitRecordBody_judged (i : SlotNo) (k : Key) :
    Judged JudgedFrame p s (commitRecordBody s p f i k) := by
  refine judge_judged fun _ => ?_
  split
  · exact .queued _ rfl ((toCommitting_touches s p i ready).trans
      (setLifecycle_touches _ p k toWriting (fun _ => rfl) (fun _ => rfl) fun _ => rfl))
  · exact .unanswered .refl

theorem commitBody_judged (b : Bool) : Judged JudgedFrame p s (commitBody b s p f) := by
  unfold commitBody
  simp only
  split
  · exact commitConfigBody_judged p f ready b _
  · exact commitRecordBody_judged p f ready _ _
  · exact judge_judged fun _ => .unanswered .refl

end Claim

/-! ## Device commands -/

/-- An accepted WATCH keeps the Watch Table within its bounds (R162, R163). -/
theorem watchesFit_watch {s : State} {p : Port} {f : CommandFields}
    (room : s.watches.any (·.equals p f) = true ∨ watchesFull s p = false)
    (h : WatchesFit s.watches) : WatchesFit (watchesAfterWatch s.watches p f) := by
  by_cases present : ∃ w ∈ s.watches, w.equals p f = true
  · rw [watchesAfterWatch_present present]
    have keeps : ∀ w : Watch, ∀ w', w' = (if w.equals p f then { w with includeOwn := f.includeOwn } else w) →
        w'.port = w.port ∧ w'.ns = w.ns ∧ w'.item = w.item := by
      rintro w _ rfl
      split <;> exact ⟨rfl, rfl, rfl⟩
    refine ⟨by simpa using h.places, fun q => ?_, ?_⟩
    · rw [watchesOf_map fun w => (keeps w _ rfl).1]
      exact h.perPort q
    · rw [List.pairwise_map]
      refine h.distinct.imp fun {a b} differ same => differ ?_
      obtain ⟨ha₁, ha₂, ha₃⟩ := keeps a _ rfl
      obtain ⟨hb₁, hb₂, hb₃⟩ := keeps b _ rfl
      rw [ha₁, ha₂, ha₃, hb₁, hb₂, hb₃] at same
      exact same
  · have new : ∀ w ∈ s.watches, ¬w.equals p f = true := fun w hw heq => present ⟨w, hw, heq⟩
    have full : watchesFull s p = false := room.resolve_left (by rw [any_equals_of_new new]; simp)
    rw [← Bool.not_eq_true, watchesFull_iff] at full
    rw [watchesAfterWatch_new new]
    refine ⟨by simp; omega, fun q => ?_, ?_⟩
    · by_cases hq : q = p
      · subst hq
        rw [watchesOf_concat_self]
        omega
      · have other : watchesOf (s.watches ++ [⟨p, f.ns, watchItem f, f.includeOwn⟩]) q =
            watchesOf s.watches q := by
          simp [watchesOf, Ne.symm hq]
        rw [other]
        exact h.perPort q
    · rw [List.pairwise_append]
      refine ⟨h.distinct, List.pairwise_singleton _ _, fun a ha b hb same => ?_⟩
      obtain rfl := List.mem_singleton.mp hb
      exact new a ha (Watch.equals_iff.mpr same)

theorem WatchesFit.sublist {ws ws' : List Watch} (sub : ws'.Sublist ws) (h : WatchesFit ws) :
    WatchesFit ws' where
  places := sub.length_le.trans h.places
  perPort q := (sub.filter _).length_le.trans (h.perPort q)
  distinct := h.distinct.sublist sub

section Device
variable (s : State) (p : Port) (f : CommandFields)

theorem watchBody_judged : Judged JudgedFrame p s (watchBody s p f) := by
  refine judge_judged (accepted := post { s with watches := watchesAfterWatch s.watches p f } p .done
    _ none) fun pass => .answered _ _ _ (judged_one s p (.watched s _ (watchesFit_watch ?_)) rfl)
  have room := pass (.watchesFull, !s.watches.any (·.equals p f) && watchesFull s p) (by simp)
  simpa only [Bool.and_eq_false_iff, Bool.not_eq_false'] using room

theorem unwatchBody_judged : Judged JudgedFrame p s (unwatchBody s p f) :=
  judge_judged fun _ => .answered _ _ _
    (judged_one s p (.watched s _ (WatchesFit.sublist List.filter_sublist)) rfl)

theorem takeChangesBody_judged : Judged JudgedFrame p s (takeChangesBody s p f) :=
  .answered _ _ _ (judged_one s p (.taken s p _ (List.drop_sublist _ _)) rfl)

theorem readConfigBody_judged : Judged JudgedFrame p s (readConfigBody s p f) := by
  refine judge_judged fun _ => ?_
  split
  · exact answered_here p s _ _ _
  · exact .unanswered .refl

theorem statusBody_judged : Judged JudgedFrame p s (statusBody s p f) := answered_here p s _ _ _

theorem unknownBody_judged : Judged JudgedFrame p s (unknownBody s p f) := answered_here p s _ _ _

theorem detachSlots_touches (slots : List SlotNo) :
    JudgedTouches p s (slots.foldl (detachSlot p) s) := by
  induction slots generalizing s with
  | nil => exact .refl
  | cons i rest ih =>
    refine Touches.trans ?_ (ih _)
    unfold detachSlot
    split
    · exact releaseSlot_touches s p i (by simp)
    · exact .refl

theorem detachWatches_touches : JudgedTouches p s (detachWatches s p) :=
  (judged_one s p (.taken s p ⟨[], false⟩ (List.nil_sublist _)) rfl).trans
    (judged_one _ p (.watched (s.setChanges p ⟨[], false⟩) _
      (WatchesFit.sublist List.filter_sublist)) rfl)

/-- A change of one port's unit that keeps the canonical form of its window. -/
theorem setPort_touch (u : PortUnit) (window : (s.port p).window.wf → u.window.wf) :
    Touch s (s.setPort p u) := by
  refine .units s _ fun q hq => ?_
  have unit : (s.port q).window.wf → ((s.setPort p u).port q).window.wf := by
    by_cases h : q = p
    · subst h
      rw [State.port_setPort_self]
      exact window
    · rw [State.port_setPort_ne s u h]
      exact id
  exact unit hq

theorem detachUnit_touches : JudgedTouches p s (s.setPort p (detachUnit (s.port p))) := by
  refine .one ⟨rfl, fun q hq => State.port_setPort_ne _ _ hq, ?_, .refl _⟩ (setPort_touch _ p _ id)
  rw [State.port_setPort_self]
  rfl

theorem detachBody_judged : Judged JudgedFrame p s (detachBody s p f) := by
  exact .answered _ _ _ ((detachSlots_touches s p slotNumbers).trans
    ((detachWatches_touches _ p).trans (detachUnit_touches _ p)))

theorem setNamespace_touches (ns : Fin 8) (n : NamespaceEntry) :
    Touches (RestrictFrame p) s (setNamespace s ns n) :=
  .one ⟨rfl, fun _ _ => rfl, rfl, .refl _⟩ (.elsewhere rfl)

theorem restrictBody_judged : Judged RestrictFrame p s (restrictBody s p f) := by
  unfold restrictBody
  split
  · exact .answered _ _ _ .refl
  · split
    · exact judge_judged fun _ => .answered _ _ _ (setNamespace_touches s p _ _)
    · exact .answered _ _ _ .refl

end Device

end Sys2Proof.Machine

/-! Every step is a chain of the changes of `Touch`, and the invariants that each of them keeps. -/

namespace Sys2Proof.Machine

/-- A chain of changes, with no frame. -/
abbrev AnyTouches : State → State → Prop := Touches fun _ _ => True

section Any
variable {s t u : State}

theorem Touches.any {Frame : State → State → Prop} (h : Touches Frame s t) : AnyTouches s t :=
  h.mono fun _ _ _ => trivial

theorem Touch.any (h : Touch s t) : AnyTouches s t := .one trivial h

/-- A change of fields that the invariants kept change by change do not read. -/
theorem elsewhere_any (h : invariantFields t = invariantFields s) : AnyTouches s t :=
  Touch.any (.elsewhere h)

end Any

/-! ## The taking of a command -/

section Taking
variable {Frame : Port → State → State → Prop} {s t : State} {p : Port}

theorem Judged.any (h : Judged Frame p s t) : AnyTouches s t := by
  cases h with
  | unanswered touches => exact touches.any
  | answered c r data touches => exact touches.any.trans (post_touch _ p c r data).any
  | queued j _ touches => exact touches.any.trans (elsewhere_any rfl)

theorem takeHead_touches (s : State) (p : Port) (rest : List Port) : AnyTouches s (takeHead s p rest) :=
  (setPort_touch s p { s.port p with state := .active } id).any.trans (elsewhere_any rfl)

/-- A command is taken and judged, or nothing happens. -/
def TakenAndJudged (Frame : Port → State → State → Prop) (s t : State) : Prop :=
  t = s ∨ ∃ p rest, s.isReady = true ∧ s.restarting = none ∧ s.dispatchQueue = p :: rest ∧
    Judged Frame p (takeHead s p rest) t

theorem takeCommand_judged {mine : CommandFields → Bool} {body : State → Port → CommandFields → State}
    (h : ∀ u p f, u.isReady = true → Judged Frame p u (body u p f)) :
    TakenAndJudged Frame s (takeCommand s mine body) := by
  rcases takeCommand_cases s mine body with same | ⟨p, rest, ready, free, queue, -, taken⟩
  · exact .inl same
  · rw [taken]
    exact .inr ⟨p, rest, ready, free, queue, h _ p _ ready⟩

theorem TakenAndJudged.any (h : TakenAndJudged Frame s t) : AnyTouches s t := by
  rcases h with rfl | ⟨p, rest, -, -, -, judged⟩
  · exact .refl
  · exact (takeHead_touches s p rest).trans judged.any

theorem TakenAndJudged.mono {Frame' : Port → State → State → Prop}
    (le : ∀ p s t, Frame p s t → Frame' p s t) (h : TakenAndJudged Frame s t) :
    TakenAndJudged Frame' s t := by
  rcases h with same | ⟨p, rest, ready, free, queue, judged⟩
  · exact .inl same
  · exact .inr ⟨p, rest, ready, free, queue, judged.mono (le p)⟩

end Taking

/-- The commands of the Record Controller that leave the effective configuration and the device state alone. -/
def isTaking : Instr → Bool
  | .lookup | .describe | .list | .read | .create | .write | .raise | .retire | .claimForUpdate
  | .claimWithPreload | .claimWithCreate | .claimWithConfig _ | .stage | .fetch | .renew | .commit _
  | .abandon | .watch | .unwatch | .takeChanges | .readConfig | .status | .detach
  | .unknownCommandCode => true
  | _ => false

theorem exec_taking_judged {c : Instr} {s t : State} (taking : isTaking c = true)
    (h : exec c s = .next t) : TakenAndJudged JudgedFrame s t := by
  cases c <;> first
    | exact absurd taking Bool.false_ne_true
    | (injection h with h; subst h)
  case lookup => exact takeCommand_judged fun u p f _ => lookupBody_judged u p f
  case describe => exact takeCommand_judged fun u p f _ => describeBody_judged u p f
  case list => exact takeCommand_judged fun u p f _ => listBody_judged u p f
  case read => exact takeCommand_judged fun u p f _ => readBody_judged u p f
  case create => exact takeCommand_judged fun u p f _ => createBody_judged u p f
  case write => exact takeCommand_judged fun u p f _ => writeBody_judged u p f
  case raise => exact takeCommand_judged fun u p f _ => raiseBody_judged u p f
  case retire => exact takeCommand_judged fun u p f _ => retireBody_judged u p f
  case claimForUpdate => exact takeCommand_judged fun _ p f ready => claimForUpdateBody_judged p f ready
  case claimWithPreload => exact takeCommand_judged fun _ p f ready => claimWithPreloadBody_judged p f ready
  case claimWithCreate => exact takeCommand_judged fun _ p f ready => claimWithCreateBody_judged p f ready
  case claimWithConfig b =>
    exact takeCommand_judged fun _ p f ready => claimWithConfigBody_judged p f ready b
  case stage => exact takeCommand_judged fun _ p f ready => stageBody_judged p f ready
  case fetch => exact takeCommand_judged fun _ p f ready => fetchBody_judged p f ready
  case renew => exact takeCommand_judged fun _ p f ready => renewBody_judged p f ready
  case commit b => exact takeCommand_judged fun _ p f ready => commitBody_judged p f ready b
  case abandon => exact takeCommand_judged fun _ p f _ => abandonBody_judged p f
  case watch => exact takeCommand_judged fun u p f _ => watchBody_judged u p f
  case unwatch => exact takeCommand_judged fun u p f _ => unwatchBody_judged u p f
  case takeChanges => exact takeCommand_judged fun u p f _ => takeChangesBody_judged u p f
  case readConfig => exact takeCommand_judged fun u p f _ => readConfigBody_judged u p f
  case status => exact takeCommand_judged fun u p f _ => statusBody_judged u p f
  case detach => exact takeCommand_judged fun u p f _ => detachBody_judged u p f
  case unknownCommandCode => exact takeCommand_judged fun u p f _ => unknownBody_judged u p f

theorem exec_restrict_judged {s t : State} (h : exec .restrict s = .next t) :
    TakenAndJudged RestrictFrame s t := by
  cases h
  exact takeCommand_judged fun u p f _ => restrictBody_judged u p f

/-! ## Entry to STARTING -/

/-- An entry to STARTING starts every volatile structure anew, whatever went before. -/
theorem enterStarting_touches {s u : State} (array : u.array = s.array) (pending : u.pending = s.pending)
    (cause : ResetCause) : AnyTouches s (enterStarting u cause) := by
  have cleared : AnyTouches s (startingState u cause) :=
    Touch.any (.cleared
      { array := array
        pending := pending
        windows := fun p => by simp [startingState, State.port, PortUnit.reset]
        claims := rfl, directory := rfl, watches := rfl, changeSets := rfl })
  unfold enterStarting
  split
  · exact cleared.trans ((Touch.stopped _ true false .halted (.inr rfl)).any.trans (elsewhere_any rfl))
  · exact cleared

/-- A RESTART taken is refused, waits for its drain, or starts the part anew (R160). -/
theorem restartBody_cases (s : State) (p : Port) (f : CommandFields) :
    (∃ c, restartBody s p f = post s p c {} none) ∨
      (drained s = true ∧ restartBody s p f = enterStarting s .restart) ∨
      restartBody s p f = { s with restarting := some p } := by
  unfold restartBody
  rcases judge_cases s p [(.noRight, !isMaintenance s p)] (acceptRestart s p) with
    ⟨accepted, -⟩ | refused
  · rw [accepted]
    unfold acceptRestart
    split
    · next idle => exact .inr (.inl ⟨idle, rfl⟩)
    · exact .inr (.inr rfl)
  · exact .inl refused

theorem restartBody_touches (s : State) (p : Port) (f : CommandFields) :
    AnyTouches s (restartBody s p f) := by
  rcases restartBody_cases s p f with ⟨c, refused⟩ | ⟨-, started⟩ | waits
  · rw [refused]; exact (post_touch s p c {} none).any
  · rw [started]; exact enterStarting_touches rfl rfl _
  · rw [waits]; exact elsewhere_any rfl

theorem execRestart_touches {s t : State} (h : exec .restart s = .next t) : AnyTouches s t := by
  cases h
  rcases takeCommand_cases s (·.code == codeRestart) restartBody with same | ⟨p, rest, -, -, -, -, taken⟩
  · rw [same]; exact .refl
  · rw [taken]
    exact (takeHead_touches s p rest).trans (restartBody_touches _ p _)

/-! ## The link -/

section Link
variable (s : State) (p : Port)

theorem setLink_touches (link : Link) : AnyTouches s (s.setPort p { s.port p with link := link }) :=
  (setPort_touch s p _ (by exact id)).any

theorem linkEvent_touches (place : LinkByte) (mine : Byte → Bool) {body : State → Byte → State}
    (h : ∀ u offset, AnyTouches u (body u offset)) : AnyTouches s (linkEvent s p place mine body) := by
  unfold linkEvent
  split
  · split
    · split
      · exact (setLink_touches s p _).trans (h _ _)
      · exact .refl
    · exact setLink_touches s p _
  · exact .refl

theorem windowByte_wf {u : PortUnit} (h : u.window.wf) (offset value : Byte) :
    (windowByte u offset value).window.wf := by
  unfold windowByte
  (repeat' split) <;> first | exact h | exact Memory.wf_write h _ _

theorem launchByte_touches (tag : Byte) : AnyTouches s (launchByte s p tag) := by
  unfold launchByte
  split
  · exact .refl
  · split
    · have captured : AnyTouches s (s.setPort p { s.port p with go := tag }) :=
        (setPort_touch s p { s.port p with go := tag } id).any
      refine captured.trans ?_
      unfold launchIdle
      simp only
      split
      · exact (post_touch _ p _ _ _).any
      · exact (post_touch _ p _ _ _).any
      · exact (setPort_touch _ p { (s.setPort p { s.port p with go := tag }).port p with
          state := .queued } id).any.trans (elsewhere_any rfl)
    · exact (setPort_touch s p { s.port p with launchRejected := true } id).any
    · exact (setPort_touch s p { s.port p with launchRejected := true } id).any

end Link

/-! ## Start-up -/

theorem configLoadRead_touches (s : State) (o : ReadOutcome) : AnyTouches s (configLoadRead s o) := by
  unfold configLoadRead
  split
  · simp only
    split
    · exact elsewhere_any rfl
    · exact elsewhere_any rfl
  · exact .refl

theorem insertKey_ordered {k : Key} {l : List Key} (h : l.Pairwise fun a b => a.before b = true) :
    (insertKey k l).Pairwise fun a b => a.before b = true := by
  induction l with
  | nil => exact List.pairwise_singleton _ _
  | cons m rest ih =>
    obtain ⟨least, rises⟩ := List.pairwise_cons.mp h
    unfold insertKey
    split
    · next before =>
      refine List.pairwise_cons.mpr ⟨fun x hx => ?_, h⟩
      rcases List.mem_cons.mp hx with rfl | hx
      · exact before
      · exact Key.before_trans before (least x hx)
    · split
      · exact h
      · next after differ =>
        refine List.pairwise_cons.mpr ⟨fun x hx => ?_, ih rises⟩
        rcases mem_insertKey.mp hx with rfl | hx
        · exact (Key.before_total differ).resolve_left after
        · exact least x hx

theorem foldl_insertKey_ordered (l : List Found) {ks : List Key}
    (h : ks.Pairwise fun a b => a.before b = true) :
    (l.foldl (fun ks x => insertKey x.tag.key ks) ks).Pairwise fun a b => a.before b = true := by
  induction l generalizing ks with
  | nil => exact h
  | cons x rest ih => exact ih (insertKey_ordered h)

/-- The key that a resolution is of. -/
def Resolution.key : Resolution → Option Key
  | .nothing => none
  | .retired x => some x.key
  | .record e => some e.key

theorem resolveKey_key (k : Key) (pages : List Found) :
    ∀ k', (resolveKey k pages).key = some k' → k' = k := by
  intro k' h
  unfold resolveKey at h
  split at h
  · cases h
  · split at h
    · cases h
      exact headerEntry_key k pages
    · split at h
      · next x hx =>
        obtain ⟨kept, -, -, -, -, rfl⟩ := retiredEntry_spec hx
        cases h
        rfl
      · cases h

/-- The resolutions stand in key order (R157). -/
theorem resolutions_ordered (records : List (Nat × ScanRecord)) :
    (resolutions records).Pairwise fun a b =>
      ∀ k, a.key = some k → ∀ k', b.key = some k' → k.before k' = true := by
  unfold resolutions
  rw [List.pairwise_map]
  refine (foldl_insertKey_ordered _ List.Pairwise.nil).imp fun {a b} before k hk k' hk' => ?_
  rw [resolveKey_key _ _ k hk, resolveKey_key _ _ k' hk']
  exact before

theorem rebuiltDirectory_ordered (records : List (Nat × ScanRecord)) :
    (rebuiltDirectory (resolutions records)).Pairwise fun a b => a.key.before b.key = true := by
  refine List.Pairwise.sublist (List.take_sublist _ _) ?_
  rw [List.pairwise_filterMap]
  refine (resolutions_ordered records).imp fun {a b} ordered e he e' he' => ?_
  cases a <;> cases he
  cases b <;> cases he'
  exact ordered _ rfl _ rfl

theorem rebuiltDirectory_length (rs : List Resolution) : (rebuiltDirectory rs).length ≤ 512 :=
  List.length_take_le _ _

/-- No claim outlasts a start-up (R156). -/
theorem headerEntry_claim (k : Key) (pages : List Found) : (headerEntry k pages).claim = none := by
  rcases headerEntry_cases k pages with ⟨x, -, ⟨-, h⟩ | ⟨-, h⟩⟩ | ⟨x, -, -, -, h⟩ | ⟨-, -, h⟩ <;>
    rw [h] <;> rfl

theorem rebuiltDirectory_claim {records : List (Nat × ScanRecord)} {e : Entry}
    (h : e ∈ rebuiltDirectory (resolutions records)) : e.claim = none := by
  rw [(mem_rebuiltDirectory h).2.2]
  exact headerEntry_claim _ _

theorem accounted_touches (s : State) (records : List (Nat × ScanRecord)) (highest : Nat) :
    AnyTouches s (accounted s records highest) :=
  (Touch.rebuilt s (rebuiltDirectory (resolutions records)) (rebuiltDirectory_ordered records)
    (rebuiltDirectory_length _) fun _ => rebuiltDirectory_claim).any.trans (elsewhere_any rfl)

/-- One change of every port unit that leaves the windows alone. -/
theorem mapPorts_touches (s : State) (f : PortUnit → PortUnit) (window : ∀ u, (f u).window = u.window) :
    AnyTouches s { s with ports := s.ports.map f } := by
  refine Touch.any (.units s _ fun p hp => ?_)
  have unit : (s.ports.map f)[p] = f (s.port p) := by simp [State.port]
  rw [unit, window]
  exact hp

theorem enterReady_touches {s : State} (starting : s.isStarting = true) : AnyTouches s (enterReady s) :=
  (Touch.ready s starting).any.trans
    ((mapPorts_touches { s with device := .ready } (fun u => { u with ready := true })
      fun _ => rfl).trans (elsewhere_any rfl))

theorem scanRead_touches {s : State} (starting : s.isStarting = true) (o : ReadOutcome) :
    AnyTouches s (scanRead s o) := by
  unfold scanRead
  split
  · simp only
    split
    · exact elsewhere_any rfl
    · exact (accounted_touches s _ _).trans (enterReady_touches starting)
  · exact .refl

/-! ## Pins -/

section Pins
variable (s : State)

theorem cutOperation_touches : AnyTouches s (cutOperation s) := by
  unfold cutOperation
  split
  · exact (Touch.page s _ _).any.trans (elsewhere_any rfl)
  · exact (Touch.page s _ _).any.trans (elsewhere_any rfl)
  · exact .refl

theorem cutOperation_pending : (cutOperation s).pending = s.pending := by
  unfold cutOperation
  split <;> rfl

theorem heldInReset_touches : AnyTouches s (heldInReset s) :=
  (Touch.stopped s s.powered true s.device (.inl (by simp))).any.trans
    ((mapPorts_touches { s with resetAsserted := true } (fun u => { u with link := .deselected })
      fun _ => rfl).trans (elsewhere_any rfl))

theorem unpowered_touches : AnyTouches s (unpowered s) :=
  Touch.any (.cleared
    { array := rfl
      pending := rfl
      windows := fun p => by simp [unpowered, State.reset, State.port, PortUnit.reset]
      claims := rfl, directory := rfl, watches := rfl, changeSets := rfl })

theorem execPowerOn_touches {t : State} (h : exec .powerOn s = .next t) : AnyTouches s t := by
  cases h
  dsimp only
  split
  · exact .refl
  · split
    · next asserted =>
      exact (Touch.stopped s true s.resetAsserted s.device (.inl (by simp [asserted]))).any.trans
        (elsewhere_any rfl)
    · exact enterStarting_touches rfl rfl _

theorem execResetNAssert_touches {t : State} (h : exec .resetNAssert s = .next t) : AnyTouches s t := by
  cases h
  split
  · exact .refl
  · split
    · exact (cutOperation_touches s).trans (heldInReset_touches _)
    · exact (Touch.stopped s s.powered true s.device (.inl (by simp))).any

theorem execResetNDeassert_touches {t : State} (h : exec .resetNDeassert s = .next t) :
    AnyTouches s t := by
  cases h
  dsimp only
  split
  · split
    · exact enterStarting_touches rfl rfl _
    · next unpowered =>
      exact (Touch.stopped s s.powered false s.device (.inl (by simpa using unpowered))).any
  · exact .refl

theorem execPowerLoss_touches {t : State} (h : exec .powerLoss s = .next t) : AnyTouches s t := by
  cases h
  split
  · exact (cutOperation_touches s).trans (unpowered_touches _)
  · exact .refl

/-! ## The power-fail halt -/

theorem finishOperation_touches (r : RunningJob) (success : Bool) :
    AnyTouches s (finishOperation s r success).1 := by
  unfold finishOperation
  split
  · next page tag payload _ =>
    split
    · have programmed : AnyTouches s (s.setPage page (programmedCell tag payload)) :=
        (Touch.page s page (programmedCell tag payload)).any
      unfold finishProgram
      simp only
      split
      · exact programmed.trans (applyConfigCommit_touches _ r _).any
      · exact programmed
      · exact programmed
      · exact programmed
    · unfold finishFailedProgram
      split
      · exact (spoilPage_touches s page).any
      · exact (spoilPage_touches s page).any.trans (inWritePageToDirty_touches (reads := true) _ _ _).any
  · next page _ =>
    unfold finishErase
    simp only
    split
    · split
      · exact (setPage_touches s page _).any
      · exact (spoilPage_touches s page).any
    · exact (eraseHeadDone_touches s success).any
  · exact .refl

theorem completeHalted_touches (r : RunningJob) : AnyTouches s (completeHalted s r) :=
  (completeJob_touches (reads := true) s r _ _ _).any

theorem haltRunning_touches (success : Bool) : AnyTouches s (haltRunning s success) := by
  unfold haltRunning
  split
  · exact .refl
  · exact (finishOperation_touches s _ success).trans (completeHalted_touches _ _)

/-- A change made for each of a list of things. -/
theorem foldl_touches {α : Type} {f : State → α → State} (h : ∀ s x, AnyTouches s (f s x)) (l : List α) :
    AnyTouches s (l.foldl f s) := by
  induction l generalizing s with
  | nil => exact .refl
  | cons x rest ih => exact (h s x).trans (ih _)

theorem haltSlot_touches (i : SlotNo) : AnyTouches s (haltSlot s i) := by
  unfold haltSlot
  split
  · exact .refl
  · exact (Touch.released s i .halted).any

theorem haltRestart_touches : AnyTouches s (haltRestart s) := by
  unfold haltRestart
  split
  · exact (post_touch s _ _ _ _).any.trans (elsewhere_any rfl)
  · exact .refl

theorem haltQueued_touches : AnyTouches s (haltQueued s) :=
  foldl_touches s (fun u j => completeHalted_touches u (newRun j none)) s.jobQueue

theorem haltDispatch_touches : AnyTouches s (haltDispatch s) :=
  foldl_touches s (fun u p => (post_touch u p .halted {} none).any) s.dispatchQueue

theorem haltSlots_touches : AnyTouches s (haltSlots s) := foldl_touches s haltSlot_touches slotNumbers

theorem haltReady_touches (success : Bool) : AnyTouches s (haltReady s success) := by
  have answered := (haltRunning_touches s success).trans ((haltQueued_touches _).trans
    ((haltDispatch_touches _).trans ((haltRestart_touches _).trans (haltSlots_touches _))))
  unfold haltReady
  refine answered.trans ?_
  generalize haltSlots (haltRestart (haltDispatch (haltQueued (haltRunning s success)))) = u
  exact (Touch.stopped u u.powered u.resetAsserted .halted (.inr rfl)).any.trans (elsewhere_any rfl)

theorem execPfwNAssert_touches {b : Bool} {t : State} (h : exec (.pfwNAssert b) s = .next t) :
    AnyTouches s t := by
  cases h
  have asserted : AnyTouches s { s with pfwAsserted := true } := elsewhere_any rfl
  refine asserted.trans ?_
  dsimp only
  split
  · exact haltReady_touches _ b
  · split
    · exact (Touch.stopped { s with pfwAsserted := true } s.powered s.resetAsserted .halted
        (.inr rfl)).any.trans (elsewhere_any rfl)
    · exact .refl

end Pins

/-! ## Every command, and the idle step -/

/-- Every command ends in a next state. -/
theorem exec_next (c : Instr) (s : State) : ∃ t, exec c s = .next t := by
  cases c <;> exact ⟨_, rfl⟩

theorem exec_touches {c : Instr} {s t : State} (h : exec c s = .next t) : AnyTouches s t := by
  by_cases engine : isEngineEvent c = true
  · exact (exec_engine_touches engine h).any
  by_cases taking : isTaking c = true
  · exact (exec_taking_judged taking h).any
  cases c <;> try first
    | exact absurd rfl engine
    | exact absurd rfl taking
  case powerOn => exact execPowerOn_touches s h
  case resetNAssert => exact execResetNAssert_touches s h
  case resetNDeassert => exact execResetNDeassert_touches s h
  case powerLoss => exact execPowerLoss_touches s h
  case pfwNAssert b => exact execPfwNAssert_touches s h
  case restrict => exact (exec_restrict_judged h).any
  case restart => exact execRestart_touches h
  all_goals injection h with h; subst h
  case pfwNDeassert => exact elsewhere_any rfl
  case configLoadPageRead o =>
    split
    · exact configLoadRead_touches s o
    · exact .refl
  case scanPageRead o =>
    split
    · next starting => exact scanRead_touches starting o
    · exact .refl
  case invalidAccessByte p access =>
    split
    · exact (setPort_touch s p { s.port p with framing := true, link := .ignored } id).any
    · exact .refl
  case windowWrite p place value =>
    exact linkEvent_touches s p place _ fun u offset =>
      (setPort_touch u p _ fun h => windowByte_wf h offset value).any
  case launch p place tag => exact linkEvent_touches s p place _ fun u _ => launchByte_touches u p tag
  case attentionCauseWrite p place value =>
    exact linkEvent_touches s p place _ fun u _ => (setPort_touch u p _ (by exact id)).any
  case stickyFlagWrite p place value =>
    exact linkEvent_touches s p place _ fun u _ => (setPort_touch u p _ (by exact id)).any
  case restartDrainEnd =>
    split
    · exact enterStarting_touches rfl rfl _
    · exact .refl
  case leaseExpiry i =>
    split
    · exact (Touch.released s i .lapsed).any
    · exact .refl
  case patrolTimerExpiry =>
    split
    · exact elsewhere_any rfl
    · exact .refl

theorem idle_touches (s : State) : AnyTouches s (idle s) := by
  unfold idle
  split
  · split
    · exact (Touch.released s _ .lapsed).any
    · next none =>
      split
      · exact elsewhere_any rfl
      · exact (Touch.tick s fun _ i => by
          simpa using List.find?_eq_none.mp none i (mem_slotNumbers i)).any
  · next stopped => exact (Touch.tick s fun ready => absurd ready stopped).any

/-- An invariant that every change keeps, and that does not speak of the waiting commands, is kept by every step. -/
theorem step_keeps {P : State → Prop} (keeps : ∀ s t, Touch s t → P s → P t)
    (waiting : ∀ s rest, P s → P { s with pending := rest }) {s t : State} (h : step s = .next t)
    (hs : P s) : P t := by
  unfold step at h
  split at h
  · injection h with h
    subst h
    exact (idle_touches s).keeps keeps hs
  · exact (exec_touches h).keeps keeps (waiting s _ hs)

/-! ## The fields an invariant reads -/

theorem invariantFields_eq {s t : State} (h : invariantFields t = invariantFields s) :
    t.array = s.array ∧ t.ports = s.ports ∧ t.claims = s.claims ∧ t.directory = s.directory ∧
      t.watches = s.watches ∧ t.changeSets = s.changeSets ∧ t.powered = s.powered ∧
      t.resetAsserted = s.resetAsserted ∧ t.device = s.device ∧ t.now = s.now ∧
      t.pending = s.pending := by
  simpa only [invariantFields, Prod.mk.injEq] using h

theorem Touch.pending {s t : State} (h : Touch s t) : t.pending = s.pending := by
  cases h with
  | elsewhere h => exact (invariantFields_eq h).2.2.2.2.2.2.2.2.2.2
  | cleared h => exact h.pending
  | released i cause => rw [releaseSlot_frame]
  | _ => rfl

/-- Settles O3: a command is a chain of changes, none of which touches the queue. -/
theorem everyCommandCompletes : Obligations.EveryCommandCompletes := by
  intro c s
  obtain ⟨t, next⟩ := exec_next c s
  exact ⟨t, next, (exec_touches next).keeps (P := fun u => u.pending = s.pending)
    (fun _ _ touch => touch.pending.trans) rfl⟩

end Sys2Proof.Machine

/-! The invariants of the memories, the directory, the leases, the claims and the watches: every change of `Touch`
keeps them. -/

namespace Sys2Proof.Machine

/-! ## The memories -/

/-- A release changes at most LAPSE in a port unit (R98). -/
theorem releaseSlot_port (s : State) (i : SlotNo) (cause : ReleaseCause) (q : Port) :
    ∃ lapse, (releaseSlot s i cause).port q = { s.port q with lapse := lapse } := by
  have ports : ∀ (t : State) k h kind, (releaseEntry t k h kind cause).port q = t.port q := by
    intro t k h kind
    rw [releaseEntry_frame]; rfl
  have lapsed : ∀ t : State, t.ports = s.ports → ∀ p : Port,
      ∃ lapse, (t.setPort p { t.port p with lapse := true }).port q = { s.port q with lapse := lapse } := by
    intro t same p
    have unit : ∀ p, t.port p = s.port p := fun p => by rw [State.port, State.port, same]
    rw [State.port_setPort]
    split
    · next h => subst h; exact ⟨true, by rw [unit]⟩
    · exact ⟨(s.port q).lapse, unit q⟩
  unfold releaseSlot
  simp only
  split
  · rw [ports]
    split
    · exact lapsed _ rfl _
    · exact ⟨_, rfl⟩
  · split
    · exact lapsed _ rfl _
    · exact ⟨_, rfl⟩

theorem touch_keeps_memories (s t : State) (touch : Touch s t) (h : MemoriesCanonical s) :
    MemoriesCanonical t := by
  obtain ⟨array, windows, buffers⟩ := h
  cases touch with
  | elsewhere same =>
    obtain ⟨harray, hports, hclaims, -⟩ := invariantFields_eq same
    refine ⟨harray ▸ array, fun p => ?_, fun i => ?_⟩
    · rw [State.port, hports]; exact windows p
    · rw [State.slot, hclaims]; exact buffers i
  | page n c => exact ⟨PageArray.wf_setPage array n c, windows, buffers⟩
  | units ports unit => exact ⟨array, fun p => unit p (windows p), buffers⟩
  | released i cause =>
    refine ⟨by rw [releaseSlot_frame]; exact array, fun p => ?_, fun j => ?_⟩
    · obtain ⟨lapse, unit⟩ := releaseSlot_port s i cause p
      rw [unit]; exact windows p
    · rw [releaseSlot_slot]
      split
      · exact buffers i
      · exact buffers j
  | slot i x change =>
    refine ⟨array, windows, fun j => ?_⟩
    rw [State.slot_setSlot]
    split
    · exact change.buffer (buffers i)
    · exact buffers j
  | cleared change =>
    refine ⟨change.array ▸ array, fun p => ?_, fun i => ?_⟩
    · rw [change.windows p]; exact Memory.wf_nil
    · simp only [State.slot, change.claims, Fin.getElem_fin, Vector.getElem_replicate]
      exact Memory.wf_nil
  | _ => exact ⟨array, windows, buffers⟩

/-- Settles O53: each change of a step's chain writes memories by whole places, or clears them. -/
theorem stepKeepsMemoriesCanonical : Obligations.StepKeepsMemoriesCanonical :=
  fun _ _ hs h => step_keeps touch_keeps_memories
    (fun _ _ ⟨array, windows, buffers⟩ => ⟨array, windows, buffers⟩) h hs

/-! ## The directory -/

theorem DirectoryOrdered.of_directory {s t : State} (same : t.directory = s.directory)
    (h : DirectoryOrdered s) : DirectoryOrdered t :=
  ⟨same ▸ h.ordered, same ▸ h.bounded⟩

theorem addEntry_ordered {s : State} {e : Entry} (absent : s.entry e.key = none)
    (room : s.directory.length < 512) (h : DirectoryOrdered s) : DirectoryOrdered (s.addEntry e) where
  ordered := insertEntry_ordered h.ordered (State.entry_none.mp absent)
  bounded := by
    have places : Config.directoryPlaces = 512 := rfl
    rw [State.addEntry_directory, length_insertEntry, places]
    exact room

theorem releaseEntry_ordered {s : State} {k : Key} {hd : Handle} {kind : Option ClaimKind}
    {cause : ReleaseCause} (h : DirectoryOrdered s) : DirectoryOrdered (releaseEntry s k hd kind cause) := by
  unfold releaseEntry
  split
  · exact h
  · split
    · exact h
    · split
      · exact removeEntry_ordered h
      · exact modifyEntry_ordered h fun _ _ same => same

theorem releaseSlot_ordered {s : State} {i : SlotNo} {cause : ReleaseCause} (h : DirectoryOrdered s) :
    DirectoryOrdered (releaseSlot s i cause) := by
  unfold releaseSlot
  simp only
  split
  · refine releaseEntry_ordered (DirectoryOrdered.of_directory ?_ h)
    split <;> rfl
  · refine DirectoryOrdered.of_directory ?_ h
    split <;> rfl

theorem touch_keeps_directory (s t : State) (touch : Touch s t) (h : DirectoryOrdered s) :
    DirectoryOrdered t := by
  cases touch with
  | elsewhere same => exact h.of_directory (invariantFields_eq same).2.2.2.1
  | entry k f key claim => exact modifyEntry_ordered h fun e _ => key e
  | made e absent room claim => exact addEntry_ordered absent room h
  | removed k => exact removeEntry_ordered h
  | released i cause => exact releaseSlot_ordered h
  | cleared change =>
    exact ⟨by rw [change.directory]; exact .nil, by rw [change.directory]; exact Nat.zero_le _⟩
  | rebuilt directory ordered bounded claim => exact ⟨ordered, bounded⟩
  | _ => exact ⟨h.ordered, h.bounded⟩

/-- Settles O54: entries are made at their places, where there is room, and no change renames one. -/
theorem stepKeepsDirectoryOrdered : Obligations.StepKeepsDirectoryOrdered :=
  fun _ _ hs h => step_keeps touch_keeps_directory (fun _ _ => DirectoryOrdered.of_directory rfl) h hs

/-! ## Leases -/

theorem isStarting_not_isReady {s : State} (h : s.isStarting = true) : s.isReady = false := by
  simp only [State.isStarting, Bool.and_eq_true, beq_iff_eq] at h
  simp [State.isReady, h.2]

theorem isReady_not_isStarting {s : State} (h : s.isReady = true) : s.isStarting = false := by
  simp only [State.isReady, Bool.and_eq_true, beq_iff_eq] at h
  simp [State.isStarting, h.2]

theorem isReady_congr {s t : State} (powered : t.powered = s.powered)
    (resetAsserted : t.resetAsserted = s.resetAsserted) (device : t.device = s.device) :
    t.isReady = s.isReady ∧ t.isStarting = s.isStarting := by
  simp [State.isReady, State.isStarting, State.active, powered, resetAsserted, device]

/-- The law of leases in a state whose Claim Table, clock and device state are another's. -/
theorem LeaseLaw.congr {s t : State} (claims : t.claims = s.claims) (now : t.now = s.now)
    (ready : t.isReady = s.isReady) (starting : t.isStarting = s.isStarting) (h : LeaseLaw s) :
    LeaseLaw t := by
  have slots : ∀ i, t.slot i = s.slot i := fun i => by rw [State.slot, State.slot, claims]
  refine ⟨fun hs i => ?_, fun hr i => ?_⟩
  · rw [slots]; exact h.starting (starting ▸ hs) i
  · rw [slots, now]; exact h.ready (ready ▸ hr) i

/-- A slot that is free, or not late, keeps the law. -/
theorem LeaseLaw.set {s t : State} {i : SlotNo} {x : Slot}
    (slots : ∀ j, t.slot j = if j = i then x else s.slot j) (now : t.now = s.now)
    (ready : t.isReady = s.isReady) (starting : t.isStarting = s.isStarting)
    (free : s.isStarting = true → x.state = .free)
    (lease : x.state = .held → ∃ expiry, x.lease = some expiry ∧ s.now ≤ expiry) (h : LeaseLaw s) :
    LeaseLaw t := by
  refine ⟨fun hs j => ?_, fun hr j => ?_⟩
  · rw [slots]
    split
    · exact free (starting ▸ hs)
    · exact h.starting (starting ▸ hs) j
  · rw [slots, now]
    split
    · intro held
      obtain ⟨expiry, runs, later⟩ := lease held
      exact ⟨expiry, runs, later.trans (Nat.le_add_right _ _)⟩
    · exact h.ready (ready ▸ hr) j

theorem LeaseLaw.of_free {t : State} (free : ∀ i, (t.slot i).state = .free) : LeaseLaw t :=
  ⟨fun _ => free, fun _ i held => by rw [free i] at held; cases held⟩

/-- A lease that is not overdue has its 20 ms still to go. -/
theorem lease_runs {s : State} {i : SlotNo} {expiry : Nat} (held : (s.slot i).state = .held)
    (runs : (s.slot i).lease = some expiry) (inTime : leaseOverdue s i = false) :
    s.now + 1 ≤ expiry + Config.leaseGrace := by
  simp only [leaseOverdue, held, runs, Option.any_some, beq_self_eq_true, Bool.true_and] at inTime
  exact Nat.lt_of_not_le (of_decide_eq_false inTime)

theorem touch_keeps_leases (s t : State) (touch : Touch s t) (h : LeaseLaw s) : LeaseLaw t := by
  cases touch with
  | elsewhere same =>
    obtain ⟨-, -, claims, -, -, -, powered, resetAsserted, device, now, -⟩ := invariantFields_eq same
    obtain ⟨ready, starting⟩ := isReady_congr powered resetAsserted device
    exact h.congr claims now ready starting
  | released i cause =>
    refine h.set (fun j => releaseSlot_slot s i j cause) ?_ ?_ ?_ (fun _ => rfl) fun held => nomatch held
    all_goals rw [releaseSlot_frame]
    all_goals rfl
  | slot i x change =>
    refine h.set (fun j => State.slot_setSlot s i j x) rfl rfl rfl (fun starting => ?_) change.lease
    exact absurd change.ready (by rw [isStarting_not_isReady starting]; simp)
  | cleared change => exact .of_free fun i => by simp [State.slot, change.claims, Slot.reset]
  | stopped powered resetAsserted device change =>
    refine ⟨fun starting => ?_, fun ready => ?_⟩
    · rcases change with off | halted
      · simp [State.isStarting, State.active, off] at starting
      · simp [State.isStarting, halted] at starting
    · rcases change with off | halted
      · simp [State.isReady, State.active, off] at ready
      · simp [State.isReady, halted] at ready
  | ready starting => exact .of_free fun i => h.starting starting i
  | tick inTime =>
    refine ⟨h.starting, fun ready i held => ?_⟩
    obtain ⟨expiry, runs, -⟩ := h.ready ready i held
    exact ⟨expiry, runs, lease_runs held runs (inTime ready i)⟩
  | _ => exact LeaseLaw.congr (s := s) rfl rfl rfl rfl h

/-- Settles O57: a lease starts no earlier than now, and time passes only where no lease is overdue. -/
theorem stepKeepsLeaseLaw : Obligations.StepKeepsLeaseLaw :=
  fun _ _ hs h => step_keeps touch_keeps_leases (fun s _ => LeaseLaw.congr (s := s) rfl rfl rfl rfl) h hs

/-! ## Claims -/

/-- The law of claims, in terms of `Names`. -/
theorem claimLaw_iff {s : State} :
    ClaimLaw s ↔ ∀ e ∈ s.directory, ∀ hd, e.claim = some hd → Names s hd e.key := Iff.rfl

/-- What a claim field names does not depend on other slots. -/
theorem Names.of_slot {s t : State} {hd : Handle} {k : Key} (slot : t.slot hd.slot = s.slot hd.slot)
    (h : Names s hd k) : Names t hd k := by
  unfold Names
  rw [slot]
  exact h

/-- Entries that stood before, or lost their claim field. -/
theorem ClaimLaw.of_directory {s t : State} (h : ClaimLaw s)
    (entries : ∀ e ∈ t.directory, e.claim = none ∨ ∃ e₀ ∈ s.directory, e.key = e₀.key ∧ e.claim = e₀.claim)
    (slots : ∀ i, t.slot i = s.slot i) : ClaimLaw t := by
  refine claimLaw_iff.mpr fun e he hd claim => ?_
  rcases entries e he with clear | ⟨e₀, mem, key, same⟩
  · rw [clear] at claim; cases claim
  · rw [key]
    exact (claimLaw_iff.mp h e₀ mem hd (same ▸ claim)).of_slot (slots _)

/-- Each key stands once (R21). -/
theorem DirectoryOrdered.keys_nodup {s : State} (h : DirectoryOrdered s) :
    (s.directory.map (·.key)).Nodup := by
  rw [List.Nodup, List.pairwise_map]
  refine h.ordered.imp fun {a b} before same => ?_
  rw [same, Key.before_irrefl] at before
  cases before

theorem DirectoryOrdered.entry_eq {s : State} {e : Entry} (h : DirectoryOrdered s)
    (mem : e ∈ s.directory) : s.entry e.key = some e := by
  cases found : s.entry e.key with
  | none => exact absurd rfl (State.entry_none.mp found e mem)
  | some x =>
    obtain ⟨memx, keyx⟩ := State.entry_some found
    rw [List.inj_on_of_nodup_map h.keys_nodup memx mem keyx]

section Release
variable {s : State} {i : SlotNo} {cause : ReleaseCause} {k : Key}

/-- A release is the slot's, and perhaps LAPSE, and then the entry's (R87). -/
theorem releaseSlot_entry_eq (ht : (s.slot i).target = some (.record k)) :
    ∃ t : State, t.directory = s.directory ∧ (releaseSlot s i cause).entry =
      (releaseEntry t k ⟨i, (s.slot i).generation⟩ (s.slot i).kind cause).entry := by
  unfold releaseSlot
  simp only [ht]
  refine ⟨_, ?_, rfl⟩
  split <;> rfl

theorem State.entry_congr {s t : State} (h : t.directory = s.directory) (k : Key) :
    t.entry k = s.entry k := by rw [State.entry, State.entry, h]

/-- The claim field that names a released claim is cleared, or the FORMING entry of a create-claim goes (R87). -/
theorem releaseSlot_entry_claimed {e : Entry} (ht : (s.slot i).target = some (.record k))
    (he : s.entry k = some e) (hc : e.claim = some ⟨i, (s.slot i).generation⟩) :
    (releaseSlot s i cause).entry k =
      if (s.slot i).kind = some .create ∧ e.lifecycle = .forming ∧ cause.removesForming = true then none
      else some { e with claim := none } := by
  obtain ⟨t, same, eq⟩ := releaseSlot_entry_eq (cause := cause) ht
  have hte : t.entry k = some e := (State.entry_congr same k).trans he
  rw [eq]
  unfold releaseEntry
  simp only [hte, hc, bne_self_eq_false, Bool.false_eq_true, if_false]
  by_cases goes : (s.slot i).kind = some .create ∧ e.lifecycle = .forming ∧ cause.removesForming = true
  · obtain ⟨create, forming, removes⟩ := goes
    simp only [create, forming, removes, beq_self_eq_true, Bool.and_self, if_true, and_self]
    exact State.entry_removeEntry_self t k
  · have stays : ((s.slot i).kind == some .create && e.lifecycle == .forming &&
        cause.removesForming) = false := by
      rw [← Bool.not_eq_true]
      simpa [and_assoc] using goes
    rw [if_neg goes, stays, if_neg (by simp)]
    exact State.entry_modifyEntry_self (f := fun e => { e with claim := none }) hte
      (State.entry_some hte).2

/-- Every other entry stands as it was (R87). -/
theorem releaseSlot_entry_kept
    (other : ∀ e, (s.slot i).target = some (.record k) → s.entry k = some e →
      e.claim ≠ some ⟨i, (s.slot i).generation⟩) :
    (releaseSlot s i cause).entry k = s.entry k := by
  by_cases ht : (s.slot i).target = some (.record k)
  · obtain ⟨t, same, eq⟩ := releaseSlot_entry_eq (cause := cause) ht
    rw [eq, ← State.entry_congr same k]
    unfold releaseEntry
    split
    · rfl
    · next e he =>
      rw [if_pos]
      simpa using other e ht ((State.entry_congr same k).symm.trans he)
  · cases target : (s.slot i).target with
    | none => unfold releaseSlot; simp only [target]; split <;> rfl
    | some x => cases x with
      | config => unfold releaseSlot; simp only [target]; split <;> rfl
      | record k' =>
        exact releaseSlot_entry_ne target fun same => ht (same ▸ target)

end Release

theorem release_keeps_claims {s : State} {i : SlotNo} {cause : ReleaseCause} (ordered : DirectoryOrdered s)
    (h : ClaimLaw s) : ClaimLaw (releaseSlot s i cause) := by
  refine claimLaw_iff.mpr fun e mem hd claim => ?_
  obtain ⟨e₀, mem₀, rfl | rfl⟩ := releaseSlot_directory mem
  · have names := claimLaw_iff.mp h e mem₀ hd claim
    by_cases slot : hd.slot = i
    · subst slot
      obtain ⟨used, generation, target⟩ := names
      have stands := (releaseSlot_ordered (i := hd.slot) (cause := cause) ordered).entry_eq mem
      rw [releaseSlot_entry_claimed target (ordered.entry_eq mem₀) (by rw [claim, generation])] at stands
      split at stands
      · cases stands
      · rw [← Option.some.inj stands] at claim
        cases claim
    · exact names.of_slot (by rw [releaseSlot_slot, if_neg slot])
  · cases claim

theorem touch_keeps_claims (s t : State) (touch : Touch s t) (ordered : DirectoryOrdered s)
    (h : ClaimLaw s) : ClaimLaw t := by
  cases touch with
  | elsewhere same =>
    obtain ⟨-, -, claims, directory, -⟩ := invariantFields_eq same
    exact h.of_directory (fun e he => .inr ⟨e, directory ▸ he, rfl, rfl⟩)
      fun i => by rw [State.slot, State.slot, claims]
  | entry k f key claim =>
    refine claimLaw_iff.mpr fun e he hd names => ?_
    obtain ⟨x, mem, rfl⟩ := List.mem_map.mp he
    split at names
    · next hk =>
      subst hk
      have law := claimLaw_iff.mp h x mem hd
      rw [if_pos rfl, key x rfl]
      exact (claim x (ordered.entry_eq mem) hd names).elim law id
    · next hk =>
      rw [if_neg hk]
      exact claimLaw_iff.mp h x mem hd names
  | made e absent room claim =>
    refine claimLaw_iff.mpr fun x hx hd names => ?_
    rcases mem_insertEntry.mp hx with rfl | mem
    · exact claim hd names
    · exact claimLaw_iff.mp h x mem hd names
  | removed k =>
    exact h.of_directory (fun e he => .inr ⟨e, (List.mem_filter.mp he).1, rfl, rfl⟩) fun _ => rfl
  | released i cause => exact release_keeps_claims ordered h
  | slot i x change =>
    refine claimLaw_iff.mpr fun e he hd names => ?_
    obtain ⟨used, generation, target⟩ := claimLaw_iff.mp h e he hd names
    unfold Names
    rw [State.slot_setSlot]
    split
    · next same =>
      rw [same] at used generation target
      obtain ⟨used', generation', target'⟩ := change.claim used
      exact ⟨used', generation'.trans generation, target'.trans target⟩
    · exact ⟨used, generation, target⟩
  | cleared change => exact claimLaw_iff.mpr fun e he => by simp [change.directory] at he
  | rebuilt directory rising bounded claim =>
    exact claimLaw_iff.mpr fun e he hd names => by rw [claim e he] at names; cases names
  | _ => exact h.of_directory (fun e he => .inr ⟨e, he, rfl, rfl⟩) fun _ => rfl

/-- Settles O58: a claim field is set to a claim just granted, and cleared as its claim is released. -/
theorem stepKeepsClaimLaw : Obligations.StepKeepsClaimLaw := by
  intro s t ordered claims h
  refine (step_keeps (P := fun u => DirectoryOrdered u ∧ ClaimLaw u) (fun u v touch hu => ?_)
    (fun u rest hu => ?_) h ⟨ordered, claims⟩).2
  · exact ⟨touch_keeps_directory u v touch hu.1, touch_keeps_claims u v touch hu.1 hu.2⟩
  · exact ⟨DirectoryOrdered.of_directory (s := u) rfl hu.1,
      ClaimLaw.of_directory (s := u) hu.2 (fun e he => .inr ⟨e, he, rfl, rfl⟩) fun _ => rfl⟩

/-! ## Watches and Change Sets -/

/-- A Change Set within its bound, with no key twice (R167). -/
structure ChangesFit (c : ChangeSet) : Prop where
  places : c.entries.length ≤ 24
  once : (c.entries.map (·.key)).Nodup

theorem watchLaw_iff {s : State} : WatchLaw s ↔ WatchesFit s.watches ∧ ∀ p, ChangesFit (s.changes p) :=
  ⟨fun ⟨places, perPort, distinct, changes⟩ =>
    ⟨⟨places, perPort, distinct⟩, fun p => ⟨(changes p).1, (changes p).2⟩⟩,
   fun ⟨⟨places, perPort, distinct⟩, changes⟩ =>
    ⟨places, perPort, distinct, fun p => ⟨(changes p).places, (changes p).once⟩⟩⟩

theorem ChangesFit.deliver {c : ChangeSet} (h : ChangesFit c) (n : Change) :
    ChangesFit (Machine.deliver c n) := by
  unfold Machine.deliver
  split
  · have keys : ∀ e : Change,
        (if e.key = n.key then { n with kind := combineKinds e.kind n.kind } else e).key = e.key := by
      intro e
      split
      · next same => exact same.symm
      · rfl
    refine ⟨by simpa using h.places, ?_⟩
    simpa [List.map_map, Function.comp_def, keys] using h.once
  · next new =>
    split
    · next room =>
      have places : Config.changeSetPlaces = 24 := rfl
      refine ⟨by simp; omega, ?_⟩
      rw [List.map_append, List.nodup_append]
      refine ⟨h.once, by simp, fun k hk k' hk' => ?_⟩
      obtain ⟨e, he, rfl⟩ := List.mem_map.mp hk
      obtain rfl : k' = n.key := by simpa using hk'
      simp only [List.any_eq_true, not_exists, not_and] at new
      simpa using new e he
    · exact ⟨h.places, h.once⟩

theorem ChangesFit.sublist {c c' : ChangeSet} (sub : c'.entries.Sublist c.entries) (h : ChangesFit c) :
    ChangesFit c' :=
  ⟨sub.length_le.trans h.places, h.once.sublist (sub.map _)⟩

theorem touch_keeps_watches (s t : State) (touch : Touch s t) (h : WatchLaw s) : WatchLaw t := by
  rw [watchLaw_iff] at *
  obtain ⟨watches, changes⟩ := h
  cases touch with
  | elsewhere same =>
    obtain ⟨-, -, -, -, hwatches, hchanges, -⟩ := invariantFields_eq same
    exact ⟨hwatches ▸ watches, fun p => by rw [State.changes, hchanges]; exact changes p⟩
  | noticed kind k version cause =>
    refine ⟨watches, fun p => ?_⟩
    rw [notify_changes]
    split
    · exact (changes p).deliver _
    · exact changes p
  | watched ws fits => exact ⟨fits watches, changes⟩
  | taken p c sub =>
    refine ⟨watches, fun q => ?_⟩
    by_cases same : q = p
    · subst same
      rw [State.changes_setChanges_self]
      exact (changes q).sublist sub
    · rw [State.changes_setChanges_ne s c same]
      exact changes q
  | cleared change =>
    refine ⟨by rw [change.watches]; exact ⟨Nat.zero_le _, fun _ => Nat.zero_le _, .nil⟩, fun p => ?_⟩
    simp only [State.changes, change.changeSets, Fin.getElem_fin, Vector.getElem_replicate]
    exact ⟨Nat.zero_le _, List.nodup_nil⟩
  | released i cause => rw [releaseSlot_frame]; exact ⟨watches, changes⟩
  | _ => exact ⟨watches, changes⟩

/-- Settles O59: a watch is added where a place is left, and a notice combines with its key's. -/
theorem stepKeepsWatchLaw : Obligations.StepKeepsWatchLaw :=
  fun _ _ hs h => step_keeps touch_keeps_watches
    (fun _ _ ⟨places, perPort, distinct, changes⟩ => ⟨places, perPort, distinct, changes⟩) h hs

end Sys2Proof.Machine

/-! How an event of the Array Engine ends (R119, R122): the running job goes on, or it has ended, with the Retirement
List settled. The ends of jobs (R115). -/

namespace Sys2Proof.Machine

/-- The running job, the engine, the Job Queue and the port units stand as they were. -/
structure SameControl (s t : State) : Prop where
  running : t.running = s.running
  engine : t.engine = s.engine
  jobQueue : t.jobQueue = s.jobQueue
  ports : t.ports = s.ports

/-- What an event makes of a job for the port `p`: it goes on, or it ends, after the port may have been answered and
after other changes within a frame. -/
inductive JobStep (Frame : State → State → Prop) (p : Option Port) (s t : State) : Prop
  | goesOn (r : RunningJob) (running : t.running = some r) (port : r.job.port = p)
      (engine : t.engine = s.engine) (jobQueue : t.jobQueue = s.jobQueue) (ports : t.ports = s.ports)
  | ended (u : State) (finish : t = finishJob u) (jobQueue : u.jobQueue = s.jobQueue)
      (ports : ∀ q, p ≠ some q → u.port q = s.port q) (frame : Frame s u)

/-- A job step, whatever the end of the job moves. -/
abbrev AnyJobStep : Option Port → State → State → Prop := JobStep fun _ _ => True

/-- A step of a job that moves no page (R69, R92, R148). -/
abbrev ReadingStep : Option Port → State → State → Prop := JobStep PoolsKept

theorem PoolsKept.refl (s : State) : PoolsKept s s := ⟨rfl, rfl, rfl, rfl, rfl, rfl⟩

theorem PoolsKept.trans {s t u : State} (h₁ : PoolsKept s t) (h₂ : PoolsKept t u) : PoolsKept s u :=
  ⟨h₂.erased.trans h₁.erased, h₂.inWrite.trans h₁.inWrite, h₂.live.trans h₁.live,
    h₂.dirty.trans h₁.dirty, h₂.bad.trans h₁.bad, h₂.retirements.trans h₁.retirements⟩

section Steps
variable {s t u : State} {p : Option Port}

theorem JobStep.any {Frame : State → State → Prop} (h : JobStep Frame p s t) : AnyJobStep p s t := by
  cases h with
  | goesOn r running port engine jobQueue ports => exact .goesOn r running port engine jobQueue ports
  | ended u finish jobQueue ports => exact .ended u finish jobQueue ports trivial

/-- What goes before the step. -/
theorem SameControl.then {Frame : State → State → Prop} (h₁ : SameControl s u)
    (frame : ∀ v, Frame u v → Frame s v) (h₂ : JobStep Frame p u t) : JobStep Frame p s t := by
  cases h₂ with
  | goesOn r running port engine jobQueue ports =>
    exact .goesOn r running port (engine.trans h₁.engine) (jobQueue.trans h₁.jobQueue)
      (ports.trans h₁.ports)
  | ended v finish jobQueue ports within =>
    refine .ended v finish (jobQueue.trans h₁.jobQueue) (fun q hq => (ports q hq).trans ?_) (frame v within)
    exact congrArg (·[q]) h₁.ports

theorem SameControl.thenAny (h₁ : SameControl s u) (h₂ : AnyJobStep p u t) : AnyJobStep p s t :=
  h₁.then (fun _ _ => trivial) h₂

theorem SameControl.thenReading (h₁ : SameControl s u) (pools : PoolsKept s u) (h₂ : ReadingStep p u t) :
    ReadingStep p s t :=
  h₁.then (fun _ => pools.trans) h₂

theorem SameControl.refl (s : State) : SameControl s s := ⟨rfl, rfl, rfl, rfl⟩

theorem SameControl.trans (h₁ : SameControl s t) (h₂ : SameControl t u) : SameControl s u :=
  ⟨h₂.running.trans h₁.running, h₂.engine.trans h₁.engine, h₂.jobQueue.trans h₁.jobQueue,
    h₂.ports.trans h₁.ports⟩

end Steps

/-! ## Shared operations -/

section Shared
variable (s : State) (r : RunningJob)

theorem reportPage_control (k : Key) (c : CopyNo) (report : PageReport) (b b' : Bool) :
    SameControl s (reportPage s k c report b b') := by
  rw [reportPage_frame]; exact ⟨rfl, rfl, rfl, rfl⟩

theorem reportPage_pools (k : Key) (c : CopyNo) (report : PageReport) (b b' : Bool) :
    PoolsKept s (reportPage s k c report b b') := by
  rw [reportPage_frame]; exact ⟨rfl, rfl, rfl, rfl, rfl, rfl⟩

theorem setPage_control (n : Nat) (c : PageCell) : SameControl s (s.setPage n c) :=
  ⟨rfl, rfl, rfl, rfl⟩

theorem spoilPage_control (n : Nat) : SameControl s (s.spoilPage n) := ⟨rfl, rfl, rfl, rfl⟩

theorem inWritePageToDirty_control (page : Nat) (k : Key) :
    SameControl s (inWritePageToDirty s page k) := by
  rw [inWritePageToDirty_frame]; exact ⟨rfl, rfl, rfl, rfl⟩

theorem inWriteToDirty_control (k : Key) : SameControl s (inWriteToDirty s k) := by
  rw [inWriteToDirty_frame]; exact ⟨rfl, rfl, rfl, rfl⟩

theorem releaseJobSlot_control {cause : ReleaseCause} (h : cause ≠ .lapsed) :
    SameControl s (releaseJobSlot s r cause) := by
  rw [releaseJobSlot_frame h]; exact ⟨rfl, rfl, rfl, rfl⟩

theorem releaseJobSlot_pools {cause : ReleaseCause} (h : cause ≠ .lapsed) :
    PoolsKept s (releaseJobSlot s r cause) := by
  rw [releaseJobSlot_frame h]; exact ⟨rfl, rfl, rfl, rfl, rfl, rfl⟩

theorem repairRequest_control (k : Key) (version : Nat) (c : CopyNo) (cause : RepairCause) :
    SameControl s (repairRequest s k version c cause) := by
  rw [repairRequest_frame]; exact ⟨rfl, rfl, rfl, rfl⟩

theorem completeJob_port_ne {code : Completion} {res : Result} {data : Option (List Byte)} {q : Port}
    (h : r.job.port ≠ some q) : (completeJob s r code res data).port q = s.port q := by
  unfold completeJob
  split
  · next p port => exact post_port_ne _ _ _ _ _ fun same => h (same ▸ port)
  · rfl

/-- A job's answer and its end. -/
theorem finish_completeJob_step {s : State} {r : RunningJob} {p : Option Port} (port : r.job.port = p)
    (code : Completion) (res : Result) (data : Option (List Byte)) :
    ReadingStep p s (finishJob (completeJob s r code res data)) := by
  refine .ended _ rfl ?_ (fun q other => completeJob_port_ne s r (port ▸ other)) ?_
  · rw [completeJob_frame]
  · rw [completeJob_frame]; exact ⟨rfl, rfl, rfl, rfl, rfl, rfl⟩

theorem finish_step (p : Option Port) : ReadingStep p s (finishJob s) :=
  .ended s rfl rfl (fun _ _ => rfl) (.refl s)

end Shared

/-! ## The ends of jobs -/

section Ends
variable {s : State} {r : RunningJob} {p : Option Port} (port : r.job.port = p)
include port

theorem endWriteDone_step : AnyJobStep p s (endWriteDone s r) := by
  have live : SameControl s (backToLive s r.key) := ⟨rfl, rfl, rfl, rfl⟩
  exact live.thenAny ((releaseJobSlot_control _ r (cause := .committed) (by simp)).thenAny
    (finish_completeJob_step port _ _ _).any)

theorem endCopyPending_step : AnyJobStep p s (endCopyPending s r) := by
  have degraded : SameControl s ((inWriteToDirty s r.key).modifyEntry r.key fun e =>
      { e with lifecycle := .live, integrity := .degraded }) := ⟨rfl, rfl, rfl, rfl⟩
  unfold endCopyPending
  exact degraded.thenAny ((repairRequest_control _ _ _ _ _).thenAny
    ((releaseJobSlot_control _ r (cause := .committed) (by simp)).thenAny
      (finish_completeJob_step port _ _ _).any))

omit port in
theorem undoEntry_control (s : State) (r : RunningJob) : SameControl s (undoEntry s r) := by
  unfold undoEntry
  (repeat' split) <;> exact ⟨rfl, rfl, rfl, rfl⟩

theorem endBeforeCommit_step (code : Completion) : AnyJobStep p s (endBeforeCommit s r code) := by
  have moved : SameControl s (inWriteToDirty s r.key) := ⟨rfl, rfl, rfl, rfl⟩
  unfold endBeforeCommit
  exact moved.thenAny ((undoEntry_control _ r).thenAny
    ((releaseJobSlot_control _ r (cause := .failed) (by simp)).thenAny
      (finish_completeJob_step port _ _ _).any))

omit port in
theorem replaceLost_control (s : State) (k : Key) (version : Nat) : SameControl s (replaceLost s k version) := by
  rw [replaceLost_frame]; exact ⟨rfl, rfl, rfl, rfl⟩

omit port in
theorem endRepairWithout_step (s : State) (r : RunningJob) (p : Option Port) : AnyJobStep p s (endRepairWithout s r) := by
  have dropped : SameControl s (dropRepair (inWriteToDirty s r.key) r.key r.job.params.copy) :=
    ⟨rfl, rfl, rfl, rfl⟩
  unfold endRepairWithout closeRepair
  exact dropped.thenAny ((replaceLost_control _ _ _).thenAny (finish_step _ p).any)

omit port in
theorem installRepair_control (s : State) (r : RunningJob) : SameControl s (installRepair s r) := by
  unfold installRepair
  simp only
  split
  · exact .refl s
  · split
    · rw [placeLost_frame]; exact ⟨rfl, rfl, rfl, rfl⟩
    · exact ⟨rfl, rfl, rfl, rfl⟩

omit port in
theorem endRepairInstalled_step (s : State) (r : RunningJob) (p : Option Port) : AnyJobStep p s (endRepairInstalled s r) := by
  have dropped : SameControl s (dropRepair (installRepair s r) r.key r.job.params.copy) :=
    (installRepair_control s r).trans ⟨rfl, rfl, rfl, rfl⟩
  unfold endRepairInstalled closeRepair
  exact dropped.thenAny ((replaceLost_control _ _ _).thenAny (finish_step _ p).any)

theorem failJob_step (code : Completion) : AnyJobStep p s (failJob s r code) := by
  unfold failJob
  split
  · exact endRepairWithout_step _ _ _
  · exact endBeforeCommit_step port code
  · exact endCopyPending_step port

end Ends

/-! ## Programs and draws -/

section Draws
variable {s : State} {r : RunningJob} {p : Option Port} (port : r.job.port = p)
include port

theorem beginHeader_step (page : Nat) (tag : Tag) (payload : Nat → Payload) :
    AnyJobStep p s (beginHeader s r page tag payload) := by
  unfold beginHeader
  split
  · exact failJob_step port .exhausted
  · exact .goesOn { r with stage := .programming } rfl port rfl rfl rfl

theorem programNext_step : AnyJobStep p s (programNext s r) := by
  unfold programNext
  split
  · exact .goesOn r rfl port rfl rfl rfl
  · split
    · exact .goesOn { r with stage := .programming } rfl port rfl rfl rfl
    · exact beginHeader_step port _ _ _
    · exact beginHeader_step port _ _ _

theorem drawNow_step (count : Nat) (role : Option PageRole) :
    AnyJobStep p s (drawNow s r count role) := by
  have drawn : SameControl s
      { s with erased := s.erased.drop count, inWrite := insertAll (s.erased.take count) s.inWrite } :=
    ⟨rfl, rfl, rfl, rfl⟩
  unfold drawNow
  refine drawn.thenAny ?_
  simp only
  split
  · refine SameControl.thenAny ?_ (programNext_step (by exact port))
    exact ⟨rfl, rfl, rfl, rfl⟩
  · exact programNext_step (by exact port)

theorem continueDraw_step (count : Nat) (role : Option PageRole) :
    AnyJobStep p s (continueDraw s r count role) := by
  unfold continueDraw
  split
  · exact drawNow_step port count role
  · split
    · exact .goesOn { r with stage := .drawing count role } rfl port rfl rfl rfl
    · split
      · have withdrawn : SameControl s { s with reservation := s.reservation - r.job.need } :=
          ⟨rfl, rfl, rfl, rfl⟩
        exact withdrawn.thenAny (failJob_step port .noSpace)
      · exact failJob_step port .noSpace

theorem programFailed_step (d : DrawnPage) : AnyJobStep p s (programFailed s r d) := by
  unfold programFailed
  refine ((spoilPage_control s d.page).trans (inWritePageToDirty_control _ d.page r.key)).thenAny ?_
  simp only
  generalize inWritePageToDirty (s.spoilPage d.page) d.page r.key = u
  split
  · exact failJob_step (by exact port) _
  · exact continueDraw_step (by exact port) _ _

end Draws

/-! ## The starts of jobs -/

section Starts
variable {s : State} {r : RunningJob} {p : Option Port} (port : r.job.port = p)
include port

theorem beginRead_step (e : Entry) (c : CopyNo) : ReadingStep p s (beginRead s r e c) := by
  unfold beginRead
  split
  · next page rest _ => exact .goesOn { r with stage := .reading c (page :: rest) [] } rfl port rfl rfl rfl
  · exact finish_completeJob_step port _ _ _

omit port in
theorem startRead_step (s : State) (j : Job) (k : Key) : AnyJobStep j.port s (startRead s j k) := by
  have ends : ∀ code res data, AnyJobStep j.port s (endRead s (newRun j (s.entry k)) code res data) :=
    fun code res data => (finish_completeJob_step (by rfl) code res (some data)).any
  unfold startRead
  simp only
  split
  · exact ends _ _ _
  · split
    · exact ends _ _ _
    · split
      · exact ends _ _ _
      · split
        · exact ends _ _ _
        · split
          · exact (beginRead_step (by rfl) _ _).any
          · exact ends _ _ _

theorem endPreloadDamaged_step : ReadingStep p s (endPreloadDamaged s r) :=
  (releaseJobSlot_control s r (cause := .failed) (by simp)).thenReading
    (releaseJobSlot_pools s r (by simp)) (finish_completeJob_step port _ _ _)

theorem beginSource_step (c : CopyNo) (d : CopyDescriptor) :
    ReadingStep p s (beginSource s r c d) :=
  .goesOn { r with stage := .source c none (d.header :: d.dataPages) [] } rfl port rfl rfl rfl

theorem beginChosenSource_step (e : Entry) {failed : State} (h : AnyJobStep p s failed) :
    AnyJobStep p s (beginChosenSource s r e failed) := by
  unfold beginChosenSource
  split
  · exact h
  · split
    · exact h
    · exact (beginSource_step port _ _).any

omit port in
theorem startPreload_step (s : State) (j : Job) (k : Key) : AnyJobStep j.port s (startPreload s j k) := by
  have ends : AnyJobStep j.port s (endPreloadDamaged s (newRun j (s.entry k))) :=
    (endPreloadDamaged_step (by rfl)).any
  unfold startPreload
  simp only
  split
  · exact ends
  · split
    · exact ends
    · exact beginChosenSource_step (by rfl) _ ends

theorem endRaiseDamaged_step : AnyJobStep p s (endRaiseDamaged s r) := by
  have withdrawn : SameControl s { s with reservation := s.reservation - r.job.need } :=
    ⟨rfl, rfl, rfl, rfl⟩
  exact withdrawn.thenAny (endBeforeCommit_step port .damaged)

omit port in
theorem startWriteCopy_step (s : State) (j : Job) (k : Key) : AnyJobStep j.port s (startWriteCopy s j k) := by
  unfold startWriteCopy
  split
  · exact endBeforeCommit_step (by rfl) .notFound
  · next e _ =>
    simp only
    split
    · exact beginChosenSource_step (by rfl) e (endRaiseDamaged_step (by rfl))
    · exact continueDraw_step (by rfl) _ _

omit port in
theorem startRetire_step (s : State) (j : Job) (k : Key) : AnyJobStep j.port s (startRetire s j k) := by
  unfold startRetire
  split
  · exact endBeforeCommit_step (by rfl) .notFound
  · next e _ =>
    exact continueDraw_step (by rfl) _ _

theorem endConfig_step (code : Completion) (committed : Bool) :
    AnyJobStep p s (endConfig s r code committed) :=
  (releaseJobSlot_control s r (by split <;> simp)).thenAny (finish_completeJob_step port _ _ _).any

theorem beginConfigStep_step (step : Nat) : AnyJobStep p s (beginConfigStep s r step) := by
  unfold beginConfigStep
  simp only
  split
  · exact .goesOn { r with stage := .config 4 } rfl port rfl rfl rfl
  · exact .goesOn { r with stage := .config 5 } rfl port rfl rfl rfl
  · split
    · exact endConfig_step (by exact port) _ _
    · exact .goesOn { r with stage := .config 6 } rfl port rfl rfl rfl
  · exact .goesOn { r with stage := .config step } rfl port rfl rfl rfl

omit port in
theorem setCopyState_control (s : State) (c : CopyNo) (x : CopyState) : SameControl s (setCopyState s c x) := by
  cases c <;> exact ⟨rfl, rfl, rfl, rfl⟩

omit port in
theorem startConfigWrite_step (s : State) (j : Job) : AnyJobStep j.port s (startConfigWrite s j) := by
  unfold startConfigWrite
  exact (setCopyState_control s (configTarget s) .invalid).thenAny (beginConfigStep_step (by rfl) 0)

theorem patrolFrom_step (copies : List CopyNo) :
    ReadingStep p s (patrolFrom s r copies) := by
  induction copies with
  | nil => exact finish_step s _
  | cons c rest ih =>
    unfold patrolFrom
    split
    · split
      · exact beginSource_step port _ _
      · exact ih
    · exact ih

omit port in
theorem startJob_step (s : State) (j : Job) : AnyJobStep j.port s (startJob s j) := by
  unfold startJob
  split
  · exact startConfigWrite_step s j
  · exact startRead_step s j _
  · exact startPreload_step s j _
  · exact startWriteCopy_step s j _
  · exact startRetire_step s j _
  · exact (finish_step s _).any

end Starts

section Selection
variable (s : State)

/-- How a background job starts: it runs, or it has ended at once (R121). -/
inductive BackgroundStart (s t : State) : Prop
  | runs (u : State) (h : AnyJobStep none u t) (engine : u.engine = .running)
      (jobQueue : u.jobQueue = s.jobQueue) (ports : u.ports = s.ports)
      (dispatchQueue : u.dispatchQueue = s.dispatchQueue) (restarting : u.restarting = s.restarting)

theorem startRepair_starts (x : RepairEntry) : BackgroundStart s (startRepair s x) := by
  refine .runs { markRunning s x.key x.copy with engine := .running } ?_ rfl rfl rfl rfl rfl
  unfold startRepair
  simp only
  split
  · exact endRepairWithout_step _ _ none
  · split
    · exact endRepairWithout_step _ _ none
    · split
      · exact endRepairWithout_step _ _ none
      · exact .goesOn _ rfl rfl rfl rfl rfl

theorem startErase_starts (page : Nat) (k : Option Key) : BackgroundStart s (startErase s page k) :=
  .runs { s with engine := .running } (.goesOn _ rfl rfl rfl rfl rfl) rfl rfl rfl rfl rfl

theorem startPatrol_starts : BackgroundStart s (startPatrol s) := by
  refine .runs { s with engine := .running, patrolDue := false } ?_ rfl rfl rfl rfl rfl
  unfold startPatrol
  simp only
  split
  · exact (finish_step _ _).any
  · next e _ =>
    have moved : SameControl { s with engine := .running, patrolDue := false }
        { s with engine := .running, patrolDue := false, patrolCursor := some e.key } :=
      ⟨rfl, rfl, rfl, rfl⟩
    exact moved.thenAny (patrolFrom_step (by rfl) _).any

theorem selectEraseOrPatrol_cases :
    selectEraseOrPatrol s = s ∨ BackgroundStart s (selectEraseOrPatrol s) := by
  unfold selectEraseOrPatrol
  split
  · exact .inr (startErase_starts s _ _)
  · split
    · exact .inr (startPatrol_starts s)
    · exact .inl rfl

theorem selectBackground_cases : selectBackground s = s ∨ BackgroundStart s (selectBackground s) := by
  unfold selectBackground
  split
  · split
    · exact .inr (startRepair_starts s _)
    · exact selectEraseOrPatrol_cases s
  · exact selectEraseOrPatrol_cases s

/-- What the selection does (R121): nothing, a background job, or the head of the Job Queue. -/
theorem selectJob_cases :
    selectJob s = s ∨ BackgroundStart s (selectJob s) ∨
      ∃ j rest, s.jobQueue = j :: rest ∧
        AnyJobStep j.port { s with jobQueue := rest, engine := .running } (selectJob s) := by
  unfold selectJob
  split
  · next j rest queue => exact .inr (.inr ⟨j, rest, queue, startJob_step _ j⟩)
  · split
    · exact .inl rfl
    · exact (selectBackground_cases s).imp_right .inl

end Selection

/-! ## The ends of page reads -/

section Reads
variable {s : State} {r : RunningJob} {p : Option Port} (port : r.job.port = p)
include port

/-- An event that cannot arise leaves the running job as it is (log 1). -/
theorem unchanged_step {Frame : State → State → Prop} (running : s.running = some r) :
    JobStep Frame p s s := .goesOn r running port rfl rfl rfl

theorem readFaulty_step (c : CopyNo) :
    ReadingStep p s (readFaulty s r c) := by
  unfold readFaulty
  split
  · exact beginRead_step port _ _
  · exact finish_completeJob_step port _ _ _

theorem readPageDone_step (running : s.running = some r) (o : ReadOutcome) :
    ReadingStep p s (readPageDone o s r) := by
  unfold readPageDone
  split
  · next c page left got e _ _ _ =>
    split
    · simp only
      generalize (readCell (s.page page) o).dataBytes.isNone = faulty
      refine (reportPage_control s r.key c (readCell (s.page page) o) faulty faulty).thenReading
        (reportPage_pools s r.key c (readCell (s.page page) o) faulty faulty) ?_
      split
      · exact readFaulty_step port _
      · exact finish_completeJob_step port _ _ _
      · exact .goesOn { r with stage := .reading c _ _ } rfl port rfl rfl rfl
    · exact unchanged_step port running
  · exact unchanged_step port running

/-- A page of a whole-copy read: its report is applied, and then what goes on from it is a step. -/
theorem sourcePageDone_step {Frame : State → State → Prop} (running : s.running = some r)
    (frame : ∀ u v, PoolsKept s u → Frame u v → Frame s v)
    (o : ReadOutcome) {next : State → CopyNo → SourceStep → State}
    (h : ∀ u c step, JobStep Frame p u (next u c step)) :
    JobStep Frame p s (sourcePageDone o s r next) := by
  unfold sourcePageDone
  split
  · split
    · exact unchanged_step port running
    · split
      · exact (reportPage_control s _ _ _ _ _).then (fun v => frame _ v (reportPage_pools s _ _ _ _ _))
          (h _ _ _)
      · exact unchanged_step port running
  · exact unchanged_step port running

theorem continueSource_step {Frame : State → State → Prop} (stage : Stage) :
    JobStep Frame p s (continueSource s r stage) :=
  .goesOn { r with stage := stage } rfl port rfl rfl rfl

theorem sourceFaulty_step {Frame : State → State → Prop} (c : CopyNo)
    {failed : State} (h : JobStep Frame p s failed) :
    JobStep Frame p s (sourceFaulty s r c failed) := by
  unfold sourceFaulty
  split
  · exact h
  · split
    · exact .goesOn { r with stage := _ } rfl port rfl rfl rfl
    · exact h

theorem endPreloadDone_step (e : Entry) (bytes : List Byte) :
    ReadingStep p s (endPreloadDone s r e bytes) := by
  unfold endPreloadDone
  split
  · next hd answered _ caller =>
    refine .ended _ rfl rfl (fun q other => ?_) ⟨rfl, rfl, rfl, rfl, rfl, rfl⟩
    rw [post_port_ne _ _ _ _ _ fun same => other (by rw [← port, caller, same])]
    rfl
  · exact finish_step s _

theorem preloadStep_step (c : CopyNo) (step : SourceStep) :
    ReadingStep p s (preloadStep r s c step) := by
  unfold preloadStep
  split
  · exact continueSource_step port _
  · exact sourceFaulty_step port c (endPreloadDamaged_step port)
  · split
    · exact endPreloadDone_step port _ _
    · exact endPreloadDamaged_step port

theorem raiseStep_step (c : CopyNo) (step : SourceStep) :
    AnyJobStep p s (raiseStep r s c step) := by
  unfold raiseStep
  split
  · exact continueSource_step port _
  · exact sourceFaulty_step port c (endRaiseDamaged_step port)
  · next bytes => exact continueDraw_step (by exact port) _ _

theorem repairStep_step (c : CopyNo) (step : SourceStep) :
    AnyJobStep p s (repairStep r s c step) := by
  unfold repairStep
  split
  · exact continueSource_step port _
  · exact endRepairWithout_step _ _ _
  · next bytes => exact continueDraw_step (by exact port) _ _

theorem patrolStep_step (c : CopyNo) (step : SourceStep) :
    ReadingStep p s (patrolStep r s c step) := by
  unfold patrolStep
  split
  · exact continueSource_step port _
  · exact patrolFrom_step port _
  · exact patrolFrom_step port _

theorem preloadPageDone_step (running : s.running = some r) (preload : r.job.kind = .preload)
    (o : ReadOutcome) : ReadingStep p s (copySourcePageDone o s r) := by
  unfold copySourcePageDone
  rw [preload]
  exact sourcePageDone_step port running (Frame := PoolsKept)
    (fun _ _ before => before.trans) o fun u c step => preloadStep_step port c step

theorem copySourcePageDone_step (running : s.running = some r) (o : ReadOutcome) :
    AnyJobStep p s (copySourcePageDone o s r) := by
  unfold copySourcePageDone
  split
  · exact sourcePageDone_step port running (fun _ _ _ _ => trivial) o fun u c step =>
      (preloadStep_step port c step).any
  · exact sourcePageDone_step port running (fun _ _ _ _ => trivial) o fun u c step => raiseStep_step port c step
  · exact unchanged_step port running

theorem repairSourcePageDone_step (running : s.running = some r) (o : ReadOutcome) :
    AnyJobStep p s (repairSourcePageDone o s r) := by
  unfold repairSourcePageDone
  split
  · exact sourcePageDone_step port running (fun _ _ _ _ => trivial) o fun u c step => repairStep_step port c step
  · exact unchanged_step port running

theorem patrolPageDone_step (running : s.running = some r) (o : ReadOutcome) :
    ReadingStep p s (patrolPageDone o s r) := by
  unfold patrolPageDone
  split
  · exact sourcePageDone_step port running (Frame := PoolsKept) (fun _ _ before => before.trans) o
      fun u c step => patrolStep_step port c step
  · exact unchanged_step port running

end Reads

/-! ## The ends of programs and erases -/

section Programs
variable {s : State} {r : RunningJob} {p : Option Port} (port : r.job.port = p)
include port

omit port in
theorem pageProgrammed_control (s : State) (d : DrawnPage) (tag : Tag) (payload : Payload) :
    SameControl s (pageProgrammed s d tag payload) := ⟨rfl, rfl, rfl, rfl⟩

theorem dataPageDone_step (running : s.running = some r) (success : Bool) :
    AnyJobStep p s (dataPageDone success s r) := by
  unfold dataPageDone
  split
  · next page c i done tag payload _ =>
    simp only
    split
    · exact (pageProgrammed_control s _ _ _).thenAny (programNext_step (by exact port))
    · exact programFailed_step port _
  · exact unchanged_step port running

omit port in
theorem applyCommit_control (s : State) (r : RunningJob) : SameControl s (applyCommit s r) := by
  rw [applyCommit_frame]; exact ⟨rfl, rfl, rfl, rfl⟩

theorem commitPointDone_step (running : s.running = some r) :
    AnyJobStep p s (commitPointDone s r) := by
  unfold commitPointDone
  split
  · next page done tag payload _ _ =>
    refine (pageProgrammed_control s ⟨page, .header .one, done⟩ tag payload).thenAny ?_
    simp only
    generalize pageProgrammed s ⟨page, .header .one, done⟩ tag payload = u
    refine (applyCommit_control u
      { markProgrammed r ⟨page, .header .one, done⟩ with phase := .afterCommit }).thenAny ?_
    split
    · exact endWriteDone_step (by exact port)
    · exact programNext_step (by exact port)
  · exact unchanged_step port running

omit port in
theorem applyCopy2_control (s : State) (r : RunningJob) : SameControl s (applyCopy2 s r) :=
  ⟨rfl, rfl, rfl, rfl⟩

theorem copy2Done_step (running : s.running = some r) : AnyJobStep p s (copy2Done s r) := by
  unfold copy2Done
  split
  · next page done tag payload _ _ =>
    refine (pageProgrammed_control s ⟨page, .header .two, done⟩ tag payload).thenAny
      ((applyCopy2_control _ (markProgrammed r ⟨page, .header .two, done⟩)).thenAny ?_)
    exact endWriteDone_step (by exact port)
  · exact unchanged_step port running

omit port in
theorem applyRetirement_control (s : State) (r : RunningJob) (page : Nat) :
    SameControl s (applyRetirement s r page) := by
  unfold applyRetirement
  simp only
  split
  · exact .refl s
  · rw [notify_frame, inWriteToLive_frame, liveToDirty_frame]
    exact ⟨rfl, rfl, rfl, rfl⟩

theorem retirementDone_step (running : s.running = some r) :
    AnyJobStep p s (retirementDone s r) := by
  unfold retirementDone
  split
  · next d tag payload _ _ =>
    exact (pageProgrammed_control s d tag payload).thenAny
      ((applyRetirement_control _ { markProgrammed r d with phase := .afterCommit } d.page).thenAny
        (finish_completeJob_step (by exact port) _ _ _).any)
  · exact unchanged_step port running

theorem repairPageDone_step (running : s.running = some r) (success : Bool) :
    AnyJobStep p s (repairPageDone success s r) := by
  unfold repairPageDone
  split
  · next d tag payload _ _ =>
    split
    · refine (pageProgrammed_control s d tag payload).thenAny ?_
      simp only
      split
      · exact endRepairInstalled_step _ _ _
      · exact programNext_step (by exact port)
    · exact programFailed_step port _
  · exact unchanged_step port running

omit port in
theorem eraseHeadDone_control (s : State) (success : Bool) : SameControl s (eraseHeadDone s success) := by
  cases h : s.eraseList with
  | nil => simp only [eraseHeadDone, h]; exact .refl s
  | cons x rest =>
    obtain ⟨page, k⟩ := x
    cases success
    · rw [eraseHeadDone_failure h]; exact ⟨rfl, rfl, rfl, rfl⟩
    · rw [eraseHeadDone_success h]; exact ⟨rfl, rfl, rfl, rfl⟩

theorem eraseDone_step (running : s.running = some r) (success : Bool) :
    AnyJobStep p s (eraseDone success s r) := by
  unfold eraseDone
  split
  · exact (eraseHeadDone_control s success).thenAny (finish_step _ _).any
  · exact (eraseHeadDone_control s success).thenAny (continueDraw_step (by exact port) _ _)
  · exact unchanged_step port running

theorem configPageDone_step (running : s.running = some r) (success : Bool) :
    AnyJobStep p s (configPageDone success s r) := by
  unfold configPageDone
  split
  · split
    · exact unchanged_step port running
    · split
      · exact (setPage_control s _ _).thenAny (beginConfigStep_step port _)
      · exact (spoilPage_control s _).thenAny (endConfig_step port _ _)
  · exact unchanged_step port running

omit port in
theorem applyConfigCommit_control (s : State) (r : RunningJob) (sequence : Nat) :
    SameControl s (applyConfigCommit s r sequence) :=
  (setCopyState_control s _ _).trans ⟨rfl, rfl, rfl, rfl⟩

theorem configCommitDone_step (running : s.running = some r) :
    AnyJobStep p s (configCommitDone s r) := by
  unfold configCommitDone
  split
  · exact (setPage_control s _ _).thenAny
      ((applyConfigCommit_control _ r _).thenAny (endConfig_step port _ _))
  · exact unchanged_step port running

theorem headerFailed_step (running : s.running = some r) : AnyJobStep p s (headerFailed s r) := by
  have failed : AnyJobStep p s (match currentProgram s r with
      | some (d, _, _) => if d.role.isHeader then programFailed s r d else s
      | none => s) := by
    split
    · split
      · exact programFailed_step port _
      · exact unchanged_step port running
    · exact unchanged_step port running
  unfold headerFailed
  split
  · exact (spoilPage_control s _).thenAny (endConfig_step port _ _)
  · exact failed
  · exact failed
  · exact unchanged_step port running

end Programs

/-! ## Every event of the Array Engine -/

theorem jobEvent_step {s : State} {body : RunningJob → State}
    (h : ∀ r, s.running = some r → AnyJobStep r.job.port s (body r)) :
    jobEvent s body = s ∨
      ∃ r, s.isReady = true ∧ s.running = some r ∧ AnyJobStep r.job.port s (jobEvent s body) := by
  rcases jobEvent_cases s body with same | ⟨r, ready, running, eq⟩
  · exact .inl same
  · rw [eq]
    exact .inr ⟨r, ready, running, h r running⟩

/-- What an engine event does: nothing, a step of the running job, or the start of another. -/
theorem exec_engine_cases {c : Instr} {s t : State} (engine : isEngineEvent c = true)
    (h : exec c s = .next t) :
    t = s ∨ (∃ r, s.isReady = true ∧ s.running = some r ∧ AnyJobStep r.job.port s t) ∨
      (s.isReady = true ∧ s.engine = .free ∧ t = selectJob s) := by
  cases c <;> first
    | exact absurd engine Bool.false_ne_true
    | (injection h with h; subst h)
  case jobSelect =>
    split
    · next ready =>
      simp only [Bool.and_eq_true, beq_iff_eq] at ready
      exact .inr (.inr ⟨ready.1, ready.2, rfl⟩)
    · exact .inl rfl
  all_goals refine (jobEvent_step fun r running => ?_).imp_right .inl
  case readJobPageRead o => exact (readPageDone_step rfl running o).any
  case copySourcePageRead o => exact copySourcePageDone_step rfl running o
  case repairSourcePageRead o => exact repairSourcePageDone_step rfl running o
  case patrolPageRead o => exact (patrolPageDone_step rfl running o).any
  case dataPageProgramDone b => exact dataPageDone_step rfl running b
  case commitPoint => exact commitPointDone_step rfl running
  case copy2Installed => exact copy2Done_step rfl running
  case retirementCommitPoint => exact retirementDone_step rfl running
  case repairPageProgramDone b => exact repairPageDone_step rfl running b
  case eraseComplete b => exact eraseDone_step rfl running b
  case configPageOperationDone b => exact configPageDone_step rfl running b
  case configurationCommitPoint => exact configCommitDone_step rfl running
  case headerProgramFailure => exact headerFailed_step rfl running

end Sys2Proof.Machine

/-! The law of the engine and the law of ports, and the Retirement List at the ends of jobs: what each command makes of
the running job, the queues and the port states. -/

namespace Sys2Proof.Machine

/-! ## Commands that are neither taken from the queue nor engine events -/

/-- The state of every port unit, of the queues and of the engine stands as it was. -/
structure SameCommands (s t : State) : Prop where
  running : t.running = s.running
  engine : t.engine = s.engine
  jobQueue : t.jobQueue = s.jobQueue
  restarting : t.restarting = s.restarting
  dispatchQueue : t.dispatchQueue = s.dispatchQueue
  states : ∀ p, (t.port p).state = (s.port p).state

/-- What such a command makes of the queues, the engine and the port states. -/
inductive ControlStep (s t : State) : Prop
  | stays (ready : t.isReady = s.isReady) (same : SameCommands s t)
  | held (ready : t.isReady = false) (engine : t.engine = .stopped) (running : t.running = none)
      (jobQueue : t.jobQueue = s.jobQueue) (restarting : t.restarting = s.restarting)
      (dispatchQueue : t.dispatchQueue = s.dispatchQueue)
      (states : ∀ p, (t.port p).state = (s.port p).state)
  | emptied (ready : t.isReady = false) (engine : t.engine = .stopped) (running : t.running = none)
      (jobQueue : t.jobQueue = []) (restarting : t.restarting = none) (dispatchQueue : t.dispatchQueue = [])
  | entered (starting : s.isStarting = true) (ready : t.isReady = true) (engine : t.engine = .free) (running : t.running = s.running)
      (jobQueue : t.jobQueue = s.jobQueue) (restarting : t.restarting = s.restarting)
      (dispatchQueue : t.dispatchQueue = s.dispatchQueue)
      (states : ∀ p, (t.port p).state = (s.port p).state)
  | launched (p : Port) (ready : t.isReady = s.isReady) (engine : t.engine = s.engine)
      (running : t.running = s.running) (jobQueue : t.jobQueue = s.jobQueue)
      (restarting : t.restarting = s.restarting) (idle : (s.port p).state = .idle)
      (dispatchQueue : t.dispatchQueue = s.dispatchQueue ++ [p]) (queued : (t.port p).state = .queued)
      (others : ∀ q, q ≠ p → (t.port q).state = (s.port q).state)

theorem SameCommands.refl (s : State) : SameCommands s s := ⟨rfl, rfl, rfl, rfl, rfl, fun _ => rfl⟩

/-- A change of a port unit that keeps its state. -/
theorem setPort_same {s : State} {p : Port} {u : PortUnit} (state : u.state = (s.port p).state) :
    SameCommands s (s.setPort p u) := by
  refine ⟨rfl, rfl, rfl, rfl, rfl, fun q => ?_⟩
  rw [State.port_setPort]
  split
  · next same => rw [state, same]
  · rfl

/-- An entry to STARTING, also with PFW_N asserted, empties the queues. -/
theorem enterStarting_emptied (s u : State) (cause : ResetCause) :
    ControlStep s (enterStarting u cause) := by
  unfold enterStarting
  split
  · exact .emptied rfl rfl rfl rfl rfl rfl
  · exact .emptied rfl rfl rfl rfl rfl rfl

theorem restartDrainEnd_control {s t : State} (h : exec .restartDrainEnd s = .next t) :
    ControlStep s t := by
  cases h
  split
  · exact enterStarting_emptied s s _
  · exact .stays rfl (.refl s)

/-! ### The link -/

section Link
variable (s : State) (p : Port)

/-- What an event of a port's link reaches (R171): its own unit, and the tail of the Dispatch Queue. -/
structure LinkFrame (p : Port) (s t : State) : Prop where
  rest : t = { s with ports := t.ports, dispatchQueue := t.dispatchQueue }
  others : ∀ q, q ≠ p → t.port q = s.port q
  tail : t.dispatchQueue = s.dispatchQueue ∨ t.dispatchQueue = s.dispatchQueue ++ [p]

theorem LinkFrame.refl : LinkFrame p s s := ⟨rfl, fun _ _ => rfl, .inl rfl⟩

theorem linkFrame_setPort (u : PortUnit) : LinkFrame p s (s.setPort p u) :=
  ⟨rfl, fun _ hq => State.port_setPort_ne s u hq, .inl rfl⟩

variable {s p} in
/-- What goes before, which leaves the Dispatch Queue alone. -/
theorem LinkFrame.after {t u : State} (h₁ : LinkFrame p s t) (queue : t.dispatchQueue = s.dispatchQueue)
    (h₂ : LinkFrame p t u) : LinkFrame p s u where
  rest := by rw [h₂.rest, h₁.rest]
  others q hq := (h₂.others q hq).trans (h₁.others q hq)
  tail := by rw [← queue]; exact h₂.tail

variable {s p} in
/-- A link event whose body keeps to the port, with the port states and the queues standing or launching. -/
theorem linkEvent_cases {place : LinkByte} {mine : Byte → Bool} {body : State → Byte → State}
    {P : State → Prop} (same : P s) (link : ∀ link, P (s.setPort p { s.port p with link := link }))
    (h : ∀ link offset, mine offset = true →
      P (body (s.setPort p { s.port p with link := link }) offset)) :
    P (linkEvent s p place mine body) := by
  unfold linkEvent
  split
  · split
    · split
      · next mine => exact h _ _ mine
      · exact same
    · exact link _
  · exact same

theorem windowByte_state (u : PortUnit) (offset value : Byte) :
    (windowByte u offset value).state = u.state := by
  unfold windowByte
  split
  · split <;> simp_all
  · split <;> rfl

theorem launchByte_frame (tag : Byte) : LinkFrame p s (launchByte s p tag) := by
  unfold launchByte
  split
  · exact .refl s p
  · split
    · refine (linkFrame_setPort s p { s.port p with go := tag }).after rfl ?_
      unfold launchIdle
      simp only
      split
      · exact ⟨rfl, fun q hq => post_port_ne _ _ _ _ _ hq, .inl rfl⟩
      · exact ⟨rfl, fun q hq => post_port_ne _ _ _ _ _ hq, .inl rfl⟩
      · exact ⟨rfl, fun q hq => State.port_setPort_ne _ _ hq, .inr rfl⟩
    · exact linkFrame_setPort s p _
    · exact linkFrame_setPort s p _

/-- A launch in IDLE is answered at once, or the port is queued (R174). -/
theorem launchIdle_control (tag : Byte) (idle : (s.port p).state = .idle) :
    ControlStep s (launchIdle s p tag) := by
  have answered : ∀ code, SameCommands s
      (post (s.setPort p { s.port p with go := tag }) p code {} none) := by
    refine fun code => ⟨rfl, rfl, rfl, rfl, rfl, fun q => ?_⟩
    by_cases h : q = p
    · subst h
      rw [post_port_self, idle]
      rfl
    · rw [post_port_ne _ _ _ _ _ h, State.port_setPort_ne _ _ h]
  unfold launchIdle
  simp only
  split
  · exact .stays rfl (answered _)
  · exact .stays rfl (answered _)
  · refine .launched p rfl rfl rfl rfl rfl idle rfl ?_ fun q hq => ?_
    · exact congrArg PortUnit.state (State.port_setPort_self _ p _)
    · have first := State.port_setPort_ne s { s.port p with go := tag } hq
      exact congrArg PortUnit.state ((State.port_setPort_ne _ _ hq).trans first)

/-- A control step after a change of the caller's unit that keeps its state. -/
theorem ControlStep.after_link {u t : State} (same : SameCommands s u) (ready : u.isReady = s.isReady)
    (starting : u.isStarting = s.isStarting) (h : ControlStep u t) : ControlStep s t := by
  obtain ⟨running, engine, jobQueue, restarting, dispatchQueue, states⟩ := same
  cases h with
  | stays hr h =>
    exact .stays (hr.trans ready) ⟨h.running.trans running, h.engine.trans engine,
      h.jobQueue.trans jobQueue, h.restarting.trans restarting, h.dispatchQueue.trans dispatchQueue,
      fun q => (h.states q).trans (states q)⟩
  | held hr he hn hj hs hd hp =>
    exact .held hr he hn (hj.trans jobQueue) (hs.trans restarting) (hd.trans dispatchQueue)
      fun q => (hp q).trans (states q)
  | emptied hr he hn hj hs hd => exact .emptied hr he hn hj hs hd
  | entered hr ht he hn hj hs hd hp =>
    exact .entered (starting ▸ hr) ht he (hn.trans running) (hj.trans jobQueue) (hs.trans restarting)
      (hd.trans dispatchQueue) fun q => (hp q).trans (states q)
  | launched q hr he hn hj hs idle hd queued others =>
    exact .launched q (hr.trans ready) (he.trans engine) (hn.trans running) (hj.trans jobQueue)
      (hs.trans restarting) (states q ▸ idle) (dispatchQueue ▸ hd) queued
      fun q' hq => (others q' hq).trans (states q')

theorem launchByte_control (tag : Byte) : ControlStep s (launchByte s p tag) := by
  unfold launchByte
  split
  · exact .stays rfl (.refl s)
  · split
    · next idle => exact launchIdle_control s p tag idle
    · exact .stays rfl (setPort_same (by rfl))
    · exact .stays rfl (setPort_same (by rfl))

end Link

/-! ### Start-up, pins and timers -/

section Pins
variable {s t : State}

theorem releaseSlot_state (s : State) (i : SlotNo) (cause : ReleaseCause) (q : Port) :
    ((releaseSlot s i cause).port q).state = (s.port q).state := by
  obtain ⟨lapse, unit⟩ := releaseSlot_port s i cause q
  rw [unit]

theorem releaseSlot_same (s : State) (i : SlotNo) (cause : ReleaseCause) :
    SameCommands s (releaseSlot s i cause) := by
  refine ⟨?_, ?_, ?_, ?_, ?_, releaseSlot_state s i cause⟩
  all_goals rw [releaseSlot_frame]

theorem releaseSlot_isReady (s : State) (i : SlotNo) (cause : ReleaseCause) :
    (releaseSlot s i cause).isReady = s.isReady := by
  rw [releaseSlot_frame]
  rfl

theorem mapPorts_state {f : PortUnit → PortUnit} (state : ∀ u, (f u).state = u.state) (s : State)
    (q : Port) : ((s.ports.map f)[q]).state = (s.port q).state := by
  simp [State.port, state]

theorem configLoadRead_control (s : State) (o : ReadOutcome) : ControlStep s (configLoadRead s o) := by
  unfold configLoadRead
  split
  · simp only
    split
    · exact .stays rfl ⟨rfl, rfl, rfl, rfl, rfl, fun _ => rfl⟩
    · exact .stays rfl ⟨rfl, rfl, rfl, rfl, rfl, fun _ => rfl⟩
  · exact .stays rfl (.refl s)

theorem scanRead_control (starting : s.isStarting = true) (o : ReadOutcome) :
    ControlStep s (scanRead s o) := by
  unfold scanRead
  split
  · simp only
    split
    · exact .stays rfl ⟨rfl, rfl, rfl, rfl, rfl, fun _ => rfl⟩
    · refine .entered starting ?_ rfl rfl rfl rfl rfl fun q =>
        mapPorts_state (f := fun u => { u with ready := true }) (fun _ => rfl) s q
      simp only [State.isStarting, Bool.and_eq_true] at starting
      simp [enterReady, accounted, State.isReady, State.active] at starting ⊢
      exact starting.1
  · exact .stays rfl (.refl s)

/-- The cut touches the page array, and no command (R104). -/
theorem cutOperation_same (s : State) : SameCommands s (cutOperation s) := by
  unfold cutOperation
  split <;> exact ⟨rfl, rfl, rfl, rfl, rfl, fun _ => rfl⟩

theorem heldInReset_control (s : State) : ControlStep s (heldInReset s) :=
  .held (by simp [heldInReset, State.isReady, State.active]) rfl rfl rfl rfl rfl
    fun q => mapPorts_state (f := fun u => { u with link := .deselected }) (fun _ => rfl) s q

theorem powerOn_control (h : exec .powerOn s = .next t) : ControlStep s t := by
  cases h
  dsimp only
  split
  · exact .stays rfl (.refl s)
  · next off =>
    split
    · next asserted =>
      exact .stays (by simp [State.isReady, State.active, off, asserted])
        ⟨rfl, rfl, rfl, rfl, rfl, fun _ => rfl⟩
    · exact enterStarting_emptied s _ _

theorem resetNAssert_control (h : exec .resetNAssert s = .next t) : ControlStep s t := by
  cases h
  split
  · exact .stays rfl (.refl s)
  · split
    · have same := cutOperation_same s
      refine .held (by simp [heldInReset, State.isReady, State.active]) rfl rfl same.jobQueue
        same.restarting same.dispatchQueue fun q => ?_
      exact (mapPorts_state (f := fun u => { u with link := .deselected }) (fun _ => rfl) _ q).trans
        (same.states q)
    · next off =>
      exact .stays (by simp [State.isReady, State.active, off]) ⟨rfl, rfl, rfl, rfl, rfl, fun _ => rfl⟩

theorem resetNDeassert_control (h : exec .resetNDeassert s = .next t) : ControlStep s t := by
  cases h
  dsimp only
  split
  · split
    · exact enterStarting_emptied s _ _
    · next off =>
      exact .stays (by simp [State.isReady, State.active, off]) ⟨rfl, rfl, rfl, rfl, rfl, fun _ => rfl⟩
  · exact .stays rfl (.refl s)

theorem powerLoss_control (h : exec .powerLoss s = .next t) : ControlStep s t := by
  cases h
  split
  · exact .emptied (by simp [unpowered, State.isReady, State.active]) rfl rfl rfl rfl rfl
  · exact .stays rfl (.refl s)

theorem haltRestart_restarting (s : State) : (haltRestart s).restarting = none := by
  unfold haltRestart
  split
  · rfl
  · assumption

theorem haltSlots_restarting (s : State) : (haltSlots s).restarting = s.restarting := by
  have each : ∀ (l : List SlotNo) (u : State), (l.foldl haltSlot u).restarting = u.restarting := by
    intro l
    induction l with
    | nil => exact fun _ => rfl
    | cons i rest ih =>
      intro u
      refine (ih _).trans ?_
      unfold haltSlot
      split
      · rfl
      · rw [releaseSlot_frame]
  exact each slotNumbers s

theorem haltReady_emptied (s u : State) (success : Bool) : ControlStep s (haltReady u success) := by
  have restarting := (haltSlots_restarting _).trans
    (haltRestart_restarting (haltDispatch (haltQueued (haltRunning u success))))
  unfold haltReady
  generalize haltSlots (haltRestart (haltDispatch (haltQueued (haltRunning u success)))) = v at *
  exact .emptied (by simp [State.isReady]) rfl rfl rfl restarting rfl

theorem pfwNAssert_control {b : Bool} (h : exec (.pfwNAssert b) s = .next t) : ControlStep s t := by
  cases h
  dsimp only
  split
  · exact haltReady_emptied s _ b
  · next notReady =>
    split
    · refine .stays ?_ ⟨rfl, rfl, rfl, rfl, rfl, fun _ => rfl⟩
      rw [Bool.eq_false_iff.mpr notReady]
      simp [haltStartup, State.isReady]
    · exact .stays rfl ⟨rfl, rfl, rfl, rfl, rfl, fun _ => rfl⟩

end Pins

/-- Every command that is neither taken from the queue nor an engine event is a control step. -/
theorem exec_control {c : Instr} {s t : State} (engine : isEngineEvent c = false)
    (taking : isTaking c = false) (restrict : c ≠ .restrict) (restart : c ≠ .restart)
    (h : exec c s = .next t) : ControlStep s t := by
  cases c <;> first
    | exact absurd engine Bool.noConfusion
    | exact absurd taking Bool.noConfusion
    | exact absurd rfl restrict
    | exact absurd rfl restart
    | skip
  case powerOn => exact powerOn_control h
  case resetNAssert => exact resetNAssert_control h
  case resetNDeassert => exact resetNDeassert_control h
  case powerLoss => exact powerLoss_control h
  case pfwNAssert b => exact pfwNAssert_control h
  case restartDrainEnd => exact restartDrainEnd_control h
  all_goals injection h with h; subst h
  case pfwNDeassert => exact .stays rfl ⟨rfl, rfl, rfl, rfl, rfl, fun _ => rfl⟩
  case configLoadPageRead o =>
    split
    · exact configLoadRead_control s o
    · exact .stays rfl (.refl s)
  case scanPageRead o =>
    split
    · next starting => exact scanRead_control starting o
    · exact .stays rfl (.refl s)
  case invalidAccessByte p access =>
    split
    · exact .stays rfl (setPort_same (by rfl))
    · exact .stays rfl (.refl s)
  case windowWrite p place value =>
    exact linkEvent_cases (.stays rfl (.refl s)) (fun _ => .stays rfl (setPort_same (by rfl)))
      fun link offset _ => .after_link s (u := s.setPort p { s.port p with link := link })
        (setPort_same (by rfl)) rfl rfl (.stays rfl (setPort_same (windowByte_state _ _ _)))
  case launch p place tag =>
    exact linkEvent_cases (.stays rfl (.refl s)) (fun _ => .stays rfl (setPort_same (by rfl)))
      fun link _ _ => .after_link s (u := s.setPort p { s.port p with link := link })
        (setPort_same (by rfl)) rfl rfl (launchByte_control _ p tag)
  case attentionCauseWrite p place value =>
    exact linkEvent_cases (.stays rfl (.refl s)) (fun _ => .stays rfl (setPort_same (by rfl)))
      fun link _ _ => .after_link s (u := s.setPort p { s.port p with link := link })
        (setPort_same (by rfl)) rfl rfl (.stays rfl (setPort_same (by rfl)))
  case stickyFlagWrite p place value =>
    exact linkEvent_cases (.stays rfl (.refl s)) (fun _ => .stays rfl (setPort_same (by rfl)))
      fun link _ _ => .after_link s (u := s.setPort p { s.port p with link := link })
        (setPort_same (by rfl)) rfl rfl (.stays rfl (setPort_same (by rfl)))
  case leaseExpiry i =>
    split
    · exact .stays (releaseSlot_isReady s i .lapsed) (releaseSlot_same s i .lapsed)
    · exact .stays rfl (.refl s)
  case patrolTimerExpiry =>
    split
    · exact .stays rfl ⟨rfl, rfl, rfl, rfl, rfl, fun _ => rfl⟩
    · exact .stays rfl (.refl s)

theorem idle_control (s : State) : ControlStep s (idle s) := by
  have passes : SameCommands s { s with now := s.now + 1 } := ⟨rfl, rfl, rfl, rfl, rfl, fun _ => rfl⟩
  unfold idle
  split
  · split
    · exact .stays (releaseSlot_isReady s _ .lapsed) (releaseSlot_same s _ .lapsed)
    · split
      · exact .stays rfl ⟨rfl, rfl, rfl, rfl, rfl, fun _ => rfl⟩
      · exact .stays rfl passes
  · exact .stays rfl passes

/-! ## Takings -/

section Taking
variable {s t : State} {p : Port} {Frame : Port → State → State → Prop}

/-- What the judging of a command leaves alone, and what becomes of the caller's command. -/
structure JudgedEnd (p : Port) (s t : State) : Prop where
  ready : t.isReady = s.isReady
  starting : t.isStarting = s.isStarting
  running : t.running = s.running
  engine : t.engine = s.engine
  restarting : t.restarting = s.restarting
  dispatchQueue : t.dispatchQueue = s.dispatchQueue
  others : ∀ q, q ≠ p → t.port q = s.port q
  command : t.jobQueue = s.jobQueue ∨
    ∃ j, j.port = some p ∧ t.jobQueue = s.jobQueue ++ [j] ∧ (t.port p).state = (s.port p).state

theorem RestrictFrame.jobQueue (h : RestrictFrame p s t) : t.jobQueue = s.jobQueue := by
  rw [h.rest]

theorem RestrictFrame.judgedEnd (h : RestrictFrame p s t) : JudgedEnd p s t := by
  have frame := h.rest
  refine ⟨?_, ?_, ?_, ?_, ?_, ?_, h.others, .inl ?_⟩
  all_goals rw [frame]
  all_goals rfl

theorem Judged.end (h : Judged RestrictFrame p s t) : JudgedEnd p s t := by
  cases h with
  | unanswered touches => exact (touches.frame (RestrictFrame.refl p) RestrictFrame.trans).judgedEnd
  | @answered u c r data touches =>
    obtain ⟨ready, starting, running, engine, restarting, queue, others, command⟩ :=
      (touches.frame (RestrictFrame.refl p) RestrictFrame.trans).judgedEnd
    refine ⟨ready, starting, running, engine, restarting, queue, fun q hq => ?_, .inl ?_⟩
    · exact (post_port_ne _ _ _ _ _ hq).trans (others q hq)
    · exact (touches.frame (RestrictFrame.refl p) RestrictFrame.trans).jobQueue
  | @queued u j port touches =>
    have frame := touches.frame (RestrictFrame.refl p) RestrictFrame.trans
    obtain ⟨ready, starting, running, engine, restarting, queue, others, -⟩ := frame.judgedEnd
    refine ⟨ready, starting, running, engine, restarting, queue, others, .inr ⟨j, port, ?_, frame.state⟩⟩
    exact congrArg (· ++ [j]) frame.jobQueue

end Taking

/-! ## The law of the engine -/

section EngineLaw
variable {s t : State}

theorem EngineLaw.of_same (ready : t.isReady = s.isReady) (running : t.running = s.running)
    (engine : t.engine = s.engine) (h : EngineLaw s) : EngineLaw t where
  stopped hr := by rw [running, engine]; exact h.stopped (ready ▸ hr)
  runs hr := by rw [running, engine]; exact h.runs (ready ▸ hr)

theorem EngineLaw.of_stopped (ready : t.isReady = false) (engine : t.engine = .stopped)
    (running : t.running = none) : EngineLaw t :=
  ⟨fun _ => ⟨engine, running⟩, fun hr => absurd hr (by rw [ready]; simp)⟩

/-- A job of a running engine goes on, or it has ended. -/
theorem engineLaw_of_jobStep {Frame : State → State → Prop} {p : Option Port} {u : State}
    (ready : t.isReady = true) (running : u.engine = .running) (h : JobStep Frame p u t) : EngineLaw t := by
  refine ⟨fun hr => absurd hr (by rw [ready]; simp), fun _ => ?_⟩
  cases h with
  | goesOn r goes port engine => simp [goes, engine, running]
  | ended v finish => subst finish; simp [finishJob, settleRetirements]

theorem ControlStep.engineLaw (step : ControlStep s t) (h : EngineLaw s) : EngineLaw t := by
  cases step with
  | stays ready same => exact h.of_same ready same.running same.engine
  | held ready engine running => exact .of_stopped ready engine running
  | emptied ready engine running => exact .of_stopped ready engine running
  | entered starting ready engine running =>
    have none := (h.stopped (isStarting_not_isReady starting)).2
    exact ⟨fun off => absurd ready (by rw [off]; simp), fun _ => by simp [engine, running, none]⟩
  | launched p ready engine running => exact h.of_same ready running engine

/-- Entries to STARTING and refusals aside, a RESTART taken waits for its drain (R160). -/
theorem exec_restart_cases (h : exec .restart s = .next t) :
    t = s ∨ ∃ p rest, s.isReady = true ∧ s.restarting = none ∧ s.dispatchQueue = p :: rest ∧
      ((∃ c, t = post (takeHead s p rest) p c {} none) ∨
        t = enterStarting (takeHead s p rest) .restart ∨
        t = { takeHead s p rest with restarting := some p }) := by
  cases h
  rcases takeCommand_cases s (·.code == codeRestart) restartBody with
    same | ⟨p, rest, ready, free, queue, -, taken⟩
  · exact .inl same
  · refine .inr ⟨p, rest, ready, free, queue, ?_⟩
    rw [taken]
    rcases restartBody_cases (takeHead s p rest) p (commandFields (s.port p).window) with
      refused | ⟨-, started⟩ | waits
    · exact .inl refused
    · exact .inr (.inl started)
    · exact .inr (.inr waits)

theorem selectJob_engineLaw (ready : (selectJob s).isReady = true) (h : EngineLaw s) :
    EngineLaw (selectJob s) := by
  rcases selectJob_cases s with same | ⟨u, step, running, -, -, -, -⟩ | ⟨j, rest, -, step⟩
  · rw [same]; exact h
  · exact engineLaw_of_jobStep ready running step
  · exact engineLaw_of_jobStep ready rfl step

theorem EngineFrame.isReady_eq (h : EngineFrame s t) : t.isReady = s.isReady := by
  rw [h]; rfl

theorem exec_keeps_engineLaw {c : Instr} (h : exec c s = .next t) (law : EngineLaw s) : EngineLaw t := by
  by_cases engine : isEngineEvent c = true
  · have same := (exec_engine_frame engine h).isReady_eq
    rcases exec_engine_cases engine h with rfl | ⟨r, ready, running, step⟩ | ⟨ready, -, rfl⟩
    · exact law
    · have runs : s.engine = .running := (law.runs ready).2.mpr (by simp [running])
      exact engineLaw_of_jobStep (same.trans ready) runs step
    · exact selectJob_engineLaw (same.trans ready) law
  by_cases taking : isTaking c = true ∨ c = .restrict
  · have judged : TakenAndJudged RestrictFrame s t := by
      rcases taking with taking | rfl
      · exact (exec_taking_judged taking h).mono fun _ _ _ => JudgedFrame.restrict
      · exact exec_restrict_judged h
    rcases judged with rfl | ⟨p, rest, -, -, -, judged⟩
    · exact law
    · have ends := judged.end
      exact EngineLaw.of_same (s := s) ends.ready ends.running ends.engine law
  by_cases restart : c = .restart
  · subst restart
    rcases exec_restart_cases h with rfl | ⟨p, rest, -, -, -, ⟨code, rfl⟩ | rfl | rfl⟩
    · exact law
    · exact EngineLaw.of_same (s := s) rfl rfl rfl law
    · exact (enterStarting_emptied s _ _).engineLaw law
    · exact EngineLaw.of_same (s := s) rfl rfl rfl law
  simp only [not_or] at taking
  exact (exec_control (Bool.eq_false_iff.mpr engine) (Bool.eq_false_iff.mpr taking.1) taking.2 restart
    h).engineLaw law

/-- Settles O56: each event leaves a running-job record with a running engine, or neither. -/
theorem stepKeepsEngineLaw : Obligations.StepKeepsEngineLaw := by
  intro s t law h
  unfold step at h
  split at h
  · injection h with h
    subst h
    exact (idle_control s).engineLaw law
  · exact exec_keeps_engineLaw h (EngineLaw.of_same (s := s) rfl rfl rfl law)

end EngineLaw

end Sys2Proof.Machine

/-! The law of ports (R176), and the Retirement List at the ends of jobs (R115). -/

namespace Sys2Proof.Machine

/-! ## The law of ports -/

section PortLaw
variable {s t : State}

/-- The ports of queued jobs (R120). -/
def queuedPorts (s : State) : List Port := s.jobQueue.filterMap (·.port)

theorem activeCommands_eq (s : State) : activeCommands s =
    (s.running.bind (·.job.port)).toList ++ queuedPorts s ++ s.restarting.toList := rfl

/-- The law of ports in a state whose commands are some of another's, with their port states. -/
theorem PortLaw.sublist (h : PortLaw s) (queue : t.dispatchQueue.Sublist s.dispatchQueue)
    (active : (activeCommands t).Sublist (activeCommands s))
    (states : ∀ p ∈ t.dispatchQueue ++ activeCommands t, (t.port p).state = (s.port p).state) :
    PortLaw t where
  once := h.once.sublist (queue.append active)
  queued p hp := by
    rw [states p (List.mem_append_left _ hp)]
    exact h.queued p (queue.subset hp)
  active p hp := by
    rw [states p (List.mem_append_right _ hp)]
    exact h.active p (active.subset hp)

theorem SameCommands.activeCommands (h : SameCommands s t) : activeCommands t = activeCommands s := by
  simp [Machine.activeCommands, h.running, h.jobQueue, h.restarting]

theorem SameCommands.portLaw (same : SameCommands s t) (h : PortLaw s) : PortLaw t :=
  h.sublist (same.dispatchQueue ▸ .refl _) (same.activeCommands ▸ .refl _) fun p _ => same.states p

theorem ControlStep.portLaw (step : ControlStep s t) (h : PortLaw s) : PortLaw t := by
  cases step with
  | stays ready same => exact same.portLaw h
  | held ready engine running jobQueue restarting dispatchQueue states =>
    refine h.sublist (dispatchQueue ▸ .refl _) ?_ fun p _ => states p
    rw [activeCommands_eq, activeCommands_eq, running, queuedPorts, jobQueue, restarting,
      List.append_assoc, List.append_assoc]
    exact List.sublist_append_right _ _
  | emptied ready engine running jobQueue restarting dispatchQueue =>
    have none : activeCommands t = [] := by simp [activeCommands, running, jobQueue, restarting]
    exact ⟨by simp [dispatchQueue, none], by simp [dispatchQueue], by simp [none]⟩
  | entered starting ready engine running jobQueue restarting dispatchQueue states =>
    have active : activeCommands t = activeCommands s := by
      simp [activeCommands, running, jobQueue, restarting]
    exact h.sublist (dispatchQueue ▸ .refl _) (active ▸ .refl _) fun p _ => states p
  | launched p ready engine running jobQueue restarting idle dispatchQueue queued others =>
    have active : activeCommands t = activeCommands s := by
      simp [activeCommands, running, jobQueue, restarting]
    have notQueued : p ∉ s.dispatchQueue := fun hp => by simp [h.queued p hp] at idle
    have notActive : p ∉ activeCommands s := fun hp => by simp [h.active p hp] at idle
    refine ⟨?_, fun q hq => ?_, fun q hq => ?_⟩
    · have fresh : (p :: (s.dispatchQueue ++ activeCommands s)).Nodup :=
        List.nodup_cons.mpr ⟨by simp [notQueued, notActive], h.once⟩
      rw [dispatchQueue, active, List.append_assoc]
      exact List.perm_middle.nodup_iff.mpr fresh
    · rw [dispatchQueue, List.mem_append, List.mem_singleton] at hq
      rcases hq with hq | rfl
      · rw [others q (ne_of_mem_of_not_mem hq notQueued)]
        exact h.queued q hq
      · exact queued
    · rw [active] at hq
      rw [others q (ne_of_mem_of_not_mem hq notActive)]
      exact h.active q hq

/-- The command of the head's port is over, or goes on as the last of those that are taken (R176). -/
theorem portLaw_of_taken {p : Port} {rest : List Port} (queue : s.dispatchQueue = p :: rest)
    (dispatchQueue : t.dispatchQueue = rest) (others : ∀ q, q ≠ p → (t.port q).state = (s.port q).state)
    (command : activeCommands t = activeCommands s ∨
      activeCommands t = activeCommands s ++ [p] ∧ (t.port p).state = .active) (h : PortLaw s) :
    PortLaw t := by
  have once := h.once
  rw [queue, List.cons_append, List.nodup_cons, List.mem_append, not_or] at once
  obtain ⟨⟨notQueued, notActive⟩, once⟩ := once
  have queued : ∀ q ∈ rest, (t.port q).state = .queued := fun q hq => by
    rw [others q (ne_of_mem_of_not_mem hq notQueued)]
    exact h.queued q (queue ▸ List.mem_cons_of_mem p hq)
  have active : ∀ q ∈ activeCommands s, (t.port q).state = .active := fun q hq => by
    rw [others q (ne_of_mem_of_not_mem hq notActive)]
    exact h.active q hq
  rcases command with same | ⟨more, state⟩
  · exact ⟨by rw [dispatchQueue, same]; exact once, dispatchQueue ▸ queued, same ▸ active⟩
  · refine ⟨?_, dispatchQueue ▸ queued, fun q hq => ?_⟩
    · rw [dispatchQueue, more, ← List.append_assoc]
      refine (List.perm_append_singleton p _).nodup_iff.mpr (List.nodup_cons.mpr ⟨?_, once⟩)
      simp [notQueued, notActive]
    · rw [more, List.mem_append, List.mem_singleton] at hq
      rcases hq with hq | rfl
      · exact active q hq
      · exact state

theorem JudgedEnd.portLaw {p : Port} {rest : List Port} (queue : s.dispatchQueue = p :: rest)
    (free : s.restarting = none) (ends : JudgedEnd p (takeHead s p rest) t) (h : PortLaw s) :
    PortLaw t := by
  have running : t.running = s.running := ends.running
  have restarting : t.restarting = none := ends.restarting.trans free
  refine portLaw_of_taken queue ends.dispatchQueue (fun q hq => ?_) ?_ h
  · rw [ends.others q hq, takeHead_port_ne s p rest hq]
  · refine ends.command.imp (fun jobs => ?_) fun ⟨j, port, jobs, state⟩ => ⟨?_, ?_⟩
    · simp [activeCommands, running, restarting, free, jobs, takeHead]
    · simp [activeCommands, running, restarting, free, jobs, port, takeHead]
    · rw [state, takeHead_port_self]

/-- A step of a job for the port `p`, of the commands that stood with it (R119, R176). -/
theorem portLaw_of_jobStep {Frame : State → State → Prop} {p : Option Port} {u : State}
    (step : JobStep Frame p u t) (dispatchQueue : t.dispatchQueue = u.dispatchQueue)
    (restarting : t.restarting = u.restarting)
    (sub : (p.toList ++ queuedPorts u ++ u.restarting.toList).Sublist (activeCommands s))
    (queue : u.dispatchQueue = s.dispatchQueue) (ports : u.ports = s.ports) (h : PortLaw s) :
    PortLaw t := by
  have units : ∀ q, u.port q = s.port q := fun q => congrArg (·[q]) ports
  cases step with
  | goesOn r running port engine jobQueue same =>
    refine h.sublist (dispatchQueue.trans queue ▸ .refl _) ?_ fun q _ => ?_
    · have commands : activeCommands t = p.toList ++ queuedPorts u ++ u.restarting.toList := by
        simp [activeCommands, queuedPorts, running, port, jobQueue, restarting]
      rw [commands]
      exact sub
    · rw [State.port, same]
      exact congrArg PortUnit.state (units q)
  | ended v finish jobQueue same =>
    have commands : activeCommands t = queuedPorts u ++ u.restarting.toList := by
      have jobs : t.jobQueue = u.jobQueue := finish ▸ jobQueue
      have none : t.running = none := finish ▸ rfl
      simp [activeCommands, queuedPorts, none, jobs, restarting]
    rw [List.append_assoc, ← commands] at sub
    have sub' := (List.sublist_append_right p.toList (activeCommands t)).trans sub
    refine h.sublist (dispatchQueue.trans queue ▸ .refl _) sub' fun q hq => ?_
    have other : p ≠ some q := by
      rintro rfl
      have once := h.once.sublist ((List.Sublist.refl s.dispatchQueue).append sub)
      rw [Option.toList_some, List.singleton_append] at once
      have apart := (List.perm_middle.nodup_iff.mp once)
      rw [dispatchQueue, queue] at hq
      exact (List.nodup_cons.mp apart).1 hq
    have port : t.port q = v.port q := by rw [finish]; rfl
    rw [port, same q other, units q]

theorem selectJob_portLaw (h : PortLaw s) : PortLaw (selectJob s) := by
  have frame : EngineFrame s (selectJob s) :=
    (selectJob_touches (reads := true) s).event_frame.engine
  have queue : (selectJob s).dispatchQueue = s.dispatchQueue := by rw [frame]
  have restarting : (selectJob s).restarting = s.restarting := by rw [frame]
  rcases selectJob_cases s with same | ⟨u, step, -, jobs, ports, waits, drains⟩ | ⟨j, rest, jobs, step⟩
  · rw [same]; exact h
  · refine portLaw_of_jobStep step (queue.trans waits.symm) (restarting.trans drains.symm) ?_ waits ports h
    rw [activeCommands_eq, queuedPorts, queuedPorts, jobs, drains, Option.toList_none, List.nil_append,
      List.append_assoc]
    exact List.sublist_append_right _ _
  · refine portLaw_of_jobStep (s := s) step queue restarting ?_ rfl rfl h
    have head : queuedPorts s = j.port.toList ++ rest.filterMap (·.port) := by
      rw [queuedPorts, jobs, List.filterMap_cons]
      cases j.port <;> rfl
    have commands : activeCommands s = (s.running.bind (·.job.port)).toList ++
        (j.port.toList ++ rest.filterMap (·.port) ++ s.restarting.toList) := by
      rw [activeCommands_eq, head, List.append_assoc, List.append_assoc]
    rw [commands]
    exact List.sublist_append_right _ _

theorem exec_keeps_portLaw {c : Instr} (h : exec c s = .next t) (law : PortLaw s) : PortLaw t := by
  by_cases engine : isEngineEvent c = true
  · have frame := exec_engine_frame engine h
    rcases exec_engine_cases engine h with rfl | ⟨r, -, running, step⟩ | ⟨-, -, rfl⟩
    · exact law
    · refine portLaw_of_jobStep step (by rw [frame]) (by rw [frame]) ?_ rfl rfl law
      rw [activeCommands_eq, running]
      exact .refl _
    · exact selectJob_portLaw law
  by_cases taking : isTaking c = true ∨ c = .restrict
  · have judged : TakenAndJudged RestrictFrame s t := by
      rcases taking with taking | rfl
      · exact (exec_taking_judged taking h).mono fun _ _ _ => JudgedFrame.restrict
      · exact exec_restrict_judged h
    rcases judged with rfl | ⟨p, rest, -, free, queue, judged⟩
    · exact law
    · exact judged.end.portLaw queue free law
  by_cases restart : c = .restart
  · subst restart
    rcases exec_restart_cases h with rfl | ⟨p, rest, -, free, queue, ⟨code, rfl⟩ | rfl | rfl⟩
    · exact law
    · exact JudgedEnd.portLaw queue free
        ⟨rfl, rfl, rfl, rfl, rfl, rfl, fun q hq => post_port_ne _ _ _ _ _ hq, .inl rfl⟩ law
    · exact (enterStarting_emptied s _ _).portLaw law
    · refine portLaw_of_taken queue rfl (fun q hq => ?_) (.inr ⟨?_, ?_⟩) law
      · exact congrArg PortUnit.state (takeHead_port_ne s p rest hq)
      · simp [activeCommands, free, takeHead]
      · exact congrArg PortUnit.state (takeHead_port_self s p rest)
  simp only [not_or] at taking
  exact (exec_control (Bool.eq_false_iff.mpr engine) (Bool.eq_false_iff.mpr taking.1) taking.2 restart
    h).portLaw law

/-- Settles O55: a command moves from one of the lists to the next as its port's state changes, or is over. -/
theorem stepKeepsPortLaw : Obligations.StepKeepsPortLaw := by
  intro s t law h
  unfold step at h
  split at h
  · injection h with h
    subst h
    exact (idle_control s).portLaw law
  · exact exec_keeps_portLaw h (PortLaw.sublist (s := s) law (.refl _) (.refl _) fun _ _ => rfl)

end PortLaw

/-! ## The Retirement List at the ends of jobs -/

section Retirements
variable {s t : State}

/-- No count of 0 outlasts a job (R115). -/
theorem settleRetirements_outstanding {x : RetirementEntry}
    (mem : x ∈ (settleRetirements s).retirementList) : x.outstanding ≠ 0 := by
  rw [(settled_settleRetirements s).list, List.mem_filterMap] at mem
  obtain ⟨y, -, settled⟩ := mem
  split at settled
  · split at settled
    · cases settled
    · cases settled
      exact one_ne_zero
  · next counts =>
    cases settled
    exact counts

/-- A job step that leaves no job has settled the list. -/
theorem outstanding_of_jobStep {Frame : State → State → Prop} {p : Option Port} {u : State}
    (step : JobStep Frame p u t) (gone : t.running = none) {x : RetirementEntry}
    (mem : x ∈ t.retirementList) : x.outstanding ≠ 0 := by
  cases step with
  | goesOn r running => rw [running] at gone; cases gone
  | ended v finish => exact settleRetirements_outstanding (finish ▸ mem)

theorem engine_outstanding {c : Instr} (engine : isEngineEvent c = true) (h : exec c s = .next t)
    (some : s.running.isSome = true) (gone : t.running = none) {x : RetirementEntry}
    (mem : x ∈ t.retirementList) : x.outstanding ≠ 0 := by
  have changed : t ≠ s := fun same => by rw [← same, gone] at some; cases some
  rcases exec_engine_cases engine h with same | ⟨r, -, -, step⟩ | ⟨-, -, select⟩
  · exact absurd same changed
  · exact outstanding_of_jobStep step gone mem
  · rcases selectJob_cases s with same | ⟨u, step, -⟩ | ⟨j, rest, -, step⟩
    · exact absurd (select.trans same) changed
    · exact outstanding_of_jobStep step (select ▸ gone) (select ▸ mem)
    · exact outstanding_of_jobStep step (select ▸ gone) (select ▸ mem)

/-- Outside the engine's events a running job ends only as the device leaves READY. -/
theorem running_of_ready {c : Instr} (engine : isEngineEvent c = false) (h : exec c s = .next t)
    (before : s.isReady = true) (after : t.isReady = true) : t.running = s.running := by
  by_cases taking : isTaking c = true ∨ c = .restrict
  · have judged : TakenAndJudged RestrictFrame s t := by
      rcases taking with taking | rfl
      · exact (exec_taking_judged taking h).mono fun _ _ _ => JudgedFrame.restrict
      · exact exec_restrict_judged h
    rcases judged with rfl | ⟨p, rest, -, -, -, judged⟩
    · rfl
    · exact judged.end.running
  by_cases restart : c = .restart
  · subst restart
    rcases exec_restart_cases h with rfl | ⟨p, rest, -, -, -, ⟨code, rfl⟩ | rfl | rfl⟩
    · rfl
    · rfl
    · have off : (enterStarting (takeHead s p rest) .restart).isReady = false := by
        unfold enterStarting
        split <;> rfl
      rw [off] at after
      cases after
    · rfl
  simp only [not_or] at taking
  cases exec_control engine (Bool.eq_false_iff.mpr taking.1) taking.2 restart h with
  | stays ready same => exact same.running
  | held off => rw [off] at after; cases after
  | emptied off => rw [off] at after; cases after
  | entered starting => rw [isStarting_not_isReady starting] at before; cases before
  | launched p ready engine running => exact running

/-- A job that moves no page ends with the lists as they stood, settled (R115). -/
theorem settled_of_readingStep {p : Option Port} (step : ReadingStep p s t) (gone : t.running = none) :
    JobEnded t ∧ Settled s.retirementList s.live s.eraseList t ∧ t.erased = s.erased ∧
      t.inWrite = s.inWrite ∧ t.bad = s.bad := by
  cases step with
  | goesOn r running => rw [running] at gone; cases gone
  | ended u finish jobQueue ports kept =>
    subst finish
    obtain ⟨list, live, dirty⟩ := settled_settleRetirements
      { u with running := none, operation := none, engine := .free }
    refine ⟨finishJob_ended u, ⟨?_, ?_, ?_⟩, kept.erased, kept.inWrite, kept.bad⟩
    · rw [← kept.retirements]; exact list
    · rw [← kept.live, ← kept.retirements]; exact live
    · rw [← kept.dirty, ← kept.retirements]; exact dirty

theorem jobEvent_next {s t : State} {r : RunningJob} {body : RunningJob → State} (ready : s.isReady = true)
    (running : s.running = some r)
    (h : (Host.Outcome.next (jobEvent s body) : Host.Outcome State Fault Refusal) = .next t) :
    t = body r := by
  injection h with h
  rw [← h, jobEvent_running ready running]

/-- Settles O39: every end of a job is `finishJob`, which settles the list. -/
theorem jobEndSettlesRetirements : Obligations.JobEndSettlesRetirements := by
  refine ⟨fun c s t ready some h after gone x mem => ?_, fun c s t r o ready running event h gone => ?_⟩
  · by_cases engine : isEngineEvent c = true
    · exact engine_outstanding engine h some gone mem
    · rw [running_of_ready (Bool.eq_false_iff.mpr engine) h ready after] at gone
      rw [gone] at some
      cases some
  · rcases event with ⟨rfl, -⟩ | ⟨rfl, kind⟩ | ⟨rfl, -⟩
    · obtain rfl := jobEvent_next ready running h
      exact settled_of_readingStep (readPageDone_step rfl running o) gone
    · obtain rfl := jobEvent_next ready running h
      exact settled_of_readingStep (preloadPageDone_step rfl running kind o) gone
    · obtain rfl := jobEvent_next ready running h
      exact settled_of_readingStep (patrolPageDone_step rfl running o) gone

end Retirements

end Sys2Proof.Machine

/-! The step, the entries to STARTING (R149, R150, R160), the start-up (R151 to R158) and the timers. -/

namespace Sys2Proof.Machine

/-! ## The step -/

/-- Settles O1. -/
theorem stepTakesFront : Obligations.StepTakesFront := by
  intro s c rest waiting
  simp only [step, waiting]

/-- Settles O2: the cases of an idle step, in their order. -/
theorem idleStepPassesTime : Obligations.IdleStepPassesTime := by
  intro s waiting
  have idles : step s = .next (idle s) := by simp only [step, waiting]
  rw [idles]
  refine ⟨fun notReady => by simp [idle, notReady], fun ready i overdue lowest => ?_,
    fun ready none => ⟨fun expiry timer come => ?_, fun early => ?_⟩⟩
  · simp [idle, ready, overdueSlot, find_slotNumbers overdue lowest, expireLease]
  · refine ⟨expirePatrol s, ?_, rfl, rfl⟩
    simp [idle, ready, overdueSlot, find_slotNumbers_none none, patrolExpired, timer, come]
  · have waits : patrolExpired s = false := by
      unfold patrolExpired
      cases timer : s.patrolTimer with
      | none => rfl
      | some expiry => simpa using early expiry timer
    simp [idle, ready, overdueSlot, find_slotNumbers_none none, waits]

/-! ## Entry to STARTING -/

section Starting
variable (s : State) (cause : ResetCause)

theorem startingState_port (p : Port) :
    (startingState s cause).port p = { PortUnit.reset with link := (s.port p).link } := by
  simp [startingState, State.port]

theorem startingState_windowRead (p : Port) (offset : Byte) :
    windowRead (startingState s cause) p offset =
      if offset = 0x85 then 1 else if offset = 0x86 then BitVec.ofNat 8 (resetCauseCode cause) else 0 := by
  have causes : attentionCauses (startingState s cause) p = 0 := by
    simp [attentionCauses, changesLevel, State.changes, startingState_port, PortUnit.reset, haltLevel]
    simp [startingState, State.reset, bitAt]
  have here : ∀ n, offset.toNat = n → offset = BitVec.ofNat 8 n := fun n h => by simp [← h]
  unfold windowRead
  rw [startingState_port, causes]
  split
  · next low =>
    rw [if_neg (by rintro rfl; simp at low), if_neg (by rintro rfl; simp at low)]
    rfl
  · split
    case h_9 =>
      rw [if_neg (by rintro rfl; simp_all), if_neg (by rintro rfl; simp_all)]
    all_goals
      next h =>
        rw [here _ h]
        rfl

/-- Every volatile structure has its start-up value (R150). -/
theorem startingState_enters : EntersStarting s (startingState s cause) cause where
  device := rfl
  recorded := rfl
  phase := rfl
  firstRead := rfl
  array := rfl
  windows := startingState_windowRead s cause
  claims i := by simp [startingState, State.reset, State.slot]
  watches := rfl
  changes p := by simp [startingState, State.reset, State.changes]
  queues := ⟨rfl, rfl, rfl⟩
  engine := ⟨rfl, rfl, rfl⟩
  pools := ⟨rfl, rfl, rfl, rfl, rfl⟩
  lists := ⟨rfl, rfl, rfl⟩
  patrol := ⟨rfl, rfl, rfl⟩
  configState := rfl

variable {s} in
/-- With PFW_N deasserted an entry to STARTING is the entry of R150. -/
theorem enterStarting_of_powerGood (h : s.pfwAsserted = false) :
    enterStarting s cause = startingState s cause := by
  simp [enterStarting, h]

variable {s} in
/-- With PFW_N asserted it ends in HALTED (R151). -/
theorem enterStarting_of_powerFail (h : s.pfwAsserted = true) :
    enterStarting s cause = haltStartup (startingState s cause) := by
  simp [enterStarting, h]

/-- The entry reads nothing of a state but its array, so the entry of a state that differs elsewhere is its. -/
theorem EntersStarting.of_array {s t u : State} {cause : ResetCause} (array : u.array = s.array)
    (h : EntersStarting u t cause) : EntersStarting s t cause :=
  { h with array := h.array.trans array }

end Starting

/-- The state after reset is an entry to STARTING of the first start after power-on. -/
theorem reset_eq_startingState : State.reset = startingState State.reset .powerOn := by
  simp [startingState, State.reset, PortUnit.reset]

theorem reset_invariants : MemoriesCanonical State.reset ∧ DirectoryOrdered State.reset ∧
    PortLaw State.reset ∧ EngineLaw State.reset ∧ LeaseLaw State.reset ∧ ClaimLaw State.reset ∧
    WatchLaw State.reset ∧ PoolLaw State.reset := by
  have notReady : State.reset.isReady = false := rfl
  have slots : ∀ i, State.reset.slot i = Slot.reset := fun i => by simp [State.reset, State.slot]
  have units : ∀ p, State.reset.port p = PortUnit.reset := fun p => by simp [State.reset, State.port]
  have sets : ∀ p, State.reset.changes p = ⟨[], false⟩ := fun p => by
    simp [State.reset, State.changes]
  have canonical : MemoriesCanonical State.reset :=
    { array := ⟨.nil, fun _ h => nomatch h⟩
      windows := fun p => by rw [units]; exact Memory.wf_nil
      buffers := fun i => by rw [slots]; exact Memory.wf_nil }
  have ports : PortLaw State.reset :=
    { once := .nil, queued := fun _ h => (nomatch h), active := fun _ h => (nomatch h) }
  have engine : EngineLaw State.reset := .of_stopped notReady rfl rfl
  have leases : LeaseLaw State.reset :=
    { starting := fun _ i => by rw [slots]; rfl, ready := fun h => by simp [notReady] at h }
  have watches : WatchLaw State.reset :=
    { places := Nat.zero_le _
      perPort := fun _ => Nat.zero_le _
      distinct := .nil
      changes := fun p => by rw [sets]; exact ⟨Nat.zero_le _, .nil⟩ }
  have pools : PoolLaw State.reset :=
    { scanning := fun _ => ⟨rfl, fun _ _ h => nomatch h⟩
      pools := fun h => by simp [notReady] at h
      named := fun h => by simp [notReady] at h
      job := fun h => by simp [notReady] at h }
  exact ⟨canonical, ⟨.nil, Nat.zero_le _⟩, ports, engine, leases, fun _ h => (nomatch h), watches, pools⟩

/-- Settles O4. -/
theorem resetStateMeetsInvariants : Obligations.ResetStateMeetsInvariants := by
  refine ⟨⟨?_, rfl, fun p => ?_, rfl⟩, reset_invariants⟩
  · have enters := startingState_enters State.reset .powerOn
    rwa [← reset_eq_startingState] at enters
  · have mask : (State.reset.port p).mask = 0 := by simp [State.reset, State.port, PortUnit.reset]
    simp [attentionOutput, mask]

/-- Settles O5. -/
theorem entriesToStarting : Obligations.EntriesToStarting := by
  refine ⟨fun s off free good => ?_, fun s on held good => ?_,
    fun s ready restarting free empty good => ?_⟩
  · refine ⟨startingState { s with powered := true, coldStart := true } .powerOn, ?_,
      (startingState_enters _ _).of_array rfl, rfl⟩
    simp [exec, execPowerOn, off, free, startFromPins, enterStarting, good]
  · refine ⟨startingState { s with resetAsserted := false } (if s.coldStart then .powerOn else .pin),
      ?_, rfl, (startingState_enters _ _).of_array rfl⟩
    simp [exec, execResetNDeassert, on, held, startFromPins, enterStarting, good]
  · refine ⟨startingState s .restart, ?_, startingState_enters _ _⟩
    simp [exec, execRestartDrainEnd, ready, restarting, drained, free, empty, enterStarting, good]

/-- Settles O8. -/
theorem powerFailOutsideReady : Obligations.PowerFailOutsideReady := by
  refine ⟨fun s success => ⟨fun starting => ?_, fun notReady notStarting => ?_, rfl⟩,
    fun s off free bad => ?_, fun s on held bad => ?_⟩
  · simp [exec, execPfwNAssert, isStarting_not_isReady starting, starting, haltStartup]
  · simp [exec, execPfwNAssert, notReady, notStarting]
  · refine ⟨haltStartup (startingState { s with powered := true, coldStart := true } .powerOn), ?_,
      rfl, rfl, rfl, rfl⟩
    simp [exec, execPowerOn, off, free, startFromPins, enterStarting, bad]
  · refine ⟨haltStartup (startingState { s with resetAsserted := false }
      (if s.coldStart then .powerOn else .pin)), ?_, rfl, rfl, rfl⟩
    simp [exec, execResetNDeassert, on, held, startFromPins, enterStarting, bad]

/-! ## RESTART and the timers -/

/-- Settles O33. -/
theorem restartDrainsOrStarts : Obligations.RestartDrainsOrStarts := by
  intro s p rest f canonical taking code good
  have run : exec .restart s = .next (restartBody (takeHead s p rest) p f) := by
    show Host.Outcome.next (takeCommand s _ restartBody) = _
    rw [takeCommand_taking taking _ (by simp [code, codeRestart])]
  have caller : isMaintenance (takeHead s p rest) p = isMaintenance s p := rfl
  refine ⟨fun host => ?_, fun maintenance busy => ?_, fun maintenance free empty => ?_⟩
  · refine ⟨_, run, ?_⟩
    rw [restartBody, judge_refused (c := .noRight) (by simp [firstFailure, caller, host])]
    exact ⟨answeredOnly_post rest (canonical.windows p) _ _ _,
      resultArea_post_takeHead rest (canonical.windows p) _ _ _⟩
  · have draining : drained (takeHead s p rest) = false := by
      rw [Bool.eq_false_iff]
      intro idle
      have both : s.engine = .free ∧ s.jobQueue = [] := by simpa [drained, takeHead] using idle
      rcases busy with running | queued
      · exact running both.1
      · exact queued both.2
    rw [run, restartBody, judge_accepted (by simp [caller, maintenance]), acceptRestart, draining]
    rfl
  · have idle : drained (takeHead s p rest) = true := by
      show (s.engine == .free && s.jobQueue.isEmpty) = true
      simp [free, empty]
    refine ⟨startingState (takeHead s p rest) .restart, ?_,
      EntersStarting.of_array (u := takeHead s p rest) rfl (startingState_enters _ _)⟩
    rw [run, restartBody, judge_accepted (by simp [caller, maintenance]), acceptRestart, idle]
    exact congrArg _ (enterStarting_of_powerGood (s := takeHead s p rest) .restart good)

/-- What the lapse of a held claim does to the part (R98): the slot, the holder's LAPSE, and the directory. -/
theorem releaseSlot_lapsed {s : State} {i : SlotNo} {p : Port} (holder : (s.slot i).holder = some p) :
    releaseSlot s i .lapsed = { s with
      directory := (releaseSlot s i .lapsed).directory
      claims := s.claims.set i { s.slot i with
        state := .free, lease := none, lapsed := some ((s.slot i).generation, p) }
      ports := s.ports.set p { s.port p with lapse := true } } := by
  unfold releaseSlot
  simp only [releasedSlot, holder]
  split
  · rw [releaseEntry_frame]
    rfl
  · rfl

/-- The expiry of a lease, at its time and before it (R98). -/
theorem exec_leaseExpiry {s : State} {i : SlotNo} {expiry : Nat} (ready : s.isReady = true)
    (held : (s.slot i).state = .held) (lease : (s.slot i).lease = some expiry) :
    exec (.leaseExpiry i) s = .next (if expiry ≤ s.now then releaseSlot s i .lapsed else s) := by
  simp [exec, execLeaseExpiry, ready, leaseExpired, held, lease, expireLease]

/-- A release with no record for its target leaves the directory alone. -/
theorem releaseSlot_directory_of_config {s : State} {i : SlotNo} {cause : ReleaseCause}
    (target : (s.slot i).target = some .config) : (releaseSlot s i cause).directory = s.directory := by
  unfold releaseSlot
  simp only [target]
  split <;> rfl

/-- Settles O34. -/
theorem timersExpire : Obligations.TimersExpire := by
  refine ⟨fun s i p expiry ready held lease holder => ⟨fun past => ?_, fun early => ?_⟩,
    fun s expiry ready timer runs => ⟨fun past => ?_, fun early => ?_⟩⟩
  · refine ⟨releaseSlot s i .lapsed, by rw [exec_leaseExpiry ready held lease, if_pos past],
      releaseSlot_lapsed holder, releaseSlot_directory_of_config, fun k e target entry claim => ?_⟩
    have after := releaseSlot_entry_claimed (cause := .lapsed) target entry claim
    refine ⟨fun create forming => ?_, fun notForming => ?_, fun k' other => releaseSlot_entry_kept ?_⟩
    · rw [after, if_pos ⟨create, forming, rfl⟩]
    · rw [after, if_neg fun h => notForming h.2.1]
    · intro e' target'
      rw [target] at target'
      exact absurd (Target.record.inj (Option.some.inj target')).symm other
  · rw [exec_leaseExpiry ready held lease, if_neg (by omega)]
  · simp [exec, execPatrolTimerExpiry, ready, patrolExpired, timer, past, expirePatrol, patrolExpiryFrom,
      runs, Config.patrolUnit]
  · simp [exec, execPatrolTimerExpiry, ready, patrolExpired, timer, early]

/-! ## The start-up -/

theorem isStarting_active {s : State} (h : s.isStarting = true) : s.active = true :=
  (Bool.and_eq_true_iff.mp h).1

/-- Settles O9. -/
theorem startupReadsOn : Obligations.StartupReadsOn := by
  refine ⟨fun s o reports page starting phase reads before => ?_,
    fun s o records highest page starting phase reads before => ⟨_, rfl, ?_⟩⟩
  · have more : page + 1 < Config.firstRecordPage := by
      show page + 1 < 8
      omega
    simp [exec, execConfigLoadPageRead, starting, configLoadRead, phase, reads, more]
  · have more : page + 1 < Config.pages := by
      show page + 1 < 4096
      omega
    simp [exec, execScanPageRead, starting, scanRead, phase, reads, more]

/-- The last page read of SCAN: RESOLVE, and entry to READY. -/
theorem exec_scanPageRead_last {s : State} {o : ReadOutcome} {records : List (Nat × ScanRecord)}
    {highest : Nat} (starting : s.isStarting = true) (phase : s.startup = .scan records highest)
    (reads : s.operation = some (.read 4095)) :
    exec (.scanPageRead o) s = .next (enterReady (accounted s
      (records ++ [(4095, scanRecordOf (readCell (s.page 4095) o))])
      (max highest (scanRecordOf (readCell (s.page 4095) o)).sequence))) := by
  simp [exec, execScanPageRead, starting, scanRead, phase, reads, Config.pages]

/-- Settles O11. -/
theorem scanEndsInReady : Obligations.ScanEndsInReady := by
  intro s o records highest starting phase reads
  refine ⟨_, _, exec_scanPageRead_last starting phase reads, rfl, rfl, ?_, rfl, rfl, fun p => ?_, rfl, rfl,
    rfl, rfl, rfl, rfl, rebuiltDirectory_length _, rfl⟩
  · have active : s.active = true := isStarting_active starting
    show (s.active && _) = true
    rw [active]
    rfl
  · simp [enterReady, accounted, State.port]

/-! ### CONFIG LOAD -/

section ConfigLoad
variable {reports : List PageReport}

theorem configCopyState_of_found {c : CopyNo} {img : List Byte} {n : Nat}
    (h : configCopyFound reports c = some (img, n)) : configCopyState reports c = .valid n := by
  simp [configCopyState, h]

theorem configCopyState_valid_iff {c : CopyNo} {n : Nat} :
    configCopyState reports c = .valid n ↔ ∃ img, configCopyFound reports c = some (img, n) := by
  unfold configCopyState
  split
  · next img m found => simp [found, eq_comm]
  · next none =>
    simp only [none]
    split <;> simp

/-- The copy whose image CONFIG LOAD takes (R59): the newest valid one, of equals copy A. -/
theorem storedFound_one {img : List Byte} {n : Nat} (found : configCopyFound reports .one = some (img, n))
    (newest : ∀ img' m, configCopyFound reports .two = some (img', m) → m ≤ n) :
    newestValid (configCopyState reports .one) (configCopyState reports .two) = some .one := by
  rw [configCopyState_of_found found]
  cases other : configCopyState reports .two with
  | valid m =>
    obtain ⟨img', found'⟩ := configCopyState_valid_iff.mp other
    exact if_pos (newest img' m found')
  | erased => rfl
  | invalid => rfl

theorem storedFound_two {img : List Byte} {n : Nat} (found : configCopyFound reports .two = some (img, n))
    (newest : ∀ img' m, configCopyFound reports .one = some (img', m) → m < n) :
    newestValid (configCopyState reports .one) (configCopyState reports .two) = some .two := by
  rw [configCopyState_of_found found]
  cases other : configCopyState reports .one with
  | valid m =>
    obtain ⟨img', found'⟩ := configCopyState_valid_iff.mp other
    exact if_neg (Nat.not_le.mpr (newest img' m found'))
  | erased => rfl
  | invalid => rfl

/-- With a newest valid copy the part is CONFIGURED by its image (R59, R60). -/
theorem configured_of_newest {c : CopyNo} {img : List Byte} {n : Nat}
    (newest : newestValid (configCopyState reports .one) (configCopyState reports .two) = some c)
    (found : configCopyFound reports c = some (img, n)) :
    configStateFound reports = .configured ∧ storedFound reports = some (img, n) ∧
      effectiveFound reports = effectiveOfImage img := by
  have state : configStateFound reports = .configured := by simp [configStateFound, newest]
  have stored : storedFound reports = some (img, n) := by simp [storedFound, newest, found]
  exact ⟨state, stored, by simp [effectiveFound, state, stored]⟩

theorem newestValid_none {a b : CopyState} (ha : ∀ n, a ≠ .valid n) (hb : ∀ n, b ≠ .valid n) :
    newestValid a b = none := by
  cases a <;> cases b <;> simp_all [newestValid]

theorem configPageErased_of_all {c : CopyNo} {offset : Nat} (erased : ∀ x ∈ reports, x = .erased) :
    configPageErased reports c offset = true := by
  have page : reports.getD (configBase c + offset) .erased = .erased := by
    rw [List.getD_eq_getElem?_getD]
    cases h : reports[configBase c + offset]? with
    | none => rfl
    | some x => exact erased x (List.mem_of_getElem? h)
  simp only [configPageErased, page, beq_self_eq_true]

theorem configCopyFound_none_of_erased {c : CopyNo} (h : configPageErased reports c 0 = true) :
    configCopyFound reports c = none := by
  have header : reports.getD (configBase c) .erased = .erased := by
    simpa [configPageErased] using h
  unfold configCopyFound
  rw [header]

theorem configCopyState_of_none {c : CopyNo} (h : configCopyFound reports c = none) :
    configCopyState reports c =
      if configPageErased reports c 0 && configPageErased reports c 1 && configPageErased reports c 2
      then .erased else .invalid := by
  simp only [configCopyState, h]

/-- Without a valid copy nothing is stored (R59). -/
theorem newestValid_of_none (one : configCopyFound reports .one = none)
    (two : configCopyFound reports .two = none) :
    newestValid (configCopyState reports .one) (configCopyState reports .two) = none := by
  apply newestValid_none
  all_goals
    intro n valid
    obtain ⟨img, found⟩ := configCopyState_valid_iff.mp valid
    simp_all

theorem storedFound_of_none (one : configCopyFound reports .one = none)
    (two : configCopyFound reports .two = none) : storedFound reports = none := by
  simp [storedFound, newestValid_of_none one two]

/-- An erased configuration area leaves the part UNCONFIGURED (R59, R60). -/
theorem unconfigured_of_erased (erased : ∀ x ∈ reports, x = .erased) :
    configStateFound reports = .unconfigured ∧ storedFound reports = none ∧
      effectiveFound reports = defaultConfig ∧ configCopyState reports .one = .erased ∧
      configCopyState reports .two = .erased := by
  have page : ∀ c offset, configPageErased reports c offset = true := fun _ _ =>
    configPageErased_of_all erased
  have none : ∀ c, configCopyFound reports c = none := fun c => configCopyFound_none_of_erased (page c 0)
  have copies : ∀ c, configCopyState reports c = .erased := fun c => by
    simp [configCopyState_of_none (none c), page]
  have stored := storedFound_of_none (none .one) (none .two)
  have state : configStateFound reports = .unconfigured := by
    simp [configStateFound, newestValid, copies, page]
  exact ⟨state, stored, by simp [effectiveFound, state], copies .one, copies .two⟩

/-- A page that does not read ERASED, with no valid copy, is a CONFIG FAULT (R59, R60). -/
theorem configFault_of_none (one : configCopyFound reports .one = none)
    (two : configCopyFound reports .two = none) (n : Nat) (area : n < 8)
    (written : reports.getD n .erased ≠ .erased) :
    configStateFound reports = .configFault ∧ storedFound reports = none ∧
      effectiveFound reports = faultConfig := by
  have stored := storedFound_of_none one two
  have page : ∀ c offset, configBase c + offset = n → configPageErased reports c offset = false := by
    rintro c offset rfl
    simpa [configPageErased] using written
  have copyErased : ∀ c, configCopyFound reports c = none → configCopyState reports c = .erased →
      ∀ offset, offset < 3 → configPageErased reports c offset = true := by
    intro c none erased offset low
    have pages : configPageErased reports c 0 = true ∧ configPageErased reports c 1 = true ∧
        configPageErased reports c 2 = true := by
      simpa [configCopyState_of_none none, and_assoc] using erased
    obtain ⟨first, second, third⟩ := pages
    interval_cases offset <;> assumption
  have notErased : (configCopyState reports .one == .erased && configCopyState reports .two == .erased &&
      configPageErased reports .one 3 && configPageErased reports .two 3) = false := by
    rw [Bool.eq_false_iff]
    intro all
    simp only [Bool.and_eq_true, beq_iff_eq] at all
    obtain ⟨⟨⟨a, b⟩, a3⟩, b3⟩ := all
    obtain ⟨c, offset, low, rfl⟩ : ∃ c offset, offset < 4 ∧ configBase c + offset = n := by
      by_cases first : n < 4
      · exact ⟨.one, n, first, Nat.zero_add n⟩
      · exact ⟨.two, n - 4, by omega, by show 4 + (n - 4) = n; omega⟩
    have erased : configPageErased reports c offset = true := by
      by_cases last : offset = 3
      · subst last
        cases c <;> assumption
      · cases c with
        | one => exact copyErased .one one a offset (by omega)
        | two => exact copyErased .two two b offset (by omega)
    rw [page c offset rfl] at erased
    cases erased
  have state : configStateFound reports = .configFault := by
    simp [configStateFound, newestValid_of_none one two, notErased]
  exact ⟨state, stored, by simp [effectiveFound, state]⟩

end ConfigLoad

/-- Settles O10. -/
theorem configLoadChoosesState : Obligations.ConfigLoadChoosesState := by
  intro s o reports starting phase reads
  have run : exec (.configLoadPageRead o) s =
      .next (endConfigLoad s (reports ++ [readCell (s.page 7) o])) := by
    simp [exec, execConfigLoadPageRead, starting, configLoadRead, phase, reads, Config.firstRecordPage]
  refine ⟨_, run, ⟨_, rfl⟩, rfl, rfl, ?_⟩
  rintro all rfl
  generalize reports ++ [readCell (s.page 7) o] = all
  refine ⟨fun img n found newest => ?_, fun img n found newest => ?_, fun erased => ?_,
    fun one two ⟨n, area, written⟩ => ?_⟩
  · obtain ⟨state, stored, effective⟩ := configured_of_newest (storedFound_one found newest) found
    simp [endConfigLoad, state, stored, effective, configCopyState_of_found found]
  · obtain ⟨state, stored, effective⟩ := configured_of_newest (storedFound_two found newest) found
    simp [endConfigLoad, state, stored, effective, configCopyState_of_found found]
  · obtain ⟨state, stored, effective, a, b⟩ := unconfigured_of_erased erased
    simp [endConfigLoad, state, stored, effective, a, b]
  · obtain ⟨state, stored, effective⟩ := configFault_of_none one two n area written
    simp [endConfigLoad, state, stored, effective]

end Sys2Proof.Machine

/-! The host link (R171, R172, R174, R175, R179), and what alone may change the effective configuration and the
page array. -/

namespace Sys2Proof.Machine

/-! ## The host link -/

section Link
variable {s : State} {p : Port} {place : LinkByte}

/-- A data byte at a location of the event's own row: the offset goes on, and the body acts (R171). -/
theorem linkEvent_at {mine : Byte → Bool} {body : State → Byte → State} {offset : Byte}
    (active : s.active = true) (byte : ByteAt s p place offset) (own : mine offset = true) :
    linkEvent s p place mine body =
      body (s.setPort p { s.port p with link := .writing (offset + 1) }) offset := by
  have writing : linkAfter (s.port p).link place.before = .writing offset := byte
  simp [linkEvent, active, writing, own]

/-- A data byte of a read transaction only moves its offset on. -/
theorem linkEvent_reading {mine : Byte → Bool} {body : State → Byte → State} {offset : Byte}
    (active : s.active = true)
    (reading : linkAfter (s.port p).link place.before = .reading offset) :
    linkEvent s p place mine body = s.setPort p { s.port p with link := .reading (offset + 1) } := by
  simp [linkEvent, active, reading, linkStep]

theorem linkEvent_deselected {mine : Byte → Bool} {body : State → Byte → State}
    (active : s.active = true) (none : linkAfter (s.port p).link place.before = .deselected) :
    linkEvent s p place mine body = s.setPort p { s.port p with link := .deselected } := by
  simp [linkEvent, active, none, linkStep]

theorem setPort_setPort (u v : PortUnit) : (s.setPort p u).setPort p v = s.setPort p v := by
  simp [State.setPort]

/-- What a host reads at a location, where its unit differs at most in the window and the link. -/
theorem windowRead_setPort (w : Memory) (link : Link) (offset : Byte) :
    windowRead (s.setPort p { s.port p with window := w, link := link }) p offset =
      if offset.toNat < 0x80 then w.read offset.toNat else windowRead s p offset := by
  unfold windowRead
  rw [State.port_setPort_self]
  split
  · rfl
  · have causes : attentionCauses (s.setPort p { s.port p with window := w, link := link }) p =
        attentionCauses s p := by
      unfold attentionCauses
      rw [State.port_setPort_self]
      rfl
    rw [causes]
    rfl

theorem windowRead_setLink (link : Link) (offset : Byte) :
    windowRead (s.setPort p { s.port p with link := link }) p offset = windowRead s p offset := by
  rw [windowRead_setPort (s.port p).window link offset]
  split
  · next low => rw [windowRead, if_pos low]
  · rfl

/-! ### WINDOW_WRITE -/

theorem plainOffset_of_ne {offset : Byte} (go : offset ≠ 0x80) (causes : offset ≠ 0x82)
    (sticky : offset ≠ 0x84) : plainOffset offset = true := by
  simp [plainOffset, goOffset, causesOffset, stickyOffset]
  exact ⟨⟨go, causes⟩, sticky⟩

theorem windowByte_idle {u : PortUnit} {offset : Byte} (value : Byte) (area : offset.toNat < 0x60)
    (idle : u.state = .idle) :
    windowByte u offset value = { u with window := u.window.write offset.toNat value } := by
  simp [windowByte, area, idle]

theorem windowByte_locked {u : PortUnit} {offset : Byte} (value : Byte) (area : offset.toNat < 0x60)
    (busy : u.state ≠ .idle) : windowByte u offset value = { u with windowLocked := true } := by
  unfold windowByte
  rw [if_pos area]
  split
  · contradiction
  · rfl
  · rfl

theorem windowByte_mask (u : PortUnit) (value : Byte) :
    windowByte u 0x83 value = { u with mask := value.setWidth 5 } := rfl

theorem windowByte_readOnly {u : PortUnit} {offset : Byte} (value : Byte) (area : 0x60 ≤ offset.toNat)
    (mask : offset ≠ 0x83) : windowByte u offset value = u := by
  have other : offset.toNat ≠ 0x83 := fun h => mask (BitVec.eq_of_toNat_eq h)
  simp [windowByte, Nat.not_lt.mpr area, other]

/-- WINDOW_WRITE at a location of its row (R172, R175). -/
theorem exec_windowWrite_at {offset : Byte} (value : Byte) (active : s.active = true)
    (byte : ByteAt s p place offset) (plain : plainOffset offset = true) :
    exec (.windowWrite p place value) s = .next (s.setPort p
      (windowByte { s.port p with link := .writing (offset + 1) } offset value)) := by
  show Host.Outcome.next (linkEvent s p place plainOffset _) = _
  rw [linkEvent_at active byte plain, State.port_setPort_self, setPort_setPort]

/-- Settles O13, location by location. -/
theorem windowWriteByLocation : Obligations.WindowWriteByLocation := by
  refine ⟨fun s p place offset value active byte go causes sticky wf => ?_,
    fun s p place start value n active before => ?_, fun s p place value active before => ?_⟩
  · refine ⟨_, exec_windowWrite_at value active byte (plainOffset_of_ne go causes sticky), rfl,
      fun q other => State.port_setPort_ne s _ other, fun area idle => ?_, fun area busy => ?_,
      ?_, fun area mask => ?_⟩
    · rw [windowByte_idle (u := { s.port p with link := .writing (offset + 1) }) value area idle]
      refine ⟨?_, fun other ne => ?_, by rw [State.port_setPort_self]⟩
      · rw [windowRead_setPort, if_pos (by omega), Memory.read_write wf, if_pos rfl]
      · rw [windowRead_setPort]
        split
        · next low =>
          rw [Memory.read_write wf, if_neg fun h => ne (BitVec.eq_of_toNat_eq h), windowRead, if_pos low]
        · rfl
    · rw [windowByte_locked (u := { s.port p with link := .writing (offset + 1) }) value area busy,
        State.port_setPort_self]
    · rintro rfl
      rw [windowByte_mask, State.port_setPort_self]
    · rw [windowByte_readOnly value area mask, State.port_setPort_self]
  · have reading : linkAfter (s.port p).link place.before = .reading (start + BitVec.ofNat 8 n) := by
      rw [before, linkAfter_append]
      simp only [linkAfter_cons, linkStep_deselect]
      exact linkAfter_dataBytes start n
    have offset : start + BitVec.ofNat 8 n + 1 = start + BitVec.ofNat 8 (n + 1) := by
      rw [BitVec.add_assoc]
      congr 1
      apply BitVec.eq_of_toNat_eq
      simp
    refine ⟨_, _, congrArg Host.Outcome.next (linkEvent_reading active reading), rfl, ?_, ?_⟩
    · rw [offset]
      rfl
    · rw [offset]
      simp only [serialOut, State.port_setPort_self, windowRead_setLink]
  · have none : linkAfter (s.port p).link place.before = .deselected := by simp [before]
    refine ⟨_, congrArg Host.Outcome.next (linkEvent_deselected active none), rfl, ?_⟩
    simp only [serialOut, State.port_setPort_self]

/-! ### LAUNCH -/

section Launch
variable {tag : Byte} (sent : tag ≠ 0)
include sent

theorem launchByte_busy (busy : (s.port p).state ≠ .idle) :
    launchByte s p tag = s.setPort p { s.port p with launchRejected := true } := by
  unfold launchByte
  rw [if_neg sent]
  split
  · contradiction
  · rfl
  · rfl

theorem launchByte_queued (idle : (s.port p).state = .idle) (ready : s.device = .ready) :
    launchByte s p tag = { s.setPort p { s.port p with go := tag, state := .queued } with
      dispatchQueue := s.dispatchQueue ++ [p] } := by
  rw [launchByte, if_neg sent]
  simp [idle, launchIdle, ready, setPort_setPort]

theorem launchByte_answered (idle : (s.port p).state = .idle) (notReady : s.device ≠ .ready) :
    launchByte s p tag = post (s.setPort p { s.port p with go := tag }) p
      (if s.device = .starting then .notReady else .halted) {} none := by
  unfold launchByte launchIdle
  rw [if_neg sent, idle]
  simp only [State.setPort_device]
  split
  · next device => rw [if_pos device]
  · next device => rw [if_neg (by simp [device])]
  · contradiction

end Launch

/-- Settles O14: the four cases of R174. -/
theorem launchOutcomes : Obligations.LaunchOutcomes := by
  intro s p place tag active byte wf
  obtain ⟨u, here⟩ : ∃ u, u = s.setPort p { s.port p with link := .writing 0x81 } := ⟨_, rfl⟩
  have run : exec (.launch p place tag) s = .next (launchByte u p tag) := by
    rw [here]
    exact congrArg Host.Outcome.next (linkEvent_at active byte rfl)
  have unit : u.port p = { s.port p with link := .writing 0x81 } := here ▸ State.port_setPort_self _ _ _
  have state : (u.port p).state = (s.port p).state := by rw [unit]
  have device : u.device = s.device := by rw [here]; rfl
  have queue : u.dispatchQueue = s.dispatchQueue := by rw [here]; rfl
  have start : LinkFrame p s u := here ▸ linkFrame_setPort s p _
  have frame := start.after queue (launchByte_frame u p tag)
  have ignored : tag = 0 → launchByte u p tag = u := fun zero => if_pos zero
  have posted : ∀ c, (post (u.setPort p { u.port p with go := tag }) p c {} none).port p =
      postUnit { s.port p with go := tag, link := .writing 0x81 } c {} none := fun c => by
    rw [post_port_self, State.port_setPort_self, unit]
  refine ⟨_, run, ?_, frame.rest, frame.others, fun zero => ?_, fun sent busy => ?_,
    fun sent idle ready => ?_, fun sent idle notReady => ?_⟩
  · by_cases zero : tag = 0
    · rw [ignored zero, unit]
    · by_cases idle : (s.port p).state = .idle
      · by_cases ready : s.device = .ready
        · rw [launchByte_queued zero (state.trans idle) (device.trans ready)]
          show ((u.setPort p _).port p).link = _
          rw [State.port_setPort_self, unit]
        · rw [launchByte_answered zero (state.trans idle) (by rwa [device]), posted]
          rfl
      · rw [launchByte_busy zero (by rwa [state]), State.port_setPort_self, unit]
  · rw [ignored zero]
    exact ⟨queue, unit⟩
  · rw [launchByte_busy sent (by rwa [state]), State.port_setPort_self, unit]
    exact ⟨queue, rfl⟩
  · rw [launchByte_queued sent (state.trans idle) (device.trans ready)]
    refine ⟨congrArg (· ++ [p]) queue, ?_⟩
    show (u.setPort p _).port p = _
    rw [State.port_setPort_self, unit]
  · rw [launchByte_answered sent (state.trans idle) (by rwa [device]), posted, device]
    refine ⟨queue, rfl, rfl, rfl, ?_, fun a low => postUnit_read_below _ _ _ _ (by exact wf) low (.inl rfl)⟩
    unfold resultArea
    rw [posted]
    exact postUnit_result _ _ _ _ (by exact wf)

/-! ### The flags -/

/-- Settles O15. -/
theorem linkFlagWrites : Obligations.LinkFlagWrites := by
  refine ⟨fun s p place v active byte => ?_, fun s p place v active byte => ?_,
    fun s p access active read write => ?_⟩
  · show Host.Outcome.next (linkEvent s p place (· == causesOffset) _) = _
    rw [linkEvent_at active byte rfl, State.port_setPort_self, setPort_setPort]
    rfl
  · show Host.Outcome.next (linkEvent s p place (· == stickyOffset) _) = _
    rw [linkEvent_at active byte rfl, State.port_setPort_self, setPort_setPort]
    rfl
  · have invalid : (s.active && access != readAccess && access != writeAccess) = true := by
      simp [active, readAccess, writeAccess]
      exact ⟨read, write⟩
    show Host.Outcome.next (if s.active && access != readAccess && access != writeAccess then _ else s) = _
    rw [invalid]
    rfl

end Link

/-! ## What one port reaches -/

theorem exec_link_frame {c : Instr} {p : Port} {s t : State} (link : linkPort c = some p)
    (h : exec c s = .next t) : LinkFrame p s t := by
  have event : ∀ place mine {body : State → Byte → State},
      (∀ u offset, LinkFrame p u (body u offset)) → LinkFrame p s (linkEvent s p place mine body) :=
    fun place mine body each => linkEvent_cases (.refl s p) (fun _ => linkFrame_setPort s p _)
      fun _ offset _ => (linkFrame_setPort s p _).after rfl (each _ offset)
  cases c <;> first
    | (cases link; done)
    | (injection link with link; subst link; injection h with h; subst h)
  case invalidAccessByte access =>
    split
    · exact linkFrame_setPort s _ _
    · exact .refl s _
  case windowWrite place value => exact event place _ fun u _ => linkFrame_setPort u _ _
  case launch place tag => exact event place _ fun u _ => launchByte_frame u _ tag
  case attentionCauseWrite place value => exact event place _ fun u _ => linkFrame_setPort u _ _
  case stickyFlagWrite place value => exact event place _ fun u _ => linkFrame_setPort u _ _

/-- A command taken from a port changes no other port's unit. -/
theorem TakenAndJudged.others {s t : State} {p : Port} {rest : List Port}
    (h : TakenAndJudged RestrictFrame s t) (queue : s.dispatchQueue = p :: rest) :
    ∀ q, q ≠ p → t.port q = s.port q := by
  intro q other
  rcases h with rfl | ⟨p', rest', -, -, queue', judged⟩
  · rfl
  · rw [queue] at queue'
    cases queue'
    exact (judged.end.others q other).trans (takeHead_port_ne s p rest other)

/-- Settles O16. -/
theorem hostsReachOwnPortOnly : Obligations.HostsReachOwnPortOnly := by
  refine ⟨fun c p s t link h => ?_, fun c s t p rest member queue h => ?_⟩
  · obtain ⟨rest, others, tail⟩ := exec_link_frame link h
    exact ⟨rest, others, tail⟩
  · have taken : TakenAndJudged RestrictFrame s t := by
      by_cases restrict : c = .restrict
      · subst restrict
        exact exec_restrict_judged h
      · have taking : isTaking c = true := by
          simp only [List.mem_cons, List.not_mem_nil, or_false] at member
          rcases member with rfl | rfl | rfl | rfl | rfl | rfl | rfl | rfl | rfl | rfl | rfl | rfl | rfl | rfl |
            rfl | rfl | rfl | rfl | rfl | rfl | rfl | rfl | rfl | rfl | rfl | rfl | rfl <;>
            first | rfl | exact absurd rfl restrict
        exact (exec_taking_judged taking h).mono fun _ _ _ => JudgedFrame.restrict
    exact taken.others queue

/-! ## The effective configuration and the array -/

section Whole
variable {s t : State} {p : Port}

/-- Judging a command leaves the array alone, and all but RESTRICT the effective configuration. -/
theorem Judged.array (h : Judged RestrictFrame p s t) : t.array = s.array := by
  have kept : ∀ {u}, Touches (RestrictFrame p) s u → u.array = s.array := fun touches => by
    have frame := (touches.frame (RestrictFrame.refl p) RestrictFrame.trans).rest
    rw [frame]
  cases h with
  | unanswered touches => exact kept touches
  | answered _ _ _ touches => exact (kept touches :)
  | queued _ _ touches => exact (kept touches :)

theorem Judged.effective (h : Judged JudgedFrame p s t) : t.effective = s.effective := by
  have kept : ∀ {u}, Touches (JudgedFrame p) s u → u.effective = s.effective := fun touches => by
    have frame := (touches.frame (JudgedFrame.refl p) JudgedFrame.trans).rest
    rw [frame]
  cases h with
  | unanswered touches => exact kept touches
  | answered _ _ _ touches => exact (kept touches :)
  | queued _ _ touches => exact (kept touches :)

theorem TakenAndJudged.array (h : TakenAndJudged RestrictFrame s t) : t.array = s.array := by
  rcases h with rfl | ⟨p, rest, -, -, -, judged⟩
  · rfl
  · exact judged.array

theorem TakenAndJudged.effective (h : TakenAndJudged JudgedFrame s t) : t.effective = s.effective := by
  rcases h with rfl | ⟨p, rest, -, -, -, judged⟩
  · rfl
  · exact judged.effective

theorem releaseSlot_effective (s : State) (i : SlotNo) (cause : ReleaseCause) :
    (releaseSlot s i cause).effective = s.effective := by rw [releaseSlot_frame]

theorem releaseSlot_array (s : State) (i : SlotNo) (cause : ReleaseCause) :
    (releaseSlot s i cause).array = s.array := by rw [releaseSlot_frame]

theorem enterStarting_array (s : State) (cause : ResetCause) :
    (enterStarting s cause).array = s.array := by
  unfold enterStarting
  split <;> rfl

/-- A fold whose every step keeps a field keeps it. -/
theorem foldl_kept {α β : Type} {f : State → α → State} {field : State → β}
    (h : ∀ u x, field (f u x) = field u) (l : List α) (s : State) :
    field (l.foldl f s) = field s := by
  induction l generalizing s with
  | nil => rfl
  | cons x rest ih => exact (ih _).trans (h s x)

/-- The power-fail halt changes no effective configuration (R135, R159). -/
theorem haltReady_effective (s : State) (success : Bool) :
    (haltReady s success).effective = s.effective := by
  have finished : ∀ r, (finishOperation s r success).1.effective = s.effective := fun r => by
    unfold finishOperation
    split
    · split
      · unfold finishProgram
        simp only
        split <;> first | rfl | (unfold applyConfigCommit setCopyState; simp only; split <;> rfl)
      · unfold finishFailedProgram
        split <;> rfl
    · unfold finishErase
      split
      · split <;> rfl
      · unfold eraseHeadDone
        (repeat' split) <;> rfl
    · rfl
  have completed : ∀ u r, (completeHalted u r).effective = u.effective := fun u r => by
    unfold completeHalted
    rw [completeJob_frame]
  have running : (haltRunning s success).effective = s.effective := by
    unfold haltRunning
    split
    · rfl
    · next r _ => exact (completed _ _).trans (finished r)
  have restart : ∀ u, (haltRestart u).effective = u.effective := fun u => by
    unfold haltRestart
    split <;> rfl
  have slots : ∀ u, (haltSlots u).effective = u.effective := fun u =>
    foldl_kept (field := State.effective) (fun u i => by
      unfold haltSlot
      split
      · rfl
      · exact releaseSlot_effective u i _) _ u
  have dispatch : ∀ u, (haltDispatch u).effective = u.effective := fun u =>
    foldl_kept (f := fun s p => post s p .halted {} none) (field := State.effective) (fun _ _ => rfl) _ u
  have queued : ∀ u, (haltQueued u).effective = u.effective := fun u =>
    foldl_kept (field := State.effective) (fun u j => completed u _) _ u
  unfold haltReady
  simp only
  rw [slots, restart, dispatch, queued, running]

end Whole

/-- The commands at which the effective configuration may change (R38, R60). -/
def mayConfigure : Instr → Bool
  | .restrict | .configLoadPageRead _ | .powerOn | .resetNDeassert | .powerLoss | .restart
  | .restartDrainEnd => true
  | _ => false

/-- The commands at which the page array may change (R103, R104). -/
def mayProgram : Instr → Bool
  | .dataPageProgramDone _ | .commitPoint | .copy2Installed | .retirementCommitPoint
  | .repairPageProgramDone _ | .eraseComplete _ | .configPageOperationDone _ | .configurationCommitPoint
  | .headerProgramFailure | .resetNAssert | .powerLoss | .pfwNAssert _ => true
  | _ => false

theorem exec_effective {c : Instr} {s t : State} (other : mayConfigure c = false)
    (h : exec c s = .next t) : t.effective = s.effective := by
  by_cases engine : isEngineEvent c = true
  · rw [exec_engine_frame engine h]
  by_cases taking : isTaking c = true
  · exact (exec_taking_judged taking h).effective
  by_cases link : ∃ p, linkPort c = some p
  · obtain ⟨p, link⟩ := link
    rw [(exec_link_frame link h).rest]
  cases c <;> first
    | exact absurd rfl engine
    | exact absurd rfl taking
    | exact absurd ⟨_, rfl⟩ link
    | exact absurd other Bool.noConfusion
    | (injection h with h; subst h)
  case resetNAssert =>
    have cut : (cutOperation s).effective = s.effective := by
      unfold cutOperation
      split <;> rfl
    split
    · rfl
    · split
      · exact cut
      · rfl
  case pfwNAssert success =>
    simp only
    split
    · exact haltReady_effective _ success
    · split <;> rfl
  case pfwNDeassert => rfl
  case scanPageRead o =>
    split
    · unfold scanRead
      split
      · simp only
        split <;> rfl
      · rfl
    · rfl
  case leaseExpiry i =>
    split
    · exact releaseSlot_effective s i _
    · rfl
  case patrolTimerExpiry =>
    split <;> rfl

theorem exec_array {c : Instr} {s t : State} (other : mayProgram c = false)
    (h : exec c s = .next t) : t.array = s.array := by
  by_cases engine : isEngineEvent c = true
  · have reads : isReadEvent c = true := by
      cases c <;> first | rfl | exact absurd engine Bool.noConfusion | exact absurd other Bool.noConfusion
    exact (exec_engine_touches engine h).event_frame.array reads
  by_cases taking : isTaking c = true
  · exact ((exec_taking_judged taking h).mono fun _ _ _ => JudgedFrame.restrict).array
  by_cases link : ∃ p, linkPort c = some p
  · obtain ⟨p, link⟩ := link
    rw [(exec_link_frame link h).rest]
  cases c <;> first
    | exact absurd rfl engine
    | exact absurd rfl taking
    | exact absurd ⟨_, rfl⟩ link
    | exact absurd other Bool.noConfusion
    | skip
  case restrict => exact (exec_restrict_judged h).array
  case restart =>
    rcases exec_restart_cases h with rfl | ⟨p, rest, -, -, -, ⟨c, rfl⟩ | rfl | rfl⟩
    · rfl
    · rfl
    · exact enterStarting_array _ _
    · rfl
  all_goals
    injection h with h
    subst h
  case powerOn =>
    split
    · rfl
    · simp only
      split
      · rfl
      · exact enterStarting_array _ _
  case resetNDeassert =>
    split
    · simp only
      split
      · exact enterStarting_array _ _
      · rfl
    · rfl
  case pfwNDeassert => rfl
  case configLoadPageRead o =>
    split
    · unfold configLoadRead
      split
      · simp only
        split <;> rfl
      · rfl
    · rfl
  case scanPageRead o =>
    split
    · unfold scanRead
      split
      · simp only
        split <;> rfl
      · rfl
    · rfl
  case restartDrainEnd =>
    split
    · exact enterStarting_array _ _
    · rfl
  case leaseExpiry i =>
    split
    · exact releaseSlot_array s i _
    · rfl
  case patrolTimerExpiry =>
    split <;> rfl

/-- Settles O52. -/
theorem effectiveAndArrayChangeOnlyAt : Obligations.EffectiveAndArrayChangeOnlyAt := by
  refine ⟨fun c s t h changed => ?_, fun c s t h changed => ?_⟩
  · have may : mayConfigure c = true := by
      by_contra other
      exact changed (exec_effective (Bool.eq_false_iff.mpr other) h)
    cases c <;> first | exact absurd may Bool.noConfusion | simp
  · have may : mayProgram c = true := by
      by_contra other
      exact changed (exec_array (Bool.eq_false_iff.mpr other) h)
    cases c <;> first | exact absurd may Bool.noConfusion | simp

end Sys2Proof.Machine

/-! Cuts of the page operation (R104, R136), the release of several slots at once (R102), DETACH (R181) and the
power-fail halt (R135, R159). -/

namespace Sys2Proof.Machine

/-! ## Cuts -/

section Cuts
variable {s : State}

/-- What a cut leaves of a cell is one of five contents (R104). -/
theorem cutCell_mem (c : PageCell) (r : CutResult) :
    cutCell c r ∈ [PageCell.blank, c, ⟨.unreadable, c.payload⟩, ⟨c.tag, .unreadable⟩,
      ⟨.unreadable, .unreadable⟩] := by
  cases r <;> simp [cutCell]

/-- A cut on a configuration header leaves it ERASED or with an UNCORRECTABLE part (R57). -/
theorem cutCell_header {n : Nat} (header : n = 0 ∨ n = 4) (c : PageCell) (r : CutResult) :
    cutCell c (cutResultOn n r) = PageCell.blank ∨ (cutCell c (cutResultOn n r)).tag = .unreadable ∨
      (cutCell c (cutResultOn n r)).payload = .unreadable := by
  have whole : cutResultOn n .whole = .bothUnreadable := by
    rcases header with rfl | rfl <;> rfl
  have other : ∀ x, x ≠ .whole → cutResultOn n x = x := fun x ne => by
    simp [cutResultOn, ne]
  cases r with
  | whole => rw [whole]; exact .inr (.inl rfl)
  | erased => rw [other _ (by simp)]; exact .inl rfl
  | tagUnreadable => rw [other _ (by simp)]; exact .inr (.inl rfl)
  | payloadUnreadable => rw [other _ (by simp)]; exact .inr (.inr rfl)
  | bothUnreadable => rw [other _ (by simp)]; exact .inr (.inl rfl)

theorem page_cutPage (wf : PageArray.wf s.array) (n : Nat) (c : PageCell) (m : Nat) :
    (s.cutPage n c).page m =
      if m = n then cutCell c (cutResultOn n (Config.cutResult s.freeIndex)) else s.page m :=
  State.page_setPage wf n _ m

/-- A reset or a loss of power cuts the operation in progress and stops the part (R104, R149). -/
theorem exec_cut {c : Instr} (powered : s.powered = true) (released : s.resetAsserted = false)
    (event : c = .resetNAssert ∨ c = .powerLoss) :
    ∃ t, exec c s = .next t ∧ t.operation = none ∧ t.active = false ∧
      t.array = (cutOperation s).array := by
  rcases event with rfl | rfl
  · refine ⟨heldInReset (cutOperation s), ?_, rfl, by simp [heldInReset, State.active], rfl⟩
    simp [exec, execResetNAssert, powered, released]
  · refine ⟨unpowered (cutOperation s), ?_, rfl, by simp [unpowered, State.active], rfl⟩
    simp [exec, execPowerLoss, powered]

end Cuts

/-- Settles O6. -/
theorem cutOperationLeavesAllowedPage : Obligations.CutOperationLeavesAllowedPage := by
  intro s c wf powered released event
  obtain ⟨t, run, operation, inactive, array⟩ := exec_cut powered released event
  have page : ∀ n, t.page n = (cutOperation s).page n := fun n => by rw [State.page, array]; rfl
  have program : ∀ n tag payload, s.operation = some (.program n tag payload) →
      cutOperation s = s.cutPage n (programmedCell tag payload) := fun n tag payload h => by
    simp only [cutOperation, h]
  have erase : ∀ n, s.operation = some (.erase n) → cutOperation s = s.cutPage n (s.page n) :=
    fun n h => by simp only [cutOperation, h]
  refine ⟨t, run, operation, by simp [readyPin, State.isReady, inactive],
    fun p => by simp [attentionOutput, inactive], fun n tag payload op => ?_, fun n op => ?_,
    fun n header op => ?_, fun noProgram noErase => ?_⟩
  · simp only [page, program n tag payload op, page_cutPage wf]
    refine ⟨?_, fun m other => if_neg other⟩
    rw [if_pos trivial]
    exact cutCell_mem (programmedCell tag payload) _
  · simp only [page, erase n op, page_cutPage wf]
    refine ⟨?_, fun m other => if_neg other⟩
    rw [if_pos trivial]
    exact cutCell_mem (s.page n) _
  · rcases op with ⟨tag, payload, op⟩ | op
    · rw [page, program n tag payload op, page_cutPage wf, if_pos rfl]
      exact cutCell_header header _ _
    · rw [page, erase n op, page_cutPage wf, if_pos rfl]
      exact cutCell_header header _ _
  · rw [array]
    unfold cutOperation
    split
    · next n tag payload op => exact absurd op (noProgram n tag payload)
    · next n op => exact absurd op (noErase n)
    · rfl

/-! ## The release of several slots -/

section Releases
variable {s t u : State}

theorem ClaimsReleased.of_eq {freed : SlotNo → Prop} (directory : s.directory = u.directory)
    (slots : ∀ i, s.slot i = u.slot i) (h : ClaimsReleased u t freed) : ClaimsReleased s t freed := by
  have entry := State.entry_congr directory
  refine ⟨fun i k e hf ht he hc => ?_, fun k other => ?_⟩
  · rw [slots] at ht hc ⊢
    exact h.released i k e hf ht (entry k ▸ he) hc
  · rw [entry k]
    exact h.kept k fun i e hf ht he => by
      rw [← slots] at ht ⊢
      exact other i e hf ht ((entry k).trans he)

/-- A slot that a test on it picks out is released (R102). -/
def releaseWhere (test : Slot → Bool) (cause : ReleaseCause) (s : State) (i : SlotNo) : State :=
  if test (s.slot i) then releaseSlot s i cause else s

section Fold
variable {test : Slot → Bool} {cause : ReleaseCause}

theorem haltSlots_eq (s : State) :
    haltSlots s = slotNumbers.foldl (releaseWhere (fun x => !x.isFree) .halted) s := by
  unfold haltSlots
  congr 1
  funext u i
  unfold haltSlot releaseWhere
  cases free : (u.slot i).isFree <;> simp [free]

theorem detachSlots_eq (s : State) (p : Port) : detachSlots s p =
    slotNumbers.foldl (releaseWhere (fun x => x.state == .held && x.holder == some p) .detached) s := rfl

theorem releaseWhere_slot (s : State) (i j : SlotNo) :
    (releaseWhere test cause s i).slot j =
      if j = i ∧ test (s.slot i) = true then releasedSlot (s.slot i) cause else s.slot j := by
  unfold releaseWhere
  split
  · next picked => simp [releaseSlot_slot, picked]
  · next left => simp [left]

/-- Each slot that the test picks out is released, once. -/
theorem releases_slot (l : List SlotNo) (once : l.Nodup) (s : State) (j : SlotNo) :
    (l.foldl (releaseWhere test cause) s).slot j =
      if j ∈ l ∧ test (s.slot j) = true then releasedSlot (s.slot j) cause else s.slot j := by
  induction l generalizing s with
  | nil => simp
  | cons i rest ih =>
    obtain ⟨fresh, once⟩ := List.nodup_cons.mp once
    rw [List.foldl_cons, ih once, releaseWhere_slot]
    by_cases here : j = i
    · subst here
      simp [fresh]
    · simp [here]

/-- A release keeps all but the directory, the Claim Table and, at a lapse, the port units. -/
theorem releases_frame (noLapse : cause ≠ .lapsed) (l : List SlotNo) (s : State) :
    l.foldl (releaseWhere test cause) s = { s with
      directory := (l.foldl (releaseWhere test cause) s).directory
      claims := (l.foldl (releaseWhere test cause) s).claims } := by
  induction l generalizing s with
  | nil => rfl
  | cons i rest ih =>
    have first : releaseWhere test cause s i = { s with
        directory := (releaseWhere test cause s i).directory
        claims := (releaseWhere test cause s i).claims } := by
      unfold releaseWhere
      split
      · have ports := releaseSlot_ports (s := s) (i := i) noLapse
        have frame := releaseSlot_frame s i cause
        rw [ports] at frame
        rw [frame]
      · rfl
    rw [List.foldl_cons, ih]
    generalize (rest.foldl (releaseWhere test cause) (releaseWhere test cause s i)).directory = d
    generalize (rest.foldl (releaseWhere test cause) (releaseWhere test cause s i)).claims = c
    rw [first]

/-- Each entry afterwards stood before, but perhaps for its claim field. -/
theorem releases_directory (l : List SlotNo) (s : State) :
    ∀ e ∈ (l.foldl (releaseWhere test cause) s).directory,
      ∃ e₀ ∈ s.directory, e = e₀ ∨ e = { e₀ with claim := none } := by
  induction l generalizing s with
  | nil => exact fun e h => ⟨e, h, .inl rfl⟩
  | cons i rest ih =>
    intro e h
    obtain ⟨e₁, mem, change⟩ := ih _ e h
    have first : ∃ e₀ ∈ s.directory, e₁ = e₀ ∨ e₁ = { e₀ with claim := none } := by
      unfold releaseWhere at mem
      split at mem
      · exact releaseSlot_directory mem
      · exact ⟨e₁, mem, .inl rfl⟩
    obtain ⟨e₀, mem₀, first⟩ := first
    refine ⟨e₀, mem₀, ?_⟩
    rcases change with rfl | rfl
    · exact first
    · rcases first with rfl | rfl <;> exact .inr rfl

/-- The claims released are undone in the directory, each by its own slot (R28, R30, R87). -/
theorem releases_claims (removes : cause.removesForming = true) (l : List SlotNo) (once : l.Nodup)
    (s : State) : ClaimsReleased s (l.foldl (releaseWhere test cause) s)
      fun i => i ∈ l ∧ test (s.slot i) = true := by
  induction l generalizing s with
  | nil => exact ⟨fun i k e hf => absurd hf.1 List.not_mem_nil, fun _ _ => rfl⟩
  | cons i rest ih =>
    obtain ⟨fresh, once⟩ := List.nodup_cons.mp once
    obtain ⟨released, kept⟩ := ih once (releaseWhere test cause s i)
    have slots : ∀ j, j ≠ i → (releaseWhere test cause s i).slot j = s.slot j := fun j other => by
      rw [releaseWhere_slot, if_neg fun h => other h.1]
    have firstKept : ∀ k, (∀ e, test (s.slot i) = true → (s.slot i).target = some (.record k) →
        s.entry k = some e → e.claim ≠ some ⟨i, (s.slot i).generation⟩) →
        (releaseWhere test cause s i).entry k = s.entry k := fun k other => by
      unfold releaseWhere
      split
      · next picked => exact releaseSlot_entry_kept fun e => other e picked
      · rfl
    rw [List.foldl_cons]
    refine ⟨fun j k e freed target entry claim => ?_, fun k other => ?_⟩
    · obtain ⟨member, picked⟩ := freed
      by_cases here : j = i
      · subst here
        have first : (releaseWhere test cause s j).entry k =
            if (s.slot j).kind = some .create ∧ e.lifecycle = .forming then none
            else some { e with claim := none } := by
          rw [releaseWhere, if_pos picked, releaseSlot_entry_claimed target entry claim]
          simp [removes]
        rw [kept k, first]
        intro i' e' _ _ entry'
        rw [first] at entry'
        split at entry'
        · cases entry'
        · cases entry'
          simp
      · have unchanged := firstKept k fun e' _ _ entry' => by
          rw [entry] at entry'
          cases entry'
          rw [claim]
          intro same
          exact here (congrArg Handle.slot (Option.some.inj same))
        have member : j ∈ rest := (List.mem_cons.mp member).resolve_left here
        have after := released j k e ⟨member, by rwa [slots j here]⟩ (by rwa [slots j here])
          (unchanged.trans entry) (by rwa [slots j here])
        rwa [slots j here] at after
    · have unchanged := firstKept k fun e picked target entry =>
        other i e ⟨List.mem_cons_self, picked⟩ target entry
      rw [kept k, unchanged]
      intro j e freed target entry
      have ne : j ≠ i := fun h => fresh (h ▸ freed.1)
      rw [slots j ne] at freed target ⊢
      exact other j e ⟨List.mem_cons_of_mem _ freed.1, freed.2⟩ target (unchanged ▸ entry)

end Fold
end Releases

theorem slotNumbers_nodup : slotNumbers.Nodup := by decide

/-! ## DETACH -/

/-- What DETACH leaves before it answers: the claims given up, no watch and no change of the caller. -/
theorem detachSlots_spec (s : State) (p : Port) (rest : List Port) :
    ∃ (d : List Entry) (table : Vector Slot 8),
    detachWatches (detachSlots (takeHead s p rest) p) p = { s with
      ports := activePorts s p, dispatchQueue := rest, directory := d, claims := table
      watches := s.watches.filter fun w => w.port ≠ p
      changeSets := s.changeSets.set p ⟨[], false⟩ } ∧
    (∀ i : SlotNo, table[i] = if (s.slot i).state = .held ∧ (s.slot i).holder = some p then
      { s.slot i with state := .free, lease := none, lapsed := none } else s.slot i) ∧
    (∀ e ∈ d, ∃ e₀ ∈ s.directory, e = e₀ ∨ e = { e₀ with claim := none }) ∧
    ∀ t, t.directory = d →
      ClaimsReleased s t fun i => (s.slot i).state = .held ∧ (s.slot i).holder = some p := by
  have frame := releases_frame (test := fun x => x.state == .held && x.holder == some p)
    (cause := .detached) (by decide) slotNumbers (takeHead s p rest)
  have slots := releases_slot (test := fun x => x.state == .held && x.holder == some p)
    (cause := .detached) slotNumbers slotNumbers_nodup (takeHead s p rest)
  have entries := releases_directory (test := fun x => x.state == .held && x.holder == some p)
    (cause := .detached) slotNumbers (takeHead s p rest)
  have claims := releases_claims (test := fun x => x.state == .held && x.holder == some p)
    (cause := .detached) rfl slotNumbers slotNumbers_nodup (takeHead s p rest)
  rw [← detachSlots_eq] at frame slots entries claims
  generalize detachSlots (takeHead s p rest) p = u at *
  have picked : ∀ i, i ∈ slotNumbers ∧ (((takeHead s p rest).slot i).state == .held &&
      ((takeHead s p rest).slot i).holder == some p) = true ↔
      (s.slot i).state = .held ∧ (s.slot i).holder = some p := fun i => by
    have slot : (takeHead s p rest).slot i = s.slot i := rfl
    rw [slot, Bool.and_eq_true, beq_iff_eq, beq_iff_eq]
    exact ⟨And.right, fun h => ⟨mem_slotNumbers i, h⟩⟩
  refine ⟨u.directory, u.claims, ?_, fun i => ?_, entries, fun t directory => ?_⟩
  · have watches : (s.watches.filter fun w => w.port != p) = s.watches.filter fun w => w.port ≠ p :=
      List.filter_congr fun w _ => Bool.eq_iff_iff.mpr (by rw [bne_iff_ne, decide_eq_true_iff])
    generalize u.directory = d at frame
    generalize u.claims = c at frame
    rw [frame, ← watches]
    rfl
  · have slot : u.claims[i] = u.slot i := rfl
    rw [slot, slots i]
    simp only [picked i]
    rfl
  · obtain ⟨released, kept⟩ := claims
    have entry : ∀ k, t.entry k = u.entry k := State.entry_congr directory
    refine ⟨fun i k e freed target present claim => ?_, fun k other => ?_⟩
    · rw [entry]
      exact released i k e ((picked i).mpr freed) target present claim
    · rw [entry]
      exact kept k fun i e freed target present => other i e ((picked i).mp freed) target present

/-- A posting changes the window, the port state and COMPLETE of a unit (R177). -/
theorem postUnit_eq (u : PortUnit) (c : Completion) (r : Result) (data : Option (List Byte)) :
    postUnit u c r data =
      { u with window := (postUnit u c r data).window, state := .idle, complete := true } := rfl

/-- Settles O32. -/
theorem detachGivesUpClaimsAndWatches : Obligations.DetachGivesUpClaimsAndWatches := by
  intro s p rest f canonical taking code
  have run : exec .detach s = .next (detachBody (takeHead s p rest) p f) := by
    show Host.Outcome.next (takeCommand s _ detachBody) = _
    rw [takeCommand_taking taking _ (by simp [code, codeDetach])]
  obtain ⟨d, table, kept, slots, entries, claims⟩ := detachSlots_spec s p rest
  have body : detachBody (takeHead s p rest) p f =
      let v := detachWatches (detachSlots (takeHead s p rest) p) p
      post (v.setPort p (detachUnit (v.port p))) p .done {} none := rfl
  rw [kept] at body
  simp only at body
  have answered : ∀ v : State, v.ports = activePorts s p →
      (post (v.setPort p (detachUnit (v.port p))) p .done {} none).port p =
        postUnit (detachUnit { s.port p with state := .active }) .done {} none := fun v ports => by
    have unit : v.port p = { s.port p with state := .active } := by
      rw [State.port, ports]
      simp [activePorts]
    rw [post_port_self, State.port_setPort_self, unit]
  rw [run, body]
  refine ⟨_, rfl, rfl, slots, ?_, ?_, entries, claims _ rfl⟩
  · rw [answered _ rfl]
    exact postUnit_eq _ _ _ _
  · unfold resultArea
    rw [answered _ rfl]
    exact postUnit_result _ _ _ _ (canonical.windows p)

end Sys2Proof.Machine

/-! The power-fail halt in READY (R135, R159). -/

namespace Sys2Proof.Machine

/-! ## Answers HALTED -/

/-- What a host finds at a port whose command has completed HALTED (R63, R178). -/
structure HaltAnswered (u v : PortUnit) (committed : Bool) : Prop where
  idle : v.state = .idle
  complete : v.complete = true
  tag : v.window.read 0x60 = u.go
  code : v.window.read 0x61 = 0x02
  flags : v.window.read 0x62 = if committed then 1 else 0

/-- The tag, the completion code and the flags stand first (R178). The appends are nested to the right before anything
computes. -/
theorem resultBytes_flags (tag : Byte) (c : Completion) (r : Result) :
    ∃ fields, resultBytes tag c r =
      tag :: BitVec.ofNat 8 (completionCode c) :: BitVec.ofNat 8 (resultFlags r) :: fields := by
  have one : ∀ n, beBytes 1 n = [BitVec.ofNat 8 n] := fun n => by simp [beBytes]
  unfold resultBytes
  repeat rw [List.append_assoc]
  rw [one (completionCode c), one (resultFlags r)]
  exact ⟨_, rfl⟩

/-- The flags of a job that reports no copy pending (R178). -/
theorem resultFlags_jobResult (s : State) (r : RunningJob) (committed : Bool) :
    resultFlags (jobResult s r committed false) = if committed then 1 else 0 := by
  unfold jobResult
  simp only
  split <;> (cases committed <;> rfl)

theorem postUnit_haltAnswered {u : PortUnit} {r : Result} {committed : Bool} (wf : u.window.wf)
    (flags : resultFlags r = if committed then 1 else 0) :
    HaltAnswered u (postUnit u .halted r none) committed := by
  have area := postUnit_result (u := u) .halted r none wf
  obtain ⟨fields, bytes⟩ := resultBytes_flags u.go .halted r
  rw [bytes] at area
  injection area with tag rest
  injection rest with code rest
  injection rest with flag rest
  refine ⟨rfl, rfl, tag, code, flag.trans ?_⟩
  rw [flags]
  cases committed <;> rfl

/-- The ports listed are answered HALTED, committed no, and no other changes. -/
structure Answers (s t : State) (ps : List Port) : Prop where
  windows : ∀ p, (t.port p).window.wf
  go : ∀ p, (t.port p).go = (s.port p).go
  answered : ∀ p ∈ ps, HaltAnswered (s.port p) (t.port p) false
  others : ∀ p, p ∉ ps → t.port p = s.port p

section Answers
variable {s t u : State} {ps qs : List Port}

theorem Answers.refl (wf : ∀ p, (s.port p).window.wf) : Answers s s [] :=
  ⟨wf, fun _ => rfl, fun _ h => (nomatch h), fun _ _ => rfl⟩

theorem Answers.trans (h₁ : Answers s t ps) (h₂ : Answers t u qs) : Answers s u (ps ++ qs) where
  windows := h₂.windows
  go p := (h₂.go p).trans (h₁.go p)
  answered p member := by
    by_cases later : p ∈ qs
    · have last := h₂.answered p later
      exact { last with tag := last.tag.trans (h₁.go p) }
    · rw [h₂.others p later]
      exact h₁.answered p ((List.mem_append.mp member).resolve_right later)
  others p absent := by
    rw [List.mem_append, not_or] at absent
    exact (h₂.others p absent.2).trans (h₁.others p absent.1)

theorem post_answers (wf : ∀ p, (s.port p).window.wf) (p : Port) {r : Result}
    (flags : resultFlags r = 0) : Answers s (post s p .halted r none) [p] where
  windows q := by
    by_cases here : q = p
    · subst here
      rw [post_port_self]
      exact postUnit_wf _ _ _ _ (wf q)
    · rw [post_port_ne _ _ _ _ _ here]
      exact wf q
  go q := by
    by_cases here : q = p
    · subst here
      rw [post_port_self]
      exact postUnit_go _ _ _ _
    · rw [post_port_ne _ _ _ _ _ here]
  answered q member := by
    rw [List.mem_singleton.mp member, post_port_self]
    exact postUnit_haltAnswered (wf p) flags
  others q absent := post_port_ne _ _ _ _ _ fun h => absent (List.mem_singleton.mpr h)

theorem foldl_answers {α : Type} {f : State → α → State} {port : α → Option Port}
    (each : ∀ u, (∀ p, (u.port p).window.wf) → ∀ x, Answers u (f u x) (port x).toList) (l : List α)
    (wf : ∀ p, (s.port p).window.wf) : Answers s (l.foldl f s) (l.filterMap port) := by
  induction l generalizing s with
  | nil => exact .refl wf
  | cons x rest ih =>
    have first := each s wf x
    have all := first.trans (ih (s := f s x) first.windows)
    have ports : (x :: rest).filterMap port = (port x).toList ++ rest.filterMap port := by
      cases h : port x <;> simp [h]
    rw [ports]
    exact all

theorem completeHalted_answers (wf : ∀ p, (s.port p).window.wf) (j : Job) :
    Answers s (completeHalted s (newRun j none)) j.port.toList := by
  unfold completeHalted completeJob
  split
  · next p port =>
    rw [show j.port = some p from port]
    exact post_answers wf p (resultFlags_jobResult s (newRun j none) false)
  · next port =>
    rw [show j.port = none from port]
    exact .refl wf

theorem haltRestart_answers (wf : ∀ p, (s.port p).window.wf) :
    Answers s (haltRestart s) s.restarting.toList := by
  unfold haltRestart
  split
  · next p waits =>
    rw [waits]
    have posted := post_answers (s := s) wf p (r := {}) rfl
    exact ⟨posted.windows, posted.go, posted.answered, posted.others⟩
  · next none =>
    rw [none]
    exact .refl wf

end Answers

/-! ## The stages of the halt -/

section Stages
variable (s : State) (success : Bool)

/-- What steps 3 and after do to the queues and the ports, before the slots are released. -/
def haltPosts (s : State) : State := haltRestart (haltDispatch (haltQueued s))

theorem haltQueued_frame : haltQueued s = { s with ports := (haltQueued s).ports } := by
  have each : ∀ (l : List Job) (u : State), ∃ ports,
      l.foldl (fun s j => completeHalted s (newRun j none)) u = { u with ports := ports } := by
    intro l
    induction l with
    | nil => exact fun u => ⟨u.ports, rfl⟩
    | cons j rest ih =>
      intro u
      have first : ∃ ports, completeHalted u (newRun j none) = { u with ports := ports } :=
        ⟨_, completeJob_frame u _ _ _ _⟩
      obtain ⟨ports, first⟩ := first
      rw [List.foldl_cons, first]
      exact ih { u with ports := ports }
  obtain ⟨ports, h⟩ := each s.jobQueue s
  have eq : haltQueued s = { s with ports := ports } := h
  rw [eq]

theorem haltDispatch_frame : haltDispatch s = { s with ports := (haltDispatch s).ports } := by
  have each : ∀ (l : List Port) (u : State), ∃ ports,
      l.foldl (fun s p => post s p .halted {} none) u = { u with ports := ports } := by
    intro l
    induction l with
    | nil => exact fun u => ⟨u.ports, rfl⟩
    | cons p rest ih =>
      intro u
      rw [List.foldl_cons, post_eq]
      exact ih { u with ports := (post u p .halted {} none).ports }
  obtain ⟨ports, h⟩ := each s.dispatchQueue s
  have eq : haltDispatch s = { s with ports := ports } := h
  rw [eq]

theorem haltRestart_frame :
    haltRestart s = { s with ports := (haltRestart s).ports, restarting := none } := by
  unfold haltRestart
  split
  · rfl
  · next none => rw [← none]

theorem haltPosts_frame :
    haltPosts s = { s with ports := (haltPosts s).ports, restarting := none } := by
  have queued := haltQueued_frame s
  have dispatch := haltDispatch_frame (haltQueued s)
  have restart := haltRestart_frame (haltDispatch (haltQueued s))
  unfold haltPosts
  generalize haltRestart (haltDispatch (haltQueued s)) = w at *
  generalize haltDispatch (haltQueued s) = v at *
  generalize haltQueued s = u at *
  rw [restart, dispatch, queued]

theorem haltPosts_answers {s : State} (wf : ∀ p, (s.port p).window.wf) :
    Answers s (haltPosts s) (s.jobQueue.filterMap (·.port) ++ s.dispatchQueue ++ s.restarting.toList) := by
  have queued : Answers s (haltQueued s) (s.jobQueue.filterMap (·.port)) :=
    foldl_answers (fun u wf j => completeHalted_answers wf j) s.jobQueue wf
  have dispatch : Answers (haltQueued s) (haltDispatch (haltQueued s)) s.dispatchQueue := by
    have queue : (haltQueued s).dispatchQueue = s.dispatchQueue := by rw [haltQueued_frame]
    have each := foldl_answers (port := some) (f := fun s p => post s p .halted {} none)
      (fun u wf p => post_answers wf p (r := {}) rfl) s.dispatchQueue queued.windows
    rw [List.filterMap_some] at each
    unfold haltDispatch
    rw [queue]
    exact each
  have restart := haltRestart_answers dispatch.windows
  have waits : (haltDispatch (haltQueued s)).restarting = s.restarting := by
    rw [haltDispatch_frame, haltQueued_frame]
  rw [waits] at restart
  exact (queued.trans dispatch).trans restart

/-- The state after the releases of R102, HALTED: no slot is in use. -/
theorem haltReady_eq : haltReady s success = { haltSlots (haltPosts (haltRunning s success)) with
    device := .halted, operation := none, engine := .stopped, running := none, jobQueue := []
    dispatchQueue := [], patrolTimer := none } := rfl

end Stages

/-! ## The operation the halt finishes -/

section Finish
variable (s : State) (r : RunningJob) (success : Bool)

/-- What the finish of the page operation in progress reaches (R57, R113, R130, R135). -/
theorem finishOperation_frame : (finishOperation s r success).1 = { s with
    array := (finishOperation s r success).1.array
    freeIndex := (finishOperation s r success).1.freeIndex
    erased := (finishOperation s r success).1.erased
    inWrite := (finishOperation s r success).1.inWrite
    eraseList := (finishOperation s r success).1.eraseList
    bad := (finishOperation s r success).1.bad
    retirementList := (finishOperation s r success).1.retirementList
    storedImage := (finishOperation s r success).1.storedImage
    storedSequence := (finishOperation s r success).1.storedSequence
    copyStateA := (finishOperation s r success).1.copyStateA
    copyStateB := (finishOperation s r success).1.copyStateB } := by
  unfold finishOperation
  split
  · split
    · unfold finishProgram
      simp only
      split
      · unfold applyConfigCommit setCopyState
        split <;> rfl
      all_goals rfl
    · unfold finishFailedProgram
      split <;> rfl
  · unfold finishErase
    split
    · split <;> rfl
    · simp only
      unfold eraseHeadDone
      split
      · rfl
      · simp only
        split
        · split <;> rfl
        · rfl
  · rfl

theorem finishOperation_job : (finishOperation s r success).2.job = r.job ∧
    (finishOperation s r success).2.versionWritten = r.versionWritten := by
  unfold finishOperation
  split
  · split
    · unfold finishProgram
      simp only
      split <;> exact ⟨rfl, rfl⟩
    · exact ⟨rfl, rfl⟩
  all_goals exact ⟨rfl, rfl⟩

/-- The phase a programmed page brings (R128, R131). -/
theorem phaseAfter_iff (r : RunningJob) (d : DrawnPage) : phaseAfter r d = .afterCommit ↔
    r.phase = .afterCommit ∨ r.job.kind = .writeCopy ∧ d.role = .header .one ∨ r.job.kind = .retire := by
  unfold phaseAfter
  split
  · next kind role => simp [kind, role]
  · next kind => simp [kind]
  · next notRetire notHeader =>
    refine ⟨.inl, fun h => h.elim id fun h => h.elim (fun h => ?_) fun h => ?_⟩
    · exact absurd h.2 (notHeader h.1)
    · exact absurd h notRetire

theorem finishProgram_phase (page : Nat) (tag : Tag) (payload : Payload) :
    (finishProgram s r page tag payload).2.phase = .afterCommit ↔ r.phase = .afterCommit ∨
      (r.job.kind = .writeCopy ∧ (∃ d, currentPage r = some d ∧ d.role = .header .one) ∨
        r.job.kind = .retire ∧ (∃ d, currentPage r = some d) ∨
        r.job.kind = .configWrite ∧ ∃ n sequence crc, payload = .config n sequence crc) := by
  unfold finishProgram
  simp only
  split
  · next kind => simp [kind]
  · next kind other =>
    have notHeader : ¬∃ n sequence crc, _ = Payload.config n sequence crc :=
      fun ⟨n, sequence, crc, h⟩ => other n sequence crc h
    simp only [kind, notHeader]
    simp
  · next d current notConfig _ =>
    rw [phaseAfter_iff]
    simp [current, show r.job.kind ≠ .configWrite from notConfig]
  · next none notConfig _ =>
    simp [none, show r.job.kind ≠ .configWrite from notConfig]

/-- The job is past its commit point if it was, or if the finished program is its commit point (R135). -/
theorem finishOperation_phase : (finishOperation s r success).2.phase = .afterCommit ↔
    r.phase = .afterCommit ∨ success = true ∧ AtCommitPoint s r := by
  have noProgram : (∀ page tag payload, s.operation ≠ some (.program page tag payload)) →
      ¬AtCommitPoint s r := fun none h => by
    obtain ⟨page, tag, payload, op, -⟩ := h
    exact none page tag payload op
  unfold finishOperation
  split
  · next page tag payload op =>
    have point : AtCommitPoint s r ↔
        (r.job.kind = .writeCopy ∧ (∃ d, currentPage r = some d ∧ d.role = .header .one) ∨
          r.job.kind = .retire ∧ (∃ d, currentPage r = some d) ∨
          r.job.kind = .configWrite ∧ ∃ n sequence crc, payload = .config n sequence crc) := by
      simp [AtCommitPoint, op]
    rw [point]
    split
    · next ok => rw [finishProgram_phase, ok]; simp
    · next failed => simp [failed]
  · next page op => simp [noProgram fun _ _ _ h => by rw [op] at h; cases h]
  · next notProgram notErase => simp [noProgram notProgram]

end Finish

/-! ## The part after the halt -/

section Halted
variable {s : State} {success : Bool}

/-- The fields the finished operation sets, as the halt leaves them. -/
structure LeftBy (u t : State) : Prop where
  array : t.array = u.array
  pools : PoolsKept u t
  storedImage : t.storedImage = u.storedImage
  storedSequence : t.storedSequence = u.storedSequence
  copyStateA : t.copyStateA = u.copyStateA
  copyStateB : t.copyStateB = u.copyStateB

/-- The state with the operation in progress finished (R135). -/
def finished (s : State) (success : Bool) : State :=
  match s.running with
  | none => s
  | some r => (finishOperation s r success).1

theorem finished_none (idle : s.running = none) : finished s success = s := by
  simp only [finished, idle]

theorem haltRunning_none (idle : s.running = none) : haltRunning s success = s := by
  simp only [haltRunning, idle]

theorem haltRunning_some {r : RunningJob} (running : s.running = some r) :
    haltRunning s success =
      completeHalted (finishOperation s r success).1 (finishOperation s r success).2 := by
  simp only [haltRunning, running]

theorem finished_some {r : RunningJob} (running : s.running = some r) :
    finished s success = (finishOperation s r success).1 := by
  simp only [finished, running]

theorem finished_frame (s : State) (success : Bool) : finished s success = { s with
    array := (finished s success).array
    freeIndex := (finished s success).freeIndex
    erased := (finished s success).erased
    inWrite := (finished s success).inWrite
    eraseList := (finished s success).eraseList
    bad := (finished s success).bad
    retirementList := (finished s success).retirementList
    storedImage := (finished s success).storedImage
    storedSequence := (finished s success).storedSequence
    copyStateA := (finished s success).copyStateA
    copyStateB := (finished s success).copyStateB } := by
  unfold finished
  split
  · rfl
  · exact finishOperation_frame s _ success

theorem haltRunning_frame (s : State) (success : Bool) :
    haltRunning s success = { finished s success with ports := (haltRunning s success).ports } := by
  cases running : s.running with
  | none => rw [haltRunning_none running, finished_none running]
  | some r =>
    rw [haltRunning_some running, finished_some running]
    exact completeJob_frame _ _ _ _ _

theorem haltRunning_port_running {r : RunningJob} {p : Port} (running : s.running = some r)
    (port : r.job.port = some p) :
    (haltRunning s success).port p = postUnit (s.port p) .halted
      (jobResult (finishOperation s r success).1 (finishOperation s r success).2
        ((finishOperation s r success).2.phase == .afterCommit) false) none := by
  have job := (finishOperation_job s r success).1
  have unit : (finishOperation s r success).1.port p = s.port p := by
    rw [finishOperation_frame]
    rfl
  rw [← unit, haltRunning_some running]
  simp only [completeHalted, completeJob, job, port]
  exact post_port_self _ _ _ _ _

theorem haltRunning_port_other {p : Port} (other : s.running.bind (·.job.port) ≠ some p) :
    (haltRunning s success).port p = s.port p := by
  have unit : (finished s success).port p = s.port p := by
    rw [finished_frame]
    rfl
  rw [← unit]
  cases running : s.running with
  | none => rw [haltRunning_none running, finished_none running]
  | some r =>
    have job := (finishOperation_job s r success).1
    rw [haltRunning_some running, finished_some running]
    simp only [completeHalted, completeJob, job]
    split
    · next q port =>
      refine post_port_ne _ _ _ _ _ fun here => other ?_
      rw [running, here]
      exact port
    · rfl

theorem haltRunning_go (s : State) (success : Bool) (p : Port) :
    ((haltRunning s success).port p).go = (s.port p).go := by
  by_cases other : s.running.bind (·.job.port) = some p
  · obtain ⟨r, running, port⟩ := Option.bind_eq_some_iff.mp other
    rw [haltRunning_port_running running port]
    exact postUnit_go _ _ _ _
  · rw [haltRunning_port_other other]

theorem haltRunning_windows (wf : ∀ p, (s.port p).window.wf) (success : Bool) (p : Port) :
    ((haltRunning s success).port p).window.wf := by
  by_cases other : s.running.bind (·.job.port) = some p
  · obtain ⟨r, running, port⟩ := Option.bind_eq_some_iff.mp other
    rw [haltRunning_port_running running port]
    exact postUnit_wf _ _ _ _ (wf p)
  · rw [haltRunning_port_other other]
    exact wf p

/-- The whole part after the halt, but for the directory, the claims, the ports and what the finished operation
sets. -/
theorem haltReady_frame (s : State) (success : Bool) : haltReady s success = { finished s success with
    device := .halted, operation := none, engine := .stopped, running := none, jobQueue := []
    dispatchQueue := [], patrolTimer := none, restarting := none
    ports := (haltPosts (haltRunning s success)).ports
    directory := (haltReady s success).directory
    claims := (haltReady s success).claims } := by
  have running := haltRunning_frame s success
  have posts := haltPosts_frame (haltRunning s success)
  have slots := releases_frame (test := fun x => !x.isFree) (cause := .halted) (by decide) slotNumbers
    (haltPosts (haltRunning s success))
  rw [← haltSlots_eq] at slots
  rw [haltReady_eq]
  generalize haltSlots (haltPosts (haltRunning s success)) = w at *
  generalize haltPosts (haltRunning s success) = v at *
  generalize haltRunning s success = u at *
  rw [slots, posts, running]

/-- The claims of the part at the releases of the halt (R102) are those before it. -/
theorem haltPosts_claims (s : State) (success : Bool) :
    (haltPosts (haltRunning s success)).claims = s.claims ∧
      (haltPosts (haltRunning s success)).directory = s.directory := by
  rw [haltPosts_frame, haltRunning_frame, finished_frame]
  exact ⟨rfl, rfl⟩

theorem haltReady_releases (s : State) (success : Bool) :
    (haltReady s success).claims = (haltSlots (haltPosts (haltRunning s success))).claims ∧
      (haltReady s success).directory = (haltSlots (haltPosts (haltRunning s success))).directory := by
  rw [haltReady_eq]
  generalize haltSlots (haltPosts (haltRunning s success)) = w
  exact ⟨rfl, rfl⟩

theorem haltReady_slot (s : State) (success : Bool) (i : SlotNo) :
    ((haltReady s success).slot i).state = .free := by
  have slots := releases_slot (test := fun x => !x.isFree) (cause := .halted) slotNumbers
    slotNumbers_nodup (haltPosts (haltRunning s success)) i
  rw [← haltSlots_eq] at slots
  rw [State.slot, (haltReady_releases s success).1, ← State.slot, slots]
  split
  · rfl
  · next other =>
    have free : ((haltPosts (haltRunning s success)).slot i).isFree = true := by
      simpa [mem_slotNumbers] using other
    simpa [Slot.isFree] using free

theorem haltReady_directory (s : State) (success : Bool) :
    ∀ e ∈ (haltReady s success).directory,
      ∃ e₀ ∈ s.directory, e = e₀ ∨ e = { e₀ with claim := none } := by
  have entries := releases_directory (test := fun x => !x.isFree) (cause := .halted) slotNumbers
    (haltPosts (haltRunning s success))
  rw [← haltSlots_eq, (haltPosts_claims s success).2] at entries
  rw [(haltReady_releases s success).2]
  exact entries

theorem haltReady_claims (s : State) (success : Bool) :
    ClaimsReleased s (haltReady s success) fun i => (s.slot i).state ≠ .free := by
  obtain ⟨claims, directory⟩ := haltPosts_claims s success
  have slots : ∀ i, s.slot i = (haltPosts (haltRunning s success)).slot i := fun i => by
    rw [State.slot, State.slot, claims]
  have released := releases_claims (test := fun x => !x.isFree) (cause := .halted) rfl slotNumbers
    slotNumbers_nodup (haltPosts (haltRunning s success))
  rw [← haltSlots_eq] at released
  have picked : ∀ i, (i ∈ slotNumbers ∧ (!((haltPosts (haltRunning s success)).slot i).isFree) = true) ↔
      (s.slot i).state ≠ .free := fun i => by
    rw [← slots]
    simp [mem_slotNumbers, Slot.isFree]
  obtain ⟨gone, kept⟩ := released.of_eq directory.symm slots
  have entry := State.entry_congr (haltReady_releases s success).2
  refine ⟨fun i k e freed => ?_, fun k other => ?_⟩
  · rw [entry]
    exact gone i k e ((picked i).mpr freed)
  · rw [entry]
    exact kept k fun i e freed => other i e ((picked i).mp freed)

theorem haltReady_leftBy (s : State) (success : Bool) : LeftBy (finished s success) (haltReady s success) := by
  have frame := haltReady_frame s success
  refine ⟨?_, ⟨?_, ?_, ?_, ?_, ?_, ?_⟩, ?_, ?_, ?_, ?_⟩
  all_goals rw [frame]

/-- The ports of the commands that wait are answered (R135, R159, R160). -/
theorem haltReady_answers (wf : ∀ p, (s.port p).window.wf) (success : Bool) :
    Answers (haltRunning s success) (haltReady s success)
      (s.jobQueue.filterMap (·.port) ++ s.dispatchQueue ++ s.restarting.toList) := by
  have posts := haltPosts_answers (haltRunning_windows wf success)
  have queues : (haltRunning s success).jobQueue = s.jobQueue ∧
      (haltRunning s success).dispatchQueue = s.dispatchQueue ∧
      (haltRunning s success).restarting = s.restarting := by
    rw [haltRunning_frame, finished_frame]
    exact ⟨rfl, rfl, rfl⟩
  obtain ⟨jobs, dispatch, restarting⟩ := queues
  rw [jobs, dispatch, restarting] at posts
  have ports : ∀ p, (haltReady s success).port p = (haltPosts (haltRunning s success)).port p :=
    fun p => by
      have same : (haltReady s success).ports = (haltPosts (haltRunning s success)).ports := by
        rw [haltReady_frame]
      rw [State.port, State.port, same]
  refine ⟨fun p => ?_, fun p => ?_, fun p member => ?_, fun p absent => ?_⟩
  all_goals rw [ports p]
  · exact posts.windows p
  · exact posts.go p
  · exact posts.answered p member
  · exact posts.others p absent

end Halted

end Sys2Proof.Machine

/-! The power-fail halt in READY: what the finished operation leaves (R56, R57, R104, R113, R130, R135), and the
statement about the halt as a whole. -/

namespace Sys2Proof.Machine

section Operation
variable {s : State} {r : RunningJob} {success : Bool} {page : Nat} {tag : Tag} {payload : Payload}

/-- The stored configuration stands. -/
structure StoredKept (s t : State) : Prop where
  image : t.storedImage = s.storedImage
  sequence : t.storedSequence = s.storedSequence
  copyA : t.copyStateA = s.copyStateA
  copyB : t.copyStateB = s.copyStateB

/-- The job's program is that of a configuration header (R56). -/
def ConfigHeader (r : RunningJob) (payload : Payload) : Prop :=
  r.job.kind = .configWrite ∧ ∃ n sequence crc, payload = .config n sequence crc

theorem finishProgram_kept : PoolsKept s (finishProgram s r page tag payload).1 ∧
    (finishProgram s r page tag payload).1.array = (s.setPage page (programmedCell tag payload)).array := by
  unfold finishProgram
  simp only
  split
  · unfold applyConfigCommit setCopyState
    split <;> exact ⟨⟨rfl, rfl, rfl, rfl, rfl, rfl⟩, rfl⟩
  all_goals exact ⟨⟨rfl, rfl, rfl, rfl, rfl, rfl⟩, rfl⟩

theorem finishProgram_stored (other : ¬ConfigHeader r payload) :
    StoredKept s (finishProgram s r page tag payload).1 := by
  unfold finishProgram
  simp only
  split
  · next kind => exact absurd ⟨kind, _, _, _, rfl⟩ other
  all_goals exact ⟨rfl, rfl, rfl, rfl⟩

theorem finishProgram_header {n sequence : Nat} {crc : BitVec 32} (kind : r.job.kind = .configWrite) :
    (finishProgram s r page tag (.config n sequence crc)).1 =
      applyConfigCommit (s.setPage page (programmedCell tag (.config n sequence crc))) r sequence := by
  simp only [finishProgram, kind]

theorem finishOperation_program (op : s.operation = some (.program page tag payload)) :
    finishOperation s r success =
      if success then finishProgram s r page tag payload else (finishFailedProgram s r page, r) := by
  simp only [finishOperation, op]

theorem finishOperation_erase (op : s.operation = some (.erase page)) :
    finishOperation s r success = (finishErase s r page success, r) := by
  simp only [finishOperation, op]

theorem finishOperation_none (noErase : ∀ page, s.operation ≠ some (.erase page))
    (noProgram : ∀ page tag payload, s.operation ≠ some (.program page tag payload)) :
    finishOperation s r success = (s, r) := by
  unfold finishOperation
  split
  · next op => exact absurd op (noProgram _ _ _)
  · next op => exact absurd op (noErase _)
  · rfl

theorem finishFailedProgram_config (kind : r.job.kind = .configWrite) :
    finishFailedProgram s r page = s.spoilPage page := by
  simp only [finishFailedProgram, kind]

theorem finishFailedProgram_other (kind : r.job.kind ≠ .configWrite) :
    finishFailedProgram s r page = inWritePageToDirty (s.spoilPage page) page r.key := by
  unfold finishFailedProgram
  split
  · contradiction
  · rfl

theorem finishErase_config (kind : r.job.kind = .configWrite) :
    finishErase s r page success =
      if success then s.setPage page PageCell.blank else s.spoilPage page := by
  simp only [finishErase, kind]

theorem finishErase_other (kind : r.job.kind ≠ .configWrite) :
    finishErase s r page success = eraseHeadDone s success := by
  unfold finishErase
  split
  · contradiction
  · rfl

/-- A page program or erase that fails leaves every other page alone (R104). -/
theorem page_spoilPage_ne (wf : PageArray.wf s.array) {n : Nat} (other : n ≠ page) :
    (s.spoilPage page).page n = s.page n :=
  (State.page_setPage wf page _ n).trans (if_neg other)

theorem page_setPage_ne (wf : PageArray.wf s.array) (cell : PageCell) {n : Nat} (other : n ≠ page) :
    (s.setPage page cell).page n = s.page n :=
  (State.page_setPage wf page cell n).trans (if_neg other)

/-- What a finished operation can do to the stored configuration (R56). -/
theorem finishOperation_stored (other : ∀ page tag n sequence crc, r.job.kind = .configWrite →
      s.operation = some (.program page tag (.config n sequence crc)) → success = false) :
    StoredKept s (finishOperation s r success).1 := by
  have kept : ∀ {u : State}, (∃ array freeIndex inWrite eraseList retirementList erased bad, u = { s with
      array := array, freeIndex := freeIndex, inWrite := inWrite, eraseList := eraseList
      retirementList := retirementList, erased := erased, bad := bad }) → StoredKept s u := by
    rintro u ⟨_, _, _, _, _, _, _, rfl⟩
    exact ⟨rfl, rfl, rfl, rfl⟩
  unfold finishOperation
  split
  · next page tag payload op =>
    split
    · next ok =>
      refine finishProgram_stored fun header => ?_
      obtain ⟨kind, n, sequence, crc, rfl⟩ := header
      rw [other page tag n sequence crc kind op] at ok
      cases ok
    · refine kept ?_
      unfold finishFailedProgram
      split <;> exact ⟨_, _, _, _, _, _, _, rfl⟩
  · refine kept ?_
    unfold finishErase
    split
    · split <;> exact ⟨_, _, _, _, _, _, _, rfl⟩
    · simp only
      unfold eraseHeadDone
      split
      · exact ⟨_, _, _, _, _, _, _, rfl⟩
      · simp only
        split
        · split <;> exact ⟨_, _, _, _, _, _, _, rfl⟩
        · exact ⟨_, _, _, _, _, _, _, rfl⟩
  · exact ⟨rfl, rfl, rfl, rfl⟩

end Operation

/-! ## The running job's answer -/

section Answer
variable {s : State} {r : RunningJob}

/-- The fields of a HALTED completion are those the job's command reports (R63, R135). -/
theorem jobResult_halted {u : State} {r' : RunningJob} {committed : Bool} {v : Nat} {result : Result}
    (job : r'.job = r.job) (written : r'.versionWritten = r.versionWritten) (claims : u.claims = s.claims)
    (version : v = if committed then r.versionWritten.getD 0 else 0)
    (reports : Reports s r committed false v result ∨
      r.job.cause = some .retire ∧ result = { committed, version := v } ∨
      r.job.cause ∈ [some .read, some .claimPreload] ∧ result = { committed }) :
    jobResult u r' committed false = result := by
  rw [← written] at version
  rcases reports with reports | ⟨cause, rfl⟩ | ⟨cause, rfl⟩
  · exact jobResult_reports job (fun i => by rw [State.slot, State.slot, claims]) version reports
  · simp only [jobResult, job, cause, version]
  · simp only [List.mem_cons, List.not_mem_nil, or_false] at cause
    rcases cause with cause | cause <;> simp only [jobResult, job, cause]

theorem jobResult_config {u : State} {r' : RunningJob} {committed : Bool} (job : r'.job = r.job)
    (cause : r.job.cause = some .commitConfig) :
    jobResult u r' committed false =
      { committed, version := if committed then u.storedSequence else 0 } := by
  simp only [jobResult, job, cause]

theorem HaltAnswered.completed {s t : State} {p : Port} {committed : Bool}
    (h : HaltAnswered (s.port p) (t.port p) committed) : CompletedHalted s t p committed :=
  ⟨h.idle, h.complete, h.tag, h.code, h.flags⟩

/-- With the law of ports the running job's port has no other command. -/
theorem running_port_alone {p : Port} (law : PortLaw s) (running : s.running = some r)
    (port : r.job.port = some p) :
    p ∉ s.jobQueue.filterMap (·.port) ++ s.dispatchQueue ++ s.restarting.toList := by
  have once := law.once
  have active : activeCommands s = p :: (s.jobQueue.filterMap (·.port) ++ s.restarting.toList) := by
    simp [activeCommands, running, port]
  rw [active] at once
  have apart := (List.nodup_cons.mp (List.perm_middle.nodup_iff.mp once)).1
  simp only [List.mem_append, not_or] at apart ⊢
  exact ⟨⟨apart.2.1, apart.1⟩, apart.2.2⟩

/-- The running job's port after the halt (R63, R135). -/
theorem haltReady_port_running {success : Bool} {p : Port} (wf : ∀ p, (s.port p).window.wf)
    (law : PortLaw s) (running : s.running = some r) (port : r.job.port = some p) :
    (haltReady s success).port p = postUnit (s.port p) .halted
      (jobResult (finishOperation s r success).1 (finishOperation s r success).2
        ((finishOperation s r success).2.phase == .afterCommit) false) none :=
  ((haltReady_answers wf success).others p (running_port_alone law running port)).trans
    (haltRunning_port_running running port)

/-- A port without a command stands as it was. -/
theorem haltReady_port_other {success : Bool} {p : Port} (wf : ∀ p, (s.port p).window.wf)
    (waiting : p ∉ s.dispatchQueue) (active : p ∉ activeCommands s) :
    (haltReady s success).port p = s.port p := by
  simp only [activeCommands, List.mem_append, not_or] at active
  refine ((haltReady_answers wf success).others p ?_).trans (haltRunning_port_other ?_)
  · simp only [List.mem_append, not_or]
    exact ⟨⟨active.1.2, waiting⟩, active.2⟩
  · exact fun h => active.1.1 (Option.mem_toList.mpr h)

end Answer

/-! ## The halt -/

/-- The HALT level shows at every port (R149, R179). -/
theorem attentionCauses_halted {t : State} (device : t.device = .halted) (p : Port) :
    (attentionCauses t p).getLsbD 4 = true := by
  have level : haltLevel t = true := by simp [haltLevel, device]
  unfold attentionCauses
  rw [level]
  cases (t.port p).complete <;> cases changesLevel t p <;> cases (t.port p).lapse <;>
    cases (t.port p).ready <;> rfl

section Halted
variable {s t : State} {success : Bool}

/-- A failed page leaves IN_WRITE for the Erase List (R130). -/
theorem failedPage_pools (s : State) (page : Nat) (k : Key) :
    (inWritePageToDirty (s.spoilPage page) page k).erased = s.erased ∧
    (inWritePageToDirty (s.spoilPage page) page k).live = s.live ∧
    (inWritePageToDirty (s.spoilPage page) page k).bad = s.bad ∧
    (inWritePageToDirty (s.spoilPage page) page k).inWrite = without s.inWrite [page] ∧
    (inWritePageToDirty (s.spoilPage page) page k).eraseList = s.eraseList ++ [(page, some k)] ∧
    (inWritePageToDirty (s.spoilPage page) page k).retirementList = s.retirementList.map fun x =>
      if x.key = k then { x with outstanding := x.outstanding + 1 } else x := by
  obtain ⟨u, spoiled⟩ : ∃ u, u = s.spoilPage page := ⟨_, rfl⟩
  have frame : u = { s with array := u.array, freeIndex := u.freeIndex } := by
    rw [spoiled]
    rfl
  rw [← spoiled]
  clear spoiled
  unfold inWritePageToDirty addDirty State.modifyRetirement
  rw [frame]
  exact ⟨rfl, rfl, rfl, rfl, rfl, rfl⟩

/-- What the halt leaves of the pages and pools, after its operation (R104, R113, R130, R135). -/
theorem halted_program {r : RunningJob} {page : Nat} {tag : Tag} {payload : Payload}
    (wf : PageArray.wf s.array) (left : LeftBy (finished s success) t) (running : s.running = some r)
    (op : s.operation = some (.program page tag payload)) :
    (∀ n, n ≠ page → t.page n = s.page n) ∧
    (success = true → t.page page = ⟨.holds tag, .holds payload⟩) ∧
    (success = true ∨ r.job.kind = .configWrite → PoolsKept s t) ∧
    (success = false → r.job.kind ≠ .configWrite →
      t.erased = s.erased ∧ t.live = s.live ∧ t.bad = s.bad ∧
      t.inWrite = (s.inWrite.filter fun n => n ≠ page) ∧
      t.eraseList = s.eraseList ++ [(page, some r.key)] ∧
      t.retirementList = s.retirementList.map fun x =>
        if x.key = r.key then { x with outstanding := x.outstanding + 1 } else x) := by
  have pageOf : ∀ n, t.page n = (finished s success).page n := fun n => by
    rw [State.page, State.page, left.array]
  have pools := left.pools
  rw [finished_some running, finishOperation_program op] at pageOf pools
  cases success with
  | true =>
    obtain ⟨kept, array⟩ := finishProgram_kept (s := s) (r := r) (page := page) (tag := tag)
      (payload := payload)
    have pageIs : ∀ n, t.page n = (s.setPage page (programmedCell tag payload)).page n := fun n =>
      (pageOf n).trans (by
        show ((finishProgram s r page tag payload).1).page n = _
        rw [State.page, State.page, array])
    refine ⟨fun n other => (pageIs n).trans (page_setPage_ne wf _ other), fun _ => ?_,
      fun _ => kept.trans pools, fun h => by cases h⟩
    rw [pageIs, State.page_setPage wf, if_pos rfl]
    rfl
  | false =>
    have arrayIs : (finishFailedProgram s r page).array = (s.spoilPage page).array := by
      unfold finishFailedProgram
      split <;> rfl
    have pageIs : ∀ n, t.page n = (s.spoilPage page).page n := fun n => (pageOf n).trans (by
      show (finishFailedProgram s r page).page n = _
      rw [State.page, State.page, arrayIs])
    have poolsIs : PoolsKept (finishFailedProgram s r page) t := pools
    refine ⟨fun n other => (pageIs n).trans (page_spoilPage_ne wf other), (nomatch ·), fun h => ?_,
      fun _ kind => ?_⟩
    · have config := h.resolve_left (nomatch ·)
      rw [finishFailedProgram_config config] at poolsIs
      exact ⟨poolsIs.erased, poolsIs.inWrite, poolsIs.live, poolsIs.dirty, poolsIs.bad,
        poolsIs.retirements⟩
    · rw [finishFailedProgram_other kind] at poolsIs
      obtain ⟨erased, live, bad, inWrite, dirty, retirements⟩ := failedPage_pools s page r.key
      refine ⟨poolsIs.erased.trans erased, poolsIs.live.trans live, poolsIs.bad.trans bad,
        (poolsIs.inWrite.trans inWrite).trans ?_, poolsIs.dirty.trans dirty,
        poolsIs.retirements.trans retirements⟩
      exact List.filter_congr fun n _ => by simp

theorem halted_erase {r : RunningJob} {page : Nat} (wf : PageArray.wf s.array)
    (left : LeftBy (finished s success) t) (running : s.running = some r)
    (op : s.operation = some (.erase page)) :
    (∀ k rest, r.job.kind ≠ .configWrite → s.eraseList = (page, k) :: rest →
      (∀ n, n ≠ page → t.page n = s.page n) ∧ t.inWrite = s.inWrite ∧ t.live = s.live ∧
      t.eraseList = rest ∧
      (success = true → t.page page = PageCell.blank ∧ t.erased = s.erased ++ [page] ∧
        t.bad = s.bad ∧ t.retirementList = loweredFor k s.retirementList) ∧
      (success = false → t.erased = s.erased ∧ t.bad = s.bad ++ [(page, k)] ∧
        t.retirementList = s.retirementList)) ∧
    (r.job.kind = .configWrite → PoolsKept s t ∧ (∀ n, n ≠ page → t.page n = s.page n) ∧
      (success = true → t.page page = PageCell.blank)) := by
  have pageOf : ∀ n, t.page n = (finished s success).page n := fun n => by
    rw [State.page, State.page, left.array]
  have pools := left.pools
  rw [finished_some running, finishOperation_erase op] at pageOf pools
  have poolsIs : PoolsKept (finishErase s r page success) t := pools
  have pageIs : ∀ n, t.page n = (finishErase s r page success).page n := pageOf
  refine ⟨fun k rest kind head => ?_, fun kind => ?_⟩
  · rw [finishErase_other kind] at poolsIs pageIs
    cases success with
    | true =>
      rw [eraseHeadDone_success head] at poolsIs pageIs
      have cell : ∀ n, t.page n = (s.setPage page PageCell.blank).page n := pageIs
      refine ⟨fun n other => (cell n).trans (page_setPage_ne wf _ other), poolsIs.inWrite, poolsIs.live,
        poolsIs.dirty, fun _ => ⟨?_, poolsIs.erased, poolsIs.bad, poolsIs.retirements⟩, (nomatch ·)⟩
      rw [cell, State.page_setPage wf, if_pos rfl]
    | false =>
      rw [eraseHeadDone_failure head] at poolsIs pageIs
      have cell : ∀ n, t.page n = (s.spoilPage page).page n := pageIs
      exact ⟨fun n other => (cell n).trans (page_spoilPage_ne wf other), poolsIs.inWrite, poolsIs.live,
        poolsIs.dirty, (nomatch ·), fun _ => ⟨poolsIs.erased, poolsIs.bad, poolsIs.retirements⟩⟩
  · rw [finishErase_config kind] at poolsIs pageIs
    cases success with
    | true =>
      have cell : ∀ n, t.page n = (s.setPage page PageCell.blank).page n := pageIs
      refine ⟨⟨poolsIs.erased, poolsIs.inWrite, poolsIs.live, poolsIs.dirty, poolsIs.bad,
        poolsIs.retirements⟩, fun n other => (cell n).trans (page_setPage_ne wf _ other), fun _ => ?_⟩
      rw [cell, State.page_setPage wf, if_pos rfl]
    | false =>
      have cell : ∀ n, t.page n = (s.spoilPage page).page n := pageIs
      exact ⟨⟨poolsIs.erased, poolsIs.inWrite, poolsIs.live, poolsIs.dirty, poolsIs.bad,
        poolsIs.retirements⟩, fun n other => (cell n).trans (page_spoilPage_ne wf other), (nomatch ·)⟩

/-- With no program and no erase in progress the pages and the pools stand. -/
theorem halted_quiet (left : LeftBy (finished s success) t) (noErase : ∀ page, s.operation ≠ some (.erase page))
    (noProgram : ∀ page tag payload, s.operation ≠ some (.program page tag payload)) :
    t.array = s.array ∧ PoolsKept s t := by
  have same : finished s success = s := by
    cases running : s.running with
    | none => exact finished_none running
    | some r => rw [finished_some running, finishOperation_none noErase noProgram]
  rw [same] at left
  exact ⟨left.array, left.pools⟩

theorem halted_header {r : RunningJob} {page n sequence : Nat} {tag : Tag} {crc : BitVec 32}
    (left : LeftBy (finished s true) t) (running : s.running = some r) (kind : r.job.kind = .configWrite)
    (op : s.operation = some (.program page tag (.config n sequence crc))) :
    t.storedImage = some r.content ∧ t.storedSequence = sequence ∧
      match r.job.params.copy with
      | .one => t.copyStateA = .valid sequence ∧ t.copyStateB = s.copyStateB
      | .two => t.copyStateB = .valid sequence ∧ t.copyStateA = s.copyStateA := by
  obtain ⟨-, -, image, stored, a, b⟩ := left
  have eq : finished s true =
      applyConfigCommit (s.setPage page (programmedCell tag (.config n sequence crc))) r sequence := by
    rw [finished_some running, finishOperation_program op, if_pos rfl, finishProgram_header kind]
  rw [eq] at image stored a b
  refine ⟨image, stored, ?_⟩
  unfold applyConfigCommit setCopyState at a b
  split
  · next copy =>
    simp only [copy] at a b
    exact ⟨a, b⟩
  · next copy =>
    simp only [copy] at a b
    exact ⟨b, a⟩

theorem halted_stored (left : LeftBy (finished s success) t)
    (other : ∀ r page tag n sequence crc, s.running = some r → r.job.kind = .configWrite →
      s.operation = some (.program page tag (.config n sequence crc)) → success = false) :
    t.storedImage = s.storedImage ∧ t.storedSequence = s.storedSequence ∧
      t.copyStateA = s.copyStateA ∧ t.copyStateB = s.copyStateB := by
  have kept : StoredKept s (finished s success) := by
    cases running : s.running with
    | none =>
      rw [finished_none running]
      exact ⟨rfl, rfl, rfl, rfl⟩
    | some r =>
      rw [finished_some running]
      exact finishOperation_stored fun page tag n sequence crc => other r page tag n sequence crc running
  exact ⟨left.storedImage.trans kept.image, left.storedSequence.trans kept.sequence,
    left.copyStateA.trans kept.copyA, left.copyStateB.trans kept.copyB⟩

end Halted

/-- The halt tests no level of PFW_N: its state is that of the part with the pin asserted. -/
abbrev powerFailing (s : State) : State := { s with pfwAsserted := true }

/-- The running job's command at the halt: its answer, and the fields it reports (R63, R135). -/
theorem halted_running {s : State} {success : Bool} {r : RunningJob} {p : Port} {committed : Bool}
    (wf : ∀ p, (s.port p).window.wf) (law : PortLaw s) (running : s.running = some r)
    (port : r.job.port = some p)
    (point : committed = true ↔ r.phase = .afterCommit ∨ success = true ∧ AtCommitPoint s r) :
    HaltAnswered (s.port p) ((haltReady s success).port p) committed ∧
    resultArea (haltReady s success) p = resultBytes (s.port p).go .halted
      (jobResult (finishOperation s r success).1 (finishOperation s r success).2 committed false) := by
  have phase : ((finishOperation s r success).2.phase == .afterCommit) = committed := by
    rw [Bool.eq_iff_iff, beq_iff_eq, finishOperation_phase, point]
  have unit := haltReady_port_running (success := success) wf law running port
  rw [phase] at unit
  refine ⟨?_, ?_⟩
  · rw [unit]
    exact postUnit_haltAnswered (wf p) (resultFlags_jobResult _ _ committed)
  · unfold resultArea
    rw [unit]
    exact postUnit_result _ _ _ _ (wf p)

/-- Settles O7. -/
theorem powerFailHaltsReady : Obligations.PowerFailHaltsReady := by
  intro s success canonical ready
  have run : exec (.pfwNAssert success) s = .next (haltReady (powerFailing s) success) := by
    simp [exec, execPfwNAssert, ready]
  have wf : ∀ p, ((powerFailing s).port p).window.wf := canonical.windows
  have array : PageArray.wf (powerFailing s).array := canonical.array
  have frame := haltReady_frame (powerFailing s) success
  have fin := finished_frame (powerFailing s) success
  have slots := haltReady_slot (powerFailing s) success
  have directory := haltReady_directory (powerFailing s) success
  have claims := haltReady_claims (powerFailing s) success
  have left := haltReady_leftBy (powerFailing s) success
  have answers := haltReady_answers wf success
  have others := fun p => haltReady_port_other (s := powerFailing s) (success := success) (p := p) wf
  have mine := fun r p committed => halted_running (s := powerFailing s) (success := success) (r := r)
    (p := p) (committed := committed) wf
  have device : (haltReady (powerFailing s) success).device = .halted := by rw [frame]
  refine ⟨_, run, device, ?_, attentionCauses_halted device, ?_⟩
  · simp [readyPin, State.isReady, device]
  generalize haltReady (powerFailing s) success = t at *
  refine ⟨?_, ?_, ?_, ?_, ?_, ?_, ?_, slots, directory, ⟨claims.released, claims.kept⟩, ?_, ?_, ?_, ?_, ?_,
    fun p waits => ?_, fun p waiting active => others p waiting active,
    fun r p committed v result law running port point => ?_,
    fun noErase noProgram => ?_, fun r page tag payload running op => ?_, fun r page running op => ?_,
    fun r page tag n sequence crc running kind success op => ?_, fun other => ?_⟩
  iterate 7 rw [frame]
  iterate 5 rw [frame, fin]
  · have listed : p ∈ s.jobQueue.filterMap (·.port) ++ s.dispatchQueue ++ s.restarting.toList := by
      simp only [List.mem_append, List.mem_filterMap, Option.mem_toList]
      rcases waits with queued | job | restarting
      · exact .inl (.inr queued)
      · exact .inl (.inl job)
      · exact .inr restarting
    have answered := answers.answered p listed
    have go := haltRunning_go (powerFailing s) success p
    exact ⟨answered.idle, answered.complete, answered.tag.trans go, answered.code, answered.flags⟩
  · obtain ⟨answered, area⟩ := mine r p committed ⟨law.once, law.queued, law.active⟩ running port point
    obtain ⟨job, written⟩ := finishOperation_job (powerFailing s) r success
    have claims : (finishOperation (powerFailing s) r success).1.claims = s.claims := by
      rw [finishOperation_frame]
    have sequence : t.storedSequence = (finishOperation (powerFailing s) r success).1.storedSequence := by
      rw [left.storedSequence, finished_some (s := powerFailing s) running]
    refine ⟨HaltAnswered.completed (s := s) answered, fun version reports => ?_, fun cause version => ?_⟩
    · rw [← jobResult_halted job written claims version reports]
      exact area
    · rw [version, sequence, ← jobResult_config job cause]
      exact area
  · obtain ⟨array, pools⟩ := halted_quiet left noErase noProgram
    exact ⟨array, pools.erased, pools.inWrite, pools.live, pools.dirty, pools.bad, pools.retirements⟩
  · obtain ⟨cells, programmed, kept, failed⟩ := halted_program array left running op
    refine ⟨cells, programmed, fun h => ?_, failed⟩
    have pools := kept h
    exact ⟨pools.erased, pools.inWrite, pools.live, pools.dirty, pools.bad, pools.retirements⟩
  · obtain ⟨page', config⟩ := halted_erase array left running op
    refine ⟨page', fun kind => ?_⟩
    obtain ⟨pools, cells, blank⟩ := config kind
    exact ⟨⟨pools.erased, pools.inWrite, pools.live, pools.dirty, pools.bad, pools.retirements⟩, cells,
      blank⟩
  · rw [success] at left
    exact halted_header (s := powerFailing s) left running kind op
  · exact halted_stored (s := powerFailing s) left other

end Sys2Proof.Machine

/-! The Record Controller's commands on records and the configuration (sections 2 to 4, 9 and 11): what each taken
command does when its checks pass. -/

namespace Sys2Proof.Machine

/-! ## The taking of each command -/

section Taken
variable {s : State} {p : Port} {rest : List Port} {f : CommandFields}

/-- A command at the head of the Dispatch Queue is judged on the state with the head taken (R176). -/
theorem exec_taken {c : Instr} {mine : CommandFields → Bool} {body : State → Port → CommandFields → State}
    (row : exec c s = .next (takeCommand s mine body)) (taking : Taking s p rest f)
    (own : mine f = true) : exec c s = .next (body (takeHead s p rest) p f) := by
  rw [row, takeCommand_taking taking mine own]

section Codes
variable (taking : Taking s p rest f)
include taking

theorem exec_lookup_taken (code : f.code = 0x10) :
    exec .lookup s = .next (lookupBody (takeHead s p rest) p f) :=
  exec_taken rfl taking (beq_iff_eq.mpr code)

theorem exec_describe_taken (code : f.code = 0x11) :
    exec .describe s = .next (describeBody (takeHead s p rest) p f) :=
  exec_taken rfl taking (beq_iff_eq.mpr code)

theorem exec_list_taken (code : f.code = 0x12) :
    exec .list s = .next (listBody (takeHead s p rest) p f) :=
  exec_taken rfl taking (beq_iff_eq.mpr code)

theorem exec_read_taken (code : f.code = 0x20) :
    exec .read s = .next (readBody (takeHead s p rest) p f) :=
  exec_taken rfl taking (beq_iff_eq.mpr code)

theorem exec_create_taken (code : f.code = 0x21) :
    exec .create s = .next (createBody (takeHead s p rest) p f) :=
  exec_taken rfl taking (beq_iff_eq.mpr code)

theorem exec_write_taken (code : f.code = 0x22) :
    exec .write s = .next (writeBody (takeHead s p rest) p f) :=
  exec_taken rfl taking (beq_iff_eq.mpr code)

theorem exec_raise_taken (code : f.code = 0x23) :
    exec .raise s = .next (raiseBody (takeHead s p rest) p f) :=
  exec_taken rfl taking (beq_iff_eq.mpr code)

theorem exec_retire_taken (code : f.code = 0x24) :
    exec .retire s = .next (retireBody (takeHead s p rest) p f) :=
  exec_taken rfl taking (beq_iff_eq.mpr code)

theorem exec_claimForUpdate_taken (code : f.code = 0x30) (config : f.config = false)
    (create : f.create = false) (preload : f.preload = false) :
    exec .claimForUpdate s = .next (claimForUpdateBody (takeHead s p rest) p f) :=
  exec_taken rfl taking (by simp [code, codeClaim, config, create, preload])

theorem exec_claimWithPreload_taken (code : f.code = 0x30) (config : f.config = false)
    (create : f.create = false) (preload : f.preload = true) :
    exec .claimWithPreload s = .next (claimWithPreloadBody (takeHead s p rest) p f) :=
  exec_taken rfl taking (by simp [code, codeClaim, config, create, preload])

theorem exec_claimWithCreate_taken (code : f.code = 0x30) (config : f.config = false)
    (create : f.create = true) :
    exec .claimWithCreate s = .next (claimWithCreateBody (takeHead s p rest) p f) :=
  exec_taken rfl taking (by simp [code, codeClaim, config, create])

theorem exec_claimWithConfig_taken (maintEn : Bool) (code : f.code = 0x30) (config : f.config = true) :
    exec (.claimWithConfig maintEn) s = .next (claimWithConfigBody maintEn (takeHead s p rest) p f) :=
  exec_taken rfl taking (by simp [code, codeClaim, config])

theorem exec_stage_taken (code : f.code = 0x31) :
    exec .stage s = .next (stageBody (takeHead s p rest) p f) :=
  exec_taken rfl taking (beq_iff_eq.mpr code)

theorem exec_fetch_taken (code : f.code = 0x32) :
    exec .fetch s = .next (fetchBody (takeHead s p rest) p f) :=
  exec_taken rfl taking (beq_iff_eq.mpr code)

theorem exec_renew_taken (code : f.code = 0x33) :
    exec .renew s = .next (renewBody (takeHead s p rest) p f) :=
  exec_taken rfl taking (beq_iff_eq.mpr code)

theorem exec_commit_taken (maintEn : Bool) (code : f.code = 0x34) :
    exec (.commit maintEn) s = .next (commitBody maintEn (takeHead s p rest) p f) :=
  exec_taken rfl taking (beq_iff_eq.mpr code)

theorem exec_abandon_taken (code : f.code = 0x35) :
    exec .abandon s = .next (abandonBody (takeHead s p rest) p f) :=
  exec_taken rfl taking (beq_iff_eq.mpr code)

theorem exec_readConfig_taken (code : f.code = 0x51) :
    exec .readConfig s = .next (readConfigBody (takeHead s p rest) p f) :=
  exec_taken rfl taking (beq_iff_eq.mpr code)

theorem exec_status_taken (code : f.code = 0x60) :
    exec .status s = .next (statusBody (takeHead s p rest) p f) :=
  exec_taken rfl taking (beq_iff_eq.mpr code)

theorem exec_unknown_taken (other : f.code ∉ commandCodes) :
    exec .unknownCommandCode s = .next (unknownBody (takeHead s p rest) p f) :=
  exec_taken rfl taking (by simpa using other)

end Codes

/-- A command answered from the state with the head taken, with no other effect. -/
theorem answered_of_run {c : Instr} {code : Completion} {r : Result} {data : Option (List Byte)}
    (window : (s.port p).window.wf)
    (run : exec c s = .next (post (takeHead s p rest) p code r data)) :
    ∃ t, exec c s = .next t ∧ AnsweredOnly s t p rest data.isSome ∧
      resultArea t p = resultBytes (s.port p).go code r ∧
      ∀ bytes, data = some bytes → dataArea t p = padTo 64 bytes := by
  refine ⟨_, run, answeredOnly_post rest window code r data,
    resultArea_post_takeHead rest window code r data, ?_⟩
  rintro bytes rfl
  exact post_dataArea _ _ _ _ (takeHead_wf rest window) bytes

end Taken

/-! ## LOOKUP, DESCRIBE, LIST -/

section Reports
variable {s : State} {p : Port} {f : CommandFields}

theorem reportChecks_pass {e : Entry} (ns : f.ns ≤ 7) (right : HoldsRight s f.ns p (·.read))
    (entry : s.entry f.key = some e) : ∀ x ∈ reportChecks s p f, x.2 = false := by
  simp [reportChecks, ns, lacksRight_eq_false right, entry]

theorem portOrNone_eq (q : Option Port) : portOrNone q = (q.map Fin.val).getD 0xFF := by
  cases q <;> rfl

theorem length_pageListBytes (c : Option CopyDescriptor) : (pageListBytes c).length = 32 :=
  length_padTo 32 _

theorem padTo_of_length {n : Nat} {bytes : List Byte} (h : bytes.length = n) : padTo n bytes = bytes := by
  subst h
  simp [padTo]

end Reports

/-- Settles O17. -/
theorem lookupAndDescribeReport : Obligations.LookupAndDescribeReport := by
  refine ⟨fun s p rest f e canonical taking code ns right entry => ?_,
    fun s p rest f e canonical taking code ns right entry => ?_⟩
  · have body : lookupBody (takeHead s p rest) p f =
        post (takeHead s p rest) p .done (lookupResult e) none := by
      have entry' : (takeHead s p rest).entry f.key = some e := entry
      rw [lookupBody, judge_accepted (reportChecks_pass (s := takeHead s p rest) ns right entry), entry']
    obtain ⟨t, run, answered, area, -⟩ := answered_of_run (canonical.windows p)
      (body ▸ exec_lookup_taken taking code)
    exact ⟨t, run, answered, area⟩
  · have body : describeBody (takeHead s p rest) p f =
        post (takeHead s p rest) p .done (describeResult (takeHead s p rest) e)
          (some (pageListBytes e.copy1 ++ pageListBytes e.copy2)) := by
      have entry' : (takeHead s p rest).entry f.key = some e := entry
      rw [describeBody, judge_accepted (reportChecks_pass (s := takeHead s p rest) ns right entry), entry']
    obtain ⟨t, run, answered, area, data⟩ := answered_of_run (canonical.windows p)
      (body ▸ exec_describe_taken taking code)
    have holder : claimHolder (takeHead s p rest) e = claimHolder s e := rfl
    have pending : ∀ c, repairPendingCode (takeHead s p rest) e.key c = repairPendingCode s e.key c :=
      fun _ => rfl
    refine ⟨t, run, answered, ?_, ?_⟩
    · rw [area]
      simp only [describeResult, lookupResult, portOrNone_eq, holder, pending]
    · rw [data _ rfl]
      exact padTo_of_length (by simp [length_pageListBytes])

section List
variable {s : State} {f : CommandFields}

/-- The entry is one that LIST names (R35). -/
def Qualifies (f : CommandFields) (e : Entry) : Prop := e.key.ns = f.ns ∧ f.item ≤ e.key.item

/-- The entries that LIST names, in the directory's order. -/
theorem qualifying_ordered (ordered : DirectoryOrdered s) :
    (s.directory.filter fun e => e.key.ns == f.ns && decide (f.item ≤ e.key.item)).Pairwise
      fun a b => a.key.item < b.key.item := by
  rw [List.pairwise_filter]
  refine ordered.ordered.imp fun {a b} before ha hb => ?_
  simp only [Bool.and_eq_true, beq_iff_eq, decide_eq_true_iff] at ha hb
  simp only [Key.before, Bool.or_eq_true, decide_eq_true_iff, Bool.and_eq_true, beq_iff_eq] at before
  omega

theorem mem_qualifying {e : Entry} :
    e ∈ (s.directory.filter fun e => e.key.ns == f.ns && decide (f.item ≤ e.key.item)) ↔
      e ∈ s.directory ∧ e.key.ns = f.ns ∧ f.item ≤ e.key.item := by
  simp [List.mem_filter]

/-- What LIST returns, in full (R35). -/
theorem listed_spec (ordered : DirectoryOrdered s) :
    (listed s f).length ≤ 8 ∧ (listed s f).Pairwise (fun a b => a.key.item < b.key.item) ∧
    (∀ e ∈ listed s f, e ∈ s.directory ∧ e.key.ns = f.ns ∧ f.item ≤ e.key.item) ∧
    (∀ e ∈ s.directory, e.key.ns = f.ns → f.item ≤ e.key.item → e ∉ listed s f →
      (listed s f).length = 8 ∧ listMore s f = true ∧ ∀ x ∈ listed s f, x.key.item < e.key.item) ∧
    (listMore s f = true → ∃ e ∈ s.directory, e.key.ns = f.ns ∧ f.item ≤ e.key.item ∧
      e ∉ listed s f) := by
  obtain ⟨l, hl⟩ : ∃ l, l = s.directory.filter fun e => e.key.ns == f.ns && decide (f.item ≤ e.key.item) :=
    ⟨_, rfl⟩
  have rising := qualifying_ordered (f := f) ordered
  have mem : ∀ e, e ∈ l ↔ e ∈ s.directory ∧ e.key.ns = f.ns ∧ f.item ≤ e.key.item := fun e => by
    rw [hl]; exact mem_qualifying
  rw [← hl] at rising
  have taken : listed s f = l.take 8 := by rw [hl]; rfl
  have split := List.take_append_drop 8 l
  have apart : ∀ a ∈ l.take 8, ∀ b ∈ l.drop 8, a.key.item < b.key.item := by
    rw [← split] at rising
    exact (List.pairwise_append.mp rising).2.2
  have full : ∀ e ∈ l.drop 8, (l.take 8).length = 8 := fun e member => by
    have := List.length_pos_of_mem member
    simp only [List.length_drop, List.length_take] at this ⊢
    omega
  have beyond : ∀ e, e ∈ l → e ∉ l.take 8 → e ∈ l.drop 8 := fun e member absent => by
    rw [← split, List.mem_append] at member
    exact member.resolve_left absent
  have risingTaken : (l.take 8).Pairwise fun a b => a.key.item < b.key.item := rising.sublist
    (List.take_sublist 8 l)
  rw [listMore, taken]
  refine ⟨by simp, risingTaken, fun e member => (mem e).mp (List.mem_of_mem_take member),
    fun e member ns item absent => ?_, fun more => ?_⟩
  · have later := beyond e ((mem e).mpr ⟨member, ns, item⟩) absent
    refine ⟨full e later, ?_, fun x hx => apart x hx e later⟩
    cases last : (l.take 8).getLast? with
    | none =>
      have empty := full e later
      rw [List.getLast?_eq_none_iff.mp last] at empty
      cases empty
    | some x =>
      have lower := apart x (List.mem_of_getLast? last) e later
      simp only [Option.any_some, List.any_eq_true, Bool.and_eq_true, beq_iff_eq, decide_eq_true_iff]
      exact ⟨e, member, ns, lower⟩
  · cases last : (l.take 8).getLast? with
    | none => rw [last] at more; cases more
    | some x =>
      rw [last] at more
      simp only [Option.any_some, List.any_eq_true, Bool.and_eq_true, beq_iff_eq, decide_eq_true_iff]
        at more
      obtain ⟨e, member, ns, higher⟩ := more
      have x_in := (mem x).mp (List.mem_of_mem_take (List.mem_of_getLast? last))
      refine ⟨e, member, ns, by omega, fun inside => ?_⟩
      obtain ⟨before, cut⟩ := List.getLast?_eq_some_iff.mp last
      rw [cut] at inside risingTaken
      rcases List.mem_append.mp inside with earlier | here
      · have := (List.pairwise_append.mp risingTaken).2.2 e earlier x (by simp)
        omega
      · rw [List.mem_singleton.mp here] at higher
        omega

end List

/-- Settles O18. -/
theorem listReports : Obligations.ListReports := by
  intro s p rest f canonical ordered taking code ns right
  have pass : ∀ x ∈ [(Completion.badParam, decide (7 < f.ns)),
      (Completion.noRight, lacksRight (takeHead s p rest) f.ns p (·.read))], x.2 = false := by
    have right' : HoldsRight (takeHead s p rest) f.ns p (·.read) := right
    simp [ns, lacksRight_eq_false right']
  have body : listBody (takeHead s p rest) p f = post (takeHead s p rest) p .done
      { count := (listed s f).length, more := listMore s f } (some ((listed s f).flatMap listBytes)) :=
    judge_accepted pass
  obtain ⟨t, run, answered, area, data⟩ := answered_of_run (canonical.windows p)
    (body ▸ exec_list_taken taking code)
  obtain ⟨short, rising, members, missing, more⟩ := listed_spec (f := f) ordered
  exact ⟨t, listed s f, listMore s f, run, answered, area, data _ rfl, short, rising, members, missing,
    more⟩

/-! ## The commands that queue a job -/

section Accepted
variable {s : State} {p : Port} {rest : List Port} {f : CommandFields}

theorem readChecks_pass {e : Entry} (ns : f.ns ≤ 7) (offset : f.offset ≤ 1023) (atLeast : 1 ≤ f.length)
    (atMost : f.length ≤ 64) (right : HoldsRight s f.ns p (·.read)) (entry : s.entry f.key = some e)
    (committed : e.version ≠ 0) (inside : e.length = 0 ∨ f.offset < e.length)
    (whole : e.integrity ≠ .damaged) : ∀ x ∈ readChecks s p f, x.2 = false := by
  have nonzero : f.length ≠ 0 := by omega
  simp [readChecks, ns, offset, nonzero, atMost, lacksRight_eq_false right, entry, committed, whole]
  omega

theorem spaceFor_of_le {need : Nat}
    (room : s.reservation + 34 + need ≤ s.erased.length + s.eraseList.length) :
    spaceFor s need = true := decide_eq_true room

theorem recordExhausted_of_lt {e : Entry} (version : e.version < 4294967295)
    (counter : s.sequenceCounter ≠ none) : recordExhausted s e = false := by
  rw [← Bool.not_eq_true, ← exhausted_iff]
  simp [Exhausted, version, counter]

theorem createExhausted_of_lt {k : Key} (version : ∀ r, s.retirement k = some r → r.version < 4294967295)
    (counter : s.sequenceCounter ≠ none) : createExhausted s k = false := by
  rw [← Bool.not_eq_true, ← createExhausted_iff]
  simpa [CreateExhausted, counter] using version

theorem staleVersion_of_eq {expected present : Nat} (same : expected = 0 ∨ expected = present) :
    staleVersion expected present = false := by
  rw [← Bool.not_eq_true, ← differs_iff]
  rintro ⟨nonzero, other⟩
  exact same.elim nonzero other

theorem createChecks_pass {n : NamespaceEntry} {c₀ : RecordClass} {l₀ : Level} (ns : f.ns ≤ 7)
    (cls : classOf f.cls = some c₀) (level : levelOf f.level = some l₀) (atLeast : 1 ≤ f.length)
    (atMost : f.length ≤ 64) (known : namespaceEntry s f.ns = some n)
    (right : HoldsRight s f.ns p (·.create)) (absent : s.entry f.key = none)
    (places : s.directory.length < 512) (quota : namespaceCount s f.ns < n.quota)
    (room : spaceFor s (pagesOfWrite (classTaken s f.ns f.cls) f.length) = true)
    (version : createExhausted s f.key = false) : ∀ x ∈ createChecks s p f, x.2 = false := by
  have nonzero : f.length ≠ 0 := by omega
  have full : directoryFull s = false := by
    rw [← Bool.not_eq_true, ← directoryFull_iff]
    omega
  simp [createChecks, ns, cls, level, nonzero, atMost, lacksRight_eq_false right, absent, full, quotaFull,
    known, quota, room, version]

theorem writeChecks_pass {e : Entry} (ns : f.ns ≤ 7) (atLeast : 1 ≤ f.length) (atMost : f.length ≤ 64)
    (right : HoldsRight s f.ns p (·.write)) (entry : s.entry f.key = some e) (live : e.lifecycle = .live)
    (unclaimed : e.claim = none) (open' : updateProtected s p e = false)
    (same : f.expected = 0 ∨ f.expected = e.version)
    (room : spaceFor s (pagesOfWrite e.cls f.length) = true)
    (version : recordExhausted s e = false) : ∀ x ∈ writeChecks s p f, x.2 = false := by
  have nonzero : f.length ≠ 0 := by omega
  simp [writeChecks, ns, nonzero, atMost, lacksRight_eq_false right, entry, live, Lifecycle.busy,
    unclaimed, open', staleVersion_of_eq same, room, version]

theorem raiseProtected_eq_false {e : Entry}
    (may : e.level = .opened ∨ e.level ≠ .permanent ∧ (e.owner = some p ∨ isMaintenance s p = true)) :
    raiseProtected s p e = false := by
  rcases may with opened | ⟨below, owner⟩
  · simp [raiseProtected, opened]
  · have test : ownerTest s p e = true := by simpa [ownerTest] using owner
    unfold raiseProtected
    split <;> simp_all

theorem raiseChecks_pass {e : Entry} {l : Level} (ns : f.ns ≤ 7) (level : levelOf f.level = some l)
    (higher : levelCode e.level < levelCode l) (right : HoldsRight s f.ns p (·.write))
    (entry : s.entry f.key = some e) (live : e.lifecycle = .live)
    (open' : raiseProtected s p e = false) (whole : e.integrity ≠ .damaged)
    (room : spaceFor s (pagesOfWrite e.cls e.length) = true)
    (version : recordExhausted s e = false) : ∀ x ∈ raiseChecks s p f, x.2 = false := by
  rw [levelCode_of_levelOf level] at higher
  simp [raiseChecks, ns, level, higher, lacksRight_eq_false right, entry, live, Lifecycle.busy, open', whole,
    room, version]

theorem retireChecks_pass {e : Entry} (ns : f.ns ≤ 7) (right : HoldsRight s f.ns p (·.retire))
    (entry : s.entry f.key = some e) (live : e.lifecycle = .live) (unclaimed : e.claim = none)
    (open' : retireProtected s p e = false) (same : f.expected = 0 ∨ f.expected = e.version)
    (room : spaceFor s 1 = true) (version : recordExhausted s e = false) :
    ∀ x ∈ retireChecks s p f, x.2 = false := by
  simp [retireChecks, ns, lacksRight_eq_false right, entry, live, Lifecycle.busy, unclaimed, open',
    staleVersion_of_eq same, room, version]

end Accepted

/-- Settles O19. -/
theorem readIsQueued : Obligations.ReadIsQueued := by
  intro s p rest f e taking code ns offset atLeast atMost right entry committed inside whole
  have pass : ∀ x ∈ readChecks (takeHead s p rest) p f, x.2 = false :=
    readChecks_pass (s := takeHead s p rest) ns offset atLeast atMost right entry committed inside whole
  rw [exec_read_taken taking code, readBody, judge_accepted pass]
  rfl

/-- Settles O20. -/
theorem createMakesEntry : Obligations.CreateMakesEntry := by
  intro s p rest f n c₀ cls l₀ need taking code ns classIs levelIs atLeast atMost known right absent places
    quota taken needIs room version counter
  have clsTaken : classTaken s f.ns f.cls = cls := by simp [classTaken, known, classIs, taken]
  have levelIs' : levelTaken s f.ns f.level = l₀.max n.floor := by simp [levelTaken, levelIs, floorOf, known]
  have needed : pagesOfWrite (classTaken s f.ns f.cls) f.length = need := by
    rw [clsTaken, ← writeNeed_eq, needIs]
    rfl
  have pass : ∀ x ∈ createChecks (takeHead s p rest) p f, x.2 = false :=
    createChecks_pass (s := takeHead s p rest) ns classIs levelIs atLeast atMost known right absent places
      quota (needed ▸ spaceFor_of_le (s := s) room) (createExhausted_of_lt (s := s) version counter)
  have same : classTaken (takeHead s p rest) f.ns f.cls = cls := clsTaken
  have level : levelTaken (takeHead s p rest) f.ns f.level = l₀.max n.floor := levelIs'
  rw [exec_create_taken taking code, createBody, judge_accepted pass, same, level, takeHead_port_self,
    ← clsTaken, needed]
  rfl

/-- Settles O21. -/
theorem writeRaiseRetireAreAccepted : Obligations.WriteRaiseRetireAreAccepted := by
  refine ⟨?_, ?_, ?_⟩
  · intro s p rest f e need taking code ns atLeast atMost right entry live unclaimed open' same needIs room
      version counter
    have needed : pagesOfWrite e.cls f.length = need := by rw [← writeNeed_eq, needIs]; rfl
    have pass : ∀ x ∈ writeChecks (takeHead s p rest) p f, x.2 = false :=
      writeChecks_pass (s := takeHead s p rest) ns atLeast atMost right entry live unclaimed open' same
        (needed ▸ spaceFor_of_le (s := s) room) (recordExhausted_of_lt (s := s) version counter)
    have entry' : (takeHead s p rest).entry f.key = some e := entry
    rw [exec_write_taken taking code, writeBody, judge_accepted pass, entry', takeHead_port_self]
    simp only [needed]
    rfl
  · intro s p rest f e l need taking code ns level higher right entry live may whole needIs room version
      counter
    have needed : pagesOfWrite e.cls e.length = need := by rw [← writeNeed_eq, needIs]; rfl
    have below : e.level ≠ .permanent := fun top => by
      rw [top] at higher
      cases l <;> simp [levelCode] at higher
    have open' : raiseProtected s p e = false :=
      raiseProtected_eq_false (may.imp_right fun owner => ⟨below, owner⟩)
    have pass : ∀ x ∈ raiseChecks (takeHead s p rest) p f, x.2 = false :=
      raiseChecks_pass (s := takeHead s p rest) ns level higher right entry live open' whole
        (needed ▸ spaceFor_of_le (s := s) room) (recordExhausted_of_lt (s := s) version counter)
    have entry' : (takeHead s p rest).entry f.key = some e := entry
    rw [exec_raise_taken taking code, raiseBody, judge_accepted pass, entry', level]
    simp only [needed]
    rfl
  · intro s p rest f e taking code ns right entry live unclaimed may same room version counter
    have open' : retireProtected s p e = false := by
      rw [← Bool.not_eq_true, ← retireBarred_iff]
      rintro (top | ⟨level, notOwner, notMaintenance⟩) <;> rcases may with opened | ⟨low, owner⟩
      · simp [top] at opened
      · simp [top] at low
      · simp [opened] at level
      · simp [notOwner, notMaintenance] at owner
    have pass : ∀ x ∈ retireChecks (takeHead s p rest) p f, x.2 = false :=
      retireChecks_pass (s := takeHead s p rest) ns right entry live unclaimed open' same
        (spaceFor_of_le (s := s) room) (recordExhausted_of_lt (s := s) version counter)
    rw [exec_retire_taken taking code, retireBody, judge_accepted pass]
    rfl

end Sys2Proof.Machine

/-! The refusals of the record and claim commands (R44), and the grants, staging, releases and commits of claims
(sections 3 and 5). -/

namespace Sys2Proof.Machine

/-! ## Refusals -/

section Refusals
variable {s : State} {p : Port} {rest : List Port} {f : CommandFields}

/-- A check that passes leaves the answer to the later ones. -/
theorem firstFailing_pass {code refusal : Completion} {fails : Prop} {later : List (Completion × Prop)}
    (passes : ¬fails) (next : FirstFailing later refusal) : FirstFailing ((code, fails) :: later) refusal :=
  .inr ⟨passes, next⟩

/-- A check that fails gives its code. -/
theorem firstFailing_here {code : Completion} {fails : Prop} {later : List (Completion × Prop)}
    (here : fails) : FirstFailing ((code, fails) :: later) code := .inl ⟨here, rfl⟩

/-- With no current handle a COMMIT is judged by its ranges and its handle alone. -/
theorem commitBody_of_no_handle {u : State} {maintEn : Bool} (none : ∀ i, ¬CurrentHandle u p f i) :
    commitBody maintEn u p f = judge u p
      ([(.badParam, 7 < f.slot || Config.bufferBytes < f.length || 4 < f.level)] ++
        handleChecks (handleStatus u p f)) u := by
  have noSlot : (handleStatus u p f).slot = Option.none := by
    rcases handleStatus_cases u p f with ⟨i, current, -⟩ | ⟨-, ⟨-, status⟩ | ⟨-, status⟩⟩
    · exact absurd current (none i)
    · rw [status]; rfl
    · rw [status]; rfl
  simp only [commitBody, noSlot, Option.bind_none]

theorem handleStatus_slot {u : State} {i : SlotNo} (current : CurrentHandle u p f i) :
    (handleStatus u p f).slot = some i := by
  rw [handleStatus_current current]
  rfl

/-- The COMMIT of a current handle is judged by its claim's target. -/
theorem commitBody_record {u : State} {maintEn : Bool} {i : SlotNo} {k : Key}
    (current : CurrentHandle u p f i) (target : (u.slot i).target = some (.record k)) :
    commitBody maintEn u p f = commitRecordBody u p f i k := by
  simp only [commitBody, handleStatus_slot current, Option.bind_some, target, Option.map_some]

theorem commitBody_config {u : State} {maintEn : Bool} {i : SlotNo} (current : CurrentHandle u p f i)
    (target : (u.slot i).target = some .config) :
    commitBody maintEn u p f = commitConfigBody maintEn u p f i := by
  simp only [commitBody, handleStatus_slot current, Option.bind_some, target, Option.map_some]

/-- A handle is current on the state with the head taken exactly where it was before. -/
theorem currentHandle_takeHead {i : SlotNo} :
    CurrentHandle (takeHead s p rest) p f i ↔ CurrentHandle s p f i :=
  ⟨fun h => ⟨h.slot, h.claimed, h.generation, h.holder⟩, fun h => ⟨h.slot, h.claimed, h.generation, h.holder⟩⟩

theorem handleRefusals_takeHead : handleRefusals (takeHead s p rest) p f = handleRefusals s p f := by
  simp only [handleRefusals, currentHandle_takeHead]
  rfl

theorem targetRefusals_takeHead : targetRefusals (takeHead s p rest) p f = targetRefusals s p f := by
  simp only [targetRefusals, currentHandle_takeHead]
  rfl

theorem stagingRefusals_takeHead : stagingRefusals (takeHead s p rest) p f = stagingRefusals s p f := by
  rw [stagingRefusals, handleRefusals_takeHead, targetRefusals_takeHead]
  rfl

/-- The checks of RENEW (R95) are those of the rule, in its order. -/
theorem renewChecks_iff {refusal : Completion} :
    FirstFailing ((.badParam, 7 < f.slot) :: targetRefusals s p f ++ handleRefusals s p f) refusal ↔
      firstFailure ([(.badParam, decide (7 < f.slot)), (.noRight, targetClosed s (handleStatus s p f))] ++
        handleChecks (handleStatus s p f)) = some refusal :=
  firstFailing_cons (by simp) fun _ => firstFailing_cons (targetClosed_iff s p f) fun _ => handleChecks_iff

/-- The checks of ABANDON (R96) are those of the rule, in its order. -/
theorem abandonChecks_iff {refusal : Completion} :
    FirstFailing ((.badParam, 7 < f.slot) :: handleRefusals s p f) refusal ↔
      firstFailure ([(.badParam, decide (7 < f.slot))] ++ handleChecks (handleStatus s p f)) =
        some refusal :=
  firstFailing_cons (by simp) fun _ => handleChecks_iff

/-- The checks of a COMMIT that names no current handle are those of the rule, in its order. -/
theorem strayCommitChecks_iff {refusal : Completion} :
    FirstFailing ((.badParam, 7 < f.slot ∨ 1024 < f.length ∨ 4 < f.level) :: handleRefusals s p f) refusal ↔
      firstFailure ([(.badParam, 7 < f.slot || Config.bufferBytes < f.length || 4 < f.level)] ++
        handleChecks (handleStatus s p f)) = some refusal :=
  have size : Config.bufferBytes = 1024 := rfl
  firstFailing_cons (by simp [size, or_assoc]) fun _ => handleChecks_iff

end Refusals

section Refused
variable {s : State} {p : Port} {rest : List Port} {f : CommandFields} {refusal : Completion}

/-- Every record and claim command is refused with the code of the first check it fails. -/
theorem refused_firstFailing {c : Instr} {checks : List (Completion × Prop)}
    (window : (s.port p).window.wf) (taking : Taking s p rest f) (fails : FirstFailing checks refusal)
    (command : (c = .lookup ∧ f.code = 0x10 ∨ c = .describe ∧ f.code = 0x11) ∧ checks = reportRefusals s p f ∨
      c = .list ∧ f.code = 0x12 ∧ checks = (reportRefusals s p f).take 2 ∨
      c = .read ∧ f.code = 0x20 ∧ checks = readRefusals s p f ∨
      c = .create ∧ f.code = 0x21 ∧ checks = createRefusals s p f ∨
      c = .write ∧ f.code = 0x22 ∧ checks = writeRefusals s p f ∨
      c = .raise ∧ f.code = 0x23 ∧ checks = raiseRefusals s p f ∨
      c = .retire ∧ f.code = 0x24 ∧ checks = retireRefusals s p f ∨
      (c = .claimForUpdate ∧ f.preload = false ∨ c = .claimWithPreload ∧ f.preload = true) ∧
        f.code = 0x30 ∧ f.config = false ∧ f.create = false ∧ checks = updateClaimRefusals s p f ∨
      c = .claimWithCreate ∧ f.code = 0x30 ∧ f.config = false ∧ f.create = true ∧
        checks = createClaimRefusals s p f ∨
      (c = .stage ∧ f.code = 0x31 ∨ c = .fetch ∧ f.code = 0x32) ∧ checks = stagingRefusals s p f ∨
      c = .renew ∧ f.code = 0x33 ∧
        checks = (.badParam, 7 < f.slot) :: targetRefusals s p f ++ handleRefusals s p f ∨
      c = .abandon ∧ f.code = 0x35 ∧ checks = (.badParam, 7 < f.slot) :: handleRefusals s p f ∨
      (∃ m, c = .commit m) ∧ f.code = 0x34 ∧ (∀ i, ¬CurrentHandle s p f i) ∧
        checks = (.badParam, 7 < f.slot ∨ 1024 < f.length ∨ 4 < f.level) :: handleRefusals s p f ∨
      (∃ m i k, c = .commit m ∧ f.code = 0x34 ∧ CurrentHandle s p f i ∧
        (s.slot i).target = some (.record k) ∧ checks = commitRefusals s p f i k
          (if f.length = 0 then (s.slot i).staged else f.length))) :
    ∃ t, exec c s = .next t ∧ AnsweredOnly s t p rest false ∧
      resultArea t p = resultBytes (s.port p).go refusal {} := by
  rcases command with ⟨⟨rfl, code⟩ | ⟨rfl, code⟩, rfl⟩ | ⟨rfl, code, rfl⟩ | ⟨rfl, code, rfl⟩ |
    ⟨rfl, code, rfl⟩ | ⟨rfl, code, rfl⟩ | ⟨rfl, code, rfl⟩ | ⟨rfl, code, rfl⟩ |
    ⟨⟨rfl, preload⟩ | ⟨rfl, preload⟩, code, config, create, rfl⟩ | ⟨rfl, code, config, create, rfl⟩ |
    ⟨⟨rfl, code⟩ | ⟨rfl, code⟩, rfl⟩ | ⟨rfl, code, rfl⟩ | ⟨rfl, code, rfl⟩ |
    ⟨⟨m, rfl⟩, code, none, rfl⟩ | ⟨m, i, k, rfl, code, current, target, rfl⟩
  · exact refused_answeredOnly window (exec_lookup_taken taking code)
      (reportChecks_iff (s := takeHead s p rest).mp fails)
  · exact refused_answeredOnly window (exec_describe_taken taking code)
      (reportChecks_iff (s := takeHead s p rest).mp fails)
  · exact refused_answeredOnly window (exec_list_taken taking code)
      (listChecks_iff (s := takeHead s p rest).mp fails)
  · exact refused_answeredOnly window (exec_read_taken taking code)
      (readChecks_iff (s := takeHead s p rest).mp fails)
  · exact refused_answeredOnly window (exec_create_taken taking code)
      (createChecks_iff (s := takeHead s p rest).mp fails)
  · exact refused_answeredOnly window (exec_write_taken taking code)
      (writeChecks_iff (s := takeHead s p rest).mp fails)
  · exact refused_answeredOnly window (exec_raise_taken taking code)
      (raiseChecks_iff (s := takeHead s p rest).mp fails)
  · exact refused_answeredOnly window (exec_retire_taken taking code)
      (retireChecks_iff (s := takeHead s p rest).mp fails)
  · exact refused_answeredOnly window (exec_claimForUpdate_taken taking code config create preload)
      (preload ▸ updateClaimChecks_iff (s := takeHead s p rest).mp fails)
  · exact refused_answeredOnly window (exec_claimWithPreload_taken taking code config create preload)
      (preload ▸ updateClaimChecks_iff (s := takeHead s p rest).mp fails)
  · exact refused_answeredOnly window (exec_claimWithCreate_taken taking code config create)
      (createClaimChecks_iff (s := takeHead s p rest).mp fails)
  · exact refused_answeredOnly window (exec_stage_taken taking code)
      (stagingChecks_iff (s := takeHead s p rest).mp (stagingRefusals_takeHead.symm ▸ fails))
  · exact refused_answeredOnly window (exec_fetch_taken taking code)
      (stagingChecks_iff (s := takeHead s p rest).mp (stagingRefusals_takeHead.symm ▸ fails))
  · rw [← targetRefusals_takeHead (rest := rest), ← handleRefusals_takeHead (rest := rest)] at fails
    exact refused_answeredOnly window (exec_renew_taken taking code) (renewChecks_iff.mp fails)
  · rw [← handleRefusals_takeHead (rest := rest)] at fails
    exact refused_answeredOnly window (exec_abandon_taken taking code) (abandonChecks_iff.mp fails)
  · rw [← handleRefusals_takeHead (rest := rest)] at fails
    have stray : ∀ i, ¬CurrentHandle (takeHead s p rest) p f i := fun i =>
      currentHandle_takeHead.not.mpr (none i)
    exact refused_answeredOnly window
      (commitBody_of_no_handle (maintEn := m) stray ▸ exec_commit_taken taking m code)
      (strayCommitChecks_iff.mp fails)
  · exact refused_answeredOnly window
      (commitBody_record (maintEn := m) (currentHandle_takeHead.mpr current) target ▸
        exec_commit_taken taking m code)
      (commitChecks_iff (s := takeHead s p rest).mp fails)

/-- The completion codes as bytes are apart. -/
theorem completionByte_injective {a b : Completion}
    (same : BitVec.ofNat 8 (completionCode a) = BitVec.ofNat 8 (completionCode b)) : a = b := by
  have code : ∀ c : Completion, completionCode c = c.ctorIdx ∧ completionCode c < 256 := by
    intro c
    cases c <;> decide
  have toNat := congrArg BitVec.toNat same
  rw [BitVec.toNat_ofNat, BitVec.toNat_ofNat, Nat.mod_eq_of_lt (code a).2, Nat.mod_eq_of_lt (code b).2,
    (code a).1, (code b).1] at toNat
  rw [← Completion.ofNat_ctorIdx a, toNat, Completion.ofNat_ctorIdx]

/-- All that a RESTRICT can answer: a refusal with no other field, or DONE. -/
theorem restrictBody_answers (u : State) :
    (∃ c, restrictBody u p f = post u p c {} none) ∨
      ∃ v r, v.ports = u.ports ∧ restrictBody u p f = post v p .done r none := by
  unfold restrictBody
  split
  · exact .inl ⟨_, rfl⟩
  · split
    · simp only
      rcases judge_cases u p _ _ with ⟨accepted, -⟩ | ⟨c, refused⟩
      · exact .inr ⟨_, _, by exact rfl, accepted⟩
      · exact .inl ⟨c, refused⟩
    · exact .inl ⟨_, rfl⟩

/-- A RESTRICT that does not answer DONE reports nothing else (log 31). -/
theorem restrict_refusal_zeros {t : State} (window : (s.port p).window.wf) (taking : Taking s p rest f)
    (code : f.code = 0x50) (run : exec .restrict s = .next t) (refused : refusal ≠ .done)
    (reads : windowRead t p 0x61 = BitVec.ofNat 8 (completionCode refusal)) :
    resultArea t p = resultBytes (s.port p).go refusal {} := by
  rw [exec_restrict_taking taking code, Host.Outcome.next.injEq] at run
  subst run
  rcases restrictBody_answers (p := p) (f := f) (takeHead s p rest) with ⟨c, body⟩ | ⟨v, r, units, body⟩
  · rw [body] at reads ⊢
    have area := resultArea_post_takeHead rest window c {} none
    rw [(windowRead_of_resultArea area).2] at reads
    rw [area, completionByte_injective reads]
  · rw [body, (windowRead_of_resultArea (resultArea_post_of_ports units window .done r none)).2] at reads
    exact absurd (completionByte_injective reads).symm refused

/-- The position of the handle in the checks, for a handle that is not current (R86). -/
theorem handleRefusals_of_stray {i : SlotNo} (slot : f.slot = i.val)
    (only : ∀ j : SlotNo, f.slot = j.val → j = i) (stray : ∀ j, ¬CurrentHandle s p f j) :
    FirstFailing (handleRefusals s p f)
      (if (s.slot i).state = .free ∧ (s.slot i).lapsed = some (f.generation, p) then .claimLapsed
        else .noClaim) := by
  split
  · next lapsed => exact firstFailing_here ⟨i, slot, lapsed⟩
  · next other =>
    exact firstFailing_pass (fun ⟨j, here, lapsed⟩ => other (only j here ▸ lapsed)) (firstFailing_here stray)

/-! ### The configuration claim -/

theorem firstBadByte_eq {img : List Byte} {offset : Nat} (inside : offset < 88)
    (bad : imageFieldValid img offset = false) (good : ∀ o, o < offset → imageFieldValid img o = true) :
    firstBadByte img = some offset := by
  have split : List.range 88 = List.range offset ++ offset :: (List.range' (offset + 1) (87 - offset)) := by
    rw [List.range_eq_range', List.range_eq_range', ← List.range'_succ]
    have := List.range'_append_1 (s := 0) (m := offset) (n := 88 - offset)
    rw [show offset + (88 - offset) = 88 by omega, Nat.zero_add] at this
    rw [← this, show 88 - offset = 87 - offset + 1 by omega]
  have size : Config.labelOffset = 88 := rfl
  rw [firstBadByte, size, List.find?_eq_some_iff_append]
  exact ⟨by simp [bad], List.range offset, _, split, fun o ho => by simp [good o (List.mem_range.mp ho)]⟩

/-- A configuration COMMIT with a bad command field, an empty buffer or an invalid image reports the byte. -/
theorem commitConfigBody_bad {u : State} {maintEn : Bool} {i : SlotNo} {offset : Nat}
    (bad : configCommitBad { u with maintEnAsserted := maintEn } i f = some offset) :
    commitConfigBody maintEn u p f i =
      post { u with maintEnAsserted := maintEn } p .badParam { at75 := offset } none := by
  simp only [commitConfigBody, bad]

theorem commitConfigBody_good {u : State} {maintEn : Bool} {i : SlotNo}
    (good : configCommitBad { u with maintEnAsserted := maintEn } i f = none) :
    commitConfigBody maintEn u p f i =
      judge { u with maintEnAsserted := maintEn } p
        (configRoleChecks { u with maintEnAsserted := maintEn } p maintEn ++
          [(.exhausted, counterExhausted { u with maintEnAsserted := maintEn })])
        (enqueue (toCommitting { u with maintEnAsserted := maintEn } i)
          { kind := .configWrite, port := some p, target := some .config, cause := some .commitConfig,
            handle := some (handleOf u i),
            params :=
              { length := Config.imageBytes,
                content := Memory.readRange (u.slot i).buffer 0 Config.imageBytes },
            need := 0 }) := by
  simp only [commitConfigBody, good]
  rfl

theorem configCommitBad_fields {u : State} {i : SlotNo}
    (bad : f.level ≠ 0 ∨ f.length ≠ 0 ∧ f.length ≠ 128 ∨ (u.slot i).staged = 0) :
    configCommitBad u i f = some 255 := by
  have size : Config.imageBytes = 128 := rfl
  rw [configCommitBad, if_pos]
  simpa [size, or_assoc] using bad

theorem configCommitBad_image {u : State} {i : SlotNo} (level : f.level = 0)
    (length : f.length = 0 ∨ f.length = 128) (staged : (u.slot i).staged ≠ 0) :
    configCommitBad u i f = firstBadByte (Memory.readRange (u.slot i).buffer 0 128) := by
  have size : Config.imageBytes = 128 := rfl
  rw [configCommitBad, if_neg, size]
  simpa [size, level, staged] using fun h => length.resolve_left h

end Refused

/-- The completions of the commands that sample MAINT_EN_N at the taking. -/
theorem sampled_answered {s : State} {p : Port} {rest : List Port} {c : Instr} {maintEn : Bool}
    {code : Completion} {r : Result} (window : (s.port p).window.wf)
    (run : exec c s = .next (post { takeHead s p rest with maintEnAsserted := maintEn } p code r none)) :
    ∃ t, exec c s = .next t ∧ AnsweredOnly { s with maintEnAsserted := maintEn } t p rest false ∧
      resultArea t p = resultBytes (s.port p).go code r :=
  ⟨_, run, answeredOnly_post (s := { s with maintEnAsserted := maintEn }) rest window code r none,
    resultArea_post_takeHead (s := { s with maintEnAsserted := maintEn }) rest window code r none⟩

/-- Settles O22. -/
theorem refusalsGiveFirstFailingCheck : Obligations.RefusalsGiveFirstFailingCheck := by
  refine ⟨?_, ?_, ?_, ?_, ?_, ?_⟩
  · intro s p rest f c canonical taking ns absent command
    have window := canonical.windows p
    have ns' : ¬7 < f.ns := by omega
    rcases command with ⟨command, right⟩ | ⟨rfl, code, offset, atLeast, atMost, right⟩ |
      ⟨rfl, code, atLeast, atMost, right⟩ | ⟨rfl, code, level, right⟩ | ⟨rfl, code, right⟩ |
      ⟨rfl, code, config, create, preload, right⟩
    · exact refused_firstFailing (checks := reportRefusals s p f) window taking
        (firstFailing_pass ns' (firstFailing_pass (not_not.mpr right) (firstFailing_here absent)))
        (.inl ⟨command, rfl⟩)
    · have inRange : ¬(7 < f.ns ∨ 1023 < f.offset ∨ f.length = 0 ∨ 64 < f.length ∨
          Named s f.key fun e => e.version ≠ 0 ∧ e.length ≠ 0 ∧ e.length ≤ f.offset) := by
        simp only [Named, absent, reduceCtorEq, false_and, exists_false, or_false]
        omega
      exact refused_firstFailing (checks := readRefusals s p f) window taking
        (firstFailing_pass inRange (firstFailing_pass (not_not.mpr right)
          (firstFailing_here (.inl absent)))) (by simp [code])
    · exact refused_firstFailing (checks := writeRefusals s p f) window taking
        (firstFailing_pass (by omega) (firstFailing_pass (not_not.mpr right) (firstFailing_here absent)))
        (by simp [code])
    · have inRange : ¬(7 < f.ns ∨ levelOf f.level = none ∨
          Named s f.key fun e => f.level ≤ levelCode e.level) := by
        simp [Named, absent, ns, Option.isSome_iff_ne_none.mp level]
      exact refused_firstFailing (checks := raiseRefusals s p f) window taking
        (firstFailing_pass inRange (firstFailing_pass (not_not.mpr right) (firstFailing_here absent)))
        (by simp [code])
    · exact refused_firstFailing (checks := retireRefusals s p f) window taking
        (firstFailing_pass ns' (firstFailing_pass (not_not.mpr right) (firstFailing_here absent)))
        (by simp [code])
    · exact refused_firstFailing (checks := updateClaimRefusals s p f) window taking
        (firstFailing_pass ns' (firstFailing_pass (not_not.mpr right) (firstFailing_here absent)))
        (by simp [code, config, create, preload])
  · intro s p rest f i c canonical taking slot stale command
    have window := canonical.windows p
    have only : ∀ j : SlotNo, f.slot = j.val → j = i := fun j here => Fin.ext (here.symm.trans slot)
    have stray : ∀ j, ¬CurrentHandle s p f j := fun j current => by
      cases only j current.slot
      exact stale.elim current.claimed fun h => h.elim (· current.generation) (· current.holder)
    have opened : ¬∃ j, CurrentHandle s p f j ∧ ¬TargetOpen s j := fun ⟨j, current, _⟩ => stray j current
    have ns : ¬7 < f.slot := by omega
    have handle := handleRefusals_of_stray slot only stray
    rcases command with ⟨command, offset, atLeast, atMost, fits⟩ | ⟨rfl, code⟩ | ⟨rfl, code⟩ |
      ⟨command, code, length, level⟩
    · exact refused_firstFailing (checks := stagingRefusals s p f) window taking
        (firstFailing_pass (by omega) (firstFailing_pass opened handle)) (by simp [command])
    · exact refused_firstFailing
        (checks := (.badParam, 7 < f.slot) :: targetRefusals s p f ++ handleRefusals s p f) window taking
        (firstFailing_pass ns (firstFailing_pass opened handle)) (by simp [code])
    · exact refused_firstFailing (checks := (.badParam, 7 < f.slot) :: handleRefusals s p f) window taking
        (firstFailing_pass ns handle) (by simp [code])
    · obtain ⟨m, rfl⟩ := command
      exact refused_firstFailing
        (checks := (.badParam, 7 < f.slot ∨ 1024 < f.length ∨ 4 < f.level) :: handleRefusals s p f)
        window taking (firstFailing_pass (by omega) handle) (by simp [code, stray])
  · intro s p rest f c checks refusal canonical taking fails command
    exact refused_firstFailing (canonical.windows p) taking fails command
  · intro s p rest f maintEn refusal canonical taking code config fails
    have first := (configClaimChecks_iff
      (s := { takeHead s p rest with maintEnAsserted := maintEn })).mp fails
    have run := exec_claimWithConfig_taken taking maintEn code config
    rw [claimWithConfigBody, judge_refused first] at run
    exact sampled_answered (canonical.windows p) run
  · intro s p rest f i maintEn img refusal offset canonical taking code current target image fails
    have window := canonical.windows p
    have run := exec_commit_taken taking maintEn code
    rw [commitBody_config (currentHandle_takeHead.mpr current) target] at run
    subst image
    rcases fails with ⟨bad, rfl, rfl⟩ | ⟨level, length, staged, inside, bad, good, rfl⟩ |
      ⟨level, length, staged, valid, rfl, first⟩
    · have byte := configCommitBad_fields (u := { takeHead s p rest with maintEnAsserted := maintEn }) bad
      rw [commitConfigBody_bad byte] at run
      exact sampled_answered window run
    · have byte := (configCommitBad_image (u := { takeHead s p rest with maintEnAsserted := maintEn })
        level length staged).trans (firstBadByte_eq inside bad good)
      rw [commitConfigBody_bad byte] at run
      exact sampled_answered window run
    · have byte := (configCommitBad_image (u := { takeHead s p rest with maintEnAsserted := maintEn })
        level length staged).trans (Option.isNone_iff_eq_none.mp valid)
      have first' := (configCommitChecks_iff
        (s := { takeHead s p rest with maintEnAsserted := maintEn })).mp first
      rw [commitConfigBody_good byte, judge_refused first'] at run
      exact sampled_answered window run
  · intro s t p rest f refusal canonical taking code run refused reads
    exact restrict_refusal_zeros (canonical.windows p) taking code run refused reads

end Sys2Proof.Machine

/-! The grants, staging, releases and commits of claims (sections 3 and 5). -/

namespace Sys2Proof.Machine

/-! ## Grants -/

section Grants
variable {s : State} {p : Port} {rest : List Port} {f : CommandFields}

theorem claimsFull_eq_false {i : SlotNo} (free : LowestFree s i)
    (limit : claimsHeldBy s p < s.effective.portSettings[p].claimLimit) : claimsFull s p = false := by
  rw [← Bool.not_eq_true, ← noClaimLeft_iff]
  rintro (none | full)
  · exact none i free.free
  · exact absurd limit (Nat.not_lt.mpr full)

theorem updateClaimChecks_pass {e : Entry} {preload : Bool} (ns : f.ns ≤ 7)
    (right : HoldsRight s f.ns p (·.write)) (entry : s.entry f.key = some e) (live : e.lifecycle = .live)
    (unclaimed : e.claim = none) (open' : updateProtected s p e = false)
    (whole : preload = true → e.integrity ≠ .damaged) (same : f.expected = 0 ∨ f.expected = e.version)
    (room : claimsFull s p = false) : ∀ x ∈ updateClaimChecks s p f preload, x.2 = false := by
  have whole' : (preload && e.integrity == .damaged) = false := by
    cases preload
    · rfl
    · simpa using whole rfl
  simp only [updateClaimChecks, entry, Option.any_some, whole']
  simp [ns, lacksRight_eq_false right, live, Lifecycle.busy, unclaimed, open', staleVersion_of_eq same, room]

theorem createClaimChecks_pass {n : NamespaceEntry} {c₀ : RecordClass} (ns : f.ns ≤ 7)
    (preload : f.preload = false) (cls : classOf f.cls = some c₀) (known : namespaceEntry s f.ns = some n)
    (right : HoldsRight s f.ns p (·.create)) (absent : s.entry f.key = none)
    (room : claimsFull s p = false) (places : s.directory.length < 512)
    (quota : namespaceCount s f.ns < n.quota) : ∀ x ∈ createClaimChecks s p f, x.2 = false := by
  have full : directoryFull s = false := by
    rw [← Bool.not_eq_true, ← directoryFull_iff]
    omega
  simp [createClaimChecks, ns, preload, cls, lacksRight_eq_false right, absent, room, full, quotaFull, known,
    quota]

theorem configRoleChecks_pass {maintEn : Bool} (allowed : ConfigAllowed s p maintEn) :
    ∀ x ∈ configRoleChecks s p maintEn, x.2 = false := by
  rcases allowed with ⟨other, role, unlocked⟩ | ⟨fault, port, strap⟩
  · unfold configRoleChecks
    split
    · next fault => exact absurd fault other
    · simp [role, unlocked]
  · simp [configRoleChecks, fault, port, strap]

theorem configClaimChecks_pass {maintEn : Bool} (preload : f.preload = false) (create : f.create = false)
    (allowed : ConfigAllowed s p maintEn)
    (alone : ∀ j, (s.slot j).state ≠ .free → (s.slot j).target ≠ some .config)
    (same : f.expected = 0 ∨ f.expected = s.storedSequence) (room : claimsFull s p = false) :
    ∀ x ∈ configClaimChecks s p f maintEn, x.2 = false := by
  have unclaimed : configClaimed s = false := by
    rw [← Bool.not_eq_true, ← configClaimed_iff]
    rintro ⟨j, claimed, target⟩
    exact alone j claimed target
  intro x member
  simp only [configClaimChecks, List.mem_append] at member
  rcases member with (first | role) | later
  · simp only [List.mem_singleton] at first
    simp [first, preload, create]
  · exact configRoleChecks_pass allowed x role
  · simp only [List.mem_cons, List.not_mem_nil, or_false] at later
    rcases later with rfl | rfl | rfl
    · exact unclaimed
    · exact staleVersion_of_eq same
    · exact room

end Grants

/-- What a grant without PRELOAD leaves, after the taking (R91). -/
theorem grantSlot_held (s : State) (i : SlotNo) (p : Port) (target : Target) (kind : ClaimKind)
    (base : Nat) : grantSlot s i p target kind base false = { s with
      claims := s.claims.set i ⟨.held, (s.slot i).generation + 1, some p, some target, some kind, base, [], 0,
        some (s.now + s.effective.portSettings[p].leaseLength * 20), none⟩ } := rfl

/-- The grant of an update claim, without and with PRELOAD (R91, R92). -/
theorem grantUpdate_held (s : State) (p : Port) (i : SlotNo) (e : Entry) :
    grantUpdate s i p e false = { s with
      claims := s.claims.set i ⟨.held, (s.slot i).generation + 1, some p, some (.record e.key), some .update,
        e.version, [], 0, some (s.now + s.effective.portSettings[p].leaseLength * 20), none⟩
      directory := s.directory.map fun x =>
        if x.key = e.key then { x with claim := some ⟨i, (s.slot i).generation + 1⟩ } else x } := rfl

theorem grantUpdate_preload (s : State) (p : Port) (i : SlotNo) (e : Entry) :
    grantUpdate s i p e true = { s with
      claims := s.claims.set i ⟨.preloading, (s.slot i).generation + 1, some p, some (.record e.key),
        some .update, e.version, [], 0, none, none⟩
      directory := s.directory.map fun x =>
        if x.key = e.key then { x with claim := some ⟨i, (s.slot i).generation + 1⟩ } else x } := rfl

/-- A command whose body answers a state that has the ports of the taking. -/
theorem posted_of_run {s u : State} {p : Port} {rest : List Port} {c : Instr} {code : Completion}
    {r : Result} {data : Option (List Byte)} (units : u.ports = (takeHead s p rest).ports)
    (window : (s.port p).window.wf) (run : exec c s = .next (post u p code r data)) :
    ∃ t, exec c s = .next t ∧ t = { u with ports := t.ports } ∧ PortAnswered s t p data.isSome ∧
      resultArea t p = resultBytes (s.port p).go code r ∧
      ∀ bytes, data = some bytes → dataArea t p = padTo 64 bytes := by
  refine ⟨_, run, post_eq u p code r data, post_answered_of_ports units window code r data,
    resultArea_post_of_ports units window code r data, ?_⟩
  rintro bytes rfl
  have wf : (u.port p).window.wf := by rw [port_of_ports_takeHead units]; exact window
  exact post_dataArea _ _ _ _ wf bytes

/-- Settles O23. -/
theorem updateClaimsAreGranted : Obligations.UpdateClaimsAreGranted := by
  refine ⟨?_, ?_⟩
  · intro s p rest f e i canonical taking code config create preload ns right entry live unclaimed open' same
      free limit
    have pass : ∀ x ∈ updateClaimChecks (takeHead s p rest) p f false, x.2 = false :=
      updateClaimChecks_pass (s := takeHead s p rest) ns right entry live unclaimed open' nofun same
        (claimsFull_eq_false (s := s) free limit)
    have entry' : (takeHead s p rest).entry f.key = some e := entry
    have lowest : lowestFree (takeHead s p rest) = some i := lowestFree_eq (s := s) free
    have key : e.key = f.key := (State.entry_some entry).2
    have run := exec_claimForUpdate_taken taking code config create preload
    rw [claimForUpdateBody, judge_accepted pass, entry', lowest] at run
    obtain ⟨t, run, frame, answered, area, -⟩ := posted_of_run (rest := rest)
      (u := grantUpdate (takeHead s p rest) i p e false) (by exact rfl) (canonical.windows p) run
    refine ⟨t, _, run, rfl, ?_, answered, area⟩
    rw [grantUpdate_held, key] at frame
    exact frame
  · intro s p rest f e i g taking code config create preload ns right entry live unclaimed open' whole same
      free limit generation
    have pass : ∀ x ∈ updateClaimChecks (takeHead s p rest) p f true, x.2 = false :=
      updateClaimChecks_pass (s := takeHead s p rest) ns right entry live unclaimed open' (fun _ => whole)
        same (claimsFull_eq_false (s := s) free limit)
    have entry' : (takeHead s p rest).entry f.key = some e := entry
    have lowest : lowestFree (takeHead s p rest) = some i := lowestFree_eq (s := s) free
    have key : e.key = f.key := (State.entry_some entry).2
    rw [exec_claimWithPreload_taken taking code config create preload, claimWithPreloadBody,
      judge_accepted pass, entry']
    simp only [lowest]
    rw [grantUpdate_preload, generation, key]
    rfl

/-- Settles O24. -/
theorem createAndConfigClaimsAreGranted : Obligations.CreateAndConfigClaimsAreGranted := by
  refine ⟨?_, ?_⟩
  · intro s p rest f n c₀ cls i canonical taking code config create preload ns classIs known right absent
      free limit places quota taken
    have clsTaken : classTaken s f.ns f.cls = cls := by simp [classTaken, known, classIs, taken]
    have floor : floorOf s f.ns = n.floor := by simp [floorOf, known]
    have pass : ∀ x ∈ createClaimChecks (takeHead s p rest) p f, x.2 = false :=
      createClaimChecks_pass (s := takeHead s p rest) ns preload classIs known right absent
        (claimsFull_eq_false (s := s) free limit) places quota
    have lowest : lowestFree (takeHead s p rest) = some i := lowestFree_eq (s := s) free
    have clsTaken' : classTaken (takeHead s p rest) f.ns f.cls = cls := clsTaken
    have floor' : floorOf (takeHead s p rest) f.ns = n.floor := floor
    have run := exec_claimWithCreate_taken taking code config create
    simp only [claimWithCreateBody, judge_accepted pass, lowest, clsTaken', floor', grantSlot_held] at run
    obtain ⟨t, run, frame, answered, area, -⟩ := posted_of_run (s := s) (rest := rest) (by exact rfl)
      (canonical.windows p) run
    exact ⟨t, _, run, rfl, frame, answered, area⟩
  · intro s p rest f i maintEn canonical taking code config create preload allowed alone same free limit
    have pass : ∀ x ∈ configClaimChecks { takeHead s p rest with maintEnAsserted := maintEn } p f maintEn,
        x.2 = false :=
      configClaimChecks_pass (s := { takeHead s p rest with maintEnAsserted := maintEn }) preload create
        allowed alone same (claimsFull_eq_false (s := s) free limit)
    have lowest : lowestFree { takeHead s p rest with maintEnAsserted := maintEn } = some i :=
      lowestFree_eq (s := s) free
    have run := exec_claimWithConfig_taken taking maintEn code config
    simp only [claimWithConfigBody, judge_accepted pass, lowest, grantSlot_held] at run
    obtain ⟨t, run, frame, answered, area, -⟩ := posted_of_run (s := s) (rest := rest) (by exact rfl)
      (canonical.windows p) run
    exact ⟨t, _, run, rfl, frame, answered, area⟩

end Sys2Proof.Machine

/-! Staging, releases and commits of claims (sections 3 and 5), READ CONFIG and STATUS (sections 3 and 9). -/

namespace Sys2Proof.Machine

/-! ## Staging -/

section Staging
variable {s : State} {p : Port} {rest : List Port} {f : CommandFields} {i : SlotNo}

theorem Memory.getD_readRange (m : Memory) {a n k : Nat} (inside : k < n) :
    (m.readRange a n).getD k 0 = m.read (a + k) := by
  simp [Memory.readRange, List.getD, inside]

theorem restartLease_eq (s : State) (i : SlotNo) (p : Port) :
    restartLease s i p = { s with claims := s.claims.set i { s.slot i with
      lease := some (s.now + s.effective.portSettings[p].leaseLength * 20) } } := rfl

/-- A change of the slot, then its lease started anew. -/
theorem restartLease_setSlot (s : State) (i : SlotNo) (p : Port) (x : Slot) :
    restartLease (s.setSlot i x) i p = { s with claims := s.claims.set i { x with
      lease := some (s.now + s.effective.portSettings[p].leaseLength * 20) } } := by
  rw [restartLease_eq, State.slot_setSlot_self]
  simp only [State.setSlot, Vector.set_set]

theorem handleChecks_pass : ∀ x ∈ handleChecks (.current i), x.2 = false := by simp [handleChecks]

theorem targetClosed_of_open (current : CurrentHandle s p f i) (opened : TargetOpen s i) :
    targetClosed s (handleStatus s p f) = false := by
  rw [← Bool.not_eq_true, ← targetClosed_iff]
  rintro ⟨j, other, closed⟩
  exact closed (Fin.ext (current.slot.symm.trans other.slot) ▸ opened)

theorem stagingChecks_pass (current : CurrentHandle s p f i) (opened : TargetOpen s i)
    (offset : f.offset ≤ 1023) (atLeast : 1 ≤ f.length) (atMost : f.length ≤ 64)
    (fits : f.offset + f.length ≤ 1024) : ∀ x ∈ stagingChecks s p f, x.2 = false := by
  have nonzero : f.length ≠ 0 := by omega
  have slot : f.slot ≤ 7 := by have := current.slot; omega
  have size : Config.bufferBytes = 1024 := rfl
  have here := handleStatus_current current
  have closed := targetClosed_of_open current opened
  rw [here] at closed
  simp [stagingChecks, here, closed, handleChecks, slot, offset, nonzero, atMost, fits, size]

/-- The slot after a STAGE (R93), its lease aside. -/
def stagedSlot (s : State) (p : Port) (f : CommandFields) (i : SlotNo) : Slot :=
  { s.slot i with
    buffer := Memory.writeRange (s.slot i).buffer f.offset ((s.port p).window.readRange 0x20 f.length)
    staged := max (s.slot i).staged (f.offset + f.length) }

/-- What an accepted STAGE does (R93). -/
theorem exec_stage_accepted (taking : Taking s p rest f) (code : f.code = 0x31)
    (current : CurrentHandle s p f i)
    (pass : ∀ x ∈ stagingChecks (takeHead s p rest) p f, x.2 = false) :
    exec .stage s = .next (post { takeHead s p rest with
        claims := s.claims.set i { stagedSlot s p f i with
          lease := some (s.now + s.effective.portSettings[p].leaseLength * 20) } } p .done
      { count := max (s.slot i).staged (f.offset + f.length) } none) := by
  have slot := handleStatus_slot (currentHandle_takeHead (rest := rest).mpr current)
  rw [exec_stage_taken taking code, stageBody, judge_accepted pass, slot]
  simp only [restartLease_setSlot, takeHead_port_self]
  rfl

/-- What an accepted FETCH does (R94). -/
theorem exec_fetch_accepted (taking : Taking s p rest f) (code : f.code = 0x32)
    (current : CurrentHandle s p f i)
    (pass : ∀ x ∈ stagingChecks (takeHead s p rest) p f, x.2 = false) :
    exec .fetch s = .next (post { takeHead s p rest with
        claims := s.claims.set i { s.slot i with
          lease := some (s.now + s.effective.portSettings[p].leaseLength * 20) } } p .done
      { count := (s.slot i).staged } (some (Memory.readRange (s.slot i).buffer f.offset f.length))) := by
  have slot := handleStatus_slot (currentHandle_takeHead (rest := rest).mpr current)
  rw [exec_fetch_taken taking code, fetchBody, judge_accepted pass, slot]
  simp only [restartLease_eq]
  rfl

/-- What an accepted RENEW does (R95). -/
theorem exec_renew_accepted (taking : Taking s p rest f) (code : f.code = 0x33)
    (current : CurrentHandle s p f i) (opened : TargetOpen s i) :
    exec .renew s = .next (post { takeHead s p rest with
        claims := s.claims.set i { s.slot i with
          lease := some (s.now + s.effective.portSettings[p].leaseLength * 20) } } p .done
      { at75 := s.effective.portSettings[p].leaseLength } none) := by
  have here := handleStatus_current (currentHandle_takeHead (rest := rest).mpr current)
  have closed : targetClosed (takeHead s p rest) (handleStatus (takeHead s p rest) p f) = false :=
    targetClosed_of_open (currentHandle_takeHead.mpr current) opened
  rw [here] at closed
  have slot : f.slot ≤ 7 := by have := current.slot; omega
  have pass : ∀ x ∈ [(Completion.badParam, decide (7 < f.slot)),
      (.noRight, targetClosed (takeHead s p rest) (handleStatus (takeHead s p rest) p f))] ++
        handleChecks (handleStatus (takeHead s p rest) p f), x.2 = false := by
    simp [closed, here, handleChecks, slot]
  rw [exec_renew_taken taking code, renewBody, judge_accepted pass, here]
  simp only [HandleStatus.slot, restartLease_eq]
  rfl

end Staging

/-- Settles O25. -/
theorem stagingRestartsLease : Obligations.StagingRestartsLease := by
  refine ⟨?_, ?_⟩
  · intro s p rest f i canonical taking code current opened offset atLeast atMost fits
    have window := canonical.windows p
    have pass : ∀ x ∈ stagingChecks (takeHead s p rest) p f, x.2 = false :=
      stagingChecks_pass (currentHandle_takeHead.mpr current) opened offset atLeast atMost fits
    obtain ⟨t, run, frame, answered, area, -⟩ := posted_of_run (rest := rest) (by exact rfl) window
      (exec_stage_accepted taking code current pass)
    refine ⟨t, _, run, frame, rfl, fun a => ?_, answered, area⟩
    rw [stagedSlot, Memory.read_writeRange (canonical.buffers i), Memory.length_readRange]
    split
    · next inside => exact Memory.getD_readRange _ (by omega)
    · rfl
  · intro s p rest f i claims canonical taking current opened claimsAre
    have window := canonical.windows p
    subst claimsAre
    refine ⟨fun code offset atLeast atMost fits => ?_, fun code => ?_⟩
    · have pass : ∀ x ∈ stagingChecks (takeHead s p rest) p f, x.2 = false :=
        stagingChecks_pass (currentHandle_takeHead.mpr current) opened offset atLeast atMost fits
      obtain ⟨t, run, frame, answered, area, data⟩ := posted_of_run (rest := rest) (by exact rfl) window
        (exec_fetch_accepted taking code current pass)
      exact ⟨t, run, frame, answered, area, data _ rfl⟩
    · obtain ⟨t, run, frame, answered, area, -⟩ := posted_of_run (rest := rest) (by exact rfl) window
        (exec_renew_accepted taking code current opened)
      exact ⟨t, run, frame, answered, area⟩

/-! ## ABANDON -/

/-- Settles O26. -/
theorem abandonReleases : Obligations.AbandonReleases := by
  intro s p rest f i canonical taking code current
  have here := handleStatus_current (currentHandle_takeHead (rest := rest).mpr current)
  have slot : f.slot ≤ 7 := by have := current.slot; omega
  have pass : ∀ x ∈ [(Completion.badParam, decide (7 < f.slot))] ++
      handleChecks (handleStatus (takeHead s p rest) p f), x.2 = false := by
    simp [here, handleChecks, slot]
  have run := exec_abandon_taken taking code
  rw [abandonBody, judge_accepted pass, here] at run
  simp only [HandleStatus.slot] at run
  have units : (releaseSlot (takeHead s p rest) i .abandoned).ports = (takeHead s p rest).ports :=
    releaseSlot_ports (by decide)
  obtain ⟨t, run, frame, answered, area, -⟩ := posted_of_run units (canonical.windows p) run
  have directory : t.directory = (releaseSlot (takeHead s p rest) i .abandoned).directory := by rw [frame]
  have entries : ∀ k, t.entry k = (releaseSlot (takeHead s p rest) i .abandoned).entry k := fun k =>
    State.entry_congr directory k
  refine ⟨t, run, ?_, answered, area, fun target => ?_, fun k e target entry claim => ⟨?_, ?_, ?_⟩⟩
  · rw [releaseSlot_frame] at frame
    rw [directory]
    exact frame
  · rw [directory, releaseSlot_directory_of_config (s := takeHead s p rest) target]
    rfl
  · intro create forming
    rw [entries, releaseSlot_entry_claimed (s := takeHead s p rest) target entry claim]
    exact if_pos ⟨create, forming, rfl⟩
  · intro other
    rw [entries, releaseSlot_entry_claimed (s := takeHead s p rest) target entry claim]
    exact if_neg fun h => other h.2.1
  · intro k' other
    rw [entries, releaseSlot_entry_kept (s := takeHead s p rest)]
    · rfl
    · intro e' target'
      have same : (s.slot i).target = some (.record k') := target'
      rw [target] at same
      exact absurd (by injection same with h; injection h with h; exact h.symm) other

/-! ## COMMIT -/

section Commits
variable {s : State} {p : Port} {rest : List Port} {f : CommandFields} {i : SlotNo} {k : Key} {e : Entry}

/-- The checks of an accepted COMMIT of a record claim (`create = false`) or a create-claim. -/
theorem commitChecks_pass {length : Nat} {create : Bool}
    (kind : (s.slot i).kind = some (if create then .create else .update))
    (entry : s.entry k = some e) (right : HoldsRight s k.ns p (·.write)) (atMost : f.length ≤ 1024)
    (level : f.level ≤ 4) (lengthIs : effectiveLength (s.slot i) f = length) (nonzero : length ≠ 0)
    (idle : e.lifecycle ≠ .writing)
    (update : create = false → (f.level = 0 ∨ levelCode e.level ≤ f.level) ∧
      updateProtected s p e = false ∧ recordExhausted s e = false)
    (new : create = true → createExhausted s k = false)
    (room : spaceFor s (pagesOfWrite e.cls length) = true) : ∀ x ∈ commitChecks s p f i k, x.2 = false := by
  have size : Config.bufferBytes = 1024 := rfl
  have idle' : (e.lifecycle == .writing) = false := by simpa using idle
  cases create with
  | false =>
    obtain ⟨floor, open', version⟩ := update rfl
    have kind' : ((s.slot i).kind == some .create) = false := by rw [kind]; rfl
    have floor' : (f.level != 0 && decide (f.level < levelCode e.level)) = false := by
      rcases floor with zero | above
      · simp [zero]
      · simp [Nat.not_lt.mpr above]
    simp [commitChecks, lengthIs, size, atMost, level, nonzero, kind', entry, lacksRight_eq_false right,
      idle', open', room, version]
    simpa using floor'
  | true =>
    have kind' : ((s.slot i).kind == some .create) = true := by rw [kind]; rfl
    simp [commitChecks, lengthIs, size, atMost, level, nonzero, kind', entry, lacksRight_eq_false right,
      idle', room, new rfl]

/-- What the acceptance of a COMMIT of a record claim or a create-claim does (R97, R100). -/
theorem enqueue_committing (s : State) (i : SlotNo) (k : Key) (j : Job) :
    enqueue ((toCommitting s i).modifyEntry k toWriting) j = { s with
      claims := s.claims.set i { s.slot i with state := .committing, lease := none }
      directory := s.directory.map fun x => if x.key = k then { x with lifecycle := .writing } else x
      jobQueue := s.jobQueue ++ [j]
      reservation := s.reservation + j.need } := rfl

end Commits

/-- Settles O27. -/
theorem commitIsAccepted : Obligations.CommitIsAccepted := by
  refine ⟨?_, ?_⟩
  · intro s p rest f i k e n length need create maintEn level taking code current target kind entry known
      right atMost levelMax lengthIs nonzero idle update new needIs room counter
    have needed : pagesOfWrite e.cls length = need := by rw [← writeNeed_eq, needIs]; rfl
    have effective : effectiveLength (s.slot i) f = length := lengthIs.symm
    have pass : ∀ x ∈ commitChecks (takeHead s p rest) p f i k, x.2 = false := by
      refine commitChecks_pass (s := takeHead s p rest) kind entry right atMost levelMax effective nonzero
        idle (fun h => ?_) (fun h => ?_) (needed ▸ spaceFor_of_le (s := s) room)
      · obtain ⟨floor, open', version, -⟩ := update h
        exact ⟨floor, open', recordExhausted_of_lt (s := s) version counter⟩
      · exact createExhausted_of_lt (s := s) (new h).2 counter
    have levelIs : commitLevel (takeHead s p rest) (s.slot i) e f = level := by
      cases create with
      | false =>
        simp [commitLevel, kind, (update rfl).2.2.2]
      | true =>
        have known' : namespaceEntry (takeHead s p rest) e.key.ns = some n := by
          rw [(State.entry_some entry).2]
          exact known
        simp [commitLevel, kind, (new rfl).1, levelTaken, floorOf, known']
    have cause : (if (s.slot i).kind == some .create then JobCause.commitCreate else .commitRecord) =
        if create then JobCause.commitCreate else .commitRecord := by
      rw [kind]
      cases create <;> rfl
    have entry' : (takeHead s p rest).entry k = some e := entry
    have slot : (takeHead s p rest).slot i = s.slot i := rfl
    rw [exec_commit_taken taking maintEn code,
      commitBody_record (currentHandle_takeHead.mpr current) target, commitRecordBody, judge_accepted pass,
      entry']
    simp only [slot, effective, levelIs, needed, cause]
    rw [enqueue_committing]
    rfl
  · intro s p rest f i maintEn taking code current target level length staged valid allowed counter
    have byte := (configCommitBad_image (u := { takeHead s p rest with maintEnAsserted := maintEn })
      level length staged).trans (Option.isNone_iff_eq_none.mp valid)
    have pass : ∀ x ∈ configRoleChecks { takeHead s p rest with maintEnAsserted := maintEn } p maintEn ++
        [(Completion.exhausted, counterExhausted { takeHead s p rest with maintEnAsserted := maintEn })],
        x.2 = false := by
      intro x member
      rcases List.mem_append.mp member with role | last
      · exact configRoleChecks_pass
          (s := { takeHead s p rest with maintEnAsserted := maintEn }) allowed x role
      · rw [List.mem_singleton.mp last]
        exact (Bool.eq_false_iff.mpr fun none => counter (Option.isNone_iff_eq_none.mp none))
    rw [exec_commit_taken taking maintEn code,
      commitBody_config (currentHandle_takeHead.mpr current) target, commitConfigBody_good byte,
      judge_accepted pass]
    rfl

/-! ## READ CONFIG, STATUS, no command -/

/-- Settles O31. -/
theorem readConfigStatusAndUnknownCode : Obligations.ReadConfigStatusAndUnknownCode := by
  refine ⟨?_, ?_, ?_⟩
  · intro s p rest f canonical taking code offset
    have window := canonical.windows p
    have offset' : (f.offset != 0 && f.offset != 64) = false := by
      rcases offset with zero | half
      · simp [zero]
      · simp [half]
    have run := exec_readConfig_taken taking code
    refine ⟨fun target => ?_, fun img target stored => ?_, fun target stored => ?_⟩
    · have image : configImageFor (takeHead s p rest) f.target =
          some (composeImage s.effective, s.effectiveSequence) := by rw [target]; rfl
      rw [readConfigBody, image, judge_accepted (by simp [target, offset'])] at run
      obtain ⟨t, run, answered, area, data⟩ := answered_of_run window run
      exact ⟨t, run, answered, area, data _ rfl⟩
    · have image : configImageFor (takeHead s p rest) f.target = some (img, s.storedSequence) := by
        have stored' : (takeHead s p rest).storedImage = some img := stored
        simp only [configImageFor, target, stored']
        rfl
      rw [readConfigBody, image, judge_accepted (by simp [target, offset'])] at run
      obtain ⟨t, run, answered, area, data⟩ := answered_of_run window run
      exact ⟨t, run, answered, area, data _ rfl⟩
    · have image : configImageFor (takeHead s p rest) f.target = none := by
        have stored' : (takeHead s p rest).storedImage = none := stored
        simp only [configImageFor, target, stored']
        rfl
      rw [readConfigBody, image] at run
      refine refused_answeredOnly window run ?_
      simp [firstFailure, target, offset']
  · intro s p rest f canonical taking code outside
    have bad : (decide (1 < f.target) || (f.offset != 0 && f.offset != 64)) = true := by
      simpa using outside
    have run := exec_readConfig_taken taking code
    rw [readConfigBody] at run
    refine refused_answeredOnly (canonical.windows p) run ?_
    simp only [firstFailure, bad, if_true]
  · intro s p rest f canonical taking
    have window := canonical.windows p
    refine ⟨fun code => ?_, fun other => ?_⟩
    · obtain ⟨t, run, answered, area, data⟩ := answered_of_run window (exec_status_taken taking code)
      refine ⟨t, run, answered, area, (data _ rfl).trans ?_⟩
      have pending : bitAt (configurationPending (takeHead s p rest)) 0 =
          if s.storedSequence = s.effectiveSequence then 0 else 1 := by
        have same : configurationPending (takeHead s p rest) = configurationPending s := rfl
        rw [same, configurationPending]
        by_cases equal : s.storedSequence = s.effectiveSequence <;> simp [equal, bitAt]
      rw [statusBytes, pending]
      rfl
    · obtain ⟨t, run, answered, area, -⟩ := answered_of_run window (exec_unknown_taken taking other)
      exact ⟨t, run, answered, area⟩

end Sys2Proof.Machine

/-! What the report of a page read does to the entry, the Repair List and the notices (R18, R26, R105), and the
READ job (R67 to R69). -/

namespace Sys2Proof.Machine

/-! ## What a page read reports (R105) -/

section Cells
variable {α : Type}

@[simp] theorem readPart_uncorrectable (x : Part α) : readPart x .uncorrectable = none := by cases x <;> rfl

@[simp] theorem readPart_clean_corrected (x : Part α) : (readPart x .clean).any (·.2) = false := by
  cases x <;> rfl

theorem readPart_not_corrected (x : Part α) {o : Ecc} (h : o ≠ .corrected) :
    (readPart x o).any (·.2) = false := by
  cases o
  · exact readPart_clean_corrected x
  · exact absurd rfl h
  · rw [readPart_uncorrectable]
    rfl

theorem readCell_holds (tag : Tag) (payload : Payload) (o : ReadOutcome) :
    readCell ⟨.holds tag, .holds payload⟩ o =
      .parts (readPart (.holds tag) o.tag) (readPart (.holds payload) o.payload) :=
  if_neg (by simp [PageCell.blank])

theorem readCell_of_ne_blank {x : PageCell} (h : x ≠ PageCell.blank) (o : ReadOutcome) :
    readCell x o = .parts (readPart x.tag o.tag) (readPart x.payload o.payload) := if_neg h

end Cells

/-! ## Charged corrections (R26) -/

section Charged
variable {s : State} {k : Key} {c : CopyNo} {e : Entry} {d : CopyDescriptor}

/-- The entry after a correction charged to a valid copy. -/
def chargedEntry (e : Entry) (c : CopyNo) (d : CopyDescriptor) : Entry :=
  e.setCopy c (some { d with corrections := min 255 (d.corrections + 1) })

/-- What a charge does to a valid copy: the count, and at the threshold a refresh is asked for. -/
theorem chargeCorrection_valid (entry : s.entry k = some e) (copy : e.copy c = some d)
    (valid : d.valid = true) (faulty : Bool) :
    chargeCorrection s k c faulty =
      if s.effective.refreshThreshold ≤ min 255 (d.corrections + 1) ∧ faulty = false then
        repairRequest (s.modifyEntry k fun e =>
          e.setCopy c (some { d with corrections := min 255 (d.corrections + 1) })) k e.version c .refresh
      else s.modifyEntry k fun e =>
        e.setCopy c (some { d with corrections := min 255 (d.corrections + 1) }) := by
  simp only [chargeCorrection, entry, copy, valid]
  simp

theorem chargeCorrection_entry (entry : s.entry k = some e) (copy : e.copy c = some d)
    (valid : d.valid = true) (faulty : Bool) :
    (chargeCorrection s k c faulty).entry k = some (chargedEntry e c d) := by
  have modified : (s.modifyEntry k fun e =>
      e.setCopy c (some { d with corrections := min 255 (d.corrections + 1) })).entry k =
        some (chargedEntry e c d) :=
    State.entry_modifyEntry_self
      (f := fun e => e.setCopy c (some { d with corrections := min 255 (d.corrections + 1) })) entry
      (by simpa using (State.entry_some entry).2)
  rw [chargeCorrection_valid entry copy valid]
  split
  · rw [repairRequest_frame]
    exact modified
  · exact modified

/-- At the threshold the Repair List has an entry for the pair. -/
theorem chargeCorrection_refresh (entry : s.entry k = some e) (copy : e.copy c = some d)
    (valid : d.valid = true) (threshold : s.effective.refreshThreshold ≤ min 255 (d.corrections + 1)) :
    (chargeCorrection s k c false).repairList.any (·.isFor k c) = true := by
  rw [chargeCorrection_valid entry copy valid, if_pos ⟨threshold, rfl⟩]
  exact repairRequest_present _ _ _ _ _

/-- Below the threshold the Repair List stands. -/
theorem chargeCorrection_below (entry : s.entry k = some e) (copy : e.copy c = some d)
    (valid : d.valid = true) (below : min 255 (d.corrections + 1) < s.effective.refreshThreshold)
    (faulty : Bool) : (chargeCorrection s k c faulty).repairList = s.repairList := by
  rw [chargeCorrection_valid entry copy valid, if_neg fun h => absurd h.1 (Nat.not_le.mpr below)]
  rfl

end Charged

/-! ## Faults (R18, R25) -/

section Faults
variable {s : State} {k : Key} {c : CopyNo} {e : Entry} {d : CopyDescriptor}

@[simp] theorem faultyEntry_key : (faultyEntry e c d).key = e.key := by cases c <;> rfl
@[simp] theorem faultyEntry_cls : (faultyEntry e c d).cls = e.cls := by cases c <;> rfl
@[simp] theorem faultyEntry_length : (faultyEntry e c d).length = e.length := by cases c <;> rfl
@[simp] theorem faultyEntry_version : (faultyEntry e c d).version = e.version := by cases c <;> rfl
@[simp] theorem faultyEntry_claim : (faultyEntry e c d).claim = e.claim := by cases c <;> rfl
@[simp] theorem faultyEntry_copy2 : (faultyEntry e .one d).copy2 = e.copy2 := rfl

@[simp] theorem faultyEntry_copyValid_two : (faultyEntry e .one d).copyValid .two = e.copyValid .two := rfl

/-- Copy 1 of a MIRRORED record lost, and copy 2 valid: the record is DEGRADED. -/
theorem faultyEntry_degraded (cls : e.cls = .mirrored) (two : e.copyValid .two = true) :
    (faultyEntry e .one d).integrity = .degraded := by
  have two' : e.copy2.any (·.valid) = true := two
  have count : (e.setCopy .one (some { d with valid := false })).validCopies = 1 := by
    simp [Entry.validCopies, Entry.setCopy, two']
  show integrityOf (e.setCopy .one _).cls _ = _
  rw [count]
  show integrityOf e.cls 1 = _
  rw [cls]
  rfl

/-- All that the report of a fault does (R18, R25, R138, R166). -/
structure FaultReported (s t : State) (k : Key) (c : CopyNo) (e : Entry) (d : CopyDescriptor) : Prop where
  frame : t = { s with directory := t.directory, repairList := t.repairList, changeSets := t.changeSets }
  entry : t.entry k = some (faultyEntry e c d)
  others : ∀ k', k' ≠ k → t.entry k' = s.entry k'
  notified : FaultNotified s t k e (faultyEntry e c d)
  lost : (faultyEntry e c d).integrity = .degraded → t.repairList.any (·.isFor k c) = true
  placed : (faultyEntry e c d).integrity = .degraded →
    (∀ x ∈ s.repairList, x.isFor k c = true → x.running = false) →
    ⟨k, e.version, c, .lost, false, false⟩ ∈ t.repairList
  quiet : (faultyEntry e c d).integrity ≠ .degraded → t.repairList = s.repairList
  noticed : (faultyEntry e c d).integrity ≠ .damaged → t.changeSets = s.changeSets

/-- A fault of a copy that was valid, by the integrity it leaves (R18). -/
theorem copyFault_valid (entry : s.entry k = some e) (copy : e.copy c = some d) (valid : d.valid = true) :
    copyFault s k c = match (faultyEntry e c d).integrity with
      | .sound => s.modifyEntry k fun _ => faultyEntry e c d
      | .degraded => repairRequest (s.modifyEntry k fun _ => faultyEntry e c d) k e.version c .lost
      | .damaged =>
        if e.integrity = .damaged then s.modifyEntry k fun _ => faultyEntry e c d
        else notify (s.modifyEntry k fun _ => faultyEntry e c d) .damaged k e.version none := by
  simp only [copyFault, entry, copy, valid]
  simp only [Bool.not_true, Bool.false_eq_true, if_false]
  rfl

theorem copyFault_reported (entry : s.entry k = some e) (copy : e.copy c = some d)
    (valid : d.valid = true) : FaultReported s (copyFault s k c) k c e d := by
  have self : (s.modifyEntry k fun _ => faultyEntry e c d).entry k = some (faultyEntry e c d) :=
    State.entry_modifyEntry_self (f := fun _ => faultyEntry e c d) entry
      (by simpa using (State.entry_some entry).2)
  have others : ∀ k', k' ≠ k → (s.modifyEntry k fun _ => faultyEntry e c d).entry k' = s.entry k' :=
    fun k' other => State.entry_modifyEntry_ne (f := fun _ => faultyEntry e c d) other
      fun _ _ => by simpa using (State.entry_some entry).2
  have eq := copyFault_valid entry copy valid
  cases h : (faultyEntry e c d).integrity with
  | sound =>
    rw [h] at eq
    rw [eq]
    exact ⟨rfl, self, others, fun p => by rw [h]; rfl, by simp [h], by simp [h], fun _ => rfl, fun _ => rfl⟩
  | degraded =>
    rw [h] at eq
    rw [eq]
    have frame := repairRequest_frame (s.modifyEntry k fun _ => faultyEntry e c d) k e.version c .lost
    refine ⟨by rw [frame]; rfl, by rw [frame]; exact self, fun k' other => by rw [frame]; exact others k' other,
      fun p => by rw [h, frame]; rfl, fun _ => repairRequest_present _ _ _ _ _,
      fun _ idle => repairRequest_lost idle, fun no => absurd h no, fun _ => by rw [frame]; rfl⟩
  | damaged =>
    rw [h] at eq
    rw [eq]
    by_cases already : e.integrity = .damaged
    · rw [if_pos already]
      exact ⟨rfl, self, others, fun p => by simp [already], by simp [h], by simp [h], fun _ => rfl,
        fun no => absurd h no⟩
    · rw [if_neg already]
      refine ⟨rfl, self, others, fun p => ?_, by simp [h], by simp [h], fun _ => rfl, fun no => absurd h no⟩
      rw [notify_changes]
      simp [already, h]
      rfl

/-- A page that reads without a correction and makes the copy faulty. -/
theorem reportPage_fault {report : PageReport} (uncorrected : report.corrected = false) (pageFaulty : Bool) :
    reportPage s k c report pageFaulty true = copyFault s k c := by
  simp [reportPage, uncorrected]

/-- A CORRECTED page of a copy that is not faulty is charged to it. -/
theorem reportPage_charged {report : PageReport} (corrected : report.corrected = true) :
    reportPage s k c report false false = chargeCorrection s k c false := by
  simp [reportPage, corrected]

end Faults

/-! ## The READ job -/

theorem padTo_nil (n : Nat) : padTo n [] = List.replicate n 0 := by simp [padTo]

/-- A job at the head of the queue starts (R121). -/
theorem exec_jobSelect_start {s : State} {j : Job} {rest : List Job} (ready : s.isReady = true)
    (free : s.engine = .free) (head : s.jobQueue = j :: rest) :
    exec .jobSelect s = .next (startJob { s with jobQueue := rest, engine := .running } j) := by
  have selects : (s.isReady && s.engine == .free) = true := by simp [ready, free]
  show Host.Outcome.next _ = _
  rw [if_pos selects, selectJob, head]

theorem Job.key_of_record {j : Job} {k : Key} (target : j.target = some (.record k)) : j.key = some k := by
  simp [Job.key, target]

/-- The copy that a read takes: the first that is valid (R68). -/
theorem chooseCopy_eq {e : Entry} {c : CopyNo} {d : CopyDescriptor} (copy : e.copy c = some d)
    (valid : d.valid = true) (first : c = .two → e.copyValid .one = false) : chooseCopy e = some c := by
  have this : e.copyValid c = true := by simp [Entry.copyValid, copy, valid]
  cases c with
  | one => simp [chooseCopy, this]
  | two => simp [chooseCopy, this, first rfl]

section Reads
variable {s u : State} {r : RunningJob} {p : Port}

/-- The end of a READ job, from a state with the ports of the event (R63, R69). -/
theorem endRead_answered (units : u.ports = s.ports) (window : (s.port p).window.wf)
    (port : r.job.port = some p) (code : Completion) (res : Result) (data : List Byte) :
    JobEnded (endRead u r code res data) ∧
      (endRead u r code res data = settleRetirements { u with
        ports := (endRead u r code res data).ports, running := none, operation := none, engine := .free }) ∧
      PortAnswered s (endRead u r code res data) p true ∧
      resultArea (endRead u r code res data) p = resultBytes (s.port p).go code res ∧
      dataArea (endRead u r code res data) p = padTo 64 data := by
  have ends : endRead u r code res data = finishJob (post u p code res (some data)) := by
    rw [endRead, completeJob_some port]
  have answered := post_answered_ports units window code res (some data)
  have here : (u.port p).window.wf := by
    have : u.port p = s.port p := by simp [State.port, units]
    rw [this]
    exact window
  rw [ends]
  refine ⟨finishJob_ended _, ?_, answered.1, answered.2, ?_⟩
  · conv_lhs => rw [finishJob, post_eq]
    rfl
  · rw [← post_dataArea u p code res here data]
    rfl

end Reads

/-- Settles O37. -/
theorem readJobStarts : Obligations.ReadJobStarts := by
  intro s j rest k p canonical ready free head kind target cause port
  have key := Job.key_of_record target
  have start : exec .jobSelect s = .next (startRead { s with jobQueue := rest, engine := .running } j k) := by
    rw [exec_jobSelect_start ready free head, startJob, kind, key]
  refine ⟨?_, ?_⟩
  · intro e c d page left entry committed whole inside copy valid first pages
    have entry' : ({ s with jobQueue := rest, engine := .running } : State).entry k = some e := entry
    have pages' : readPages (newRun j (some e)).job.params e d = page :: left := pages
    rw [start, startRead, entry']
    simp only [committed, whole, Nat.not_le.mpr inside, if_false, chooseCopy_eq copy valid first, beginRead,
      copy, Option.map_some, pages']
  · intro completion result how
    have ends : ∃ r, r.job.port = some p ∧ startRead { s with jobQueue := rest, engine := .running } j k =
        endRead { s with jobQueue := rest, engine := .running } r completion result [] := by
      rcases how with ⟨absent, rfl, rfl⟩ | ⟨e, entry, ⟨first, rfl, rfl⟩ | ⟨committed, damaged, rfl, rfl⟩ |
        ⟨committed, whole, beyond, rfl, rfl⟩⟩
      · have absent' : ({ s with jobQueue := rest, engine := .running } : State).entry k = none := absent
        exact ⟨newRun j none, port, by rw [startRead, absent']⟩
      all_goals
        have entry' : ({ s with jobQueue := rest, engine := .running } : State).entry k = some e := entry
        refine ⟨newRun j (some e), port, ?_⟩
        rw [startRead, entry']
      · simp only [first, if_true]
      · simp only [committed, damaged, if_false, if_true]
      · simp only [committed, whole, beyond, if_false, if_true]
    obtain ⟨r, port', ends⟩ := ends
    rw [ends] at start
    obtain ⟨ended, frame, answered, area, data⟩ := endRead_answered (s := s)
      (u := { s with jobQueue := rest, engine := .running }) rfl (canonical.windows p) port' completion
      result []
    refine ⟨_, start, ended, answered, ?_, ?_, ?_, ?_, area⟩
    · rw [frame]; rfl
    · rw [frame]; rfl
    · rw [frame]; rfl
    · rw [data, padTo_nil]

end Sys2Proof.Machine

/-! The pages of a READ job (R68, R69). -/

namespace Sys2Proof.Machine

section ReadPages
variable {s : State} {r : RunningJob} {e : Entry} {c : CopyNo} {page : Nat} {left : List Nat}
  {got : List Byte} {o : ReadOutcome}

/-- The read of a page of a READ job, in progress (R68, R125). -/
structure Reading (s : State) (r : RunningJob) (e : Entry) (c : CopyNo) (page : Nat) (left : List Nat)
    (got : List Byte) : Prop where
  ready : s.isReady = true
  running : s.running = some r
  kind : r.job.kind = .read
  stage : r.stage = .reading c (page :: left) got
  entry : r.entry = some e
  operation : s.operation = some (.read page)

theorem Reading.exec (reading : Reading s r e c page left got) :
    exec (.readJobPageRead o) s = .next (readPageDone o s r) :=
  congrArg Host.Outcome.next (jobEvent_running reading.ready reading.running _)

/-- A page that could not be read (R68). -/
theorem Reading.exec_faulty (reading : Reading s r e c page left got) {report : PageReport}
    (reads : readCell (s.page page) o = report) (faulty : report.dataBytes = none) :
    Machine.exec (.readJobPageRead o) s =
      .next (readFaulty (reportPage s r.key c report true true) r c) := by
  rw [reading.exec]
  simp only [readPageDone, reading.kind, reading.stage, reading.entry, reading.operation, reads, faulty,
    if_true, Option.isNone_none]

/-- The last page of the job, read (R69). -/
theorem Reading.exec_last (reading : Reading s r e c page [] got) {report : PageReport} {bytes : List Byte}
    (reads : readCell (s.page page) o = report) (data : report.dataBytes = some bytes) :
    Machine.exec (.readJobPageRead o) s =
      .next (endReadDone (reportPage s r.key c report false false) r e c (got ++ bytes)) := by
  rw [reading.exec]
  simp only [readPageDone, reading.kind, reading.stage, reading.entry, reading.operation, reads, data,
    if_true, Option.isNone_some]

/-- A page before the last, read (R68). -/
theorem Reading.exec_next {next : Nat} {more : List Nat} (reading : Reading s r e c page (next :: more) got)
    {report : PageReport} {bytes : List Byte} (reads : readCell (s.page page) o = report)
    (data : report.dataBytes = some bytes) :
    Machine.exec (.readJobPageRead o) s = .next { reportPage s r.key c report false false with
      operation := some (.read next)
      running := some { r with stage := .reading c (next :: more) (got ++ bytes) } } := by
  rw [reading.exec]
  simp only [readPageDone, reading.kind, reading.stage, reading.entry, reading.operation, reads, data,
    if_true, Option.isNone_some]

/-- A job that leaves a faulty copy 1 begins again on copy 2 (R68). -/
theorem readFaulty_fallback {d₂ : CopyDescriptor} {first : Nat} {more : List Nat} {u : State}
    (entry : u.entry r.key = some e) (cls : e.cls = .mirrored) (copy : e.copy2 = some d₂)
    (valid : d₂.valid = true) (pages : readPages r.job.params e d₂ = first :: more) :
    readFaulty u r .one = { u with
      operation := some (.read first)
      running := some { r with stage := .reading .two (first :: more) [] } } := by
  have two : e.copyValid .two = true := by simp [Entry.copyValid, Entry.copy, copy, valid]
  have falls : fallback u r.key .one = some e := by simp [fallback, entry, cls, two]
  simp only [readFaulty, falls, beginRead, Entry.copy, copy, Option.map_some, pages]

/-- A job with no copy to fall back to ends DAMAGED (R68). -/
theorem readFaulty_ends {u : State} (entry : u.entry r.key = some e)
    (alone : ¬(c = .one ∧ e.cls = .mirrored ∧ e.copyValid .two = true)) :
    readFaulty u r c = endRead u r .damaged {} [] := by
  have falls : fallback u r.key c = none := by
    rw [fallback, entry]
    simpa [Option.filter, imp_iff_not_or, and_assoc] using alone
  simp only [readFaulty, falls]

end ReadPages

/-- Settles O40. -/
theorem readJobReturnsBytes : Obligations.ReadJobReturnsBytes := by
  refine ⟨?_, ?_, ?_⟩
  · intro s r e c page left got bytes tag p n canonical ready running kind port stage entry operation cell
      count
    have reads : readCell (s.page page) ⟨.clean, .clean⟩ =
        .parts (some (tag, false)) (some (.data bytes, false)) := by
      rw [cell, readCell_holds]
      rfl
    refine ⟨?_, ?_⟩
    · rintro next more rfl
      have reading : Reading s r e c page (next :: more) got :=
        ⟨ready, running, kind, stage, entry, operation⟩
      rw [reading.exec_next reads rfl, reportPage_clean rfl]
    · rintro rfl
      have reading : Reading s r e c page [] got := ⟨ready, running, kind, stage, entry, operation⟩
      have run := reading.exec_last reads rfl
      rw [reportPage_clean rfl, endReadDone] at run
      obtain ⟨-, frame, answered, area, data⟩ := endRead_answered (s := s) (u := s) rfl
        (canonical.windows p) port .done
        { version := e.version, length := e.length, count := trimmedCount r.job.params e,
          at75 := copyNumber c }
        (((got ++ bytes).drop (r.job.params.offset % Config.pageBytes)).take (trimmedCount r.job.params e))
      subst count
      exact ⟨_, run, frame, answered, area, data⟩
  · intro s r e d c page next more got bytes tag ready running kind stage rEntry operation cell entry copy
      valid
    have reads : readCell (s.page page) ⟨.clean, .corrected⟩ =
        .parts (some (tag, false)) (some (.data bytes, true)) := by
      rw [cell, readCell_holds]
      rfl
    have reading : Reading s r e c page (next :: more) got :=
      ⟨ready, running, kind, stage, rEntry, operation⟩
    have run := reading.exec_next reads rfl
    rw [reportPage_charged rfl] at run
    have frame := chargeCorrection_frame s r.key c false
    refine ⟨_, run, chargeCorrection_entry entry copy valid false, chargeCorrection_refresh entry copy valid,
      fun below => chargeCorrection_below entry copy valid below false, rfl, rfl, ?_, ?_⟩
    · show (chargeCorrection s r.key c false).ports = _
      rw [frame]
    · show (chargeCorrection s r.key c false).changeSets = _
      rw [frame]
  · intro s r e d c page left got p canonical ready running kind port stage rEntry operation cell entry copy
      valid
    have reads := readCell_of_ne_blank cell ⟨.clean, .uncorrectable⟩
    have uncorrected : (PageReport.parts (readPart (s.page page).tag .clean)
        (readPart (s.page page).payload .uncorrectable)).corrected = false := by
      simp [PageReport.corrected]
    have unread : (PageReport.parts (readPart (s.page page).tag .clean)
        (readPart (s.page page).payload .uncorrectable)).dataBytes = none := by
      rw [readPart_uncorrectable]
      cases readPart (s.page page).tag .clean <;> rfl
    have reading : Reading s r e c page left got := ⟨ready, running, kind, stage, rEntry, operation⟩
    have run := reading.exec_faulty reads unread
    rw [reportPage_fault uncorrected] at run
    have reported := copyFault_reported entry copy valid
    have units : (copyFault s r.key c).ports = s.ports := by rw [reported.frame]
    refine ⟨?_, fun alone => ?_⟩
    · rintro d₂ first more rfl mirrored copy2 valid2 pages
      have pages' : readPages r.job.params (faultyEntry e .one d) d₂ = first :: more := by
        rw [← pages]
        simp only [readPages, trimmedCount, faultyEntry_length]
        rfl
      have two : e.copyValid .two = true := by simp [Entry.copyValid, Entry.copy, copy2, valid2]
      rw [readFaulty_fallback reported.entry (by simpa using mirrored) (by simpa using copy2) valid2 pages']
        at run
      exact ⟨_, run, reported.entry, reported.notified, reported.lost (faultyEntry_degraded mirrored two), rfl,
        rfl, units⟩
    · have alone' : ¬(c = .one ∧ (faultyEntry e c d).cls = .mirrored ∧
          (faultyEntry e c d).copyValid .two = true) := by
        rintro ⟨rfl, mirrored, two⟩
        exact alone ⟨rfl, by simpa using mirrored, by simpa using two⟩
      rw [readFaulty_ends reported.entry alone'] at run
      obtain ⟨ended, frame, answered, area, data⟩ := endRead_answered (s := s) units (canonical.windows p) port
        .damaged {} []
      refine ⟨_, run, ended, ?_, ?_, answered, by rw [data, padTo_nil], area⟩
      · rw [frame]
        exact reported.entry
      · rw [frame]
        exact reported.notified

end Sys2Proof.Machine

/-! How a job draws its pages and programs them (R111, R116, R124, R126, R127). -/

namespace Sys2Proof.Machine

/-! ## The roles of an allocation (R126) -/

section Roles
variable {r : RunningJob}

theorem length_copyRoles (c : CopyNo) (length : Nat) : (copyRoles c length).length = 1 + (length + 63) / 64 := by
  simp only [copyRoles, List.length_append, List.length_map, List.length_range, List.length_singleton,
    Nat.add_comm]
  rfl

/-- The first page of a copy is its data page of index 0. -/
theorem copyRoles_head (c : CopyNo) {length : Nat} (atLeast : 1 ≤ length) :
    ∃ later, copyRoles c length = .data c 0 :: later := by
  have pages : 0 < dataPageCount length := Nat.div_pos (by omega) (by decide)
  obtain ⟨n, count⟩ := Nat.exists_eq_succ_of_ne_zero (Nat.pos_iff_ne_zero.mp pages)
  rw [copyRoles, count, List.range_succ_eq_map]
  exact ⟨_, rfl⟩

theorem allocationRoles_single (kind : r.job.kind = .writeCopy) (cls : r.cls = .single) :
    allocationRoles r = copyRoles .one r.job.params.length := by
  simp only [allocationRoles, kind, cls]

theorem allocationRoles_mirrored (kind : r.job.kind = .writeCopy) (cls : r.cls = .mirrored) :
    allocationRoles r = copyRoles .one r.job.params.length ++ copyRoles .two r.job.params.length := by
  simp only [allocationRoles, kind, cls]

theorem allocationRoles_repair (kind : r.job.kind = .repair) :
    allocationRoles r = copyRoles r.job.params.copy r.job.params.length := by
  simp only [allocationRoles, kind]

theorem allocationRoles_retire (kind : r.job.kind = .retire) : allocationRoles r = [.retirement] := by
  simp only [allocationRoles, kind]

/-- A write draws the pages of every copy of its record's class (R126). -/
theorem length_allocationRoles_write (kind : r.job.kind = .writeCopy) :
    (allocationRoles r).length = r.cls.copies * (1 + (r.job.params.length + 63) / 64) := by
  cases cls : r.cls with
  | single => rw [allocationRoles_single kind cls, length_copyRoles, RecordClass.copies, Nat.one_mul]
  | mirrored =>
    rw [allocationRoles_mirrored kind cls, List.length_append, length_copyRoles, length_copyRoles,
      RecordClass.copies, Nat.two_mul]

theorem allocationRoles_write_head (kind : r.job.kind = .writeCopy) (atLeast : 1 ≤ r.job.params.length) :
    ∃ later, allocationRoles r = .data .one 0 :: later := by
  obtain ⟨later, head⟩ := copyRoles_head .one atLeast
  cases cls : r.cls with
  | single => exact ⟨later, by rw [allocationRoles_single kind cls, head]⟩
  | mirrored =>
    exact ⟨later ++ copyRoles .two r.job.params.length, by
      rw [allocationRoles_mirrored kind cls, head, List.cons_append]⟩

end Roles

/-! ## The drawn pages -/

section Drawn
variable {roles : List PageRole} {pages : List Nat}

theorem withRoles_pages (same : pages.length = roles.length) : (withRoles roles pages).map (·.page) = pages := by
  induction roles generalizing pages with
  | nil => simp [List.length_eq_zero_iff.mp same, withRoles]
  | cons role later ih =>
    obtain ⟨page, others, rfl⟩ := List.exists_cons_of_length_eq_add_one same
    simpa [withRoles] using ih (Nat.succ_inj.mp same)

theorem withRoles_roles (same : pages.length = roles.length) : (withRoles roles pages).map (·.role) = roles := by
  induction roles generalizing pages with
  | nil => simp [withRoles]
  | cons role later ih =>
    obtain ⟨page, others, rfl⟩ := List.exists_cons_of_length_eq_add_one same
    simpa [withRoles] using ih (Nat.succ_inj.mp same)

theorem withRoles_programmed {d : DrawnPage} (drawn : d ∈ withRoles roles pages) : d.programmed = false := by
  obtain ⟨i, inside, rfl⟩ := List.getElem_of_mem drawn
  simp [withRoles]

end Drawn

/-! ## Programs -/

section Programs
variable {s : State} {r : RunningJob} {d : DrawnPage} {c : CopyNo} {i : Nat}

/-- A data page is programmed next (R127). -/
theorem programNext_data (page : currentPage r = some d) (role : d.role = .data c i) :
    programNext s r = { s with
      operation := some (.program d.page
        ⟨.data, r.key, r.versionWritten.getD 0, copyNumber c, some i, some r.cls, some r.job.params.level⟩
        (.data (padTo 64 ((r.content.drop (64 * i)).take 64))))
      running := some { r with stage := .programming } } := by
  simp only [programNext, page, role]
  rfl

/-- A copy header is programmed next, with a number drawn for it (R124, R127). -/
theorem programNext_header {n : Nat} (page : currentPage r = some d) (role : d.role = .header c)
    (counter : s.sequenceCounter = some n) :
    programNext s r = { s with
      sequenceCounter := if 4294967295 ≤ n then none else some (n + 1)
      operation := some (.program d.page
        ⟨.header, r.key, r.versionWritten.getD 0, copyNumber c, none, some r.cls, some r.job.params.level⟩
        (.header ⟨r.key, r.versionWritten.getD 0, copyNumber c, r.cls, r.job.params.level,
          r.entry.bind (·.owner), r.job.params.length, (r.job.params.length + 63) / 64, dataPagesOf r c,
          r.crc, n⟩))
      running := some { r with stage := .programming } } := by
  simp only [programNext, page, role, beginHeader, counter]
  rfl

/-- A retirement header is programmed next (R131). -/
theorem programNext_retirement {n : Nat} (page : currentPage r = some d) (role : d.role = .retirement)
    (counter : s.sequenceCounter = some n) :
    programNext s r = { s with
      sequenceCounter := if 4294967295 ≤ n then none else some (n + 1)
      operation := some (.program d.page
        ⟨.retire, r.key, r.versionWritten.getD 0, 1, none, some r.cls, some r.job.params.level⟩
        (.retire r.key (r.versionWritten.getD 0) n))
      running := some { r with stage := .programming } } := by
  simp only [programNext, page, role, beginHeader, counter]
  rfl

/-- No header is programmed while the counter is exhausted (R124). -/
theorem programNext_exhausted (page : currentPage r = some d) (role : d.role.isHeader = true)
    (counter : s.sequenceCounter = none) : programNext s r = failJob s r .exhausted := by
  cases h : d.role with
  | data c i => rw [h] at role; exact absurd role (by simp [PageRole.isHeader])
  | header c => simp only [programNext, page, h, beginHeader, counter]
  | retirement => simp only [programNext, page, h, beginHeader, counter]

end Programs

/-! ## Draws (R111) -/

section Draws
variable {s : State} {r : RunningJob} {count : Nat} {role : Option PageRole}

theorem continueDraw_draws (enough : count ≤ s.erased.length) :
    continueDraw s r count role = drawNow s r count role := if_pos enough

theorem continueDraw_erases {page : Nat} {k : Option Key} {rest : List (Nat × Option Key)}
    (few : s.erased.length < count) (dirty : s.eraseList = (page, k) :: rest) :
    continueDraw s r count role = { s with
      operation := some (.erase page), running := some { r with stage := .drawing count role } } := by
  simp only [continueDraw, Nat.not_le.mpr few, if_false, dirty]

/-- The draw of an allocation fails, its need withdrawn (R117). -/
theorem continueDraw_fails_allocation (few : s.erased.length < count) (dirty : s.eraseList = []) :
    continueDraw s r count none =
      failJob { s with reservation := s.reservation - r.job.need } r .noSpace := by
  simp only [continueDraw, Nat.not_le.mpr few, if_false, dirty]

theorem continueDraw_fails_replacement {role : PageRole} (few : s.erased.length < count)
    (dirty : s.eraseList = []) : continueDraw s r count (some role) = failJob s r .noSpace := by
  simp only [continueDraw, Nat.not_le.mpr few, if_false, dirty]

/-- The job after its allocation is drawn. -/
def allocated (s : State) (r : RunningJob) (count : Nat) : RunningJob :=
  { r with drawn := withRoles (allocationRoles r) (s.erased.take count) }

/-- The draw of an allocation (R111, R116). -/
theorem drawNow_allocation : drawNow s r count none = programNext
    { s with
      erased := s.erased.drop count
      inWrite := insertAll (s.erased.take count) s.inWrite
      reservation := s.reservation - r.job.need }
    (allocated s r count) := rfl

/-- The first page of an allocation is the first to be programmed. -/
theorem currentPage_allocated {first : Nat} {others : List Nat} {role : PageRole} {later : List PageRole}
    (pages : s.erased.take count = first :: others) (roles : allocationRoles r = role :: later) :
    currentPage (allocated s r count) = some ⟨first, role, false⟩ := by
  simp only [allocated, currentPage, pages, roles, withRoles, List.zipWith_cons_cons]
  rfl

/-- The draw of an allocation whose first page is a data page (R126, R127). -/
theorem continueDraw_data {first : Nat} {others : List Nat} {c : CopyNo} {later : List PageRole}
    (enough : count ≤ s.erased.length) (pages : s.erased.take count = first :: others)
    (roles : allocationRoles r = .data c 0 :: later) :
    continueDraw s r count none = { s with
      reservation := s.reservation - r.job.need
      erased := s.erased.drop count
      inWrite := insertAll (first :: others) s.inWrite
      operation := some (.program first
        ⟨.data, r.key, r.versionWritten.getD 0, copyNumber c, some 0, some r.cls, some r.job.params.level⟩
        (.data (padTo 64 (r.content.take 64))))
      running := some { allocated s r count with stage := .programming } } := by
  rw [continueDraw_draws enough, drawNow_allocation,
    programNext_data (currentPage_allocated pages roles) rfl, pages]
  rfl

/-- The pages an allocation draws, in order, none of them programmed. -/
theorem allocated_drawn {first : Nat} {others : List Nat} (enough : count ≤ s.erased.length)
    (need : count = (allocationRoles r).length) (pages : s.erased.take count = first :: others) :
    (allocated s r count).drawn.map (·.page) = first :: others ∧
      ∀ d ∈ (allocated s r count).drawn, d.programmed = false := by
  have same : (s.erased.take count).length = (allocationRoles r).length := by
    rw [List.length_take, Nat.min_eq_left enough, need]
  exact ⟨(withRoles_pages same).trans pages, fun d drawn => withRoles_programmed drawn⟩

end Draws

/-! ## The start of a write -/

theorem versionToWrite_eq {s : State} {e : Entry} {k : Key} (entry : s.entry k = some e) :
    versionToWrite s e =
      if e.version = 0 then ((s.retirement k).map (·.version + 1)).getD 1 else e.version + 1 := by
  rw [versionToWrite, (State.entry_some entry).2]
  split
  · unfold firstVersion
    cases s.retirement k <;> rfl
  · rfl

/-- The running job of a CREATE, WRITE or COMMIT at its start (R126). -/
def writeRun (s : State) (j : Job) (e : Entry) : RunningJob :=
  { newRun j (some e) with
    versionWritten := some (versionToWrite s e), content := j.params.content, crc := crc32 j.params.content }

theorem startWriteCopy_write {s : State} {j : Job} {k : Key} {e : Entry} (entry : s.entry k = some e)
    (cause : j.cause ≠ some .raise) : startWriteCopy s j k = beginDraw s (writeRun s j e) := by
  simp only [startWriteCopy, entry, cause, if_false]
  rfl

/-- Settles O38. -/
theorem writeJobDrawsPages : Obligations.WriteJobDrawsPages := by
  intro s j rest k e length count first others version ready free head kind target cause entry lengthIs
    atLeast countIs pages enough versionIs
  subst lengthIs
  have entry' : ({ s with jobQueue := rest, engine := .running } : State).entry k = some e := entry
  have run := exec_jobSelect_start ready free head
  rw [startJob, kind, Job.key_of_record target] at run
  simp only at run
  rw [startWriteCopy_write entry' cause, beginDraw] at run
  have version' : versionToWrite { s with jobQueue := rest, engine := .running } e = version := by
    rw [versionToWrite_eq entry', versionIs]
    rfl
  obtain ⟨r, hr⟩ : ∃ r, r = writeRun { s with jobQueue := rest, engine := .running } j e := ⟨_, rfl⟩
  have jobIs : r.job = j := by rw [hr]; rfl
  have clsIs : r.cls = e.cls := by rw [hr]; rfl
  have keyIs : r.key = k := by rw [hr]; simp [RunningJob.key, writeRun, newRun, Job.key, target]
  have needIs : (allocationRoles r).length = count := by
    rw [length_allocationRoles_write (jobIs ▸ kind), clsIs, jobIs, countIs]
    cases e.cls <;> rfl
  obtain ⟨later, roles⟩ := allocationRoles_write_head (r := r) (jobIs ▸ kind) (by rw [jobIs]; exact atLeast)
  rw [← hr, needIs,
    continueDraw_data (s := { s with jobQueue := rest, engine := .running }) enough pages roles] at run
  obtain ⟨drawn, fresh⟩ := allocated_drawn (s := { s with jobQueue := rest, engine := .running }) enough
    needIs.symm pages
  have written : r.versionWritten = some version := by rw [hr, ← version']; rfl
  have entryIs : r.entry = some e := by rw [hr]; rfl
  have phaseIs : r.phase = .beforeCommit := by rw [hr]; rfl
  have failuresIs : r.failures = 0 := by rw [hr]; rfl
  have contentIs : r.content = j.params.content := by rw [hr]; rfl
  have crcIs : r.crc = crc32 j.params.content := by rw [hr]; rfl
  refine ⟨_, { allocated { s with jobQueue := rest, engine := .running } r count with
    stage := .programming }, run, ?_, jobIs, entryIs, written, phaseIs, failuresIs, contentIs, crcIs, drawn,
    fresh⟩
  rw [written, jobIs, clsIs, keyIs, contentIs]
  rfl

end Sys2Proof.Machine

/-! The read of a whole copy (R79, R92, R125, R143, R148): what one page of it does, what a faulty page reports, and
what no end of a job touches. -/

namespace Sys2Proof.Machine

/-! ## What no end of a job touches -/

/-- The end of a job touches the record, the claims, the answers and the lists, and, of the pools, IN_WRITE, LIVE
and the Erase List (R108 to R115, R119). -/
def EndFrame (s t : State) : Prop :=
  t = { s with
    directory := t.directory, claims := t.claims, changeSets := t.changeSets, ports := t.ports,
    operation := t.operation, engine := t.engine, running := t.running, inWrite := t.inWrite, live := t.live,
    eraseList := t.eraseList, retirementList := t.retirementList, repairList := t.repairList }

namespace EndFrame
variable {s t u : State} {r : RunningJob}

theorem refl (s : State) : EndFrame s s := rfl

theorem trans (first : EndFrame s t) (second : EndFrame t u) : EndFrame s u := by
  unfold EndFrame at *
  rw [second, first]

theorem finishJob (s : State) : EndFrame s (finishJob s) := rfl

theorem completeJob (s : State) (r : RunningJob) (c : Completion) (res : Result) (data : Option (List Byte)) :
    EndFrame s (completeJob s r c res data) := by
  unfold EndFrame
  rw [completeJob_frame]

theorem releaseJobSlot (s : State) (r : RunningJob) (cause : ReleaseCause) :
    EndFrame s (releaseJobSlot s r cause) := by
  unfold Machine.releaseJobSlot
  split
  · unfold EndFrame
    rw [releaseSlot_frame]
  · rfl

theorem undoEntry (s : State) (r : RunningJob) : EndFrame s (undoEntry s r) := by
  unfold EndFrame
  rw [undoEntry_frame]

theorem repairRequest (s : State) (k : Key) (version : Nat) (c : CopyNo) (cause : RepairCause) :
    EndFrame s (repairRequest s k version c cause) := by
  unfold EndFrame
  rw [repairRequest_frame]

theorem inWriteToDirty (s : State) (k : Key) : EndFrame s (inWriteToDirty s k) := rfl

theorem modifyEntry (s : State) (k : Key) (f : Entry → Entry) : EndFrame s (s.modifyEntry k f) := rfl

theorem endBeforeCommit (s : State) (r : RunningJob) (c : Completion) :
    EndFrame s (endBeforeCommit s r c) :=
  (inWriteToDirty s r.key).trans ((undoEntry _ r).trans ((releaseJobSlot _ r .failed).trans
    ((completeJob _ r c _ none).trans (finishJob _))))

theorem endCopyPending (s : State) (r : RunningJob) : EndFrame s (endCopyPending s r) :=
  (inWriteToDirty s r.key).trans ((modifyEntry _ _ _).trans ((repairRequest _ _ _ _ _).trans
    ((releaseJobSlot _ r .committed).trans ((completeJob _ r .done _ none).trans (finishJob _)))))

theorem replaceLost (s : State) (k : Key) (version : Nat) : EndFrame s (replaceLost s k version) := by
  unfold EndFrame
  rw [replaceLost_frame]

theorem closeRepair (s : State) (r : RunningJob) : EndFrame s (closeRepair s r) :=
  (show EndFrame s (dropRepair s r.key r.job.params.copy) from rfl).trans
    ((replaceLost _ _ _).trans (finishJob _))

theorem endRepairWithout (s : State) (r : RunningJob) : EndFrame s (endRepairWithout s r) :=
  (inWriteToDirty s r.key).trans (closeRepair _ r)

/-- A job that cannot go on (R117, R124, R129 to R131, R144). -/
theorem failJob (s : State) (r : RunningJob) (c : Completion) : EndFrame s (failJob s r c) := by
  unfold Machine.failJob
  split
  · exact endRepairWithout s r
  · exact endBeforeCommit s r c
  · exact endCopyPending s r

theorem endPreloadDamaged (s : State) (r : RunningJob) : EndFrame s (endPreloadDamaged s r) :=
  (releaseJobSlot s r .failed).trans ((completeJob _ r .damaged {} none).trans (finishJob _))

theorem array (h : EndFrame s t) : t.array = s.array := by rw [h]
theorem erased (h : EndFrame s t) : t.erased = s.erased := by rw [h]
theorem bad (h : EndFrame s t) : t.bad = s.bad := by rw [h]
theorem reservation (h : EndFrame s t) : t.reservation = s.reservation := by rw [h]
theorem jobQueue (h : EndFrame s t) : t.jobQueue = s.jobQueue := by rw [h]

end EndFrame

theorem FaultReported.memories {s t : State} {k : Key} {c : CopyNo} {e : Entry} {d : CopyDescriptor}
    (reported : FaultReported s t k c e d) (canonical : MemoriesCanonical s) : MemoriesCanonical t := by
  rw [reported.frame]
  exact ⟨canonical.array, canonical.windows, canonical.buffers⟩

/-! ## One page of a whole copy -/

section Source
variable {s : State} {r : RunningJob} {e : Entry} {d : CopyDescriptor} {c : CopyNo}
  {header : Option HeaderPayload} {page : Nat} {left : List Nat} {got : List Byte} {o : ReadOutcome}
  {next : State → CopyNo → SourceStep → State}

/-- What a page of the read brings, and its report applied. -/
theorem sourcePageDone_at (at' : Sourcing s r e d c header page left got) :
    sourcePageDone o s r next = next
      (reportPage s r.key c (readCell (s.page page) o)
        (sourceAdvance e d c header (page :: left) got (readCell (s.page page) o) == .faulty true)
        (sourceAdvance e d c header (page :: left) got (readCell (s.page page) o) == .faulty true ||
          sourceAdvance e d c header (page :: left) got (readCell (s.page page) o) == .faulty false))
      c (sourceAdvance e d c header (page :: left) got (readCell (s.page page) o)) := by
  simp only [sourcePageDone, at'.stage, at'.entry, at'.descriptor, at'.operation, if_true]

/-- A page that reads CLEAN and is right. -/
theorem sourcePageDone_clean {report : PageReport} {step : SourceStep}
    (at' : Sourcing s r e d c header page left got) (reads : readCell (s.page page) o = report)
    (uncorrected : report.corrected = false)
    (brings : sourceAdvance e d c header (page :: left) got report = step)
    (right : ∀ b, step ≠ .faulty b) : sourcePageDone o s r next = next s c step := by
  have whole : ∀ b, (step == .faulty b) = false := fun b => by simpa using right b
  rw [sourcePageDone_at at', reads, brings, whole, whole]
  exact congrArg (next · c step) (reportPage_clean uncorrected)

/-- A page that reads CORRECTED and is right. -/
theorem sourcePageDone_corrected {report : PageReport} {step : SourceStep}
    (at' : Sourcing s r e d c header page left got) (reads : readCell (s.page page) o = report)
    (corrected : report.corrected = true)
    (brings : sourceAdvance e d c header (page :: left) got report = step)
    (right : ∀ b, step ≠ .faulty b) :
    sourcePageDone o s r next = next (chargeCorrection s r.key c false) c step := by
  have whole : ∀ b, (step == .faulty b) = false := fun b => by simpa using right b
  rw [sourcePageDone_at at', reads, brings, whole, whole]
  exact congrArg (next · c step) (reportPage_charged corrected)

/-- What a page that makes the copy faulty brings, and that it reports no correction. -/
theorem sourceFails_step (fails : SourceFails s e d c header page left got o) :
    (readCell (s.page page) o).corrected = false ∧
      ∃ byPage, sourceAdvance e d c header (page :: left) got (readCell (s.page page) o) = .faulty byPage := by
  rcases fails with ⟨held, tag, payload, bad⟩ | ⟨tag, h, cell, rfl, rfl, differs⟩ |
    ⟨tag, bytes, h, cell, rfl, rfl, rfl, crc⟩
  · rw [readCell_of_ne_blank held]
    refine ⟨?_, true, ?_⟩
    · simp only [PageReport.corrected, readPart_not_corrected _ tag, readPart_not_corrected _ payload,
        Bool.or_false]
    · have unread : (PageReport.parts (readPart (s.page page).tag o.tag)
          (readPart (s.page page).payload o.payload)).readable = none := by
        rcases bad with bad | bad
        · rw [bad, readPart_uncorrectable]
          rfl
        · rw [bad, readPart_uncorrectable]
          cases readPart (s.page page).tag o.tag <;> rfl
      simp only [sourceAdvance, unread]
  · rw [cell, readCell_holds]
    refine ⟨rfl, true, ?_⟩
    show (if _ then _ else _) = _
    rw [if_neg]
    simpa [and_assoc] using differs
  · rw [cell, readCell_holds]
    refine ⟨rfl, false, ?_⟩
    show sourceNext e c h [] (got ++ bytes) = _
    simp [sourceNext, crc]

/-- A page that makes the copy faulty. -/
theorem sourcePageDone_fails (at' : Sourcing s r e d c header page left got)
    (fails : SourceFails s e d c header page left got o) :
    ∃ byPage, sourcePageDone o s r next = next (copyFault s r.key c) c (.faulty byPage) := by
  obtain ⟨uncorrected, byPage, brings⟩ := sourceFails_step fails
  refine ⟨byPage, ?_⟩
  rw [sourcePageDone_at at', brings]
  have faulty : ((SourceStep.faulty byPage == .faulty true) || (SourceStep.faulty byPage == .faulty false)) =
      true := by cases byPage <;> rfl
  rw [faulty, reportPage_fault uncorrected]

/-- A header that agrees with the entry and the descriptor. -/
theorem sourceAdvance_header {h : HeaderPayload} {next : Nat} {more : List Nat} {tag : Tag}
    (key : h.key = e.key) (version : h.version = e.version) (copy : h.copyNumber = copyNumber c)
    (pages : h.dataPages = d.dataPages) :
    sourceAdvance e d c none (page :: next :: more) got
        (.parts (some (tag, false)) (some (.header h, false))) =
      .more (.source c (some h) (next :: more) got) := by
  simp [sourceAdvance, PageReport.readable, key, version, copy, pages, sourceNext]

/-- A data page before the last. -/
theorem sourceAdvance_data {h : HeaderPayload} {next : Nat} {more : List Nat} {tag : Tag}
    {bytes : List Byte} (corrected : Bool) :
    sourceAdvance e d c (some h) (page :: next :: more) got
        (.parts (some (tag, false)) (some (.data bytes, corrected))) =
      .more (.source c (some h) (next :: more) (got ++ bytes)) := rfl

/-- The last data page of a copy whose CRC matches. -/
theorem sourceAdvance_last {h : HeaderPayload} {tag : Tag} {bytes : List Byte}
    (crc : crc32 ((got ++ bytes).take e.length) = h.crc) :
    sourceAdvance e d c (some h) [page] got (.parts (some (tag, false)) (some (.data bytes, false))) =
      .complete ((got ++ bytes).take e.length) := by
  simp [sourceAdvance, PageReport.readable, sourceNext, crc]

end Source

/-! ## The events of the jobs that read whole copies -/

section Events
variable {s : State} {r : RunningJob} {o : ReadOutcome}

theorem exec_preload_page (ready : s.isReady = true) (running : s.running = some r)
    (kind : r.job.kind = .preload) :
    exec (.copySourcePageRead o) s = .next (sourcePageDone o s r (preloadStep r)) := by
  show Host.Outcome.next _ = _
  rw [jobEvent_running ready running, copySourcePageDone, kind]

theorem exec_raise_page (ready : s.isReady = true) (running : s.running = some r)
    (kind : r.job.kind = .writeCopy) :
    exec (.copySourcePageRead o) s = .next (sourcePageDone o s r (raiseStep r)) := by
  show Host.Outcome.next _ = _
  rw [jobEvent_running ready running, copySourcePageDone, kind]

theorem exec_repair_page (ready : s.isReady = true) (running : s.running = some r)
    (kind : r.job.kind = .repair) :
    exec (.repairSourcePageRead o) s = .next (sourcePageDone o s r (repairStep r)) := by
  show Host.Outcome.next _ = _
  rw [jobEvent_running ready running, repairSourcePageDone, kind]

theorem exec_patrol_page (ready : s.isReady = true) (running : s.running = some r)
    (kind : r.job.kind = .patrol) :
    exec (.patrolPageRead o) s = .next (sourcePageDone o s r (patrolStep r)) := by
  show Host.Outcome.next _ = _
  rw [jobEvent_running ready running, patrolPageDone, kind]

/-- Whichever job reads, a page that is not the last leads on to the next one. -/
theorem exec_sourceEvent {command : Instr} (ready : s.isReady = true) (running : s.running = some r)
    (event : SourceEvent r o command) :
    ∃ next, exec command s = .next (sourcePageDone o s r next) ∧
      ∀ u c stage, next u c (.more stage) = continueSource u r stage := by
  rcases event with ⟨rfl, kind | kind⟩ | ⟨rfl, kind⟩ | ⟨rfl, kind⟩
  · exact ⟨_, exec_preload_page ready running kind, fun _ _ _ => rfl⟩
  · exact ⟨_, exec_raise_page ready running kind, fun _ _ _ => rfl⟩
  · exact ⟨_, exec_repair_page ready running kind, fun _ _ _ => rfl⟩
  · exact ⟨_, exec_patrol_page ready running kind, fun _ _ _ => rfl⟩

/-- A CORRECTED data page before the last: charged to the copy, and the read goes on. -/
theorem sourceEvent_corrected {e : Entry} {d : CopyDescriptor} {c : CopyNo} {h : HeaderPayload}
    {page next : Nat} {more : List Nat} {got bytes : List Byte} {tag : Tag} {command : Instr}
    (at' : Sourcing s r e d c (some h) page (next :: more) got)
    (event : SourceEvent r ⟨.clean, .corrected⟩ command)
    (cell : s.page page = ⟨.holds tag, .holds (.data bytes)⟩) :
    exec command s = .next { chargeCorrection s r.key c false with
      operation := some (.read next)
      running := some { r with stage := .source c (some h) (next :: more) (got ++ bytes) } } := by
  obtain ⟨step, run, goes⟩ := exec_sourceEvent at'.ready at'.running event
  have reads : readCell (s.page page) ⟨.clean, .corrected⟩ =
      .parts (some (tag, false)) (some (.data bytes, true)) := by
    rw [cell, readCell_holds]
    rfl
  rw [run, sourcePageDone_corrected at' reads rfl (sourceAdvance_data true) (by simp), goes]
  rfl

/-- A CLEAN data page before the last: the read goes on. -/
theorem sourceEvent_clean {e : Entry} {d : CopyDescriptor} {c : CopyNo} {h : HeaderPayload}
    {page next : Nat} {more : List Nat} {got bytes : List Byte} {tag : Tag} {command : Instr}
    (at' : Sourcing s r e d c (some h) page (next :: more) got)
    (event : SourceEvent r ⟨.clean, .clean⟩ command)
    (cell : s.page page = ⟨.holds tag, .holds (.data bytes)⟩) :
    exec command s = .next { s with
      operation := some (.read next)
      running := some { r with stage := .source c (some h) (next :: more) (got ++ bytes) } } := by
  obtain ⟨step, run, goes⟩ := exec_sourceEvent at'.ready at'.running event
  have reads : readCell (s.page page) ⟨.clean, .clean⟩ =
      .parts (some (tag, false)) (some (.data bytes, false)) := by
    rw [cell, readCell_holds]
    rfl
  rw [run, sourcePageDone_clean at' reads rfl (sourceAdvance_data false) (by simp), goes]
  rfl

/-- A CLEAN header that agrees: the read goes on to the first data page. -/
theorem sourceEvent_header {e : Entry} {d : CopyDescriptor} {c : CopyNo} {h : HeaderPayload}
    {page next : Nat} {more : List Nat} {tag : Tag} {command : Instr}
    (at' : Sourcing s r e d c none page (next :: more) []) (event : SourceEvent r ⟨.clean, .clean⟩ command)
    (cell : s.page page = ⟨.holds tag, .holds (.header h)⟩) (key : h.key = e.key)
    (version : h.version = e.version) (copy : h.copyNumber = copyNumber c)
    (pages : h.dataPages = d.dataPages) :
    exec command s = .next { s with
      operation := some (.read next)
      running := some { r with stage := .source c (some h) (next :: more) [] } } := by
  obtain ⟨step, run, goes⟩ := exec_sourceEvent at'.ready at'.running event
  have reads : readCell (s.page page) ⟨.clean, .clean⟩ =
      .parts (some (tag, false)) (some (.header h, false)) := by
    rw [cell, readCell_holds]
    rfl
  rw [run, sourcePageDone_clean at' reads rfl (sourceAdvance_header key version copy pages) (by simp), goes]
  rfl

/-- The last page of a copy whose CRC matches. -/
theorem sourcePageDone_complete {e : Entry} {d : CopyDescriptor} {c : CopyNo} {h : HeaderPayload}
    {page : Nat} {got bytes content : List Byte} {tag : Tag} {next : State → CopyNo → SourceStep → State}
    (at' : Sourcing s r e d c (some h) page [] got) (cell : s.page page = ⟨.holds tag, .holds (.data bytes)⟩)
    (taken : content = (got ++ bytes).take e.length) (crc : crc32 content = h.crc) :
    sourcePageDone ⟨.clean, .clean⟩ s r next = next s c (.complete content) := by
  subst taken
  have reads : readCell (s.page page) ⟨.clean, .clean⟩ =
      .parts (some (tag, false)) (some (.data bytes, false)) := by
    rw [cell, readCell_holds]
    rfl
  exact sourcePageDone_clean at' reads rfl (sourceAdvance_last crc) (by simp)

end Events

end Sys2Proof.Machine

/-! The ends of the whole-copy reads (R79, R91, R92, R125, R143, R144, R148). -/

namespace Sys2Proof.Machine

section Ends
variable {s u : State} {r : RunningJob} {e : Entry} {p : Port} {hd : Handle}

/-- The end DONE of a PRELOAD (R91, R92). -/
theorem endPreloadDone_answered {bytes : List Byte} (window : (s.port p).window.wf)
    (handle : r.job.handle = some hd) (port : r.job.port = some p) :
    endPreloadDone s r e bytes = settleRetirements { s with
        ports := (endPreloadDone s r e bytes).ports
        claims := s.claims.set hd.slot (preloadSlot s (s.slot hd.slot) p bytes e.length)
        running := none, operation := none, engine := .free } ∧
      PortAnswered s (endPreloadDone s r e bytes) p false ∧
      resultArea (endPreloadDone s r e bytes) p = resultBytes (s.port p).go .done
        { slot := hd.slot.val, generation := hd.generation.toNat, base := (s.slot hd.slot).base,
          length := e.length, count := e.length, cls := classCode e.cls, level := levelCode e.level,
          at75 := s.effective.portSettings[p].leaseLength } := by
  have ends : endPreloadDone s r e bytes = finishJob (post
      (s.setSlot hd.slot (preloadSlot s (s.slot hd.slot) p bytes e.length)) p .done
      (claimResult s p hd (s.slot hd.slot).base e.length e.length (classCode e.cls) (levelCode e.level))
      none) := by
    simp only [endPreloadDone, handle, port]
  have answered := post_answered_ports (s := s)
    (s' := s.setSlot hd.slot (preloadSlot s (s.slot hd.slot) p bytes e.length)) rfl window .done
    (claimResult s p hd (s.slot hd.slot).base e.length e.length (classCode e.cls) (levelCode e.level)) none
  rw [ends]
  refine ⟨?_, answered.1, answered.2⟩
  conv_lhs => rw [finishJob, post_eq]
  rfl

/-- A release for a job of a handle: the slot (R87). -/
theorem releaseJobSlot_claims {cause : ReleaseCause} (other : cause ≠ .lapsed)
    (handle : r.job.handle = some hd) : (releaseJobSlot s r cause).claims = released s hd := by
  simp only [releaseJobSlot, handle]
  rw [releaseSlot_frame, ← released_eq s hd other]

/-- The entry after the release of a job's slot that removes no FORMING entry: its claim field is cleared where it
named the claim (R87). -/
theorem releaseJobSlot_entry {cause : ReleaseCause} {k : Key} (keeps : cause.removesForming = false)
    (handle : r.job.handle = some hd) (entry : s.entry k = some e) :
    ∃ e', (releaseJobSlot s r cause).entry k = some e' ∧ (e' = e ∨ e' = { e with claim := none }) ∧
      (ClaimOf s k e hd → e' = { e with claim := none }) := by
  simp only [releaseJobSlot, handle]
  by_cases named : (s.slot hd.slot).target = some (.record k) ∧
      e.claim = some ⟨hd.slot, (s.slot hd.slot).generation⟩
  · refine ⟨{ e with claim := none }, ?_, .inr rfl, fun _ => rfl⟩
    rw [releaseSlot_entry_claimed named.1 entry named.2, if_neg]
    rintro ⟨-, -, removes⟩
    exact absurd (keeps.symm.trans removes) (by decide)
  · refine ⟨e, ?_, .inl rfl, fun claim => absurd ⟨claim.2.2, ?_⟩ named⟩
    · rw [releaseSlot_entry_kept, entry]
      intro e' target entry' claim
      rw [entry] at entry'
      cases entry'
      exact named ⟨target, claim⟩
    · rw [claim.1, claim.2.1]

/-- The end of a PRELOAD without a readable copy (R92). -/
theorem endPreloadDamaged_answered (units : u.ports = s.ports) (window : (s.port p).window.wf)
    (port : r.job.port = some p) :
    PortAnswered s (endPreloadDamaged u r) p false ∧
      resultArea (endPreloadDamaged u r) p = resultBytes (s.port p).go .damaged {} := by
  have ends : endPreloadDamaged u r = finishJob (post (releaseJobSlot u r .failed) p .damaged {} none) := by
    rw [endPreloadDamaged, completeJob_some port]
  have same : (releaseJobSlot u r .failed).ports = s.ports := by
    rw [releaseJobSlot_frame (by decide), ← units]
  rw [ends]
  exact post_answered_ports same window .damaged {} none

/-- What the end of a PRELOAD leaves of the record and the lists: what the release of its slot leaves. -/
theorem endPreloadDamaged_lists (u : State) (r : RunningJob) :
    (endPreloadDamaged u r).directory = (releaseJobSlot u r .failed).directory ∧
      (endPreloadDamaged u r).claims = (releaseJobSlot u r .failed).claims ∧
      (endPreloadDamaged u r).changeSets = u.changeSets ∧
      (endPreloadDamaged u r).repairList = u.repairList := by
  show (completeJob (releaseJobSlot u r .failed) r .damaged {} none).directory = _ ∧
    (completeJob (releaseJobSlot u r .failed) r .damaged {} none).claims = _ ∧
    (completeJob (releaseJobSlot u r .failed) r .damaged {} none).changeSets = _ ∧
    (completeJob (releaseJobSlot u r .failed) r .damaged {} none).repairList = _
  rw [completeJob_frame]
  refine ⟨rfl, rfl, ?_, ?_⟩
  · show (releaseJobSlot u r .failed).changeSets = _
    rw [releaseJobSlot_frame (by decide)]
  · show (releaseJobSlot u r .failed).repairList = _
    rw [releaseJobSlot_frame (by decide)]

theorem endPreloadDamaged_ended (u : State) (r : RunningJob) : JobEnded (endPreloadDamaged u r) :=
  finishJob_ended _

end Ends

/-! ## The fallback and the patrol -/

section Fallback
variable {s : State} {r : RunningJob} {e : Entry} {c : CopyNo} {d₂ : CopyDescriptor} {failed : State}

/-- Copy 1 of a MIRRORED record is left for a valid copy 2 (R79, R92). -/
theorem sourceFaulty_fallback (entry : s.entry r.key = some e) (cls : e.cls = .mirrored)
    (copy : e.copy2 = some d₂) (valid : d₂.valid = true) :
    sourceFaulty s r .one failed = beginSource s r .two d₂ := by
  have two : e.copyValid .two = true := by simp [Entry.copyValid, Entry.copy, copy, valid]
  have falls : fallback s r.key .one = some e := by simp [fallback, entry, cls, two]
  simp only [sourceFaulty, falls, copy]

/-- With no copy to fall back to the job fails. -/
theorem sourceFaulty_fails (entry : s.entry r.key = some e)
    (alone : ¬(c = .one ∧ e.cls = .mirrored ∧ e.copyValid .two = true)) :
    sourceFaulty s r c failed = failed := by
  have falls : fallback s r.key c = none := by
    rw [fallback, entry]
    simpa [Option.filter, imp_iff_not_or, and_assoc] using alone
  simp only [sourceFaulty, falls]

/-- A patrol step goes on from copy 1 to a valid copy 2 (R148). -/
theorem patrolFrom_two (entry : s.entry r.key = some e) (copy : e.copy2 = some d₂) (valid : d₂.valid = true) :
    patrolFrom s r (copiesAfter .one) = beginSource s r .two d₂ := by
  simp [patrolFrom, copiesAfter, entry, Entry.copy, copy, valid]

/-- A patrol step ends after copy 2, and after copy 1 where copy 2 is not valid (R148). -/
theorem patrolFrom_ends (entry : s.entry r.key = some e) (last : c = .two ∨ e.copyValid .two = false) :
    patrolFrom s r (copiesAfter c) = finishJob s := by
  cases c with
  | two => rfl
  | one =>
    have invalid := last.resolve_left (by decide)
    rw [Entry.copyValid] at invalid
    simp only [copiesAfter, patrolFrom, entry, Option.bind_some]
    cases copy : e.copy .two with
    | none => rfl
    | some d =>
      rw [copy, Option.any_some] at invalid
      simp [invalid]

end Fallback

/-! ## The draw after a source read -/

section Draw
variable {s : State} {r : RunningJob} {e₀ : Entry} {content : List Byte} {copies number need count : Nat}

/-- The running job that has read its source: its content and the CRC (R126, R144). -/
def withContent (r : RunningJob) (content : List Byte) : RunningJob :=
  { r with content := content, crc := crc32 content }

/-- The jobs that draw after a source read: the copies they program, the first of them, and the need they reserved. -/
def DrawsCopies (r : RunningJob) (e₀ : Entry) (copies number need : Nat) : Prop :=
  r.job.kind = .writeCopy ∧ number = 1 ∧ copies = e₀.cls.copies ∧ need = r.job.need ∨
  r.job.kind = .repair ∧ number = copyNumber r.job.params.copy ∧ copies = 1 ∧ r.job.need = 0 ∧ need = 0

theorem DrawsCopies.length (draws : DrawsCopies r e₀ copies number need) (entry : r.entry = some e₀) :
    (allocationRoles (withContent r content)).length = copies * (1 + (r.job.params.length + 63) / 64) := by
  rcases draws with ⟨kind, -, rfl, -⟩ | ⟨kind, -, rfl, -, -⟩
  · have cls : (withContent r content).cls = e₀.cls := by simp [RunningJob.cls, withContent, entry]
    rw [length_allocationRoles_write (r := withContent r content) kind, cls]
    rfl
  · rw [allocationRoles_repair (r := withContent r content) kind, length_copyRoles, Nat.one_mul]
    rfl

theorem DrawsCopies.roles (draws : DrawsCopies r e₀ copies number need) (atLeast : 1 ≤ r.job.params.length) :
    ∃ c later, copyNumber c = number ∧ allocationRoles (withContent r content) = .data c 0 :: later := by
  rcases draws with ⟨kind, rfl, -, -⟩ | ⟨kind, rfl, -, -, -⟩
  · obtain ⟨later, roles⟩ := allocationRoles_write_head (r := withContent r content) kind atLeast
    exact ⟨.one, later, rfl, roles⟩
  · obtain ⟨later, roles⟩ := copyRoles_head r.job.params.copy atLeast
    exact ⟨_, later, rfl, (allocationRoles_repair kind).trans roles⟩

theorem DrawsCopies.need_eq (draws : DrawsCopies r e₀ copies number need) : need = r.job.need := by
  rcases draws with ⟨-, -, -, same⟩ | ⟨-, -, -, none, same⟩
  · exact same
  · rw [same, none]

end Draw

/-- Settles O41. -/
theorem sourceReadGoesOn : Obligations.SourceReadGoesOn := by
  refine ⟨?_, ?_, ?_, ?_, ?_⟩
  · intro s r e d c page next more tag h command at' event cell key version copy pages
    exact sourceEvent_header at' event cell key version copy pages
  · intro s r e d c h page next more got bytes tag command at' cell
    refine ⟨fun event => sourceEvent_clean at' event cell, fun event valid => ?_⟩
    have run := sourceEvent_corrected at' event cell
    have frame := chargeCorrection_frame s r.key c false
    refine ⟨_, run, chargeCorrection_entry at'.entry at'.descriptor valid false,
      chargeCorrection_refresh at'.entry at'.descriptor valid,
      fun below => chargeCorrection_below at'.entry at'.descriptor valid below false, rfl, rfl, ?_, ?_, ?_⟩
    · show (chargeCorrection s r.key c false).ports = _
      rw [frame]
    · show (chargeCorrection s r.key c false).changeSets = _
      rw [frame]
    · show (chargeCorrection s r.key c false).array = _
      rw [frame]
  · intro s r e d c h page got bytes content tag hd p canonical at' kind handle port cell taken crc
    have run := exec_preload_page (o := ⟨.clean, .clean⟩) at'.ready at'.running kind
    rw [sourcePageDone_complete at' cell taken crc, preloadStep, at'.entry] at run
    obtain ⟨frame, answered, area⟩ := endPreloadDone_answered (e := e) (bytes := content)
      (canonical.windows p) handle port
    refine ⟨_, preloadSlot s (s.slot hd.slot) p content e.length, run, frame, rfl, fun a => ?_, answered, area⟩
    rw [preloadSlot, Memory.read_writeRange (canonical.buffers hd.slot)]
    simp
  · intro s r e e₀ d c h page first version count copies number need others got bytes content tag command at'
      cell taken crc how rEntry written atLeast countIs
    have draws : DrawsCopies r e₀ copies number need := by
      rcases how with ⟨-, kind, rfl, copiesIs, needIs⟩ | ⟨-, kind, rfl, rfl, zero, needIs⟩
      · refine .inl ⟨kind, rfl, ?_, needIs⟩
        rw [copiesIs]
        cases e₀.cls <;> rfl
      · exact .inr ⟨kind, rfl, rfl, zero, needIs⟩
    have run : exec command s = .next (continueDraw s (withContent r content) count none) := by
      rw [countIs, ← draws.length (content := content) rEntry]
      rcases how with ⟨rfl, kind, -⟩ | ⟨rfl, kind, -⟩
      · rw [exec_raise_page at'.ready at'.running kind, sourcePageDone_complete at' cell taken crc]
        rfl
      · rw [exec_repair_page at'.ready at'.running kind, sourcePageDone_complete at' cell taken crc]
        rfl
    have roleCount := (draws.length (content := content) rEntry).trans countIs.symm
    refine ⟨fun pages enough => ?_, fun head k rest few dirty => ?_, fun canonical few dirty => ?_⟩
    · obtain ⟨c', later, numberIs, roles⟩ := draws.roles (content := content) atLeast
      have cls : (withContent r content).cls = e₀.cls := by simp [RunningJob.cls, withContent, rEntry]
      have written' : (withContent r content).versionWritten = some version := written
      rw [continueDraw_data enough pages roles, numberIs, cls, written'] at run
      obtain ⟨drawn, fresh⟩ := allocated_drawn (r := withContent r content) enough roleCount.symm pages
      refine ⟨_, { allocated s (withContent r content) count with stage := .programming }, run, ?_, rfl, rfl,
        written, rfl, rfl, rfl, rfl, rfl, drawn, fresh⟩
      rw [draws.need_eq]
      rfl
    · rw [run, continueDraw_erases few dirty]
      rfl
    · rw [continueDraw_fails_allocation few dirty] at run
      have frame := EndFrame.failJob { s with reservation := s.reservation - r.job.need }
        (withContent r content) .noSpace
      have fails := failJob_fails (s := s) (s' := { s with reservation := s.reservation - r.job.need })
        (r := r) (r' := withContent r content) ⟨rfl, rfl, rfl, rfl, rfl⟩ (fun _ here => .inl here) rfl rfl rfl
        canonical .noSpace
      refine ⟨_, run, ?_, frame.erased, fun p kind phase port => fails.undone p e kind phase port at'.entry,
        fails.repair⟩
      rw [draws.need_eq]
      exact frame.reservation
  · intro s r e d c h page got bytes tag at' kind cell crc
    have run := exec_patrol_page (o := ⟨.clean, .clean⟩) at'.ready at'.running kind
    rw [sourcePageDone_complete at' cell rfl crc, patrolStep] at run
    refine ⟨?_, fun last => ?_⟩
    · rintro d₂ rfl copy valid
      rw [run, patrolFrom_two at'.entry copy valid]
      rfl
    · rw [run, patrolFrom_ends at'.entry last]
      rfl

/-- An answer from a state whose ports are those of the event. -/
theorem PortAnswered.of_ports {s u t : State} {p : Port} {returnsData : Bool}
    (units : u.ports = s.ports) (answered : PortAnswered u t p returnsData) : PortAnswered s t p returnsData := by
  have same : ∀ q, s.port q = u.port q := fun q => by simp [State.port, units]
  refine ⟨fun q other => by rw [same, answered.others q other], ?_, ?_, ?_⟩
  all_goals rw [same]
  · exact answered.unit
  · exact answered.commandArea
  · exact answered.data

/-- Settles O42. -/
theorem sourceReadFails : Obligations.SourceReadFails := by
  intro s r e d c header page left got o canonical at' valid fails
  have reported := copyFault_reported at'.entry at'.descriptor valid
  have units : (copyFault s r.key c).ports = s.ports := by rw [reported.frame]
  have claims : (copyFault s r.key c).claims = s.claims := by rw [reported.frame]
  refine ⟨?_, fun alone => ⟨?_, ?_⟩, ?_⟩
  · rintro d₂ kind rfl mirrored copy2 valid2
    have two : e.copyValid .two = true := by simp [Entry.copyValid, Entry.copy, copy2, valid2]
    have degraded := faultyEntry_degraded (d := d) mirrored two
    have run : exec (.copySourcePageRead o) s =
        .next (beginSource (copyFault s r.key .one) r .two d₂) := by
      have falls : ∀ failed, sourceFaulty (copyFault s r.key .one) r .one failed =
          beginSource (copyFault s r.key .one) r .two d₂ := fun failed =>
        sourceFaulty_fallback reported.entry (by simpa using mirrored) (by simpa using copy2) valid2
      rcases kind with kind | kind
      · obtain ⟨byPage, brings⟩ := sourcePageDone_fails (next := preloadStep r) at' fails
        rw [exec_preload_page at'.ready at'.running kind, brings, preloadStep, falls]
      · obtain ⟨byPage, brings⟩ := sourcePageDone_fails (next := raiseStep r) at' fails
        rw [exec_raise_page at'.ready at'.running kind, brings, raiseStep, falls]
    exact ⟨_, run, reported.entry, reported.lost degraded, rfl, rfl, units,
      reported.noticed (by rw [degraded]; decide), claims⟩
  · intro hd p kind handle port
    have alone' : ¬(c = .one ∧ (faultyEntry e c d).cls = .mirrored ∧
        (faultyEntry e c d).copyValid .two = true) := by
      rintro ⟨rfl, mirrored, two⟩
      exact alone ⟨rfl, by simpa using mirrored, by simpa using two⟩
    obtain ⟨byPage, brings⟩ := sourcePageDone_fails (next := preloadStep r) at' fails
    have run := exec_preload_page (o := o) at'.ready at'.running kind
    rw [brings, preloadStep, sourceFaulty_fails reported.entry alone'] at run
    obtain ⟨e', entry, shape, claimed⟩ := releaseJobSlot_entry (cause := .failed) rfl handle reported.entry
    obtain ⟨directory, slots, notices, -⟩ := endPreloadDamaged_lists (copyFault s r.key c) r
    obtain ⟨answered, area⟩ := endPreloadDamaged_answered units (canonical.windows p) port
    have same : ∀ i, (copyFault s r.key c).slot i = s.slot i := fun i => by rw [State.slot, claims]; rfl
    refine ⟨_, e', run, endPreloadDamaged_ended _ _, (State.entry_congr directory _).trans entry, shape,
      fun claim => claimed ⟨?_, ?_, ?_⟩, fun q => ?_, ?_, answered, area⟩
    · rw [faultyEntry_claim, claim.1]
    · rw [same, claim.2.1]
    · rw [same, claim.2.2]
    · rw [← reported.notified q, State.changes, notices]
      rfl
    · rw [slots, releaseJobSlot_claims (by decide) handle, released, released, same, claims]
  · intro p kind cause handle port committed
    have alone' : ¬(c = .one ∧ (faultyEntry e c d).cls = .mirrored ∧
        (faultyEntry e c d).copyValid .two = true) := by
      rintro ⟨rfl, mirrored, two⟩
      exact alone ⟨rfl, by simpa using mirrored, by simpa using two⟩
    obtain ⟨byPage, brings⟩ := sourcePageDone_fails (next := raiseStep r) at' fails
    have run := exec_raise_page (o := o) at'.ready at'.running kind
    rw [brings, raiseStep, sourceFaulty_fails reported.entry alone', endRaiseDamaged] at run
    have undone := endBeforeCommit_undone (s := copyFault s r.key c)
      (s' := { copyFault s r.key c with reservation := (copyFault s r.key c).reservation - r.job.need })
      ⟨rfl, rfl, rfl, rfl, rfl⟩ (fun _ here => .inl here) (rfl : r.job = r.job)
      (reported.memories canonical) port (by simp [kind]) reported.entry .damaged
    have frame := EndFrame.endBeforeCommit
      { copyFault s r.key c with reservation := (copyFault s r.key c).reservation - r.job.need } r .damaged
    have same : ∀ q, (copyFault s r.key c).port q = s.port q := fun q => by rw [State.port, units]; rfl
    obtain ⟨slots, live, -⟩ := undone.unclaimed handle
    refine ⟨_, run, undone.ended, live (by simpa using committed), fun q => ?_, ?_, ?_, slots.trans claims,
      undone.answer.of_ports units, ?_⟩
    · rw [← reported.notified q, State.changes, undone.notices]
      rfl
    · rw [frame.reservation]
      show (copyFault s r.key c).reservation - _ = _
      rw [reported.frame]
    · rw [frame.erased]
      show (copyFault s r.key c).erased = _
      rw [reported.frame]
    · rw [← same p]
      exact undone.result {} (.inr (.inr (.inl ⟨cause, rfl⟩)))
  · intro kind
    obtain ⟨byPage, brings⟩ := sourcePageDone_fails (next := repairStep r) at' fails
    have run := exec_repair_page (o := o) at'.ready at'.running kind
    rw [brings, repairStep] at run
    have undone := endRepairWithout_undone (StoodBefore.refl (copyFault s r.key c))
      (PagesBound.refl (copyFault s r.key c) r.key) (rfl : r.job = r.job)
    have frame := EndFrame.endRepairWithout (copyFault s r.key c) r
    refine ⟨_, run, undone.ended, (State.entry_congr undone.directory _).trans reported.entry, fun q => ?_, ?_,
      undone.ports.trans units, ?_, undone.repairs⟩
    · rw [← reported.notified q, State.changes, undone.notices]
      rfl
    · rw [frame.erased, reported.frame]
    · rw [frame.array, reported.frame]

end Sys2Proof.Machine

/-! The patrol step (R148) and the selection of the next job (R121, R141, R142, R146, R147). -/

namespace Sys2Proof.Machine

/-- What a fault reported, as it stands after a step that changes the engine's own state alone. -/
theorem FaultReported.stands {s u v : State} {k : Key} {c : CopyNo} {e : Entry} {d : CopyDescriptor}
    (reported : FaultReported s u k c e d)
    (same : v = { u with
      operation := v.operation
      running := v.running
      engine := v.engine
      retirementList := v.retirementList
      live := v.live
      eraseList := v.eraseList }) :
    v.entry k = some (faultyEntry e c d) ∧ FaultNotified s v k e (faultyEntry e c d) ∧
      ((faultyEntry e c d).integrity = .degraded → v.repairList.any (·.isFor k c) = true ∧
        ((∀ x ∈ s.repairList, x.isFor k c = true → x.running = false) →
          ⟨k, e.version, c, .lost, false, false⟩ ∈ v.repairList)) ∧
      ((faultyEntry e c d).integrity = .damaged → v.repairList = s.repairList) ∧
      v.ports = s.ports ∧ v.array = s.array ∧ v.erased = s.erased := by
  have ports : u.ports = s.ports := by rw [reported.frame]
  have array : u.array = s.array := by rw [reported.frame]
  have erased : u.erased = s.erased := by rw [reported.frame]
  rw [same]
  exact ⟨reported.entry, reported.notified, fun degraded => ⟨reported.lost degraded, reported.placed degraded⟩,
    fun damaged => reported.quiet (by rw [damaged]; decide), ports, array, erased⟩

/-- Settles O43. -/
theorem patrolReportsCopies : Obligations.PatrolReportsCopies := by
  refine ⟨?_, ?_⟩
  · intro s r e d c header page left got o at' kind valid fails
    have reported := copyFault_reported at'.entry at'.descriptor valid
    obtain ⟨byPage, brings⟩ := sourcePageDone_fails (next := patrolStep r) at' fails
    have run := exec_patrol_page (o := o) at'.ready at'.running kind
    rw [brings, patrolStep] at run
    have two : c = .one → (faultyEntry e c d).copy2 = e.copy2 ∧
        (faultyEntry e c d).copyValid .two = e.copyValid .two := by
      rintro rfl
      exact ⟨rfl, rfl⟩
    by_cases goesOn : c = .one ∧ e.copyValid .two = true
    · obtain ⟨first, validTwo⟩ := goesOn
      obtain ⟨d₂, copy, valid2⟩ := (Option.any_eq_true _ _).mp validTwo
      have copy2 : (faultyEntry e c d).copy2 = some d₂ := (two first).1.trans copy
      subst first
      rw [patrolFrom_two reported.entry copy2 valid2] at run
      obtain ⟨entry, notified, lost, quiet, ports, array, erased⟩ := reported.stands (v := beginSource _ r .two d₂) rfl
      refine ⟨_, run, entry, notified, lost, quiet, ports, array, erased, ?_, ?_⟩
      · intro d₃ _ copy3 _
        cases copy.symm.trans copy3
        exact ⟨rfl, rfl⟩
      · rintro (other | invalid)
        · cases other
        · exact absurd (validTwo.symm.trans invalid) (by decide)
    · have last : c = .two ∨ (faultyEntry e c d).copyValid .two = false := by
        cases c with
        | two => exact .inl rfl
        | one => exact .inr (by simpa using goesOn)
      rw [patrolFrom_ends reported.entry last] at run
      obtain ⟨entry, notified, lost, quiet, ports, array, erased⟩ :=
        reported.stands (v := finishJob (copyFault s r.key c)) rfl
      refine ⟨_, run, entry, notified, lost, quiet, ports, array, erased, ?_, fun _ => finishJob_ended _⟩
      intro d₂ first copy valid2
      exact absurd ⟨first, by simp [Entry.copyValid, Entry.copy, copy, valid2]⟩ goesOn
  · intro s r e d c h page next more got bytes tag at' kind valid cell
    have run := sourceEvent_corrected at' (.inr (.inr ⟨rfl, kind⟩)) cell
    have frame := chargeCorrection_frame s r.key c false
    refine ⟨_, run, chargeCorrection_entry at'.entry at'.descriptor valid false,
      chargeCorrection_refresh at'.entry at'.descriptor valid,
      fun below => chargeCorrection_below at'.entry at'.descriptor valid below false, rfl, ?_, ?_⟩
    · show (chargeCorrection s r.key c false).changeSets = _
      rw [frame]
    · show (chargeCorrection s r.key c false).array = _
      rw [frame]

end Sys2Proof.Machine

/-! The selection of the next job (R121, R141, R142, R146, R147, R160). -/

namespace Sys2Proof.Machine

section Select
variable {s : State}

theorem exec_jobSelect (ready : s.isReady = true) (free : s.engine = .free) :
    exec .jobSelect s = .next (selectJob s) := by
  have selects : (s.isReady && s.engine == .free) = true := by simp [ready, free]
  show Host.Outcome.next _ = _
  rw [if_pos selects]

theorem selectJob_background (empty : s.jobQueue = []) (drains : s.restarting = none) :
    selectJob s = selectBackground s := by
  simp only [selectJob, empty, drains, Option.isSome_none, Bool.false_eq_true, if_false]

theorem selectJob_draining (empty : s.jobQueue = []) (drains : s.restarting.isSome = true) :
    selectJob s = s := by
  simp only [selectJob, empty, drains, if_true]

/-! ## The Repair List head -/

variable {x : RepairEntry} {others : List RepairEntry} {e : Entry}

theorem repairNeed_of_entry (entry : s.entry x.key = some e) (current : x.superseded = false)
    (version : e.version = x.version) (whole : e.integrity ≠ .damaged) :
    repairNeed s x = 1 + (e.length + 63) / 64 := by
  simp only [repairNeed, entry, current, version, bne_self_eq_false, Bool.false_or,
    beq_eq_false_iff_ne.mpr whole, Bool.false_eq_true, if_false]
  rfl

/-- A discarded head needs no page (R141). -/
theorem repairNeed_of_discarded (discarded : x.superseded = true ∨ s.entry x.key = none ∨
      ∃ e, s.entry x.key = some e ∧ (e.version ≠ x.version ∨ e.integrity = .damaged)) :
    repairNeed s x = 0 := by
  unfold repairNeed
  split
  · rfl
  · next e entry =>
    rw [if_pos]
    rcases discarded with old | absent | ⟨e', entry', other | damaged⟩
    · simp [old]
    · simp [entry] at absent
    · rw [entry] at entry'
      cases entry'
      simp [other]
    · rw [entry] at entry'
      cases entry'
      simp [damaged]

theorem repairSelectable_iff : repairSelectable s x = true ↔
    s.reservation + repairNeed s x ≤ s.erased.length + s.eraseList.length := decide_eq_true_iff

theorem selectBackground_repair (list : s.repairList = x :: others) (fits : repairSelectable s x = true) :
    selectBackground s = startRepair s x := by
  simp only [selectBackground, list, fits, if_true]

theorem selectBackground_waits (list : s.repairList = x :: others)
    (waits : s.erased.length + s.eraseList.length < s.reservation + repairNeed s x) :
    selectBackground s = selectEraseOrPatrol s := by
  have unfit : repairSelectable s x = false := by
    rw [← Bool.not_eq_true, repairSelectable_iff]
    omega
  simp only [selectBackground, list, unfit, Bool.false_eq_true, if_false]

/-- With no repair to start the engine turns to the Erase List and to patrol (R121). -/
theorem selectBackground_of_noRepair (none : NoRepair s) : selectBackground s = selectEraseOrPatrol s := by
  rcases none with empty | ⟨some', few⟩ | ⟨x, others, e, list, entry, current, version, whole, few⟩
  · simp only [selectBackground, empty]
  · obtain ⟨x, others, list⟩ := List.exists_cons_of_ne_nil some'
    exact selectBackground_waits list (by omega)
  · exact selectBackground_waits list (by rw [repairNeed_of_entry entry current version whole]; exact few)

/-! ## A repair that ends at once -/

/-- The running field of a pair's entries does not matter once they are gone. -/
theorem filter_markRunning (l : List RepairEntry) (k : Key) (c : CopyNo) :
    ((l.map fun y => if y.isFor k c then { y with running := true } else y).filter fun y => !y.isFor k c) =
      l.filter fun y => !y.isFor k c := by
  induction l with
  | nil => rfl
  | cons y rest ih =>
    by_cases here : y.isFor k c = true
    · have marked : ({ y with running := true } : RepairEntry).isFor k c = true := here
      simp only [List.map_cons, here, if_true, marked, List.filter_cons, Bool.not_true, Bool.false_eq_true,
        if_false]
      exact ih
    · simp only [List.map_cons, here, if_false, List.filter_cons, Bool.false_eq_true]
      rw [ih]

/-- What the last step of a REPAIR's end leaves for a pair whose entry is off the list: nothing, or a LOST one. -/
theorem replaceLost_of_absent {k : Key} {version : Nat} {c : CopyNo} {y : RepairEntry}
    (absent : ∀ z ∈ s.repairList, z.isFor k c = false) (member : y ∈ (replaceLost s k version).repairList)
    (pair : y.isFor k c = true) : y.superseded = false ∧ y.cause = .lost := by
  have old : y ∉ s.repairList := fun inside => by simp [absent y inside] at pair
  unfold replaceLost at member
  split at member
  · exact absurd member old
  · split at member
    · next e _ _ =>
      unfold placeLost at member
      split at member
      · exact absurd member old
      · next free =>
        have unlisted : s.repairList.find? (·.isFor k (missingCopy e)) = none := by
          rw [List.find?_eq_none]
          simpa using free
        simp only [repairRequest, unlisted, repairListAdd, List.mem_append, List.mem_singleton] at member
        rcases member with earlier | rfl
        · split at earlier
          · exact absurd (List.mem_filter.mp earlier).1 old
          · exact absurd earlier old
        · exact ⟨rfl, rfl⟩
    · exact absurd member old

/-- Nothing is placed for a record that is absent, at another version, or DAMAGED (R145). -/
theorem replaceLost_of_other {k : Key} {version : Nat}
    (other : s.entry k = none ∨ ∃ e, s.entry k = some e ∧ (e.version ≠ version ∨ e.integrity = .damaged)) :
    replaceLost s k version = s := by
  unfold replaceLost
  rcases other with absent | ⟨e, entry, differs⟩
  · rw [absent]
  · rw [entry]
    refine if_neg fun all => ?_
    simp only [Bool.and_eq_true, decide_eq_true_eq, beq_iff_eq] at all
    obtain ⟨⟨same, -⟩, degraded⟩ := all
    rcases differs with version' | damaged
    · exact version' same
    · rw [damaged] at degraded
      cases degraded

/-- The running job of a REPAIR at its start (R141, R142). -/
def repairRun (s : State) (x : RepairEntry) : RunningJob :=
  { newRun (repairJob x (s.entry x.key)) (s.entry x.key) with versionWritten := some x.version }

theorem startRepair_discarded (discarded : x.superseded = true ∨ s.entry x.key = none ∨
      ∃ e, s.entry x.key = some e ∧ (e.version ≠ x.version ∨ e.integrity = .damaged)) :
    startRepair s x =
      endRepairWithout { markRunning s x.key x.copy with engine := .running } (repairRun s x) := by
  have here : ({ markRunning s x.key x.copy with engine := .running } : State).entry x.key =
      s.entry x.key := rfl
  simp only [startRepair, here]
  cases entry : s.entry x.key with
  | none =>
    simp only [repairRun, entry]
  | some e =>
    have ends : (x.superseded || e.version != x.version || e.integrity == .damaged) = true := by
      rcases discarded with old | absent | ⟨e', entry', other | damaged⟩
      · simp [old]
      · simp [entry] at absent
      · rw [entry] at entry'
        cases entry'
        simp [other]
      · rw [entry] at entry'
        cases entry'
        simp [damaged]
    simp only [ends, if_true, repairRun, entry]

/-- What a REPAIR that ends at once leaves (R142, R145). -/
theorem startRepair_discarded_ends (discarded : x.superseded = true ∨ s.entry x.key = none ∨
      ∃ e, s.entry x.key = some e ∧ (e.version ≠ x.version ∨ e.integrity = .damaged)) :
    JobEnded (startRepair s x) ∧ (startRepair s x).array = s.array ∧ (startRepair s x).erased = s.erased ∧
      (startRepair s x).directory = s.directory ∧ (startRepair s x).ports = s.ports ∧
      (x.superseded = false →
        (startRepair s x).repairList = s.repairList.filter fun y => !y.isFor x.key x.copy) ∧
      ∀ y ∈ (startRepair s x).repairList, y.isFor x.key x.copy = true →
        y.superseded = false ∧ y.cause = .lost := by
  have key : (repairRun s x).key = x.key := rfl
  have eq := startRepair_discarded discarded
  have frame := EndFrame.endRepairWithout { markRunning s x.key x.copy with engine := .running } (repairRun s x)
  have undone := endRepairWithout_undone
    (StoodBefore.refl { markRunning s x.key x.copy with engine := .running })
    (PagesBound.refl _ _) (rfl : (repairRun s x).job = (repairRun s x).job)
  obtain ⟨w, hw⟩ : ∃ w, w = dropRepair (inWriteToDirty
      { markRunning s x.key x.copy with engine := .running } x.key) x.key x.copy := ⟨_, rfl⟩
  have list : w.repairList = s.repairList.filter fun y => !y.isFor x.key x.copy := by
    rw [hw]
    exact filter_markRunning _ _ _
  have ends : (startRepair s x).repairList = (replaceLost w x.key x.version).repairList := by
    rw [eq, hw]
    rfl
  rw [eq]
  refine ⟨undone.ended, frame.array, frame.erased, undone.directory, undone.ports, fun current => ?_,
    fun y member pair => ?_⟩
  · rw [← eq, ends, replaceLost_of_other, list]
    rw [hw]
    exact discarded.resolve_left (by simp [current])
  · rw [← eq, ends] at member
    refine replaceLost_of_absent (fun z inside => ?_) member pair
    rw [list] at inside
    simpa using (List.mem_filter.mp inside).2

theorem startRepair_begins {c : CopyNo} {d : CopyDescriptor} (entry : s.entry x.key = some e)
    (current : x.superseded = false) (version : e.version = x.version) (whole : e.integrity ≠ .damaged)
    (source : c = repairSource x) (copy : e.copy c = some d) :
    startRepair s x = beginSource { markRunning s x.key x.copy with engine := .running } (repairRun s x) c d := by
  have here : ({ markRunning s x.key x.copy with engine := .running } : State).entry x.key =
      s.entry x.key := rfl
  have goes : (x.superseded || e.version != x.version || e.integrity == .damaged) = false := by
    simp [current, version, whole]
  subst source
  simp only [startRepair, here, entry, goes, Bool.false_eq_true, if_false, copy, repairRun]

/-! ## The patrol -/

theorem visited_iff : Visited e ↔ patrolled e = true := by simp [Visited, patrolled]

/-- The first entry of a directory in order that a test picks out is the one before no other of them. -/
theorem find_ordered {l : List Entry} {test : Entry → Bool}
    (ordered : l.Pairwise fun a b => a.key.before b.key = true) (member : e ∈ l) (here : test e = true)
    (first : ∀ x ∈ l, test x = true → x.key.before e.key = false) : l.find? test = some e := by
  obtain ⟨before, after, rfl⟩ := List.append_of_mem member
  rw [List.find?_eq_some_iff_append]
  refine ⟨here, before, after, rfl, fun x inside => ?_⟩
  have earlier := (List.pairwise_append.mp ordered).2.2 x inside e List.mem_cons_self
  cases test' : test x with
  | false => rfl
  | true => rw [first x (List.mem_append_left _ inside) test'] at earlier; cases earlier

/-- The record that follows the cursor (R147). -/
theorem patrolChoice_eq (ordered : DirectoryOrdered s) (next : PatrolNext s e) : patrolChoice s = some e := by
  obtain ⟨member, visited, where'⟩ := next
  have inside : e ∈ s.directory.filter patrolled :=
    List.mem_filter.mpr ⟨member, visited_iff.mp visited⟩
  have rising : (s.directory.filter patrolled).Pairwise fun a b => a.key.before b.key = true :=
    ordered.ordered.filter _
  have of_mem : ∀ x ∈ s.directory.filter patrolled, x ∈ s.directory ∧ Visited x := fun x hx =>
    ⟨(List.mem_filter.mp hx).1, visited_iff.mpr (List.mem_filter.mp hx).2⟩
  rcases where' with ⟨cursor, at', after, first⟩ | ⟨none', first⟩
  · have found : (s.directory.filter patrolled).find? (fun e => cursor.before e.key) = some e :=
      find_ordered rising inside after fun x hx before =>
        first x (of_mem x hx).1 (of_mem x hx).2 before
    simp only [patrolChoice, at', found, Option.some_or]
  · have head : (s.directory.filter patrolled).head? = some e := by
      have found := find_ordered (test := fun _ => true) rising inside rfl fun x hx _ =>
        first x (of_mem x hx).1 (of_mem x hx).2
      cases h : s.directory.filter patrolled with
      | nil => rw [h] at found; cases found
      | cons y rest => rw [h] at found; simpa using found
    cases at' : s.patrolCursor with
    | none => simp only [patrolChoice, at', head]
    | some cursor =>
      have unfound : (s.directory.filter patrolled).find? (fun e => cursor.before e.key) = none := by
        rw [List.find?_eq_none]
        intro x hx
        rw [none' cursor at' x (of_mem x hx).1 (of_mem x hx).2]
        decide
      simp only [patrolChoice, at', unfound, Option.none_or, head]

theorem patrolChoice_none (passed : ∀ e ∈ s.directory, ¬Visited e) : patrolChoice s = none := by
  have empty : s.directory.filter patrolled = [] :=
    List.filter_eq_nil_iff.mpr fun e member => fun visited => passed e member (visited_iff.mpr visited)
  simp only [patrolChoice, empty]
  split <;> rfl

/-- A patrol step begins with the first valid copy (R148). -/
theorem patrolFrom_first {r : RunningJob} {c : CopyNo} {d : CopyDescriptor} (entry : s.entry r.key = some e)
    (copy : e.copy c = some d) (valid : d.valid = true) (first : c = .two → e.copyValid .one = false) :
    patrolFrom s r [.one, .two] = beginSource s r c d := by
  cases c with
  | one => simp [patrolFrom, entry, copy, valid]
  | two =>
    have invalid := first rfl
    rw [Entry.copyValid] at invalid
    have goesOn : patrolFrom s r [.one, .two] = patrolFrom s r [.two] := by
      rw [patrolFrom, entry, Option.bind_some]
      cases one : e.copy .one with
      | none => rfl
      | some d₁ =>
        rw [one, Option.any_some] at invalid
        simp [invalid]
    rw [goesOn]
    simp [patrolFrom, entry, copy, valid]

/-- Whatever a patrol step finds, it touches the engine alone. -/
theorem patrolFrom_lists (s : State) (r : RunningJob) (copies : List CopyNo) :
    (patrolFrom s r copies).patrolDue = s.patrolDue ∧ (patrolFrom s r copies).repairList = s.repairList ∧
      (patrolFrom s r copies).directory = s.directory ∧ (patrolFrom s r copies).ports = s.ports ∧
      (patrolFrom s r copies).erased = s.erased := by
  induction copies with
  | nil => exact ⟨rfl, rfl, rfl, rfl, rfl⟩
  | cons c rest ih =>
    unfold patrolFrom
    split
    · split
      · exact ⟨rfl, rfl, rfl, rfl, rfl⟩
      · exact ih
    · exact ih

theorem startPatrol_lists (s : State) :
    (startPatrol s).patrolDue = false ∧ (startPatrol s).repairList = s.repairList ∧
      (startPatrol s).directory = s.directory ∧ (startPatrol s).ports = s.ports ∧
      (startPatrol s).erased = s.erased := by
  unfold startPatrol
  simp only
  split
  · exact ⟨rfl, rfl, rfl, rfl, rfl⟩
  · exact patrolFrom_lists _ _ _

theorem selectEraseOrPatrol_erase {page : Nat} {k : Option Key} {rest : List (Nat × Option Key)}
    (dirty : s.eraseList = (page, k) :: rest) : selectEraseOrPatrol s = startErase s page k := by
  simp only [selectEraseOrPatrol, dirty]

theorem selectEraseOrPatrol_patrol (dirty : s.eraseList = []) (due : s.patrolDue = true) :
    selectEraseOrPatrol s = startPatrol s := by
  simp only [selectEraseOrPatrol, dirty, due, if_true]

theorem selectEraseOrPatrol_idle (dirty : s.eraseList = []) (due : s.patrolDue = false) :
    selectEraseOrPatrol s = s := by
  simp only [selectEraseOrPatrol, dirty, due, Bool.false_eq_true, if_false]

end Select

/-! ## The foreground starts -/

section Starts
variable {s : State} {r : RunningJob} {e : Entry} {c : CopyNo} {d : CopyDescriptor} {failed : State}

theorem beginChosenSource_eq (copy : e.copy c = some d) (valid : d.valid = true)
    (first : c = .two → e.copyValid .one = false) :
    beginChosenSource s r e failed = beginSource s r c d := by
  simp only [beginChosenSource, chooseCopy_eq copy valid first, copy]

theorem beginChosenSource_failed (one : e.copyValid .one = false) (two : e.copyValid .two = false) :
    beginChosenSource s r e failed = failed := by
  simp [beginChosenSource, chooseCopy, one, two]

/-- The end of a write is the same for two records of its job that report the same. -/
theorem WriteUndone.of_run {t : State} {r' : RunningJob} {p : Port} {refusal : Completion}
    (undone : WriteUndone s t r e p refusal) (key : r'.key = r.key) (handle : r'.job.handle = r.job.handle)
    (reports : ∀ result, Reports s r' false false 0 result → Reports s r false false 0 result) :
    WriteUndone s t r' e p refusal where
  ended := undone.ended
  answer := undone.answer
  result := fun result reported => undone.result result (reports result reported)
  inWrite := undone.inWrite
  dirty := key ▸ undone.dirty
  notices := undone.notices
  repairs := undone.repairs
  moved := key ▸ undone.moved
  unclaimed := by rw [key, handle]; exact undone.unclaimed
  claimed := by rw [key, handle]; exact undone.claimed

end Starts

end Sys2Proof.Machine

/-! What JOB_SELECT starts (R121): the obligation itself. -/

namespace Sys2Proof.Machine

section Cases
variable {s : State} {j : Job} {rest : List Job} {k : Key} {e : Entry} {p : Port}

/-- The start of a job of each kind on a record. -/
theorem exec_jobSelect_preload (ready : s.isReady = true) (free : s.engine = .free)
    (head : s.jobQueue = j :: rest) (target : j.target = some (.record k)) (kind : j.kind = .preload) :
    exec .jobSelect s = .next (startPreload { s with jobQueue := rest, engine := .running } j k) := by
  rw [exec_jobSelect_start ready free head, startJob, kind, Job.key_of_record target]

theorem exec_jobSelect_writeCopy (ready : s.isReady = true) (free : s.engine = .free)
    (head : s.jobQueue = j :: rest) (target : j.target = some (.record k)) (kind : j.kind = .writeCopy) :
    exec .jobSelect s = .next (startWriteCopy { s with jobQueue := rest, engine := .running } j k) := by
  rw [exec_jobSelect_start ready free head, startJob, kind, Job.key_of_record target]

theorem exec_jobSelect_retire (ready : s.isReady = true) (free : s.engine = .free)
    (head : s.jobQueue = j :: rest) (target : j.target = some (.record k)) (kind : j.kind = .retire) :
    exec .jobSelect s = .next (startRetire { s with jobQueue := rest, engine := .running } j k) := by
  rw [exec_jobSelect_start ready free head, startJob, kind, Job.key_of_record target]

/-- The record of a RAISE job at its start (R79, R126). -/
def raiseRun (s : State) (j : Job) (e : Entry) : RunningJob :=
  { newRun { j with params := { j.params with length := e.length } } (some e) with
    versionWritten := some (versionToWrite s e) }

theorem startWriteCopy_raise (entry : s.entry k = some e) (cause : j.cause = some .raise) :
    startWriteCopy s j k =
      beginChosenSource s (raiseRun s j e) e (endRaiseDamaged s (raiseRun s j e)) := by
  rw [startWriteCopy, entry]
  exact if_pos cause

/-- The record of a RETIRE job at its start (R131). -/
def retireRun (j : Job) (e : Entry) : RunningJob :=
  { newRun { j with params := { j.params with level := e.level } } (some e) with
    versionWritten := some (e.version + 1) }

theorem startRetire_eq (entry : s.entry k = some e) (kind : j.kind = .retire) :
    startRetire s j k = continueDraw s (retireRun j e) 1 none := by
  have roles : (allocationRoles (retireRun j e)).length = 1 := by
    rw [allocationRoles_retire (r := retireRun j e) kind]
    rfl
  simp only [startRetire, entry]
  show beginDraw s (retireRun j e) = _
  rw [beginDraw, roles]

theorem retireRun_key (target : j.target = some (.record k)) : (retireRun j e).key = k := by
  simp [RunningJob.key, retireRun, newRun, Job.key, target]

/-- A PRELOAD of a DAMAGED record ends DAMAGED at its start (R92). -/
theorem preload_damaged {hd : Handle} (canonical : MemoriesCanonical s) (ready : s.isReady = true)
    (free : s.engine = .free) (head : s.jobQueue = j :: rest) (kind : j.kind = .preload)
    (target : j.target = some (.record k)) (port : j.port = some p) (handle : j.handle = some hd)
    (entry : s.entry k = some e) (damaged : e.integrity = .damaged) (claim : ClaimOf s k e hd) :
    ∃ t, exec .jobSelect s = .next t ∧ JobEnded t ∧ t.jobQueue = rest ∧ t.array = s.array ∧
      t.entry k = some { e with claim := none } ∧ t.claims = released s hd ∧
      t.changeSets = s.changeSets ∧ PortAnswered s t p false ∧
      resultArea t p = resultBytes (s.port p).go .damaged {} := by
  obtain ⟨u, hu⟩ : ∃ u : State, u = { s with jobQueue := rest, engine := .running } := ⟨_, rfl⟩
  have run := exec_jobSelect_preload ready free head target kind
  rw [← hu] at run
  have entry' : u.entry k = some e := by rw [hu]; exact entry
  have starts : startPreload u j k = endPreloadDamaged u (newRun j (some e)) := by
    simp only [startPreload, entry', damaged, if_true]
  rw [starts] at run
  have handle' : (newRun j (some e)).job.handle = some hd := handle
  have claim' : ClaimOf u k e hd := by rw [hu]; exact claim
  obtain ⟨e', entered, -, cleared⟩ := releaseJobSlot_entry (cause := .failed) rfl handle' entry'
  obtain ⟨directory, slots, notices, -⟩ := endPreloadDamaged_lists u (newRun j (some e))
  have frame := EndFrame.endPreloadDamaged u (newRun j (some e))
  obtain ⟨answered, area⟩ := endPreloadDamaged_answered (s := s) (u := u) (r := newRun j (some e))
    (by rw [hu]) (canonical.windows p) port
  refine ⟨_, run, endPreloadDamaged_ended _ _, ?_, ?_, ?_, ?_, ?_, answered, area⟩
  · rw [frame.jobQueue, hu]
  · rw [frame.array, hu]
  · rw [State.entry_congr directory, entered, cleared claim']
  · rw [slots, releaseJobSlot_claims (by decide) handle', hu]
    rfl
  · rw [notices, hu]

/-- A RAISE of a record without a valid copy ends DAMAGED at its start (R79). -/
theorem raise_damaged (canonical : MemoriesCanonical s) (ready : s.isReady = true) (free : s.engine = .free)
    (head : s.jobQueue = j :: rest) (kind : j.kind = .writeCopy) (target : j.target = some (.record k))
    (cause : j.cause = some .raise) (port : j.port = some p) (entry : s.entry k = some e)
    (one : e.copyValid .one = false) (two : e.copyValid .two = false) :
    ∃ t, exec .jobSelect s = .next t ∧ WriteUndone s t (newRun j (some e)) e p .damaged ∧
      t.jobQueue = rest ∧ t.erased = s.erased ∧ t.array = s.array ∧
      t.reservation = s.reservation - j.need := by
  obtain ⟨u, hu⟩ : ∃ u : State, u = { s with jobQueue := rest, engine := .running } := ⟨_, rfl⟩
  have run := exec_jobSelect_writeCopy ready free head target kind
  rw [← hu] at run
  have entry' : u.entry k = some e := by rw [hu]; exact entry
  rw [startWriteCopy_raise entry' cause, beginChosenSource_failed one two, endRaiseDamaged] at run
  have key : (raiseRun u j e).key = k := by simp [RunningJob.key, raiseRun, newRun, Job.key, target]
  have undone := endBeforeCommit_undone (s := s)
    (s' := { u with reservation := u.reservation - (raiseRun u j e).job.need }) (r := raiseRun u j e)
    (by rw [hu]; exact ⟨rfl, rfl, rfl, rfl, rfl⟩) (by rw [hu]; exact fun _ here => .inl here) rfl canonical
    port (by simp [raiseRun, newRun, kind]) (key ▸ entry) .damaged
  have frame := EndFrame.endBeforeCommit
    { u with reservation := u.reservation - (raiseRun u j e).job.need } (raiseRun u j e) .damaged
  have other : ∀ result, Reports s (newRun j (some e)) false false 0 result →
      Reports s (raiseRun u j e) false false 0 result := by
    have cause' : (newRun j (some e)).job.cause = some .raise := cause
    rintro result (⟨write, -⟩ | ⟨create, -⟩ | ⟨raise, rfl⟩ | ⟨commit | commit, -⟩)
    · rw [cause'] at write; cases write
    · rw [cause'] at create; cases create
    · exact .inr (.inr (.inl ⟨cause, rfl⟩))
    · rw [cause'] at commit; cases commit
    · rw [cause'] at commit; cases commit
  refine ⟨_, run, undone.of_run rfl rfl other, ?_, ?_, ?_, ?_⟩
  · rw [frame.jobQueue, hu]
  · rw [frame.erased, hu]
  · rw [frame.array, hu]
  · rw [frame.reservation, hu]
    rfl

/-- A RETIRE with a page in ERASED draws it and programs its header (R131). -/
theorem retire_draws {page n : Nat} {others : List Nat} (ready : s.isReady = true) (free : s.engine = .free)
    (head : s.jobQueue = j :: rest) (kind : j.kind = .retire) (target : j.target = some (.record k))
    (entry : s.entry k = some e) (erased : s.erased = page :: others) (counter : s.sequenceCounter = some n) :
    exec .jobSelect s = .next { s with
      jobQueue := rest
      engine := .running
      erased := others
      inWrite := insertNat page s.inWrite
      reservation := s.reservation - j.need
      sequenceCounter := if 4294967295 ≤ n then none else some (n + 1)
      operation := some (.program page ⟨.retire, k, e.version + 1, 1, none, some e.cls, some e.level⟩
        (.retire k (e.version + 1) n))
      running := some { newRun { j with params := { j.params with level := e.level } } (some e) with
        versionWritten := some (e.version + 1)
        drawn := [⟨page, .retirement, false⟩]
        stage := .programming } } := by
  have run := exec_jobSelect_retire ready free head target kind
  rw [startRetire_eq (s := { s with jobQueue := rest, engine := .running }) entry kind] at run
  have pages : s.erased.take 1 = [page] := by rw [erased]; rfl
  have left : s.erased.drop 1 = others := by rw [erased]; rfl
  have roles := allocationRoles_retire (r := retireRun j e) kind
  have counter' : ({ s with
      jobQueue := rest
      engine := .running
      erased := s.erased.drop 1
      inWrite := insertAll (s.erased.take 1) s.inWrite
      reservation := s.reservation - (retireRun j e).job.need } : State).sequenceCounter = some n := counter
  have drawn : (allocated { s with jobQueue := rest, engine := .running } (retireRun j e) 1).drawn =
      [⟨page, .retirement, false⟩] := by
    show withRoles (allocationRoles (retireRun j e)) (s.erased.take 1) = _
    rw [roles, pages]
    rfl
  have run' := run
  rw [continueDraw_draws (s := { s with jobQueue := rest, engine := .running }) (by
      show 1 ≤ s.erased.length
      rw [erased]
      simp), drawNow_allocation, programNext_retirement
    (currentPage_allocated (s := { s with jobQueue := rest, engine := .running }) pages roles) rfl counter']
    at run'
  have job : allocated { s with jobQueue := rest, engine := .running } (retireRun j e) 1 =
      { retireRun j e with drawn := [⟨page, .retirement, false⟩] } := by
    rw [← drawn]
    rfl
  have key : ({ retireRun j e with drawn := [⟨page, .retirement, false⟩] } : RunningJob).key = k :=
    retireRun_key (j := j) (e := e) target
  rw [run', job, key]
  simp only [pages, left]
  rfl

end Cases

/-- Settles O36. -/
theorem jobSelectOrder : Obligations.JobSelectOrder := by
  intro s ready free
  refine ⟨fun j rest head => exec_jobSelect_start ready free head, ?_, ?_, ?_, ?_, ?_, ?_, ?_, ?_, ?_, ?_, ?_,
    ?_⟩
  · intro j rest k e c d head target entry copy valid first
    have entry' : ({ s with jobQueue := rest, engine := .running } : State).entry k = some e := entry
    refine ⟨fun kind whole => ?_, fun kind cause committed => ?_⟩
    · rw [exec_jobSelect_preload ready free head target kind]
      simp only [startPreload, entry', whole, if_false, beginChosenSource_eq copy valid first]
      rfl
    · rw [exec_jobSelect_writeCopy ready free head target kind, startWriteCopy_raise entry' cause,
        beginChosenSource_eq copy valid first, raiseRun, versionToWrite, if_neg committed]
      rfl
  · intro j rest k e p hd canonical head kind target port handle entry damaged claim
    exact preload_damaged canonical ready free head kind target port handle entry damaged claim
  · intro j rest k e p canonical head kind target cause port entry one two
    exact raise_damaged canonical ready free head kind target cause port entry one two
  · intro j rest k e page others n head kind target entry erased counter
    exact retire_draws ready free head kind target entry erased counter
  · intro empty drains
    rw [exec_jobSelect ready free, selectJob_draining empty drains]
  · intro x others e c d empty drains list entry current version whole fits source copy
    have source' : c = repairSource x := by rw [source]; rfl
    have selectable : repairSelectable s x = true := by
      rw [repairSelectable_iff, repairNeed_of_entry entry current version whole]
      exact fits
    rw [exec_jobSelect ready free, selectJob_background empty drains,
      selectBackground_repair list selectable, startRepair_begins entry current version whole source' copy,
      repairRun, entry]
    rfl
  · intro x others empty drains list discarded fits
    have selectable : repairSelectable s x = true := by
      rw [repairSelectable_iff, repairNeed_of_discarded discarded]
      exact fits
    have run := exec_jobSelect ready free
    rw [selectJob_background empty drains, selectBackground_repair list selectable] at run
    exact ⟨_, run, startRepair_discarded_ends discarded⟩
  · intro x others e empty drains list entry current version whole few
    have run := exec_jobSelect ready free
    rw [selectJob_background empty drains, selectBackground_waits list (by
      rw [repairNeed_of_entry entry current version whole]; exact few)] at run
    refine ⟨fun page k rest dirty => ?_, fun dirty due => ?_, fun dirty due => ?_⟩
    · rw [run, selectEraseOrPatrol_erase dirty]
      rfl
    · rw [run, selectEraseOrPatrol_idle dirty due]
    · rw [selectEraseOrPatrol_patrol dirty due] at run
      exact ⟨_, run, startPatrol_lists s⟩
  · intro page k rest empty drains noRepair dirty
    rw [exec_jobSelect ready free, selectJob_background empty drains, selectBackground_of_noRepair noRepair,
      selectEraseOrPatrol_erase dirty]
    rfl
  · intro e c d ordered empty drains noRepair dirty due next copy valid first
    have choice : patrolChoice { s with engine := .running, patrolDue := false } = some e :=
      patrolChoice_eq (s := s) ordered next
    have entry : s.entry e.key = some e := DirectoryOrdered.entry_eq ordered next.1
    have begins := patrolFrom_first
      (s := { s with engine := .running, patrolDue := false, patrolCursor := some e.key })
      (r := newRun (backgroundJob .patrol (some (.record e.key))) (some e)) entry copy valid first
    rw [exec_jobSelect ready free, selectJob_background empty drains, selectBackground_of_noRepair noRepair,
      selectEraseOrPatrol_patrol dirty due, startPatrol]
    simp only [choice, begins]
    rfl
  · intro empty drains noRepair dirty due passed
    have choice : patrolChoice { s with engine := .running, patrolDue := false } = none :=
      patrolChoice_none (s := s) passed
    have run := exec_jobSelect ready free
    rw [selectJob_background empty drains, selectBackground_of_noRepair noRepair,
      selectEraseOrPatrol_patrol dirty due, startPatrol] at run
    simp only [choice] at run
    exact ⟨_, run, finishJob_ended _, rfl, rfl, rfl, rfl⟩
  · intro empty noRepair dirty due
    cases drains : s.restarting with
    | some q =>
      rw [exec_jobSelect ready free, selectJob_draining empty (by simp [drains])]
    | none =>
      rw [exec_jobSelect ready free, selectJob_background empty drains,
        selectBackground_of_noRepair noRepair, selectEraseOrPatrol_idle dirty due]

end Sys2Proof.Machine

/-! The ends of page programs (R104, R127, R130): the events, the replacement of a failed page, and the data page that
leads on to the next. -/

namespace Sys2Proof.Machine

section Programs
variable {s : State} {r : RunningJob} {d : DrawnPage} {tag : Tag} {payload : Payload} {c : CopyNo} {i : Nat}

/-! ## The events -/

theorem exec_dataPageDone (at' : Programming s r d tag payload) (kind : r.job.kind = .writeCopy)
    (role : d.role = .data c i) (success : Bool) :
    exec (.dataPageProgramDone success) s = .next
      (if success then programNext (pageProgrammed s d tag payload) (markProgrammed r d)
        else programFailed s r d) := by
  obtain ⟨page, role', done⟩ := d
  cases role
  show Host.Outcome.next _ = _
  rw [jobEvent_running at'.ready at'.running]
  simp only [dataPageDone, kind, currentProgram_eq at']

theorem exec_headerFailed (at' : Programming s r d tag payload)
    (kind : r.job.kind = .writeCopy ∨ r.job.kind = .retire) (role : d.role.isHeader = true) :
    exec .headerProgramFailure s = .next (programFailed s r d) := by
  show Host.Outcome.next _ = _
  rw [jobEvent_running at'.ready at'.running]
  rcases kind with kind | kind <;> simp only [headerFailed, kind, currentProgram_eq at', role, if_true]

theorem exec_repairPage_failed (at' : Programming s r d tag payload) (kind : r.job.kind = .repair) :
    exec (.repairPageProgramDone false) s = .next (programFailed s r d) := by
  show Host.Outcome.next _ = _
  rw [jobEvent_running at'.ready at'.running]
  simp only [repairPageDone, kind, currentProgram_eq at', Bool.false_eq_true, if_false]

theorem exec_repairPage_next {d' : DrawnPage} (at' : Programming s r d tag payload)
    (kind : r.job.kind = .repair) (next : currentPage (markProgrammed r d) = some d') :
    exec (.repairPageProgramDone true) s =
      .next (programNext (pageProgrammed s d tag payload) (markProgrammed r d)) := by
  show Host.Outcome.next _ = _
  rw [jobEvent_running at'.ready at'.running]
  simp only [repairPageDone, kind, currentProgram_eq at', if_true, next]

theorem exec_repairPage_last (at' : Programming s r d tag payload) (kind : r.job.kind = .repair)
    (last : currentPage (markProgrammed r d) = none) :
    exec (.repairPageProgramDone true) s =
      .next (endRepairInstalled (pageProgrammed s d tag payload) (markProgrammed r d)) := by
  show Host.Outcome.next _ = _
  rw [jobEvent_running at'.ready at'.running]
  simp only [repairPageDone, kind, currentProgram_eq at', if_true, last]

/-! ## What a programmed page holds (R104) -/

theorem pageProgrammed_page (array : PageArray.wf s.array) :
    (pageProgrammed s d tag payload).page d.page = ⟨.holds tag, .holds payload⟩ := by
  rw [pageProgrammed, State.page_setPage array, if_pos rfl]
  rfl

theorem pageProgrammed_page_ne (array : PageArray.wf s.array) {n : Nat} (other : n ≠ d.page) :
    (pageProgrammed s d tag payload).page n = s.page n := by
  rw [pageProgrammed, State.page_setPage array, if_neg other]

theorem pageProgrammed_frame : pageProgrammed s d tag payload =
    { s with array := (pageProgrammed s d tag payload).array } := rfl

/-- A write to one address leaves every other, whatever the store's form. -/
theorem storeRead_storeWrite_ne {α : Type} [DecidableEq α] (blank : α) (m : List (Nat × α)) {a n : Nat} (v : α)
    (other : n ≠ a) : storeRead blank (storeWrite blank m a v) n = storeRead blank m n := by
  induction m with
  | nil =>
    simp only [storeWrite]
    split <;> simp [storeRead, other]
  | cons x rest ih =>
    obtain ⟨k, x⟩ := x
    simp only [storeWrite]
    split
    · split <;> simp [storeRead, other]
    · split
      · next same =>
        subst same
        split <;> simp [storeRead, other]
      · simp only [storeRead, ih]

theorem spoilPage_page_ne {page n : Nat} (other : n ≠ page) : (s.spoilPage page).page n = s.page n :=
  storeRead_storeWrite_ne _ _ _ other

/-! ## The replacement of a failed page (R130) -/

/-- The state and the job after the failure of a program, before the job goes on or ends. -/
def failedState (s : State) (r : RunningJob) (d : DrawnPage) : State :=
  inWritePageToDirty (s.spoilPage d.page) d.page r.key

def failedRun (r : RunningJob) : RunningJob := { r with failures := r.failures + 1 }

theorem failedState_frame : failedState s r d = { s with
    array := (s.spoilPage d.page).array
    freeIndex := s.freeIndex + 1
    inWrite := without s.inWrite [d.page]
    eraseList := s.eraseList ++ [(d.page, some r.key)]
    retirementList := s.retirementList.map fun x =>
      if x.key = r.key then { x with outstanding := x.outstanding + 1 } else x } := rfl

theorem programFailed_third (third : r.failures = 2) :
    programFailed s r d = failJob (failedState s r d) (failedRun r) .arrayFault := by
  simp only [programFailed, third]
  rfl

theorem programFailed_replaces (early : r.failures < 2) :
    programFailed s r d = continueDraw (failedState s r d) (failedRun r) 1 (some d.role) := by
  simp only [programFailed, show ¬3 ≤ r.failures + 1 by omega, if_false]
  rfl

/-- The job with a fresh page in the role of a failed one. -/
def replaced (r : RunningJob) (role : PageRole) (fresh : Nat) : RunningJob :=
  { r with drawn := r.drawn.map fun d => if d.role = role then { d with page := fresh } else d }

/-- The draw of a replacement (R130). -/
theorem drawNow_replacement {role : PageRole} {fresh : Nat} {rest : List Nat} (erased : s.erased = fresh :: rest) :
    drawNow s r 1 (some role) = programNext
      { s with erased := rest, inWrite := insertNat fresh s.inWrite } (replaced r role fresh) := by
  simp only [drawNow, erased]
  rfl

/-- The fresh page is the next to be programmed, in the failed page's role. -/
theorem currentPage_replaced {fresh : Nat} (page : currentPage r = some d) :
    currentPage (replaced r d.role fresh) = some { d with page := fresh } := by
  have same : ((fun x : DrawnPage => !x.programmed) ∘ fun x : DrawnPage =>
      if x.role = d.role then { x with page := fresh } else x) = fun x => !x.programmed := by
    funext x
    simp only [Function.comp_apply]
    split <;> rfl
  have found : r.drawn.find? (fun x => !x.programmed) = some d := page
  rw [currentPage, replaced, List.find?_map, same, found]
  simp

@[simp] theorem replaced_key (role : PageRole) (fresh : Nat) : (replaced r role fresh).key = r.key := rfl
@[simp] theorem replaced_cls (role : PageRole) (fresh : Nat) : (replaced r role fresh).cls = r.cls := rfl
@[simp] theorem failedRun_key : (failedRun r).key = r.key := rfl
@[simp] theorem failedRun_cls : (failedRun r).cls = r.cls := rfl

/-- A job that is programming is in the programming stage after a page is marked. -/
theorem markProgrammed_stage (stage : r.stage = .programming) :
    { markProgrammed r d with stage := .programming } = markProgrammed r d := by
  have same : (markProgrammed r d).stage = .programming := stage
  rw [← same]

end Programs

/-- Settles O44. -/
theorem programGoesOn : Obligations.ProgramGoesOn := by
  intro s r r' d d' tag payload c c' i command array at' role how marked next
  subst marked
  have run : exec command s =
      .next (programNext (pageProgrammed s d tag payload) (markProgrammed r d)) := by
    rcases how with ⟨rfl, kind⟩ | ⟨rfl, kind⟩
    · rw [exec_dataPageDone at' kind role true, if_pos rfl]
    · exact exec_repairPage_next at' kind next
  refine ⟨fun i' role' => ?_, fun n role' counter => ?_⟩
  · rw [programNext_data next role', markProgrammed_stage at'.stage] at run
    exact ⟨_, run, pageProgrammed_page array, fun n other => pageProgrammed_page_ne array other, rfl⟩
  · rw [programNext_header (s := pageProgrammed s d tag payload) next role' counter,
      markProgrammed_stage at'.stage] at run
    exact ⟨_, run, pageProgrammed_page array, rfl⟩

end Sys2Proof.Machine

/-! The programs that fail, and the jobs that can program no further page (R124, R129 to R131, R144). -/

namespace Sys2Proof.Machine

/-! ## The Erase List at the end of a job that cannot go on -/

section EraseList
variable {s : State} {r : RunningJob} {x : Nat × Option Key}

theorem mem_endBeforeCommit_eraseList {code : Completion} (member : x ∈ (inWriteToDirty s r.key).eraseList) :
    x ∈ (endBeforeCommit s r code).eraseList := by
  refine mem_finishJob_eraseList ?_
  rw [completeJob_frame]
  show x ∈ (releaseJobSlot _ r .failed).eraseList
  rw [releaseJobSlot_frame (by decide)]
  exact mem_undoEntry_eraseList member

theorem mem_endCopyPending_eraseList (member : x ∈ (inWriteToDirty s r.key).eraseList) :
    x ∈ (endCopyPending s r).eraseList := by
  refine mem_finishJob_eraseList ?_
  rw [completeJob_frame]
  show x ∈ (releaseJobSlot _ r .committed).eraseList
  rw [releaseJobSlot_frame (by decide)]
  show x ∈ (repairRequest _ _ _ _ _).eraseList
  rw [repairRequest_frame]
  exact member

theorem mem_endRepairWithout_eraseList (member : x ∈ (inWriteToDirty s r.key).eraseList) :
    x ∈ (endRepairWithout s r).eraseList := by
  refine mem_finishJob_eraseList ?_
  rw [replaceLost_frame]
  exact member

/-- The Erase List only grows, and takes every page of the job (R112, R117, R129, R144). -/
theorem mem_failJob_eraseList {code : Completion}
    (member : x ∈ s.eraseList ∨ ∃ page ∈ s.inWrite, (page, some r.key) = x) :
    x ∈ (failJob s r code).eraseList := by
  have moved : x ∈ (inWriteToDirty s r.key).eraseList := mem_addDirty.mpr member
  unfold failJob
  split
  · exact mem_endRepairWithout_eraseList moved
  · exact mem_endBeforeCommit_eraseList moved
  · exact mem_endCopyPending_eraseList moved

end EraseList

theorem mem_insertNat {n m : Nat} {l : List Nat} : m ∈ insertNat n l ↔ m = n ∨ m ∈ l := by
  induction l with
  | nil => simp [insertNat]
  | cons x rest ih =>
    simp only [insertNat]
    split
    · simp
    · split
      · next same => simp [same]
      · simp only [List.mem_cons, ih]
        tauto

theorem mem_insertAll {ns l : List Nat} {m : Nat} : m ∈ insertAll ns l ↔ m ∈ ns ∨ m ∈ l := by
  induction ns generalizing l with
  | nil => simp [insertAll]
  | cons n rest ih =>
    show m ∈ insertAll rest (insertNat n l) ↔ _
    rw [ih, mem_insertNat, List.mem_cons]
    tauto

/-! ## Jobs that cannot go on -/

/-- The state and the job in which a job cannot go on, against those of the event: what the job reports on stands,
its pages are to be moved or moved, and the job is the same one. -/
structure Stuck (s s' : State) (r r' : RunningJob) : Prop where
  stood : StoodBefore s s'
  bound : PagesBound s s' r.key
  job : r'.job = r.job
  phase : r'.phase = r.phase
  version : r'.versionWritten = r.versionWritten

section Stuck
variable {s s' : State} {r r' : RunningJob} {d : DrawnPage} {tag : Tag} {payload : Payload} {code : Completion}

theorem Stuck.fails (stuck : Stuck s s' r r') (canonical : MemoriesCanonical s) :
    JobFails s (failJob s' r' code) r code :=
  failJob_fails stuck.stood stuck.bound stuck.job stuck.phase stuck.version canonical code

theorem failJob_repair (kind : r.job.kind = .repair) : failJob s r code = endRepairWithout s r := by
  simp only [failJob, kind]

theorem Stuck.repair (stuck : Stuck s s' r r') (kind : r.job.kind = .repair) :
    RepairUndone s (failJob s' r' code) r := by
  rw [failJob_repair (stuck.job ▸ kind)]
  exact endRepairWithout_undone stuck.stood stuck.bound stuck.job

theorem Stuck.key (stuck : Stuck s s' r r') : r'.key = r.key := by simp [RunningJob.key, stuck.job]

/-- The failed page is on the Erase List, and the job's other pages are still IN_WRITE. -/
theorem pagesBound_failedState : PagesBound s (failedState s r d) r.key := by
  intro page member
  by_cases same : page = d.page
  · exact .inr (same ▸ List.mem_append_right _ List.mem_cons_self)
  · exact .inl (mem_without.mpr ⟨member, by simpa using same⟩)

theorem stoodBefore_failedState : StoodBefore s (failedState s r d) := by
  rw [failedState_frame]
  exact ⟨rfl, rfl, rfl, rfl, rfl⟩

theorem stuck_failed : Stuck s (failedState s r d) r (failedRun r) where
  stood := stoodBefore_failedState
  bound := pagesBound_failedState
  job := rfl
  phase := rfl
  version := rfl

theorem stuck_marked : Stuck s (pageProgrammed s d tag payload) r (markProgrammed r d) :=
  ⟨⟨rfl, rfl, rfl, rfl, rfl⟩, fun _ here => .inl here, rfl, rfl, rfl⟩

/-- A replacement drawn for a job that cannot go on. -/
theorem Stuck.redrawn (stuck : Stuck s s' r r') (role : PageRole) (fresh : Nat) (rest : List Nat) :
    Stuck s { s' with erased := rest, inWrite := insertNat fresh s'.inWrite } r (replaced r' role fresh) :=
  ⟨⟨stuck.stood.directory, stuck.stood.claims, stuck.stood.ports, stuck.stood.notices, stuck.stood.repairs⟩,
    fun page member => (stuck.bound page member).imp_left fun here => mem_insertNat.mpr (.inr here),
    stuck.job, stuck.phase, stuck.version⟩

/-- A header that has to be replaced while the counter is exhausted ends the job (R124, R130). -/
theorem continueDraw_exhausted {fresh : Nat} {rest : List Nat} (page : currentPage r = some d)
    (role : d.role.isHeader = true) (erased : s.erased = fresh :: rest) (counter : s.sequenceCounter = none) :
    continueDraw s r 1 (some d.role) = failJob { s with erased := rest, inWrite := insertNat fresh s.inWrite }
      (replaced r d.role fresh) .exhausted := by
  rw [continueDraw_draws (by rw [erased]; simp), drawNow_replacement erased,
    programNext_exhausted (s := { s with erased := rest, inWrite := insertNat fresh s.inWrite })
      (currentPage_replaced (fresh := fresh) page) role (by exact counter)]

/-- How a failed program ends its job: at the third failure, or at a header while the counter is exhausted. -/
theorem programFailed_stuck (page : currentPage r = some d) {refusal : Completion}
    (how : r.failures = 2 ∧ refusal = .arrayFault ∨
      r.failures < 2 ∧ d.role.isHeader = true ∧ s.sequenceCounter = none ∧ s.erased ≠ [] ∧
        refusal = .exhausted) :
    ∃ s' r', programFailed s r d = failJob s' r' refusal ∧ Stuck s s' r r' ∧
      (d.page, some r.key) ∈ s'.eraseList := by
  rcases how with ⟨third, rfl⟩ | ⟨early, role, counter, some', rfl⟩
  · exact ⟨_, _, programFailed_third third, stuck_failed, List.mem_append_right _ List.mem_cons_self⟩
  · obtain ⟨fresh, rest, erased⟩ := List.exists_cons_of_ne_nil some'
    have page' : currentPage (failedRun r) = some d := page
    rw [programFailed_replaces early,
      continueDraw_exhausted (s := failedState s r d) page' role (by exact erased) (by exact counter)]
    exact ⟨_, _, rfl, stuck_failed.redrawn d.role fresh rest, List.mem_append_right _ List.mem_cons_self⟩

/-- An event at which a write can program no further page ends its job. -/
theorem writeEnds_stuck {c : CopyNo} {command : Instr} {refusal : Completion}
    (at' : Programming s r d tag payload) (kind : r.job.kind = .writeCopy)
    (ends : WriteEnds s r d c command refusal) :
    ∃ s' r', exec command s = .next (failJob s' r' refusal) ∧ Stuck s s' r r' ∧
      (command ≠ .dataPageProgramDone true → (d.page, some r.key) ∈ s'.eraseList) := by
  rcases ends with ⟨third, rfl, ⟨rfl, i, role⟩ | ⟨rfl, role⟩⟩ |
    ⟨counter, rfl, ⟨rfl, ⟨i, role⟩, d', next, role'⟩ | ⟨rfl, role, early, some'⟩⟩
  · obtain ⟨s', r', fails, stuck, moved⟩ := programFailed_stuck at'.page (.inl ⟨third, rfl⟩)
    exact ⟨s', r', by rw [exec_dataPageDone at' kind role false, ← fails]; rfl, stuck, fun _ => moved⟩
  · obtain ⟨s', r', fails, stuck, moved⟩ := programFailed_stuck at'.page (.inl ⟨third, rfl⟩)
    exact ⟨s', r', by rw [exec_headerFailed at' (.inl kind) (by rw [role]; rfl), ← fails], stuck, fun _ => moved⟩
  · refine ⟨pageProgrammed s d tag payload, markProgrammed r d, ?_, stuck_marked, fun other => absurd rfl other⟩
    rw [exec_dataPageDone at' kind role true, if_pos rfl,
      programNext_exhausted next (by rw [role']; rfl) (by exact counter)]
  · obtain ⟨s', r', fails, stuck, moved⟩ := programFailed_stuck at'.page
      (.inr ⟨early, by rw [role]; rfl, counter, some', rfl⟩)
    exact ⟨s', r', by rw [exec_headerFailed at' (.inl kind) (by rw [role]; rfl), ← fails], stuck, fun _ => moved⟩

end Stuck

/-! ## A failed page is replaced (R130) -/

section Replaced
variable {s : State} {r : RunningJob} {d : DrawnPage} {tag : Tag} {payload : Payload} {command : Instr}
  {c : CopyNo}

/-- Every event by which a program fails. -/
theorem exec_programFailed (at' : Programming s r d tag payload)
    (how : command = .dataPageProgramDone false ∧ r.job.kind = .writeCopy ∧ (∃ i, d.role = .data c i) ∨
      command = .headerProgramFailure ∧ r.job.kind = .writeCopy ∧ d.role = .header c ∨
      command = .headerProgramFailure ∧ r.job.kind = .retire ∧ d.role = .retirement ∨
      command = .repairPageProgramDone false ∧ r.job.kind = .repair ∧
        (d.role = .header c ∨ ∃ i, d.role = .data c i)) :
    exec command s = .next (programFailed s r d) := by
  rcases how with ⟨rfl, kind, i, role⟩ | ⟨rfl, kind, role⟩ | ⟨rfl, kind, role⟩ | ⟨rfl, kind, -⟩
  · rw [exec_dataPageDone at' kind role false]
    rfl
  · exact exec_headerFailed at' (.inl kind) (by rw [role]; rfl)
  · exact exec_headerFailed at' (.inr kind) (by rw [role]; rfl)
  · exact exec_repairPage_failed at' kind

theorem without_singleton (l : List Nat) (n : Nat) : without l [n] = l.filter fun m => m ≠ n := by
  simp [without]

/-- The program that replaces a failed one, by the role of the page (R127, R130, R131). -/
theorem programNext_replaced {u : State} {r₁ : RunningJob} {d₁ : DrawnPage} (page : currentPage r₁ = some d₁)
    (goes : u.sequenceCounter ≠ none ∨ ∃ c i, d₁.role = .data c i) :
    ∃ tag payload counter, programNext u r₁ = { u with
        sequenceCounter := counter
        operation := some (.program d₁.page tag payload)
        running := some { r₁ with stage := .programming } } ∧
      tag.key = r₁.key ∧ tag.version = r₁.versionWritten.getD 0 ∧
      (∀ c i, d₁.role = .data c i →
        tag = ⟨.data, r₁.key, r₁.versionWritten.getD 0, copyNumber c, some i, some r₁.cls,
          some r₁.job.params.level⟩ ∧
        payload = .data (padTo 64 ((r₁.content.drop (64 * i)).take 64)) ∧ counter = u.sequenceCounter) ∧
      (∀ c n, d₁.role = .header c → u.sequenceCounter = some n →
        tag = ⟨.header, r₁.key, r₁.versionWritten.getD 0, copyNumber c, none, some r₁.cls,
          some r₁.job.params.level⟩ ∧
        payload = .header ⟨r₁.key, r₁.versionWritten.getD 0, copyNumber c, r₁.cls, r₁.job.params.level,
          r₁.entry.bind (·.owner), r₁.job.params.length, (r₁.job.params.length + 63) / 64,
          dataPagesOf r₁ c, r₁.crc, n⟩ ∧
        counter = if 4294967295 ≤ n then none else some (n + 1)) ∧
      (∀ n, d₁.role = .retirement → u.sequenceCounter = some n →
        tag = ⟨.retire, r₁.key, r₁.versionWritten.getD 0, 1, none, some r₁.cls,
          some r₁.job.params.level⟩ ∧
        payload = .retire r₁.key (r₁.versionWritten.getD 0) n ∧
        counter = if 4294967295 ≤ n then none else some (n + 1)) := by
  cases role : d₁.role with
  | data c i =>
    refine ⟨_, _, u.sequenceCounter, programNext_data page role, rfl, rfl, ?_, nofun, nofun⟩
    rintro c' i' ⟨⟩
    exact ⟨rfl, rfl, rfl⟩
  | header c =>
    have some' := goes.resolve_right (by rintro ⟨c', i, h⟩; rw [role] at h; cases h)
    obtain ⟨n, counter⟩ := Option.ne_none_iff_exists'.mp some'
    refine ⟨_, _, _, programNext_header page role counter, rfl, rfl, nofun, ?_, nofun⟩
    rintro c' n' ⟨⟩ counter'
    cases counter.symm.trans counter'
    exact ⟨rfl, rfl, rfl⟩
  | retirement =>
    have some' := goes.resolve_right (by rintro ⟨c', i, h⟩; rw [role] at h; cases h)
    obtain ⟨n, counter⟩ := Option.ne_none_iff_exists'.mp some'
    refine ⟨_, _, _, programNext_retirement page role counter, rfl, rfl, nofun, nofun, ?_⟩
    intro n' _ counter'
    cases counter.symm.trans counter'
    exact ⟨rfl, rfl, rfl⟩

end Replaced

end Sys2Proof.Machine

/-! Failed programs and an exhausted counter (R124, R130): the obligation itself. -/

namespace Sys2Proof.Machine

section Clauses
variable {s : State} {r : RunningJob} {d : DrawnPage} {tag : Tag} {payload : Payload} {command : Instr}
  {c : CopyNo}

/-- The state in which a failed page has its replacement. -/
def replacedState (s : State) (r : RunningJob) (d : DrawnPage) (fresh : Nat) (rest : List Nat) : State :=
  { failedState s r d with erased := rest, inWrite := insertNat fresh (without s.inWrite [d.page]) }

theorem replacedState_frame (fresh : Nat) (rest : List Nat) : replacedState s r d fresh rest = { s with
    array := (s.spoilPage d.page).array
    freeIndex := s.freeIndex + 1
    erased := rest
    inWrite := insertNat fresh (without s.inWrite [d.page])
    eraseList := s.eraseList ++ [(d.page, some r.key)]
    retirementList := (failedState s r d).retirementList } := by
  rw [replacedState, failedState_frame]

/-- A failed page, before the third failure, with a page in ERASED (R130). -/
theorem programFailed_draws {fresh : Nat} {rest : List Nat} (early : r.failures < 2)
    (erased : s.erased = fresh :: rest) :
    programFailed s r d = programNext (replacedState s r d fresh rest) (replaced (failedRun r) d.role fresh) := by
  have erased' : (failedState s r d).erased = fresh :: rest := erased
  rw [programFailed_replaces early, continueDraw_draws (by rw [erased']; simp), drawNow_replacement erased']
  rfl

/-- A failed page, before the third failure, with ERASED empty: the head of the Erase List is erased (R111). -/
theorem programFailed_erases {head : Nat} {k : Option Key} {rest : List (Nat × Option Key)}
    (early : r.failures < 2) (erased : s.erased = [])
    (dirty : s.eraseList ++ [(d.page, some r.key)] = (head, k) :: rest) :
    programFailed s r d = { failedState s r d with
      operation := some (.erase head)
      running := some { failedRun r with stage := .drawing 1 (some d.role) } } := by
  have erased' : (failedState s r d).erased = [] := erased
  have dirty' : (failedState s r d).eraseList = (head, k) :: rest := dirty
  rw [programFailed_replaces early, continueDraw_erases (by rw [erased']; simp) dirty']

/-- A RETIRE that starts while the counter is exhausted (R131). -/
theorem retire_exhausted {j : Job} {k : Key} {e : Entry} {p : Port} {page : Nat} {rest : List Job}
    {others : List Nat} (canonical : MemoriesCanonical s) (ready : s.isReady = true) (free : s.engine = .free)
    (head : s.jobQueue = j :: rest) (kind : j.kind = .retire) (target : j.target = some (.record k))
    (port : j.port = some p) (cause : j.cause = some .retire) (handle : j.handle = none)
    (entry : s.entry k = some e) (erased : s.erased = page :: others) (counter : s.sequenceCounter = none) :
    ∃ t, exec .jobSelect s = .next t ∧ RetireUndone s t k e p .exhausted ∧ t.jobQueue = rest ∧
      t.erased = others ∧ (page, some k) ∈ t.eraseList ∧ t.reservation = s.reservation - j.need := by
  obtain ⟨u, hu⟩ : ∃ u : State, u = { s with jobQueue := rest, engine := .running } := ⟨_, rfl⟩
  obtain ⟨run, hrun⟩ : ∃ run : RunningJob, run = retireRun j e := ⟨_, rfl⟩
  obtain ⟨drawn, hdrawn⟩ : ∃ v : State, v = { u with
    erased := others
    inWrite := insertNat page s.inWrite
    reservation := s.reservation - j.need } := ⟨_, rfl⟩
  have erasedU : u.erased = page :: others := by rw [hu]; exact erased
  have pages : u.erased.take 1 = [page] := by rw [erasedU]; rfl
  have roles : allocationRoles run = [.retirement] := by
    rw [hrun]
    exact allocationRoles_retire (r := retireRun j e) kind
  have key : run.key = k := by rw [hrun]; exact retireRun_key target
  have jobKind : run.job.kind = .retire := by rw [hrun]; exact kind
  have state : ({ u with
      erased := u.erased.drop 1
      inWrite := insertAll (u.erased.take 1) u.inWrite
      reservation := u.reservation - run.job.need } : State) = drawn := by
    rw [hdrawn, pages, erasedU, hrun, hu]
    rfl
  have executed : exec .jobSelect s = .next (failJob drawn (allocated u run 1) .exhausted) := by
    rw [exec_jobSelect_retire ready free head target kind, ← hu,
      startRetire_eq (by rw [hu]; exact entry) kind, ← hrun,
      continueDraw_draws (by rw [erasedU]; simp), drawNow_allocation, state,
      programNext_exhausted (currentPage_allocated pages roles) rfl (by rw [hdrawn, hu]; exact counter)]
  have stuck : Stuck s drawn run (allocated u run 1) := by
    refine ⟨?_, fun n member => .inl ?_, rfl, rfl, rfl⟩
    · rw [hdrawn, hu]
      exact ⟨rfl, rfl, rfl, rfl, rfl⟩
    · rw [hdrawn]
      exact mem_insertNat.mpr (.inr member)
  have frame := EndFrame.failJob drawn (allocated u run 1) .exhausted
  refine ⟨_, executed, ?_, ?_, ?_, mem_failJob_eraseList (.inr ⟨page, ?_, by rw [stuck.key, key]⟩), ?_⟩
  · rw [← key]
    refine (stuck.fails canonical).retirement p e jobKind ?_ ?_ ?_ ?_ (key ▸ entry) <;> rw [hrun]
    · rfl
    · exact port
    · exact cause
    · exact handle
  · rw [frame.jobQueue, hdrawn, hu]
  · rw [frame.erased, hdrawn]
  · rw [hdrawn]
    exact mem_insertNat.mpr (.inl rfl)
  · rw [frame.reservation, hdrawn]

/-- The end of a page erase on demand (R111, R113). -/
theorem exec_eraseComplete_drawing {count : Nat} {role : Option PageRole} {page : Nat} (success : Bool)
    (ready : s.isReady = true) (running : s.running = some r) (stage : r.stage = .drawing count role)
    (operation : s.operation = some (.erase page)) :
    exec (.eraseComplete success) s = .next (continueDraw (eraseHeadDone s success) r count role) := by
  show Host.Outcome.next _ = _
  rw [jobEvent_running ready running]
  simp only [eraseDone, operation, stage]

/-- A job that draws its allocation after an on-demand erase while the counter is exhausted. -/
theorem continueDraw_exhausted_retire {page : Nat} (kind : r.job.kind = .retire) (erased : s.erased = [page])
    (counter : s.sequenceCounter = none) :
    continueDraw s r 1 none = failJob { s with
      erased := []
      inWrite := insertNat page s.inWrite
      reservation := s.reservation - r.job.need } (allocated s r 1) .exhausted := by
  have pages : s.erased.take 1 = [page] := by rw [erased]; rfl
  have left : s.erased.drop 1 = [] := by rw [erased]; rfl
  have state : ({ s with
      erased := s.erased.drop 1
      inWrite := insertAll (s.erased.take 1) s.inWrite
      reservation := s.reservation - r.job.need } : State) = { s with
      erased := []
      inWrite := insertNat page s.inWrite
      reservation := s.reservation - r.job.need } := by
    rw [pages, left]
    rfl
  rw [continueDraw_draws (by rw [erased]; simp), drawNow_allocation, state,
    programNext_exhausted (currentPage_allocated pages (allocationRoles_retire kind)) rfl (by exact counter)]

/-- What the erase of the head of the Erase List leaves for a job that then cannot go on. -/
theorem eraseHeadDone_stood (success : Bool) : StoodBefore s (eraseHeadDone s success) := by
  cases dirty : s.eraseList with
  | nil =>
    simp only [eraseHeadDone, dirty]
    exact .refl s
  | cons x rest =>
    obtain ⟨page, k⟩ := x
    cases success
    · rw [eraseHeadDone_failure dirty]
      exact ⟨rfl, rfl, rfl, rfl, rfl⟩
    · rw [eraseHeadDone_success dirty]
      exact ⟨rfl, rfl, rfl, rfl, rfl⟩

/-- A header to be drawn after an on-demand erase, while the counter is exhausted (R124, R131). -/
theorem erase_exhausted {role : Option PageRole} {page : Nat} {k : Option Key} {rest : List (Nat × Option Key)}
    (canonical : MemoriesCanonical s) (ready : s.isReady = true) (running : s.running = some r)
    (stage : r.stage = .drawing 1 role) (operation : s.operation = some (.erase page))
    (dirty : s.eraseList = (page, k) :: rest) (erased : s.erased = []) (counter : s.sequenceCounter = none)
    (how : role = none ∧ r.job.kind = .retire ∨
      ∃ d c, currentPage r = some d ∧ role = some d.role ∧ (d.role = .header c ∨ d.role = .retirement)) :
    ∃ t, exec (.eraseComplete true) s = .next t ∧ JobFails s t r .exhausted ∧
      (page, some r.key) ∈ t.eraseList ∧ t.erased = [] ∧
      t.reservation = (if role = none then s.reservation - r.job.need else s.reservation) := by
  obtain ⟨u, hu⟩ : ∃ u, u = eraseHeadDone s true := ⟨_, rfl⟩
  have frame := eraseHeadDone_success dirty
  rw [← hu] at frame
  have erasedU : u.erased = [page] := by rw [frame, erased]; rfl
  have counterU : u.sequenceCounter = none := by rw [frame]; exact counter
  have inWriteU : u.inWrite = s.inWrite := by rw [frame]; rfl
  have reservationU : u.reservation = s.reservation := by rw [frame]; rfl
  have stood : StoodBefore s u := hu ▸ eraseHeadDone_stood true
  have executed := exec_eraseComplete_drawing true ready running stage operation
  rw [← hu] at executed
  rcases how with ⟨rfl, kind⟩ | ⟨d, c, current, rfl, role⟩
  · rw [continueDraw_exhausted_retire kind erasedU counterU] at executed
    have stuck : Stuck s { u with
        erased := []
        inWrite := insertNat page u.inWrite
        reservation := u.reservation - r.job.need } r (allocated u r 1) :=
      ⟨⟨stood.directory, stood.claims, stood.ports, stood.notices, stood.repairs⟩,
        fun n member => .inl (mem_insertNat.mpr (.inr (inWriteU ▸ member))), rfl, rfl, rfl⟩
    have ends := EndFrame.failJob { u with
        erased := []
        inWrite := insertNat page u.inWrite
        reservation := u.reservation - r.job.need } (allocated u r 1) .exhausted
    refine ⟨_, executed, stuck.fails canonical,
      mem_failJob_eraseList (.inr ⟨page, mem_insertNat.mpr (.inl rfl), rfl⟩), ends.erased, ?_⟩
    rw [ends.reservation, if_pos rfl, ← reservationU]
  · have header : d.role.isHeader = true := by rcases role with role | role <;> rw [role] <;> rfl
    rw [continueDraw_exhausted current header erasedU counterU] at executed
    have stuck : Stuck s { u with erased := [], inWrite := insertNat page u.inWrite } r (replaced r d.role page) :=
      ⟨⟨stood.directory, stood.claims, stood.ports, stood.notices, stood.repairs⟩,
        fun n member => .inl (mem_insertNat.mpr (.inr (inWriteU ▸ member))), rfl, rfl, rfl⟩
    have ends := EndFrame.failJob { u with erased := [], inWrite := insertNat page u.inWrite }
      (replaced r d.role page) .exhausted
    refine ⟨_, executed, stuck.fails canonical,
      mem_failJob_eraseList (.inr ⟨page, mem_insertNat.mpr (.inl rfl), rfl⟩), ends.erased, ?_⟩
    rw [ends.reservation, if_neg (by simp), ← reservationU]

/-- A REPAIR that can program no further page (R124, R144). -/
theorem repair_stuck {success : Bool} (at' : Programming s r d tag payload) (kind : r.job.kind = .repair)
    (how : success = false ∧ r.failures = 2 ∨
      success = true ∧ s.sequenceCounter = none ∧
        (∃ d' c, currentPage (markProgrammed r d) = some d' ∧ d'.role = .header c) ∨
      success = false ∧ r.failures < 2 ∧ s.sequenceCounter = none ∧ s.erased ≠ [] ∧ ∃ c, d.role = .header c) :
    ∃ s' r' refusal, exec (.repairPageProgramDone success) s = .next (failJob s' r' refusal) ∧
      Stuck s s' r r' ∧ (success = false → (d.page, some r.key) ∈ s'.eraseList) := by
  rcases how with ⟨rfl, third⟩ | ⟨rfl, counter, d', c, next, role⟩ | ⟨rfl, early, counter, some', c, role⟩
  · obtain ⟨s', r', fails, stuck, moved⟩ := programFailed_stuck at'.page (.inl ⟨third, rfl⟩)
    exact ⟨s', r', _, by rw [exec_repairPage_failed at' kind, fails], stuck, fun _ => moved⟩
  · refine ⟨pageProgrammed s d tag payload, markProgrammed r d, .exhausted, ?_, stuck_marked, nofun⟩
    rw [exec_repairPage_next at' kind next,
      programNext_exhausted next (by rw [role]; rfl) (by exact counter)]
  · obtain ⟨s', r', fails, stuck, moved⟩ := programFailed_stuck at'.page
      (.inr ⟨early, by rw [role]; rfl, counter, some', rfl⟩)
    exact ⟨s', r', _, by rw [exec_repairPage_failed at' kind, fails], stuck, fun _ => moved⟩

end Clauses

/-- Settles O45. -/
theorem programFailures : Obligations.ProgramFailures := by
  refine ⟨?_, ?_, ?_, ?_, ?_, ?_, ?_⟩
  · intro s r d tag payload command c at' early how
    have run := exec_programFailed at' how
    refine ⟨fun fresh rest erased goes => ?_, fun head k rest erased dirty => ?_⟩
    · obtain ⟨u, hu⟩ : ∃ u, u = replacedState s r d fresh rest := ⟨_, rfl⟩
      have frame := replacedState_frame (s := s) (r := r) (d := d) fresh rest
      rw [← hu] at frame
      have counter : u.sequenceCounter = s.sequenceCounter := by rw [frame]
      obtain ⟨tag', payload', drawn, next, key, version, data, header, retirement⟩ :=
        programNext_replaced (u := u) (r₁ := replaced (failedRun r) d.role fresh)
          (d₁ := { d with page := fresh }) (currentPage_replaced (r := failedRun r) (fresh := fresh) at'.page)
          (by
            rw [counter]
            exact goes.imp_right fun ⟨i, role⟩ => ⟨c, i, role⟩)
      rw [programFailed_draws early erased, ← hu, next] at run
      rw [counter] at data header retirement
      refine ⟨_, { replaced (failedRun r) d.role fresh with stage := .programming }, tag', payload', run, ?_, ?_,
        ?_, ?_, rfl, rfl, currentPage_replaced (r := failedRun r) at'.page, rfl, key, version,
        fun i role => data c i role, fun n role counter => header c n role counter,
        fun n role counter => retirement n role counter, ?_, ?_⟩
      · rw [frame]
      · rw [frame, without_singleton]
      · rw [frame]
      · rw [frame]
      · rw [frame]
      · rw [frame]
    · rw [programFailed_erases early erased dirty] at run
      refine ⟨_, run, fun n other => spoilPage_page_ne other, ?_⟩
      rw [failedState_frame, without_singleton, dirty]
      rfl
  · intro s r d tag payload e p command refusal canonical at' kind phase ends port entry
    obtain ⟨s', r', run, stuck, moved⟩ := writeEnds_stuck at' kind ends
    exact ⟨_, run, (stuck.fails canonical).undone p e kind phase port entry,
      fun other => mem_failJob_eraseList (.inl (moved other))⟩
  · intro s r d tag payload e p refusal canonical at' role how kind phase port cause handle entry
    have header : d.role.isHeader = true := by rw [role]; rfl
    obtain ⟨s', r', fails, stuck, moved⟩ := programFailed_stuck (refusal := refusal) at'.page
      (how.imp_right fun ⟨early, counter, some', same⟩ => ⟨early, header, counter, some', same⟩)
    have run := exec_headerFailed at' (.inr kind) header
    rw [fails] at run
    exact ⟨_, run, (stuck.fails canonical).retirement p e kind phase port cause handle entry,
      mem_failJob_eraseList (.inl moved)⟩
  · intro s j rest k e p page others canonical ready free head kind target port cause handle entry erased counter
    exact retire_exhausted canonical ready free head kind target port cause handle entry erased counter
  · intro s r d tag payload e p v command cause canonical at' kind phase ends port entry version
    obtain ⟨s', r', run, stuck, moved⟩ := writeEnds_stuck at' kind ends
    exact ⟨_, run, (stuck.fails canonical).pending p e v kind phase port entry version,
      fun other => mem_failJob_eraseList (.inl (moved other))⟩
  · intro s r d tag payload success at' kind how
    obtain ⟨s', r', refusal, run, stuck, moved⟩ := repair_stuck at' kind how
    exact ⟨_, run, stuck.repair kind, fun failed => mem_failJob_eraseList (.inl (moved failed))⟩
  · intro s r role page k rest canonical ready running stage operation dirty erased counter how
    exact erase_exhausted canonical ready running stage operation dirty erased counter how

end Sys2Proof.Machine

/-! The commit point of a write (R128): what its report leaves of the lists, and the obligation. -/

namespace Sys2Proof.Machine

/-! ## The drop of a Retirement List entry (R73, R115) -/

section Dropped
variable {s : State} {k : Key} {x : RetirementEntry} {page : Nat}

theorem dropRetirement_kept (found : s.retirement k = some x) (kept : x.released = false) :
    dropRetirement s k = liveToDirty
      { s with retirementList := s.retirementList.filter fun y => decide (y.key ≠ k) } [x.header] k := by
  simp only [dropRetirement, found, kept, Bool.false_eq_true, if_false]

theorem dropRetirement_released (found : s.retirement k = some x) (gone : x.released = true) :
    dropRetirement s k = { s with retirementList := s.retirementList.filter fun y => decide (y.key ≠ k) } := by
  simp only [dropRetirement, found, gone, if_true]

theorem dropRetirement_none (absent : s.retirement k = none) : dropRetirement s k = s := by
  simp only [dropRetirement, absent]

/-- No entry of the key is left. -/
theorem dropRetirement_keys {y : RetirementEntry} (member : y ∈ (dropRetirement s k).retirementList) :
    y.key ≠ k := by
  cases found : s.retirement k with
  | none =>
    rw [dropRetirement_none found] at member
    simpa using List.find?_eq_none.mp found y member
  | some x =>
    cases released : x.released with
    | true =>
      rw [dropRetirement_released found released] at member
      simpa using (List.mem_filter.mp member).2
    | false =>
      rw [dropRetirement_kept found released] at member
      obtain ⟨z, kept, rfl⟩ := List.mem_map.mp member
      have other : z.key ≠ k := by simpa using (List.mem_filter.mp kept).2
      rwa [if_neg other]

theorem dropRetirement_live (here : page ∈ s.live) (other : ∀ x, s.retirement k = some x → x.header ≠ page) :
    page ∈ (dropRetirement s k).live := by
  cases found : s.retirement k with
  | none => rwa [dropRetirement_none found]
  | some x =>
    cases released : x.released with
    | true => rwa [dropRetirement_released found released]
    | false =>
      rw [dropRetirement_kept found released]
      exact mem_without.mpr ⟨here, by simpa [eq_comm] using other x found⟩

end Dropped

theorem liveToDirty_retirement (s : State) (pages : List Nat) (k : Key) :
    (liveToDirty s pages k).retirement k =
      (s.retirement k).map fun x => { x with outstanding := x.outstanding + pages.length } := by
  show (s.retirementList.map _).find? _ = (s.retirementList.find? _).map _
  induction s.retirementList with
  | nil => rfl
  | cons x rest ih =>
    by_cases same : x.key = k
    · simp [same]
    · simpa [same] using ih

/-! ## The report of a commit point -/

section Applied
variable {s : State} {r : RunningJob} {e : Entry} {page : Nat} {x : RetirementEntry}

/-- The old pages on the Erase List, copy 1's in LIVE. -/
def commitMoved (s : State) (r : RunningJob) (e : Entry) : State :=
  inWriteToLive (liveToDirty (s.modifyEntry r.key fun _ => committedEntry e r) (entryPages e) r.key)
    (descriptorPages (some (descriptorOf r .one)))

/-- The pools and the Retirement List at a commit point, that of a first write and that of another. -/
theorem applyCommit_first (entry : s.entry r.key = some e) (first : e.version = 0) :
    applyCommit s r = notify
      (supersedeBelow (dropRetirement (commitMoved s r e) r.key) r.key (r.versionWritten.getD 0))
      .created r.key (r.versionWritten.getD 0) r.job.port := by
  simp only [applyCommit, entry, first, if_true]
  rfl

theorem applyCommit_later (entry : s.entry r.key = some e) (later : e.version ≠ 0) :
    applyCommit s r = notify (supersedeBelow (commitMoved s r e) r.key (r.versionWritten.getD 0))
      .updated r.key (r.versionWritten.getD 0) r.job.port := by
  simp only [applyCommit, entry, later, if_false]
  rfl

theorem applyCommit_repairList (entry : s.entry r.key = some e) :
    (applyCommit s r).repairList = s.repairList.map fun x =>
      if x.key = r.key ∧ x.version < r.versionWritten.getD 0 then { x with superseded := true } else x := by
  have supersedes : ∀ u : State, (supersedeBelow u r.key (r.versionWritten.getD 0)).repairList =
      u.repairList.map fun x =>
        if x.key = r.key ∧ x.version < r.versionWritten.getD 0 then { x with superseded := true } else x :=
    fun u => List.map_congr_left fun x _ => by
      by_cases same : x.key = r.key ∧ x.version < r.versionWritten.getD 0 <;> simp [same]
  by_cases first : e.version = 0
  · rw [applyCommit_first entry first, notify_frame]
    refine (supersedes _).trans ?_
    rw [dropRetirement_frame]
    rfl
  · rw [applyCommit_later entry first, notify_frame]
    exact supersedes _

theorem applyCommit_inWrite (entry : s.entry r.key = some e) :
    (applyCommit s r).inWrite = without s.inWrite (headerPageOf r .one :: dataPagesOf r .one) := by
  by_cases first : e.version = 0
  · rw [applyCommit_first entry first, notify_frame]
    show (dropRetirement (commitMoved s r e) r.key).inWrite = _
    rw [dropRetirement_frame]
    rfl
  · rw [applyCommit_later entry first, notify_frame]
    rfl

theorem commitMoved_retirement : (commitMoved s r e).retirement r.key = (s.retirement r.key).map fun x =>
    { x with outstanding := x.outstanding + (entryPages e).length } :=
  liveToDirty_retirement (s.modifyEntry r.key fun _ => committedEntry e r) (entryPages e) r.key

/-- Copy 1's pages are LIVE, but for a retirement header that the first write drops. -/
theorem applyCommit_live (entry : s.entry r.key = some e)
    (copy : page ∈ headerPageOf r .one :: dataPagesOf r .one)
    (other : ∀ x, e.version = 0 → s.retirement r.key = some x → x.header ≠ page) :
    page ∈ (applyCommit s r).live := by
  have moved : page ∈ (commitMoved s r e).live := mem_insertAll.mpr (.inl copy)
  by_cases first : e.version = 0
  · rw [applyCommit_first entry first, notify_frame]
    refine dropRetirement_live (s := commitMoved s r e) moved fun x found => ?_
    rw [commitMoved_retirement] at found
    obtain ⟨y, there, rfl⟩ := Option.map_eq_some_iff.mp found
    exact other y first there
  · rw [applyCommit_later entry first, notify_frame]
    exact moved

/-- At a first write under a retired key the Retirement List loses the key's entry. -/
theorem applyCommit_keys (entry : s.entry r.key = some e) (first : e.version = 0) {y : RetirementEntry}
    (member : y ∈ (applyCommit s r).retirementList) : y.key ≠ r.key := by
  rw [applyCommit_first entry first, notify_frame] at member
  exact dropRetirement_keys (s := commitMoved s r e) member

/-- The header of the key's Retirement List entry, where it was not released, goes to the Erase List after the
record's old pages. -/
theorem applyCommit_retired (entry : s.entry r.key = some e) (first : e.version = 0)
    (found : s.retirement r.key = some x) (kept : x.released = false) :
    x.header ∉ (applyCommit s r).live ∧
      (applyCommit s r).eraseList =
        s.eraseList ++ (entryPages e).map (fun n => (n, some r.key)) ++ [(x.header, some r.key)] := by
  have found' : (commitMoved s r e).retirement r.key =
      some { x with outstanding := x.outstanding + (entryPages e).length } := by
    rw [commitMoved_retirement, found]
    rfl
  rw [applyCommit_first entry first, dropRetirement_kept found' kept, notify_frame]
  refine ⟨fun here => ?_, rfl⟩
  exact (mem_without.mp here).2 List.mem_cons_self

end Applied

/-! ## The end DONE of a write -/

section Ended
variable {s : State} {r : RunningJob}

/-- The end of a write settles the lists as it finds them, and touches no other pool (R115, R129). -/
theorem endWriteDone_lists : ∃ w, endWriteDone s r = finishJob w ∧ w.retirementList = s.retirementList ∧
    w.live = s.live ∧ w.eraseList = s.eraseList := by
  refine ⟨_, rfl, ?_⟩
  rw [completeJob_frame, releaseJobSlot_frame (by decide)]
  exact ⟨rfl, rfl, rfl⟩

theorem mem_finishJob_retirementList {x : RetirementEntry} (member : x ∈ (finishJob s).retirementList) :
    ∃ y ∈ s.retirementList, y.key = x.key := by
  have settled := (settled_settleRetirements { s with running := none, operation := none, engine := .free }).list
  have member' : x ∈ (settleRetirements { s with running := none, operation := none, engine := .free }
    ).retirementList := member
  rw [settled] at member'
  obtain ⟨y, here, becomes⟩ := List.mem_filterMap.mp member'
  refine ⟨y, here, ?_⟩
  split at becomes
  · split at becomes
    · cases becomes
    · cases becomes
      rfl
  · cases becomes
    rfl

end Ended

/-! ## The event -/

section Event
variable {s : State} {r : RunningJob} {d : DrawnPage} {tag : Tag} {payload : Payload}

/-- The running job after its commit point. -/
def committedRun (r : RunningJob) (d : DrawnPage) : RunningJob :=
  { markProgrammed r d with phase := .afterCommit }

theorem exec_commitPoint_single (at' : Programming s r d tag payload) (kind : r.job.kind = .writeCopy)
    (role : d.role = .header .one) (cls : r.cls = .single) :
    exec .commitPoint s = .next (endWriteDone
      (applyCommit (pageProgrammed s d tag payload) (committedRun r d)) (committedRun r d)) := by
  obtain ⟨page, role', done⟩ := d
  cases role
  show Host.Outcome.next _ = _
  rw [jobEvent_running at'.ready at'.running]
  have cls' : ({ markProgrammed r ⟨page, .header .one, done⟩ with phase := .afterCommit } : RunningJob).cls =
    .single := cls
  simp only [commitPointDone, kind, currentProgram_eq at', cls']
  rfl

theorem exec_commitPoint_mirrored (at' : Programming s r d tag payload) (kind : r.job.kind = .writeCopy)
    (role : d.role = .header .one) (cls : r.cls = .mirrored) :
    exec .commitPoint s = .next (programNext
      (applyCommit (pageProgrammed s d tag payload) (committedRun r d)) (committedRun r d)) := by
  obtain ⟨page, role', done⟩ := d
  cases role
  show Host.Outcome.next _ = _
  rw [jobEvent_running at'.ready at'.running]
  have cls' : ({ markProgrammed r ⟨page, .header .one, done⟩ with phase := .afterCommit } : RunningJob).cls =
    .mirrored := cls
  simp only [commitPointDone, kind, currentProgram_eq at', cls']
  rfl

theorem committedRun_descriptor (c : CopyNo) :
    descriptorOf (committedRun r d) c = ⟨headerPageOf r c, dataPagesOf r c, true, 0⟩ :=
  markProgrammed_descriptorOf r d c

theorem committedRun_stage (stage : r.stage = .programming) :
    { committedRun r d with stage := .programming } = committedRun r d := by
  have same : (committedRun r d).stage = .programming := stage
  rw [← same]

end Event

/-- Settles O46. -/
theorem commitPointInstallsVersion : Obligations.CommitPointInstallsVersion := by
  intro s r d tag payload e v array at' role kind entry version slots mirrored
  obtain ⟨r', hr⟩ : ∃ r', r' = committedRun r d := ⟨_, rfl⟩
  obtain ⟨u, hu⟩ : ∃ u, u = applyCommit (pageProgrammed s d tag payload) r' := ⟨_, rfl⟩
  have key : r'.key = r.key := by rw [hr]; rfl
  have entry' : (pageProgrammed s d tag payload).entry r'.key = some e := key ▸ entry
  have version' : r'.versionWritten.getD 0 = v := by
    have same : r'.versionWritten = some v := by rw [hr]; exact version
    rw [same]
    rfl
  have port : r'.job.port = r.job.port := by rw [hr]; rfl
  have pages : headerPageOf r' .one :: dataPagesOf r' .one = headerPageOf r .one :: dataPagesOf r .one := by
    rw [hr]
    exact congrArg (fun x : CopyDescriptor => x.header :: x.dataPages) (committedRun_descriptor .one)
  have frame : u = _ := hu.trans (applyCommit_frame (pageProgrammed s d tag payload) r')
  have pageIs : u.page d.page = ⟨.holds tag, .holds payload⟩ := by
    rw [frame]
    exact pageProgrammed_page array
  have entryIs : u.entry r.key = some (committedEntry e r') := by
    rw [hu, ← key]
    exact applyCommit_entry entry'
  have moved : ∀ page ∈ entryPages e, (page, some r.key) ∈ u.eraseList := fun page member => by
    rw [hu, ← key]
    exact applyCommit_eraseList entry' member
  have keys : ∀ y ∈ u.retirementList, e.version = 0 → y.key ≠ r.key := fun y member first => by
    rw [hu] at member
    exact key ▸ applyCommit_keys entry' first member
  have retired : ∀ x, e.version = 0 → s.retirement r.key = some x → x.released = false →
      x.header ∉ u.live ∧ u.eraseList = s.eraseList ++ (entryPages e).map (fun n => (n, some r.key)) ++
        [(x.header, some r.key)] := fun x first found kept => by
    have out := applyCommit_retired (s := pageProgrammed s d tag payload) (r := r') entry' first
      (key ▸ found) kept
    rw [key, ← hu] at out
    exact out
  have repairs : u.repairList = s.repairList.map fun x =>
      if x.key = r.key ∧ x.version < v then { x with superseded := true } else x := by
    have out := applyCommit_repairList entry'
    rw [key, version', ← hu] at out
    exact out
  have notices : ∀ p, u.changes p = if delivered s.watches r.key r.job.port p = true
      then deliver (s.changes p) ⟨r.key, if e.version = 0 then .created else .updated, v⟩
      else s.changes p := fun p => by
    have out := applyCommit_changes entry' p
    rw [key, port, version', ← hu] at out
    exact out
  have others : ∀ k, k ≠ r.key → u.entry k = s.entry k := fun k other => by
    rw [hu]
    exact applyCommit_entry_ne _ _ (key.symm ▸ other)
  have copy : (committedEntry e r').copy1 = some ⟨headerPageOf r .one, dataPagesOf r .one, true, 0⟩ := by
    rw [hr]
    exact congrArg some (committedRun_descriptor .one)
  have length : (committedEntry e r').length = r.job.params.length := by rw [hr]; rfl
  have level : (committedEntry e r').level = r.job.params.level := by rw [hr]; rfl
  cases cls : r.cls with
  | single =>
    have run := exec_commitPoint_single at' kind role cls
    rw [← hr, ← hu] at run
    have slots' : ∀ hd, r'.job.handle = some hd → (u.slot hd.slot).target = some (.record r'.key) := by
      rw [frame, key]
      intro hd handle
      exact slots hd (by rw [hr] at handle; exact handle)
    obtain ⟨e', ended, how, -, -⟩ := endWriteDone_entry (key.symm ▸ entryIs) slots'
    obtain ⟨w, ends, retirements, live, dirty⟩ := endWriteDone_lists (s := u) (r := r')
    have endFrame := endWriteDone_frame u r'
    refine ⟨_, e', run, ?_, key ▸ ended, ?_, ?_, ?_, ?_, ?_, ?_, ?_, ?_, fun page member => ?_, ?_, ?_, ?_, ?_,
      nofun⟩
    · rw [endFrame]
      exact pageIs
    · rcases how with rfl | rfl <;> exact version'
    · rcases how with rfl | rfl <;> exact length
    · rcases how with rfl | rfl <;> exact level
    · rcases how with rfl | rfl <;> rfl
    · rcases how with rfl | rfl <;> rfl
    · rcases how with rfl | rfl <;> rfl
    · rcases how with rfl | rfl <;> exact copy
    · rcases how with rfl | rfl <;> rfl
    · rw [ends]
      exact mem_finishJob_eraseList (dirty ▸ moved page member)
    · refine fun x first found => ⟨fun y member => ?_, fun kept => ⟨fun here => ?_, ?_⟩⟩
      · rw [ends] at member
        obtain ⟨z, there, same⟩ := mem_finishJob_retirementList member
        exact same ▸ keys z (retirements ▸ there) first
      · rw [ends] at here
        exact (retired x first found kept).1 (live ▸ mem_finishJob_live here)
      · rw [ends, ← (retired x first found kept).2, ← dirty]
        exact ⟨_, rfl⟩
    · rw [endFrame]
      exact repairs
    · intro p
      rw [endFrame]
      exact notices p
    · intro k other
      rw [endWriteDone_entry_ne (key.symm ▸ other) slots']
      exact others k other
  | mirrored =>
    obtain ⟨d', i, next, role'⟩ := mirrored cls
    have run := exec_commitPoint_mirrored at' kind role cls
    have next' : currentPage r' = some d' := by rw [hr]; exact next
    have written : r'.versionWritten.getD 0 = v := version'
    have cls' : r'.cls = .mirrored := by rw [hr]; exact cls
    rw [← hr, ← hu, programNext_data (s := u) next' role'] at run
    refine ⟨_, committedEntry e r', run, pageIs, entryIs, version', length, level, rfl, rfl, rfl, copy, rfl,
      moved, fun x first found => ⟨fun y member => keys y member first, fun kept => ?_⟩, repairs, notices, others,
      ?_⟩
    · exact ⟨(retired x first found kept).1, [], by rw [List.append_nil, ← (retired x first found kept).2]⟩
    · intro d₂ i₂ _ next₂ role₂
      cases next.symm.trans next₂
      cases role'.symm.trans role₂
      refine ⟨rfl, rfl, ?_, ?_, ?_, ?_, ?_, ?_, ?_, ?_, fun page member => ⟨fun here => ?_, fun other => ?_⟩, ?_, ?_⟩
      · rw [frame]; rfl
      · rw [frame]; rfl
      · rw [frame]; rfl
      · rw [frame]; rfl
      · rw [frame]; rfl
      · rw [frame]; rfl
      · rw [frame]; rfl
      · rw [frame]; rfl
      · have here' : page ∈ u.inWrite := here
        rw [hu, applyCommit_inWrite entry', pages] at here'
        exact (mem_without.mp here').2 member
      · show page ∈ u.live
        rw [hu]
        exact applyCommit_live entry' (pages ▸ member) (key.symm ▸ other)
      · rw [hr, committedRun_stage at'.stage]
        rfl
      · rw [key, written, cls', hr]
        rfl

end Sys2Proof.Machine

/-! The ends of writes, retirements and repairs that succeed (R129, R132, R145). -/

namespace Sys2Proof.Machine

/-! ## Moves of pages and entries -/

/-- All that the moves of pages between the pools, and of an entry's descriptors, may touch. -/
def PageFrame (s t : State) : Prop :=
  t = { s with
    directory := t.directory, inWrite := t.inWrite, live := t.live, eraseList := t.eraseList,
    retirementList := t.retirementList }

namespace PageFrame
variable {s t u : State}

theorem trans (first : PageFrame s t) (second : PageFrame t u) : PageFrame s u := by
  unfold PageFrame at *
  rw [second, first]

theorem modifyEntry (s : State) (k : Key) (f : Entry → Entry) : PageFrame s (s.modifyEntry k f) := rfl
theorem removeEntry (s : State) (k : Key) : PageFrame s (s.removeEntry k) := rfl
theorem liveToDirty (s : State) (pages : List Nat) (k : Key) : PageFrame s (liveToDirty s pages k) := rfl
theorem inWriteToLive (s : State) (pages : List Nat) : PageFrame s (inWriteToLive s pages) := rfl

theorem array (h : PageFrame s t) : t.array = s.array := by rw [h]
theorem ports (h : PageFrame s t) : t.ports = s.ports := by rw [h]
theorem changeSets (h : PageFrame s t) : t.changeSets = s.changeSets := by rw [h]
theorem watches (h : PageFrame s t) : t.watches = s.watches := by rw [h]

theorem changes (h : PageFrame s t) (p : Port) : t.changes p = s.changes p := by
  rw [State.changes, h.changeSets]
  rfl

end PageFrame

theorem State.page_congr {s t : State} (array : t.array = s.array) (n : Nat) : t.page n = s.page n := by
  rw [State.page, array]
  rfl

/-! ## The end DONE of a write (R129) -/

section WriteDone
variable {s u : State} {r r' : RunningJob} {d : DrawnPage} {tag : Tag} {payload : Payload} {e : Entry} {v : Nat}
  {p : Port} {command : Instr}

theorem endWriteDone_answered {result : Result} (ports : u.ports = s.ports) (claims : u.claims = s.claims)
    (window : (s.port p).window.wf) (job : r'.job = r.job) (port : r.job.port = some p)
    (version : r'.versionWritten = some v) (reports : Reports s r true false v result) :
    PortAnswered s (endWriteDone u r') p false ∧
      resultArea (endWriteDone u r') p = resultBytes (s.port p).go .done result := by
  obtain ⟨w, hw⟩ : ∃ w, w = releaseJobSlot (backToLive u r'.key) r' .committed := ⟨_, rfl⟩
  have portsW : w.ports = s.ports := by
    rw [hw, releaseJobSlot_frame (by decide)]
    exact ports
  have base : ∀ i, (w.slot i).base = (s.slot i).base := fun i => by
    rw [hw, releaseJobSlot_base]
    exact congrArg (fun claims : Vector Slot 8 => claims[i].base) claims
  have result' : jobResult w r' true false = result :=
    jobResult_reports job base (by rw [version]; rfl) reports
  have answered := post_answered_ports portsW window .done (jobResult w r' true false) none
  rw [result'] at answered
  rw [endWriteDone, ← hw, completeJob_some (job ▸ port), result']
  exact answered

theorem endWriteDone_claims :
    (endWriteDone u r).claims = (releaseJobSlot (backToLive u r.key) r .committed).claims := by
  rw [endWriteDone, finishJob_frame, completeJob_frame]

theorem endWriteDone_claims_none (handle : r.job.handle = none) : (endWriteDone u r).claims = u.claims := by
  rw [endWriteDone_claims]
  simp only [releaseJobSlot, handle]
  rfl

theorem endWriteDone_claims_some {hd : Handle} (handle : r.job.handle = some hd) :
    (endWriteDone u r).claims = released u hd := by
  rw [endWriteDone_claims, releaseJobSlot_claims (by decide) handle]
  rfl

theorem exec_copy2Installed (at' : Programming s r d tag payload) (kind : r.job.kind = .writeCopy)
    (role : d.role = .header .two) :
    exec .copy2Installed s = .next (endWriteDone
      (applyCopy2 (pageProgrammed s d tag payload) (markProgrammed r d)) (markProgrammed r d)) := by
  obtain ⟨page, role', done⟩ := d
  cases role
  show Host.Outcome.next _ = _
  rw [jobEvent_running at'.ready at'.running]
  simp only [copy2Done, kind, currentProgram_eq at']

theorem applyCopy2_entry (entry : s.entry r.key = some e) :
    (applyCopy2 s r).entry r.key = some { e with copy2 := some (descriptorOf r .two) } :=
  State.entry_modifyEntry_self (f := fun e => { e with copy2 := some (descriptorOf r .two) }) entry
    (State.entry_some entry).2

/-- The state and the job that a header program leaves to the end DONE of its write. -/
structure WriteReady (s u : State) (r r' : RunningJob) (d : DrawnPage) (tag : Tag) (payload : Payload)
    (e e₁ : Entry) (v : Nat) (command : Instr) : Prop where
  page : u.page d.page = ⟨.holds tag, .holds payload⟩
  ports : u.ports = s.ports
  claims : u.claims = s.claims
  job : r'.job = r.job
  version : r'.versionWritten = some v
  entry : u.entry r'.key = some e₁
  claim : e₁.claim = e.claim
  installed : command = .copy2Installed →
    e₁ = { e with copy2 := some ⟨headerPageOf r .two, dataPagesOf r .two, true, 0⟩ }

theorem exec_writeReady (array : PageArray.wf s.array) (at' : Programming s r d tag payload)
    (kind : r.job.kind = .writeCopy) (entry : s.entry r.key = some e) (version : r.versionWritten = some v)
    (how : command = .commitPoint ∧ d.role = .header .one ∧ r.cls = .single ∨
      command = .copy2Installed ∧ d.role = .header .two) :
    ∃ u r' e₁, exec command s = .next (endWriteDone u r') ∧
      WriteReady s u r r' d tag payload e e₁ v command := by
  rcases how with ⟨rfl, role, cls⟩ | ⟨rfl, role⟩
  · have run := exec_commitPoint_single at' kind role cls
    obtain ⟨r', hr⟩ : ∃ r', r' = committedRun r d := ⟨_, rfl⟩
    rw [← hr] at run
    have key : r'.key = r.key := by rw [hr]; rfl
    have frame := applyCommit_frame (pageProgrammed s d tag payload) r'
    refine ⟨_, r', _, run, ?_, ?_, ?_, ?_, ?_, applyCommit_entry (key.symm ▸ entry), rfl, nofun⟩
    · rw [frame]
      exact pageProgrammed_page array
    · rw [frame]; rfl
    · rw [frame]; rfl
    · rw [hr]; rfl
    · rw [hr]; exact version
  · refine ⟨_, _, _, exec_copy2Installed at' kind role, pageProgrammed_page array, rfl, rfl, rfl, version,
      applyCopy2_entry (s := pageProgrammed s d tag payload) entry, rfl, fun _ => ?_⟩
    rw [markProgrammed_descriptorOf]
    rfl

theorem WriteReady.key {e₁ : Entry} (ready : WriteReady s u r r' d tag payload e e₁ v command) :
    r'.key = r.key := by simp [RunningJob.key, ready.job]

theorem WriteReady.slot {e₁ : Entry} (ready : WriteReady s u r r' d tag payload e e₁ v command) (i : SlotNo) :
    u.slot i = s.slot i := by simp [State.slot, ready.claims]

/-- The end of a job changes no page of the array. -/
theorem endWriteDone_page (n : Nat) : (endWriteDone u r).page n = u.page n := by
  rw [endWriteDone_frame]
  rfl

theorem endWriteDone_ended : JobEnded (endWriteDone u r) := finishJob_ended _

end WriteDone

/-- Settles O47. -/
theorem writeAndCommitEndDone : Obligations.WriteAndCommitEndDone := by
  refine ⟨?_, ?_⟩
  · intro s r d tag payload e v p command result canonical at' kind entry version port reports handle how
    obtain ⟨u, r', e₁, run, ready⟩ := exec_writeReady canonical.array at' kind entry version how
    have handle' : r'.job.handle = none := ready.job ▸ handle
    obtain ⟨e', ended, -, live, -⟩ := endWriteDone_entry ready.entry (by simp [handle'])
    obtain ⟨answered, area⟩ := endWriteDone_answered ready.ports ready.claims (canonical.windows p) ready.job
      port ready.version reports
    have live' := live handle'
    subst live'
    refine ⟨_, { e₁ with lifecycle := .live }, run, endWriteDone_ended,
      (endWriteDone_page _).trans ready.page, ready.key ▸ ended, rfl, ready.claim, fun installs => ?_, answered, ?_, area⟩
    · rw [ready.installed installs]
    · rw [endWriteDone_claims_none handle', ready.claims]
  · intro s r d tag payload e v p hd command canonical at' kind entry version port cause handle claim generation
      target how
    obtain ⟨u, r', e₁, run, ready⟩ := exec_writeReady canonical.array at' kind entry version how
    have handle' : r'.job.handle = some hd := ready.job ▸ handle
    have target' : ∀ hd', r'.job.handle = some hd' →
        (u.slot hd'.slot).target = some (.record r'.key) := fun hd' same => by
      cases handle'.symm.trans same
      rw [ready.slot, ready.key]
      exact target
    obtain ⟨e', ended, -, -, cleared⟩ := endWriteDone_entry ready.entry target'
    have reports : Reports s r true false v
        { committed := true, version := v, level := levelCode r.job.params.level,
          base := (s.slot hd.slot).base, cls := classCode r.job.params.cls, length := r.job.params.length } :=
      .inr (.inr (.inr ⟨cause, hd, handle, rfl⟩))
    obtain ⟨answered, area⟩ := endWriteDone_answered ready.ports ready.claims (canonical.windows p) ready.job
      port ready.version reports
    have cleared' := cleared hd handle' (by rw [ready.claim, claim, ready.slot, generation])
    subst cleared'
    refine ⟨_, { e₁ with lifecycle := .live, claim := none }, run, endWriteDone_ended,
      (endWriteDone_page _).trans ready.page, ready.key ▸ ended, rfl, rfl,
      fun installs => ?_, ?_, answered, area⟩
    · rw [ready.installed installs]
    · rw [endWriteDone_claims_some handle', released, ready.slot, ready.claims]

/-! ## The commit point of a retirement (R132) -/

section Retired
variable {s : State} {r : RunningJob} {d : DrawnPage} {tag : Tag} {payload : Payload} {e : Entry} {page : Nat}
  {p : Port} {v : Nat}

/-- The Retirement List with an entry for the key of a retirement (R114, R132). -/
def retirementMade (s : State) (r : RunningJob) (page : Nat) : State :=
  { s with retirementList := s.retirementList ++
      [⟨r.key, page, r.versionWritten.getD 0, pagesBearing s r.key, false⟩] }

/-- The state in which a retirement's commit point is reported, its page LIVE. -/
def retiredState (s : State) (r : RunningJob) (e : Entry) (page : Nat) : State :=
  inWriteToLive (retirementMade (liveToDirty (s.removeEntry r.key) (entryPages e) r.key) r page) [page]

theorem pageFrame_retirementMade (s : State) (r : RunningJob) (page : Nat) :
    PageFrame s (retirementMade s r page) := rfl

theorem pageFrame_retiredState : PageFrame s (retiredState s r e page) :=
  (((PageFrame.removeEntry s r.key).trans (.liveToDirty _ _ _)).trans (pageFrame_retirementMade _ _ _)).trans
    (.inWriteToLive _ _)

theorem applyRetirement_eq (entry : s.entry r.key = some e) :
    applyRetirement s r page = notify (supersedeKey (retiredState s r e page) r.key) .retired r.key
      (r.versionWritten.getD 0) r.job.port := by
  simp only [applyRetirement, entry]
  rfl

/-- The pages bearing the key, the record's own and those before (R114). -/
theorem pagesBearing_retired :
    pagesBearing (liveToDirty (s.removeEntry r.key) (entryPages e) r.key) r.key =
      (entryPages e).length + ((s.eraseList ++ s.bad).filter fun y => y.2 == some r.key).length := by
  have own : ((entryPages e).map fun n => (n, some r.key)).filter (fun y => y.2 == some r.key) =
      (entryPages e).map fun n => (n, some r.key) := by
    refine List.filter_eq_self.mpr fun y member => ?_
    obtain ⟨n, -, rfl⟩ := List.mem_map.mp member
    exact beq_self_eq_true _
  show ((s.eraseList ++ (entryPages e).map (fun n => (n, some r.key)) ++ s.bad).filter
    fun y => y.2 == some r.key).length = _
  rw [List.filter_append, List.filter_append, own, List.filter_append]
  simp only [List.length_append, List.length_map]
  omega

theorem applyRetirement_array (entry : s.entry r.key = some e) : (applyRetirement s r page).array = s.array := by
  rw [applyRetirement_eq entry, notify_frame]
  show (retiredState s r e page).array = s.array
  exact pageFrame_retiredState.array

theorem applyRetirement_ports (entry : s.entry r.key = some e) : (applyRetirement s r page).ports = s.ports := by
  rw [applyRetirement_eq entry, notify_frame]
  show (retiredState s r e page).ports = s.ports
  exact pageFrame_retiredState.ports

theorem applyRetirement_eraseList (entry : s.entry r.key = some e) :
    (applyRetirement s r page).eraseList = s.eraseList ++ (entryPages e).map fun n => (n, some r.key) := by
  rw [applyRetirement_eq entry, notify_frame]
  rfl

theorem applyRetirement_directory (entry : s.entry r.key = some e) :
    (applyRetirement s r page).directory = (s.removeEntry r.key).directory := by
  rw [applyRetirement_eq entry, notify_frame]
  rfl

theorem applyRetirement_listed (entry : s.entry r.key = some e) :
    ⟨r.key, page, r.versionWritten.getD 0, (entryPages e).length +
      ((s.eraseList ++ s.bad).filter fun y => y.2 == some r.key).length, false⟩ ∈
      (applyRetirement s r page).retirementList := by
  rw [applyRetirement_eq entry, notify_frame, ← pagesBearing_retired]
  exact List.mem_append_right _ List.mem_cons_self

theorem applyRetirement_superseded (entry : s.entry r.key = some e) {x : RepairEntry}
    (member : x ∈ (applyRetirement s r page).repairList) (key : x.key = r.key) : x.superseded = true := by
  rw [applyRetirement_eq entry, notify_frame] at member
  obtain ⟨y, -, rfl⟩ := List.mem_map.mp member
  split at key
  · next same =>
    rw [if_pos same]
  · next other => exact absurd key other

theorem applyRetirement_changes (entry : s.entry r.key = some e) (q : Port) :
    (applyRetirement s r page).changes q = if delivered s.watches r.key r.job.port q = true
      then deliver (s.changes q) ⟨r.key, .retired, r.versionWritten.getD 0⟩ else s.changes q := by
  have changes : (supersedeKey (retiredState s r e page) r.key).changes q = (retiredState s r e page).changes q :=
    rfl
  have watches : (supersedeKey (retiredState s r e page) r.key).watches = (retiredState s r e page).watches := rfl
  rw [applyRetirement_eq entry, notify_changes, changes, watches, pageFrame_retiredState.changes,
    pageFrame_retiredState.watches]

theorem exec_retirementCommitPoint (at' : Programming s r d tag payload) (kind : r.job.kind = .retire) :
    ∃ u, u = applyRetirement (pageProgrammed s d tag payload) (committedRun r d) d.page ∧
      exec .retirementCommitPoint s = .next (finishJob (completeJob u (committedRun r d) .done
        (jobResult u (committedRun r d) true false) none)) := by
  refine ⟨_, rfl, ?_⟩
  show Host.Outcome.next _ = _
  rw [jobEvent_running at'.ready at'.running]
  simp only [retirementDone, kind, currentProgram_eq at']
  rfl

/-- An entry whose outstanding count is 0 is released at the job's end, and any other stays (R115). -/
theorem finishJob_listed {x : RetirementEntry} (member : x ∈ s.retirementList) (kept : x.released = false) :
    ∃ y ∈ (finishJob s).retirementList, y.key = x.key ∧ y.header = x.header ∧ y.version = x.version ∧
      (x.outstanding ≠ 0 → y = x) := by
  have settled := (settled_settleRetirements { s with running := none, operation := none, engine := .free }).list
  have list : (finishJob s).retirementList = _ := settled
  rw [list]
  by_cases none : x.outstanding = 0
  · refine ⟨{ x with released := true, outstanding := 1 }, List.mem_filterMap.mpr ⟨x, member, ?_⟩, rfl, rfl, rfl,
      fun some' => absurd none some'⟩
    rw [if_pos none, kept]
    rfl
  · exact ⟨x, List.mem_filterMap.mpr ⟨x, member, if_neg none⟩, rfl, rfl, rfl, fun _ => rfl⟩

end Retired

/-- Settles O48. -/
theorem retirementRemovesRecord : Obligations.RetirementRemovesRecord := by
  intro s r d tag payload e v p canonical at' kind entry version port cause
  obtain ⟨u, hu, run⟩ := exec_retirementCommitPoint at' kind
  obtain ⟨r', hr⟩ : ∃ r', r' = committedRun r d := ⟨_, rfl⟩
  rw [← hr] at hu run
  have key : r'.key = r.key := by rw [hr]; rfl
  have port' : r'.job.port = some p := by rw [hr]; exact port
  have written : r'.versionWritten.getD 0 = v := by rw [show r'.versionWritten = some v by rw [hr]; exact version]; rfl
  have entry' : (pageProgrammed s d tag payload).entry r'.key = some e := key.symm ▸ entry
  have directory : u.directory = (s.removeEntry r.key).directory := by
    rw [hu, applyRetirement_directory entry', key]
    rfl
  have result : jobResult u r' true false = { committed := true, version := v } := by
    have cause' : r'.job.cause = some .retire := by rw [hr]; exact cause
    simp only [jobResult, cause', written, if_true]
  have listed : ⟨r.key, d.page, v, (entryPages e).length +
      ((s.eraseList ++ s.bad).filter fun y => y.2 == some r.key).length, false⟩ ∈ u.retirementList := by
    have out := applyRetirement_listed (page := d.page) entry'
    rw [key, written, ← hu] at out
    exact out
  rw [completeJob_some port', result] at run
  have answered := post_answered_ports (s := s) (s' := u) (p := p) (by rw [hu, applyRetirement_ports entry']; rfl) (canonical.windows p)
    .done
    { committed := true, version := v } none
  obtain ⟨y, member, yKey, yHeader, yVersion, same⟩ :=
    finishJob_listed (s := post u p .done { committed := true, version := v } none) listed rfl
  refine ⟨_, run, finishJob_ended _, ?_, ?_, fun k other => ?_, ⟨y, member, yKey, yHeader, yVersion, fun some' => ?_⟩,
    fun page here => mem_finishJob_eraseList ?_, fun x here of => ?_, fun q => ?_, answered.1, answered.2⟩
  · show u.page d.page = _
    rw [State.page_congr (hu ▸ applyRetirement_array entry')]
    exact pageProgrammed_page canonical.array
  · exact (State.entry_congr directory _).trans (State.entry_removeEntry_self s r.key)
  · exact (State.entry_congr directory _).trans (State.entry_removeEntry_ne s other)
  · have pages : (entryPages e).length ≠ 0 := fun empty => some' (List.length_eq_zero_iff.mp empty)
    rw [same (by simp only; omega)]
    exact ⟨rfl, rfl⟩
  · show (page, some r.key) ∈ u.eraseList
    rw [hu, applyRetirement_eraseList entry', key]
    exact List.mem_append_right _ (List.mem_map.mpr ⟨page, here, rfl⟩)
  · have here' : x ∈ u.repairList := here
    rw [hu] at here'
    exact applyRetirement_superseded entry' here' (key.symm ▸ of)
  · have out := applyRetirement_changes (page := d.page) entry' q
    rw [key, port', written, ← hu] at out
    exact out

/-! ## The install of a repaired copy (R31, R145) -/

section Repaired
variable {s : State} {r : RunningJob} {e : Entry} {c c' : CopyNo} {k : Key} {version : Nat}

theorem mem_placeLost {y : RepairEntry} (member : y ∈ (placeLost s k version c').repairList) :
    y ∈ s.repairList ∨ y.copy = c' := by
  unfold placeLost at member
  split at member
  · exact .inl member
  · next none' =>
    have absent : s.repairList.find? (·.isFor k c') = none := by
      rw [List.find?_eq_none]
      simpa using none'
    simp only [repairRequest, absent, repairListAdd, List.mem_append, List.mem_singleton] at member
    rcases member with here | rfl
    · split at here
      · exact .inl (List.mem_filter.mp here).1
      · exact .inl here
    · exact .inr rfl

/-- A DEGRADED record's missing copy is not the one just installed. -/
theorem missingCopy_ne (valid : e.copyValid c = true) (cls : e.cls = .mirrored)
    (judged : e.integrity = integrityOf e.cls e.validCopies) (degraded : e.integrity = .degraded) :
    missingCopy e ≠ c := by
  cases c with
  | one => simp [missingCopy, valid]
  | two =>
    have other : e.copyValid .one = false := by
      by_contra both
      have both' : e.copy1.any (·.valid) = true := (Bool.not_eq_false _).mp both
      have valid' : e.copy2.any (·.valid) = true := valid
      rw [judged, cls, Entry.validCopies, both', valid'] at degraded
      exact absurd degraded (by decide)
    simp [missingCopy, other]

theorem replaceLost_without {v : Nat} (entry : s.entry k = some e) (valid : e.copyValid c = true)
    (judged : e.integrity = integrityOf e.cls e.validCopies) (absent : ∀ y ∈ s.repairList, y.isFor k c = false)
    {y : RepairEntry} (member : y ∈ (replaceLost s k v).repairList) : y.isFor k c = false := by
  simp only [replaceLost, entry] at member
  split at member
  · next degraded =>
    simp only [Bool.and_eq_true, beq_iff_eq] at degraded
    rcases mem_placeLost member with here | copy
    · exact absent y here
    · have other := missingCopy_ne valid degraded.1.2 judged degraded.2
      simp [RepairEntry.isFor, copy, other]
  · exact absent y member

/-- Only the Repair List differs, through two steps. -/
theorem repairsAlone_trans {t u : State} (first : t = { s with repairList := t.repairList })
    (second : u = { t with repairList := u.repairList }) : u = { s with repairList := u.repairList } := by
  rw [second, first]

/-- The state with the copy installed, before a LOST entry for the other one. -/
def repairedState (s : State) (r : RunningJob) (e : Entry) (c : CopyNo) : State :=
  inWriteToLive (liveToDirty
    (s.modifyEntry r.key fun _ => (e.setCopy c (some (descriptorOf r c))).judged) (descriptorPages (e.copy c)) r.key)
    (descriptorPages (some (descriptorOf r c)))

theorem installRepair_eq (entry : s.entry r.key = some e) (copy : r.job.params.copy = c) :
    installRepair s r = { repairedState s r e c with repairList := (installRepair s r).repairList } := by
  subst copy
  simp only [installRepair, entry]
  split
  · conv_lhs => rw [placeLost_frame]
    rfl
  · rfl

theorem pageFrame_repairedState : PageFrame s (repairedState s r e c) :=
  ((PageFrame.modifyEntry s r.key _).trans (.liveToDirty _ _ _)).trans (.inWriteToLive _ _)

theorem repairedState_eraseList : (repairedState s r e c).eraseList =
    s.eraseList ++ (descriptorPages (e.copy c)).map fun n => (n, some r.key) := rfl

theorem repairedState_entry (entry : s.entry r.key = some e) :
    (repairedState s r e c).entry r.key = some (e.setCopy c (some (descriptorOf r c))).judged :=
  State.entry_modifyEntry_self (f := fun _ => (e.setCopy c (some (descriptorOf r c))).judged) entry
    (by rw [Entry.judged_key, Entry.setCopy_key]; exact (State.entry_some entry).2)

/-- The end of a REPAIR that installs its copy. -/
theorem endRepairInstalled_eq (entry : s.entry r.key = some e) (copy : r.job.params.copy = c) :
    ∃ w, endRepairInstalled s r = finishJob w ∧
      w = { repairedState s r e c with repairList := w.repairList } ∧
      ∀ y ∈ w.repairList, y.isFor r.key c = false := by
  obtain ⟨u, hu⟩ : ∃ u, u = dropRepair (installRepair s r) r.key c := ⟨_, rfl⟩
  have frame : u = { repairedState s r e c with repairList := u.repairList } :=
    repairsAlone_trans (installRepair_eq entry copy) (by rw [hu, dropRepair])
  have installed : u.entry r.key = some (e.setCopy c (some (descriptorOf r c))).judged :=
    (State.entry_congr (s := repairedState s r e c) (by rw [frame]) r.key).trans (repairedState_entry entry)
  refine ⟨replaceLost u r.key (r.versionWritten.getD 0), ?_, ?_, fun y member => ?_⟩
  · rw [endRepairInstalled, closeRepair, copy, ← hu]
  · exact repairsAlone_trans frame (replaceLost_frame u r.key _)
  · refine replaceLost_without (c := c) installed ?_ ?_ (fun z here => ?_) member
    · cases c <;> rfl
    · cases c <;> rfl
    · rw [hu] at here
      simpa using (List.mem_filter.mp here).2

end Repaired

/-- Settles O49. -/
theorem repairInstallsCopy : Obligations.RepairInstallsCopy := by
  intro s r d tag payload e c array at' kind copy entry _ last
  have run := exec_repairPage_last at' kind last
  obtain ⟨r', hr⟩ : ∃ r', r' = markProgrammed r d := ⟨_, rfl⟩
  have key : r'.key = r.key := by rw [hr]; rfl
  have descriptor : descriptorOf r' c = ⟨headerPageOf r c, dataPagesOf r c, true, 0⟩ := by
    rw [hr]
    exact markProgrammed_descriptorOf r d c
  rw [← hr] at run
  obtain ⟨w, ends, frame, without⟩ := endRepairInstalled_eq (s := pageProgrammed s d tag payload) (r := r')
    (key.symm ▸ entry) (c := c) (by rw [hr]; exact copy)
  rw [ends] at run
  have installed := repairedState_entry (s := pageProgrammed s d tag payload) (r := r') (c := c)
    (key.symm ▸ entry)
  rw [key, descriptor] at installed
  obtain ⟨u, hu⟩ : ∃ u, u = repairedState (pageProgrammed s d tag payload) r' e c := ⟨_, rfl⟩
  have pages : PageFrame (pageProgrammed s d tag payload) u := hu ▸ pageFrame_repairedState
  have dirty := repairedState_eraseList (s := pageProgrammed s d tag payload) (r := r') (e := e) (c := c)
  rw [← hu] at installed frame dirty
  refine ⟨_, run, finishJob_ended _, ?_, ?_, fun page member => mem_finishJob_eraseList ?_, ?_, ?_, ?_⟩
  · rw [finishJob_page, frame]
    exact (State.page_congr pages.array d.page).trans (pageProgrammed_page array)
  · rw [finishJob_entry, frame]
    exact installed
  · rw [frame]
    show (page, some r.key) ∈ u.eraseList
    rw [dirty, key]
    exact List.mem_append_right _ (List.mem_map.mpr ⟨page, member, rfl⟩)
  · show w.repairList.any _ = false
    rw [List.any_eq_false]
    intro y member
    rw [← key, without y member]
    decide
  · show w.ports = s.ports
    rw [frame]
    exact pages.ports
  · show w.changeSets = s.changeSets
    rw [frame]
    exact pages.changeSets

end Sys2Proof.Machine

/-! Page erases (R111, R113, R116, R117, R133): the ERASE job, the draws that wait for erases, and the draws that
fail. -/

namespace Sys2Proof.Machine

/-! ## The ERASE job (R113) -/

section EraseJob
variable {s : State} {r : RunningJob} {page : Nat} {k : Option Key} {rest : List (Nat × Option Key)}

theorem exec_eraseComplete_erasing (success : Bool) (ready : s.isReady = true) (running : s.running = some r)
    (stage : r.stage = .erasing) (operation : s.operation = some (.erase page)) :
    exec (.eraseComplete success) s = .next (finishJob (eraseHeadDone s success)) := by
  show Host.Outcome.next _ = _
  rw [jobEvent_running ready running]
  simp only [eraseDone, operation, stage]

theorem eraseHeadDone_page (array : PageArray.wf s.array) (dirty : s.eraseList = (page, k) :: rest) :
    (eraseHeadDone s true).page page = PageCell.blank := by
  rw [eraseHeadDone_success dirty]
  exact (State.page_setPage array _ _ _).trans (if_pos rfl)

theorem eraseHeadDone_page_ne (success : Bool) (dirty : s.eraseList = (page, k) :: rest) {n : Nat}
    (other : n ≠ page) : (eraseHeadDone s success).page n = s.page n := by
  cases success
  · rw [eraseHeadDone_failure dirty]
    exact spoilPage_page_ne other
  · rw [eraseHeadDone_success dirty]
    exact storeRead_storeWrite_ne _ _ _ other

/-- What the erase of the head leaves, in the terms of the state before it. -/
theorem eraseHeadDone_success_frame (dirty : s.eraseList = (page, k) :: rest) : eraseHeadDone s true = { s with
    array := (eraseHeadDone s true).array
    eraseList := rest
    erased := s.erased ++ [page]
    retirementList := loweredFor k s.retirementList } := by
  rw [eraseHeadDone_success dirty]
  rfl

theorem eraseHeadDone_failure_frame (dirty : s.eraseList = (page, k) :: rest) : eraseHeadDone s false = { s with
    array := (eraseHeadDone s false).array
    freeIndex := s.freeIndex + 1
    eraseList := rest
    bad := s.bad ++ [(page, k)] } := by
  rw [eraseHeadDone_failure dirty]
  rfl

end EraseJob

/-! ## A draw that is made after erases -/

section Draws
variable {s : State} {r : RunningJob} {d : DrawnPage} {count page : Nat} {role : Option PageRole}

theorem RunningJob.with_stage {stage : Stage} (same : r.stage = stage) : { r with stage := stage } = r := by
  rw [← same]

/-- Copies are allocated with data pages first (R126). -/
theorem allocationRoles_data_head (kind : r.job.kind ≠ .retire) (atLeast : 1 ≤ r.job.params.length) :
    ∃ c later, allocationRoles r = .data c 0 :: later := by
  obtain ⟨one, head⟩ := copyRoles_head .one atLeast
  by_cases repair : r.job.kind = .repair
  · obtain ⟨later, head⟩ := copyRoles_head r.job.params.copy atLeast
    exact ⟨_, later, (allocationRoles_repair repair).trans head⟩
  · refine ⟨.one, ?_⟩
    unfold allocationRoles
    split
    · next retire => exact absurd retire kind
    · next repair' => exact absurd repair' repair
    · split
      · exact ⟨_, head⟩
      · exact ⟨_, by rw [head, List.cons_append]⟩

/-- The draw of an allocation takes all of ERASED, in the order of the roles, and its first program begins (R111,
R116, R126). -/
theorem continueDraw_allocates {first : Nat} {others : List Nat} (erased : s.erased = first :: others)
    (all : s.erased.length = count) (need : count = (allocationRoles r).length)
    (goes : s.sequenceCounter ≠ none ∨ r.job.kind ≠ .retire ∧ 1 ≤ r.job.params.length) :
    ∃ tag payload counter, continueDraw s r count none = { s with
        erased := []
        inWrite := insertAll s.erased s.inWrite
        reservation := s.reservation - r.job.need
        sequenceCounter := counter
        operation := some (.program first tag payload)
        running := some { allocated s r count with stage := .programming } } ∧ tag.key = r.key := by
  have taken : s.erased.take count = s.erased := List.take_of_length_le (by omega)
  have left : s.erased.drop count = [] := List.drop_of_length_le (by omega)
  obtain ⟨role, later, roles⟩ : ∃ role later, allocationRoles r = role :: later :=
    List.exists_cons_of_length_pos (by rw [← need, ← all, erased]; simp)
  have page := currentPage_allocated (count := count) (taken.trans erased) roles
  have goes' : s.sequenceCounter ≠ none ∨ ∃ c i, role = .data c i := goes.imp_right fun ⟨kind, atLeast⟩ => by
    obtain ⟨c, later', head⟩ := allocationRoles_data_head kind atLeast
    cases roles.symm.trans head
    exact ⟨c, 0, rfl⟩
  obtain ⟨tag, payload, counter, next, key, -⟩ := programNext_replaced
    (u := { s with
      erased := s.erased.drop count
      inWrite := insertAll (s.erased.take count) s.inWrite
      reservation := s.reservation - r.job.need }) page goes'
  refine ⟨tag, payload, counter, ?_, key⟩
  rw [continueDraw_draws (by omega), drawNow_allocation, next, left, taken]

/-- The draw of a replacement takes the head of ERASED, and its program begins (R130). -/
theorem continueDraw_replaces {fresh : Nat} {rest : List Nat} (erased : s.erased = fresh :: rest)
    (current : currentPage r = some d) (goes : s.sequenceCounter ≠ none ∨ ∃ c i, d.role = .data c i) :
    ∃ tag payload counter, continueDraw s r 1 (some d.role) = { s with
        erased := rest
        inWrite := insertNat fresh s.inWrite
        sequenceCounter := counter
        operation := some (.program fresh tag payload)
        running := some { replaced r d.role fresh with stage := .programming } } ∧ tag.key = r.key := by
  obtain ⟨tag, payload, counter, next, key, -⟩ := programNext_replaced
    (u := { s with erased := rest, inWrite := insertNat fresh s.inWrite })
    (currentPage_replaced (fresh := fresh) current) goes
  exact ⟨tag, payload, counter, by rw [continueDraw_draws (by rw [erased]; simp), drawNow_replacement erased, next],
    key⟩

/-- A draw that finds too few pages and nothing to erase (R117). -/
theorem continueDraw_fails (few : s.erased.length < count) (dirty : s.eraseList = []) :
    continueDraw s r count role = failJob { s with
      reservation := if role = none then s.reservation - r.job.need else s.reservation } r .noSpace := by
  cases role with
  | none => exact continueDraw_fails_allocation few dirty
  | some role => exact continueDraw_fails_replacement few dirty

end Draws

/-! ## The clauses -/

section Clauses
variable {s : State} {r : RunningJob} {j : Job} {others : List Job} {k : Key} {e : Entry} {p : Port}
  {count page : Nat} {role : Option PageRole} {k' : Option Key} {rest : List (Nat × Option Key)}

/-- A write's or a retirement's job at its start, before its draw. -/
theorem exec_jobSelect_draws (ready : s.isReady = true) (free : s.engine = .free)
    (head : s.jobQueue = j :: others) (target : j.target = some (.record k)) (entry : s.entry k = some e)
    (kind : j.kind = .writeCopy ∧ j.cause ≠ some .raise ∧
        count = e.cls.copies * (1 + (j.params.length + 63) / 64) ∨
      j.kind = .retire ∧ count = 1) :
    ∃ r, exec .jobSelect s =
        .next (continueDraw { s with jobQueue := others, engine := .running } r count none) ∧
      r.drawn = [] ∧ r.phase = .beforeCommit ∧ r.entry = some e ∧ r.job.target = j.target ∧
      r.job.need = j.need ∧ r.job.port = j.port ∧ r.job.kind = j.kind ∧ r.job.cause = j.cause ∧
      r.job.handle = j.handle ∧ (j.kind = .writeCopy → r.job = j) := by
  obtain ⟨u, hu⟩ : ∃ u : State, u = { s with jobQueue := others, engine := .running } := ⟨_, rfl⟩
  have entry' : u.entry k = some e := by rw [hu]; exact entry
  rcases kind with ⟨kind, cause, countIs⟩ | ⟨kind, rfl⟩
  · have need : (allocationRoles (writeRun u j e)).length = count := by
      rw [length_allocationRoles_write (r := writeRun u j e) kind, countIs]
      rfl
    refine ⟨writeRun u j e, ?_, rfl, rfl, rfl, rfl, rfl, rfl, rfl, rfl, rfl, fun _ => rfl⟩
    rw [exec_jobSelect_writeCopy ready free head target kind, ← hu, startWriteCopy_write entry' cause, beginDraw,
      need]
  · refine ⟨retireRun j e, ?_, rfl, rfl, rfl, rfl, rfl, rfl, rfl, rfl, rfl, fun write => ?_⟩
    · rw [exec_jobSelect_retire ready free head target kind, ← hu, startRetire_eq entry' kind]
    · rw [kind] at write
      cases write

theorem RunningJob.key_of_target (target : r.job.target = some (.record k)) : r.key = k := by
  simp [RunningJob.key, Job.key, target]

/-- The draw of a job fails at its start, with nothing to erase (R117). -/
theorem start_fails (canonical : MemoriesCanonical s) (few : s.erased.length < count) (dirty : s.eraseList = [])
    (need : r.job.need = j.need)
    (run : exec .jobSelect s = .next (continueDraw { s with jobQueue := others, engine := .running } r count none)) :
    ∃ t, exec .jobSelect s = .next t ∧ JobFails s t r .noSpace ∧ t.jobQueue = others ∧ t.erased = s.erased ∧
      t.reservation = s.reservation - j.need := by
  rw [continueDraw_fails (s := { s with jobQueue := others, engine := .running }) few dirty, if_pos rfl] at run
  obtain ⟨u, hu⟩ : ∃ u : State, u = { s with
    jobQueue := others
    engine := .running
    reservation := s.reservation - r.job.need } := ⟨_, rfl⟩
  have stuck : Stuck s u r r := by
    rw [hu]
    exact ⟨⟨rfl, rfl, rfl, rfl, rfl⟩, .refl s r.key, rfl, rfl, rfl⟩
  have run' : exec .jobSelect s = .next (failJob u r .noSpace) := by rw [run, hu]
  have ends := EndFrame.failJob u r .noSpace
  refine ⟨_, run', stuck.fails canonical, ?_, ?_, ?_⟩
  · rw [ends.jobQueue, hu]
  · rw [ends.erased, hu]
  · rw [ends.reservation, hu, need]

/-- An erase on demand that ends with nothing more to erase and too few pages (R117). -/
theorem erase_fails (success : Bool) (canonical : MemoriesCanonical s) (ready : s.isReady = true)
    (running : s.running = some r) (stage : r.stage = .drawing count role)
    (operation : s.operation = some (.erase page)) (dirty : s.eraseList = [(page, k')])
    (few : s.erased.length + (if success then 1 else 0) < count) :
    ∃ t, exec (.eraseComplete success) s = .next t ∧
      t.reservation = (if role = none then s.reservation - r.job.need else s.reservation) ∧
      t.erased = s.erased ++ (if success then [page] else []) ∧
      t.bad = s.bad ++ (if success then [] else [(page, k')]) ∧ JobFails s t r .noSpace := by
  obtain ⟨u, hu⟩ : ∃ u, u = eraseHeadDone s success := ⟨_, rfl⟩
  have stood : StoodBefore s u := hu ▸ eraseHeadDone_stood success
  have run := exec_eraseComplete_drawing success ready running stage operation
  rw [← hu] at run
  have lists : u.erased = s.erased ++ (if success then [page] else []) ∧ u.eraseList = [] ∧
      u.bad = s.bad ++ (if success then [] else [(page, k')]) ∧ u.inWrite = s.inWrite ∧
      u.reservation = s.reservation := by
    cases success
    · rw [hu, eraseHeadDone_failure_frame dirty]
      exact ⟨(List.append_nil _).symm, rfl, rfl, rfl, rfl⟩
    · rw [hu, eraseHeadDone_success_frame dirty]
      exact ⟨rfl, rfl, (List.append_nil _).symm, rfl, rfl⟩
  obtain ⟨erased, empty, bad, inWrite, reservation⟩ := lists
  have few' : u.erased.length < count := by
    rw [erased, List.length_append]
    cases success
    · exact few
    · exact few
  rw [continueDraw_fails few' empty] at run
  have stuck : Stuck s { u with
      reservation := if role = none then u.reservation - r.job.need else u.reservation } r r :=
    ⟨⟨stood.directory, stood.claims, stood.ports, stood.notices, stood.repairs⟩,
      fun n member => .inl (inWrite ▸ member), rfl, rfl, rfl⟩
  have ends := EndFrame.failJob { u with
    reservation := if role = none then u.reservation - r.job.need else u.reservation } r .noSpace
  refine ⟨_, run, ?_, ends.erased.trans erased, ends.bad.trans bad, stuck.fails canonical⟩
  rw [ends.reservation, reservation]

end Clauses

/-- Settles O50. -/
theorem erasesMovePages : Obligations.ErasesMovePages := by
  refine ⟨?_, ?_, ?_, ?_⟩
  · intro s r page k rest array ready running stage operation dirty
    refine ⟨⟨_, exec_eraseComplete_erasing true ready running stage operation,
      eraseHeadDone_page array dirty, fun n other => eraseHeadDone_page_ne true dirty other, ?_⟩,
      ⟨_, exec_eraseComplete_erasing false ready running stage operation,
      fun n other => eraseHeadDone_page_ne false dirty other, ?_⟩⟩
    · have frame := eraseHeadDone_success_frame dirty
      obtain ⟨u, hu⟩ : ∃ u, u = eraseHeadDone s true := ⟨_, rfl⟩
      rw [← hu] at frame ⊢
      rw [frame]
      rfl
    · have frame := eraseHeadDone_failure_frame dirty
      obtain ⟨u, hu⟩ : ∃ u, u = eraseHeadDone s false := ⟨_, rfl⟩
      rw [← hu] at frame ⊢
      rw [frame]
      rfl
  · intro s j others k e count page k' rest ready free head target entry kind few dirty
    obtain ⟨r, run, drawn, phase, entryIs, targetIs, need, -⟩ :=
      exec_jobSelect_draws (count := count) ready free head target entry (kind.imp_left fun ⟨write, cause, same⟩ =>
        ⟨write, cause, same.trans (by cases e.cls <;> rfl)⟩)
    rw [continueDraw_erases (s := { s with jobQueue := others, engine := .running }) few dirty] at run
    exact ⟨_, { r with stage := .drawing count none }, run, rfl, drawn, phase, entryIs, targetIs, need, rfl⟩
  · intro s r count role page k rest array ready running stage operation dirty
    have run := fun success => exec_eraseComplete_drawing success ready running stage operation
    have success := eraseHeadDone_success_frame dirty
    have blank := eraseHeadDone_page array dirty
    obtain ⟨u, hu⟩ : ∃ u, u = eraseHeadDone s true := ⟨_, rfl⟩
    have runTrue := run true
    rw [← hu] at runTrue success blank
    refine ⟨fun next k' more restIs => ⟨fun few => ?_, fun few => ?_⟩, fun all none' need goes => ?_,
      fun d empty one current roleIs goes => ?_, fun ok canonical restIs few => ?_⟩
    · rw [continueDraw_erases (s := u) (page := next) (k := k') (rest := more)
        (by rw [success]; simpa using few) (by rw [success]; exact restIs), RunningJob.with_stage stage] at runTrue
      refine ⟨_, runTrue, blank, ?_⟩
      rw [success, ← running]
    · have failure := eraseHeadDone_failure_frame dirty
      obtain ⟨v, hv⟩ : ∃ v, v = eraseHeadDone s false := ⟨_, rfl⟩
      have runFalse := run false
      rw [← hv] at runFalse failure
      rw [continueDraw_erases (s := v) (page := next) (k := k') (rest := more)
        (by rw [failure]; exact few) (by rw [failure]; exact restIs), RunningJob.with_stage stage] at runFalse
      refine ⟨_, runFalse, ?_⟩
      rw [failure, ← running]
    · subst none'
      have erased : u.erased = s.erased ++ [page] := by rw [success]
      obtain ⟨first, others, pages⟩ : ∃ first others, u.erased = first :: others :=
        List.exists_cons_of_length_pos (by rw [erased]; simp)
      have counter : u.sequenceCounter = s.sequenceCounter := by rw [success]
      obtain ⟨tag, payload, counter', draws, key⟩ := continueDraw_allocates (s := u) (count := count) pages
        (by rw [erased, List.length_append]; exact all) need (counter ▸ goes)
      rw [draws] at runTrue
      have taken : u.erased.take count = s.erased ++ [page] := by
        rw [erased]
        exact List.take_of_length_le (by rw [List.length_append]; exact all.le)
      have same : (u.erased.take count).length = (allocationRoles r).length := by
        rw [taken, List.length_append, ← need]
        exact all
      refine ⟨_, { allocated u r count with stage := .programming }, first, tag, payload, runTrue,
        by rw [← erased, pages]; rfl, rfl, key, rfl, rfl, (withRoles_pages same).trans taken,
        withRoles_roles same, fun d drawn => withRoles_programmed drawn, rfl, ?_, ?_, ?_, ?_⟩
      · rw [← erased, show s.inWrite = u.inWrite by rw [success]]
      · rw [success]
      · rw [success]
      · rw [success]
    · subst one
      have erased : u.erased = [page] := by rw [success, empty]; rfl
      have counter : u.sequenceCounter = s.sequenceCounter := by rw [success]
      obtain ⟨tag, payload, counter', draws, key⟩ := continueDraw_replaces (s := u) erased current (counter ▸ goes)
      rw [roleIs, draws] at runTrue
      refine ⟨_, { replaced r d.role page with stage := .programming }, tag, payload, runTrue, rfl, key, rfl, rfl,
        currentPage_replaced current, rfl, ?_, ?_, ?_, ?_⟩
      · rw [success]
      · rw [success]
      · rw [success]
      · rw [success]
    · subst restIs
      exact erase_fails ok canonical ready running stage operation dirty few
  · intro s j others k e p canonical ready free head target port entry dirty
    refine ⟨fun kind cause few => ?_, fun kind cause handle erased => ?_⟩
    · obtain ⟨r, run, -, phase, -, targetIs, need, portIs, kindIs, -, -, jobIs⟩ :=
        exec_jobSelect_draws ready free head target entry (.inl ⟨kind, cause, rfl⟩)
      have few' : s.erased.length < e.cls.copies * (1 + (j.params.length + 63) / 64) :=
        lt_of_lt_of_eq few (by cases e.cls <;> rfl)
      have job := jobIs kind
      have key : r.key = k := RunningJob.key_of_target (targetIs.trans target)
      obtain ⟨t, executed, fails, queue, pages, reservation⟩ := start_fails canonical few' dirty need run
      have undone := fails.undone p e (kindIs.trans kind) phase (portIs.trans port) (key.symm ▸ entry)
      refine ⟨t, executed, undone.of_run ?_ (by rw [job]; rfl) fun result reported => ?_, queue, pages, reservation⟩
      · rw [key]
        exact RunningJob.key_of_target (r := newRun j (some e)) target
      · rw [Reports, job]
        exact reported
    · obtain ⟨r, run, -, phase, -, targetIs, need, portIs, kindIs, causeIs, handleIs, -⟩ :=
        exec_jobSelect_draws (count := 1) ready free head target entry (.inr ⟨kind, rfl⟩)
      have key : r.key = k := RunningJob.key_of_target (targetIs.trans target)
      obtain ⟨t, executed, fails, queue, pages, reservation⟩ :=
        start_fails (count := 1) canonical (by rw [erased]; decide) dirty need run
      have undone := fails.retirement p e (kindIs.trans kind) phase (portIs.trans port) (causeIs.trans cause)
        (handleIs.trans handle) (key.symm ▸ entry)
      exact ⟨t, executed, key ▸ undone, queue, pages.trans erased, reservation⟩

end Sys2Proof.Machine

/-! The configuration write (R51, R55 to R57). -/

namespace Sys2Proof.Machine

/-! ## The target copy (R56) -/

section Target
variable {s : State}

theorem configTarget_two {n : Nat} (valid : s.copyStateA = .valid n)
    (newest : ∀ m, s.copyStateB = .valid m → m < n) : configTarget s = .two := by
  have found : newestValid s.copyStateA s.copyStateB = some .one := by
    rw [valid]
    cases other : s.copyStateB with
    | valid m => exact if_pos (newest m other).le
    | erased => rfl
    | invalid => rfl
  simp only [configTarget, found]

theorem configTarget_one (older : ∀ n, s.copyStateA = .valid n → ∃ m, s.copyStateB = .valid m ∧ n < m) :
    configTarget s = .one := by
  have found : newestValid s.copyStateA s.copyStateB ≠ some .one := by
    cases valid : s.copyStateA with
    | valid n =>
      obtain ⟨m, other, newer⟩ := older n valid
      rw [other]
      simp [newestValid, Nat.not_le.mpr newer]
    | erased => cases s.copyStateB <;> simp [newestValid]
    | invalid => cases s.copyStateB <;> simp [newestValid]
  unfold configTarget
  split
  · next first => exact absurd first found
  · rfl

end Target

/-! ## The operations of the job (R56) -/

section Steps
variable {s : State} {r : RunningJob} {step page : Nat} {op : PageOperation} {tag : Tag} {payload : Payload}

theorem beginConfigStep_erase (early : step < 4) : beginConfigStep s r step = { s with
    operation := some (.erase (configBase r.job.params.copy + step))
    running := some { r with stage := .config step } } := by
  unfold beginConfigStep
  split
  · omega
  · omega
  · omega
  · rfl

theorem beginConfigStep_header {n : Nat} (counter : s.sequenceCounter = some n) : beginConfigStep s r 6 = { s with
    sequenceCounter := if 4294967295 ≤ n then none else some (n + 1)
    operation := some (.program (configBase r.job.params.copy)
      ⟨.config, ⟨0, 0⟩, 0, copyNumber r.job.params.copy, none, none, none⟩
      (.config (copyNumber r.job.params.copy) n r.crc))
    running := some { r with stage := .config 6 } } := by
  simp only [beginConfigStep, counter]
  rfl

theorem beginConfigStep_exhausted (counter : s.sequenceCounter = none) :
    beginConfigStep s r 6 = endConfig s { r with stage := .config 6 } .exhausted false := by
  simp only [beginConfigStep, counter]

theorem exec_configPage_next (ready : s.isReady = true) (running : s.running = some r)
    (kind : r.job.kind = .configWrite) (stage : r.stage = .config step) (operation : s.operation = some op)
    (early : step < 6) :
    exec (.configPageOperationDone true) s =
      .next (beginConfigStep (s.setPage op.page (op.outcome (s.page op.page))) r (step + 1)) := by
  show Host.Outcome.next _ = _
  rw [jobEvent_running ready running]
  simp only [configPageDone, kind, stage, operation, Nat.not_le.mpr early, if_false, if_true]

theorem exec_configPage_failed (ready : s.isReady = true) (running : s.running = some r)
    (kind : r.job.kind = .configWrite) (stage : r.stage = .config step) (operation : s.operation = some op)
    (early : step < 6) :
    exec (.configPageOperationDone false) s = .next (endConfig (s.spoilPage op.page) r .arrayFault false) := by
  show Host.Outcome.next _ = _
  rw [jobEvent_running ready running]
  simp only [configPageDone, kind, stage, operation, Nat.not_le.mpr early, if_false, Bool.false_eq_true]

theorem exec_configHeader_failed (ready : s.isReady = true) (running : s.running = some r)
    (kind : r.job.kind = .configWrite) (stage : r.stage = .config 6)
    (operation : s.operation = some (.program page tag payload)) :
    exec .headerProgramFailure s = .next (endConfig (s.spoilPage page) r .arrayFault false) := by
  show Host.Outcome.next _ = _
  rw [jobEvent_running ready running]
  simp only [headerFailed, kind, stage, operation]

theorem exec_configurationCommitPoint {n sequence : Nat} {crc : BitVec 32} (ready : s.isReady = true)
    (running : s.running = some r) (kind : r.job.kind = .configWrite) (stage : r.stage = .config 6)
    (operation : s.operation = some (.program page tag (.config n sequence crc))) :
    exec .configurationCommitPoint s = .next (endConfig (applyConfigCommit
      (s.setPage page ⟨.holds tag, .holds (.config n sequence crc)⟩) r sequence) r .done true) := by
  show Host.Outcome.next _ = _
  rw [jobEvent_running ready running]
  simp only [configCommitDone, kind, stage, operation]
  rfl

/-- A page that is set reads as it was set. -/
theorem setPage_self (array : PageArray.wf s.array) (n : Nat) (cell : PageCell) : (s.setPage n cell).page n = cell :=
  (State.page_setPage array _ _ _).trans (if_pos rfl)

end Steps

/-! ## The end of the job (R55, R57) -/

section Ends
variable {s u : State} {r : RunningJob} {p : Port} {code : Completion} {committed : Bool}

theorem EndFrame.endConfig (s : State) (r : RunningJob) (code : Completion) (committed : Bool) :
    EndFrame s (endConfig s r code committed) :=
  (EndFrame.releaseJobSlot s r _).trans ((EndFrame.completeJob _ r code _ none).trans (EndFrame.finishJob _))

theorem endConfig_ended : JobEnded (endConfig s r code committed) := finishJob_ended _

/-- A configuration claim is released COMMITTED or FAILED, neither of them a lapse. -/
theorem endConfig_cause : (if committed then ReleaseCause.committed else .failed) ≠ .lapsed := by
  cases committed <;> decide

/-- The answer of a configuration COMMIT, with the stored sequence where it is committed (R55). -/
theorem endConfig_answered (ports : u.ports = s.ports) (window : (s.port p).window.wf)
    (port : r.job.port = some p) (cause : r.job.cause = some .commitConfig) :
    PortAnswered s (endConfig u r code committed) p false ∧
      resultArea (endConfig u r code committed) p = resultBytes (s.port p).go code
        { committed := committed, version := if committed then u.storedSequence else 0 } := by
  obtain ⟨w, hw⟩ : ∃ w, w = releaseJobSlot u r (if committed then .committed else .failed) := ⟨_, rfl⟩
  have frame : w = _ := hw.trans (releaseJobSlot_frame endConfig_cause u r)
  have result : jobResult w r committed false =
      { committed := committed, version := if committed then u.storedSequence else 0 } := by
    have stored : w.storedSequence = u.storedSequence := by rw [frame]
    simp only [jobResult, cause, stored]
  have answered := post_answered_ports (s := s) (s' := w) (p := p) (by rw [frame]; exact ports) window code
    { committed := committed, version := if committed then u.storedSequence else 0 } none
  rw [Machine.endConfig, ← hw, completeJob_some port, result]
  exact answered

theorem endConfig_lists : (endConfig u r code committed).claims =
      (releaseJobSlot u r (if committed then .committed else .failed)).claims ∧
    (endConfig u r code committed).directory =
      (releaseJobSlot u r (if committed then .committed else .failed)).directory := by
  rw [Machine.endConfig, finishJob_frame, completeJob_frame]
  exact ⟨rfl, rfl⟩

/-- The slot of the claim is FREE. -/
theorem endConfig_slot {hd : Handle} (handle : r.job.handle = some hd) :
    ((endConfig u r code committed).slot hd.slot).state = .free := by
  have claims := (endConfig_lists (u := u) (code := code) (committed := committed)).1.trans
    (releaseJobSlot_claims endConfig_cause handle)
  rw [State.slot, claims]
  simp [released]

/-- The release of a claim on the configuration touches no directory entry (R87). -/
theorem releaseJobSlot_config {cause : ReleaseCause} (other : cause ≠ .lapsed)
    (targets : ∀ hd, r.job.handle = some hd → (s.slot hd.slot).target = some .config) :
    (releaseJobSlot s r cause).directory = s.directory := by
  cases handle : r.job.handle with
  | none => simp only [releaseJobSlot, handle]
  | some hd =>
    simp only [releaseJobSlot, handle, releaseSlot, targets hd handle]
    split
    · exact absurd rfl other
    · rfl

end Ends

/-! ## The failures (R57, R124) -/

section Failures
variable {s : State} {r : RunningJob} {step : Nat} {op : PageOperation} {p : Port} {command : Instr}
  {refusal : Completion}

/-- A failed operation, or a header while the counter is exhausted, ends the job from a state that differs in the
array and the free index alone. -/
theorem exec_configFails (ready : s.isReady = true) (running : s.running = some r)
    (kind : r.job.kind = .configWrite) (stage : r.stage = .config step) (operation : s.operation = some op)
    (how : command = .configPageOperationDone false ∧ step < 6 ∧ refusal = .arrayFault ∨
      command = .headerProgramFailure ∧ step = 6 ∧ (∃ page tag payload, op = .program page tag payload) ∧
        refusal = .arrayFault ∨
      command = .configPageOperationDone true ∧ step = 5 ∧ s.sequenceCounter = none ∧ refusal = .exhausted) :
    ∃ u r', exec command s = .next (endConfig u r' refusal false) ∧ r'.job = r.job ∧
      u = { s with
        array := u.array
        freeIndex := u.freeIndex } := by
  rcases how with ⟨rfl, early, rfl⟩ | ⟨rfl, rfl, ⟨page, tag, payload, rfl⟩, rfl⟩ | ⟨rfl, rfl, counter, rfl⟩
  · exact ⟨s.spoilPage op.page, r, exec_configPage_failed ready running kind stage operation early, rfl, rfl⟩
  · exact ⟨s.spoilPage page, r, exec_configHeader_failed ready running kind stage operation, rfl, rfl⟩
  · refine ⟨s.setPage op.page (op.outcome (s.page op.page)), { r with stage := .config 6 }, ?_, rfl, rfl⟩
    rw [exec_configPage_next ready running kind stage operation (by decide)]
    exact congrArg _ (beginConfigStep_exhausted (s := s.setPage op.page (op.outcome (s.page op.page))) counter)

end Failures

/-- Settles O51. -/
theorem configWriteRuns : Obligations.ConfigWriteRuns := by
  refine ⟨?_, ?_, ?_, ?_, ?_⟩
  · intro s j rest copy ready free head kind how
    have target : configTarget ({ s with jobQueue := rest, engine := .running } : State) = copy := by
      rcases how with ⟨⟨n, valid, newest⟩, rfl⟩ | ⟨older, rfl⟩
      · exact configTarget_two (s := { s with jobQueue := rest, engine := .running }) valid newest
      · exact configTarget_one (s := { s with jobQueue := rest, engine := .running }) older
    have run := exec_jobSelect_start ready free head
    rw [startJob, kind] at run
    simp only [startConfigWrite, target] at run
    rw [run, beginConfigStep_erase (by decide)]
    cases copy
    · simp only [reduceCtorEq, if_true, if_false]
      rfl
    · simp only [reduceCtorEq, if_true, if_false]
      rfl
  · intro s r step page array ready running kind stage operation
    have run := fun early => exec_configPage_next (step := step) ready running kind stage operation early
    refine ⟨fun early => ?_, fun last => ?_⟩
    · refine ⟨_, run (by omega), ?_, ?_⟩
      · rw [beginConfigStep_erase (by omega)]
        exact setPage_self array _ _
      · rw [beginConfigStep_erase (by omega)]
        rfl
    · subst last
      exact ⟨_, run (by decide), setPage_self array _ _, rfl⟩
  · intro s r step page tag payload array ready running kind stage operation
    have run := fun early => exec_configPage_next (step := step) ready running kind stage operation early
    refine ⟨fun first => ?_, fun n second counter => ?_⟩
    · subst first
      exact ⟨_, run (by decide), setPage_self array _ _, rfl⟩
    · subst second
      have header := beginConfigStep_header (r := r)
        (s := s.setPage page (programmedCell tag payload)) (n := n) counter
      have run' := (run (by decide)).trans (congrArg _ header)
      exact ⟨_, run', setPage_self array _ _, rfl⟩
  · intro s r step op p command refusal canonical ready running kind target cause port stage operation how
    obtain ⟨u, r', run, job, frame⟩ := exec_configFails ready running kind stage operation how
    obtain ⟨answered, area⟩ := endConfig_answered (s := s) (u := u) (r := r') (code := refusal)
      (committed := false) (by rw [frame]) (canonical.windows p) (job ▸ port) (job ▸ cause)
    have ends := EndFrame.endConfig u r' refusal false
    unfold EndFrame at ends
    refine ⟨_, run, endConfig_ended, answered, area, ?_, ?_, ?_, ?_, ?_, fun hd handle =>
      endConfig_slot (job.symm ▸ handle)⟩
    · rw [ends, frame]
    · rw [ends, frame]
    · rw [ends, frame]
    · rw [ends, frame]
    · rw [ends, frame]
  · intro s r page n sequence tag crc p canonical ready running kind target cause port stage operation targets
    obtain ⟨u, hu⟩ : ∃ u, u = applyConfigCommit
      (s.setPage page ⟨.holds tag, .holds (.config n sequence crc)⟩) r sequence := ⟨_, rfl⟩
    have run := exec_configurationCommitPoint ready running kind stage operation
    rw [← hu] at run
    have frame : u = { s with
        array := u.array
        copyStateA := u.copyStateA
        copyStateB := u.copyStateB
        storedImage := some r.content
        storedSequence := sequence } := by
      rw [hu, applyConfigCommit]
      cases r.job.params.copy <;> rfl
    have cell : u.page page = ⟨.holds tag, .holds (.config n sequence crc)⟩ := by
      have arrays : u.array = (s.setPage page ⟨.holds tag, .holds (.config n sequence crc)⟩).array := by
        rw [hu, applyConfigCommit]
        cases r.job.params.copy <;> rfl
      exact (State.page_congr arrays page).trans (setPage_self canonical.array _ _)
    have stored : u.storedSequence = sequence := by rw [frame]
    obtain ⟨answered, area⟩ := endConfig_answered (s := s) (u := u) (r := r) (code := .done)
      (committed := true) (by rw [frame]) (canonical.windows p) port cause
    rw [if_pos rfl, stored] at area
    have targets' : ∀ hd, r.job.handle = some hd → (u.slot hd.slot).target = some .config := by
      rw [frame]
      exact targets
    have directory := (endConfig_lists (u := u) (r := r) (code := .done) (committed := true)).2.trans
      (releaseJobSlot_config (s := u) (r := r) (endConfig_cause (committed := true)) targets')
    have ends := EndFrame.endConfig u r .done true
    refine ⟨_, run, endConfig_ended, (State.page_congr ends.array page).trans cell, ?_, ?_, ?_, ?_, ?_, ?_, ?_,
      fun hd handle => endConfig_slot handle, answered, area⟩
    · unfold EndFrame at ends
      rw [ends, hu, applyConfigCommit]
      cases r.job.params.copy <;> exact ⟨rfl, rfl⟩
    · unfold EndFrame at ends
      rw [ends, frame]
    · unfold EndFrame at ends
      rw [ends, frame]
    · unfold EndFrame at ends
      rw [ends, frame]
    · unfold EndFrame at ends
      rw [ends, frame]
    · unfold EndFrame at ends
      rw [ends, frame]
    · rw [directory, frame]

end Sys2Proof.Machine

/-! The pages of the rebuilt entries (R155 to R157): every page a descriptor names bears a readable tag of its place,
and no page is named twice. -/

namespace Sys2Proof.Machine

section Tags
variable {scan : List (Nat × ScanRecord)} {k : Key} {v : Nat} {c : CopyNo} {e : Entry} {d : CopyDescriptor}
  {page : Nat}

/-! ## A page of a descriptor bears the tag of its place -/

theorem ValidCandidate.bears {h : HeaderPayload} (valid : ValidCandidate scan k v c page h) {p : Nat}
    (member : p ∈ h.dataPages) : ∃ index, BearsTags scan k v c index p := by
  obtain ⟨contents, same, listed, -⟩ := valid.content
  obtain ⟨index, inside, rfl⟩ := List.getElem_of_mem member
  have content : contents[index]? = some contents[index] := List.getElem?_eq_getElem (by omega)
  obtain ⟨tag, corrected, mem, kind, key, version, copy, data⟩ :=
    listed index _ _ (List.getElem?_eq_getElem inside) content
  exact ⟨index, tag, corrected, _, mem, kind, key, version, copy, data⟩

/-- The tags of a descriptor's pages: the header is a candidate, and each data page a DATA page of the copy. -/
structure TaggedCopy (scan : List (Nat × ScanRecord)) (e : Entry) (c : CopyNo) (d : CopyDescriptor) : Prop where
  header : ∃ tag payload, Candidate scan e.key e.version c d.header tag payload
  data : ∀ p ∈ d.dataPages, ∃ index, BearsTags scan e.key e.version c index p

theorem InvalidCopy.tagged (invalid : InvalidCopy scan e c d) : TaggedCopy scan e c d := by
  by_cases readable : ∃ page tag h, Candidate scan e.key e.version c page tag (some (.header h))
  · obtain ⟨page, tag, h, candidate⟩ := readable
    obtain ⟨tag', h', named, -, list⟩ := invalid.readable page tag h candidate
    refine ⟨⟨tag', _, named⟩, fun p member => ?_⟩
    obtain ⟨index, -, bears⟩ := (list p).mp member
    exact ⟨index, bears⟩
  · obtain ⟨named, -, list⟩ := invalid.unreadable fun page tag h candidate => readable ⟨page, tag, h, candidate⟩
    refine ⟨named, fun p member => ?_⟩
    obtain ⟨index, -, bears, -⟩ := (list p).mp member
    exact ⟨index, bears⟩

theorem ValidCandidate.tagged {h : HeaderPayload} (valid : ValidCandidate scan e.key e.version c d.header h)
    (list : h.dataPages = d.dataPages) : TaggedCopy scan e c d := by
  obtain ⟨tag, candidate, -⟩ := valid.agrees
  exact ⟨⟨tag, _, candidate⟩, fun p member => valid.bears (list ▸ member)⟩

/-- A copy that is there is valid and chosen, or the invalid one of a DAMAGED record. -/
theorem RebuiltCopies.copy_cases (copies : RebuiltCopies scan e) (copy : e.copy c = some d) :
    (d.valid = true ∧ ∃ h, ValidCandidate scan e.key e.version c d.header h ∧ h.dataPages = d.dataPages) ∨
      (e.integrity = .damaged ∧ InvalidCopy scan e c d) := by
  by_cases valid : d.valid = true
  · refine .inl ⟨valid, ?_⟩
    cases c with
    | one =>
      obtain ⟨h, candidate, list, -⟩ := copies.chosenOne d copy valid
      exact ⟨h, candidate, list⟩
    | two =>
      obtain ⟨-, h, candidate, list, -⟩ := copies.chosenTwo d copy valid
      exact ⟨h, candidate, list⟩
  · have damaged : e.integrity = .damaged := by
      by_contra whole
      have gone := copies.absent whole c (by rw [Entry.copyValid, copy]; simpa using valid)
      rw [copy] at gone
      cases gone
    exact .inr ⟨damaged, (copies.damaged damaged c).2 d copy⟩

theorem RebuiltCopies.tagged (copies : RebuiltCopies scan e) (copy : e.copy c = some d) : TaggedCopy scan e c d := by
  rcases copies.copy_cases copy with ⟨-, h, candidate, list⟩ | ⟨-, invalid⟩
  · exact candidate.tagged list
  · exact invalid.tagged

theorem mem_entryPages : page ∈ entryPages e ↔ ∃ c d, e.copy c = some d ∧ page ∈ d.header :: d.dataPages := by
  have copyPages : ∀ o : Option CopyDescriptor,
      page ∈ descriptorPages o ↔ ∃ d, o = some d ∧ page ∈ d.header :: d.dataPages := by
    rintro (_ | d)
    · simp [descriptorPages]
    · simp [descriptorPages]
  rw [entryPages, List.mem_append, copyPages, copyPages]
  constructor
  · rintro (⟨d, copy, member⟩ | ⟨d, copy, member⟩)
    · exact ⟨.one, d, copy, member⟩
    · exact ⟨.two, d, copy, member⟩
  · rintro ⟨c, d, copy, member⟩
    cases c
    · exact .inl ⟨d, copy, member⟩
    · exact .inr ⟨d, copy, member⟩

/-- A page of a tagged copy has a scan record with a readable tag of the key, a HEADER or a DATA tag. -/
theorem TaggedCopy.record (tagged : TaggedCopy scan e c d) (member : page ∈ d.header :: d.dataPages) :
    ∃ tag corrected payload, (page, .tagged tag corrected payload) ∈ scan ∧ tag.key = e.key ∧
      tag.copyNumber = copyNumber c ∧ tag.kind ≠ .retire := by
  rcases List.mem_cons.mp member with rfl | data
  · obtain ⟨tag, payload, key, -, kind, copy, corrected, mem⟩ := tagged.header
    exact ⟨tag, corrected, payload, mem, key, copy, by simp [kind]⟩
  · obtain ⟨index, tag, corrected, payload, mem, kind, key, -, copy, -⟩ := tagged.data page data
    exact ⟨tag, corrected, payload, mem, key, copy, by simp [kind]⟩

end Tags

/-! ## What is named in the rebuilt directory and Retirement List -/

section Rebuilt
variable {scan : List (Nat × ScanRecord)} {e : Entry} {page : Nat}

theorem rebuiltDirectory_copies (rising : (scan.map Prod.fst).Pairwise (· < ·))
    (member : e ∈ rebuiltDirectory (resolutions scan)) : RebuiltCopies scan e := by
  obtain ⟨-, -, same⟩ := mem_rebuiltDirectory member
  rw [same]
  exact headerEntry_copies rising e.key

/-- A page that a descriptor names was found with a readable tag of the record's key. -/
theorem entryPages_record (rising : (scan.map Prod.fst).Pairwise (· < ·))
    (member : e ∈ rebuiltDirectory (resolutions scan)) (named : page ∈ entryPages e) :
    ∃ tag corrected payload, (page, .tagged tag corrected payload) ∈ scan ∧ tag.key = e.key ∧
      tag.kind ≠ .retire := by
  obtain ⟨c, d, copy, here⟩ := mem_entryPages.mp named
  obtain ⟨tag, corrected, payload, mem, key, -, kind⟩ :=
    ((rebuiltDirectory_copies rising member).tagged copy).record here
  exact ⟨tag, corrected, payload, mem, key, kind⟩

/-- The header of a Retirement List entry was found with a readable RETIRE tag of its key. -/
theorem retirementHeader_record {x : RetirementEntry} (member : x ∈ rebuiltRetirements (resolutions scan)) :
    ∃ tag corrected payload, (x.header, .tagged tag corrected payload) ∈ scan ∧ tag.key = x.key ∧
      tag.kind = .retire := by
  obtain ⟨-, -, retired⟩ := mem_rebuiltRetirements.mp member
  obtain ⟨kept, top, kind, -, -, same⟩ := retiredEntry_spec retired
  obtain ⟨mem, key⟩ := mem_pagesOfKey.mp (mem_topHeads.mp top).1
  rw [same]
  exact ⟨kept.tag, kept.corrected, kept.payload, mem, key, kind⟩

theorem mem_rebuiltLive {directory : List Entry} {retirements : List RetirementEntry} :
    page ∈ rebuiltLive directory retirements ↔
      (∃ e ∈ directory, page ∈ entryPages e) ∨ ∃ x ∈ retirements, x.released = false ∧ x.header = page := by
  rw [rebuiltLive, mem_insertAll]
  simp [and_assoc]

/-- A LIVE page was found with a readable tag. -/
theorem rebuiltLive_record (rising : (scan.map Prod.fst).Pairwise (· < ·))
    (live : page ∈ rebuiltLive (rebuiltDirectory (resolutions scan)) (rebuiltRetirements (resolutions scan))) :
    ∃ tag corrected payload, (page, .tagged tag corrected payload) ∈ scan := by
  rcases mem_rebuiltLive.mp live with ⟨e, member, named⟩ | ⟨x, member, -, rfl⟩
  · obtain ⟨tag, corrected, payload, mem, -⟩ := entryPages_record rising member named
    exact ⟨tag, corrected, payload, mem⟩
  · obtain ⟨tag, corrected, payload, mem, -⟩ := retirementHeader_record member
    exact ⟨tag, corrected, payload, mem⟩

/-! ## The pools of RESOLVE (R157) -/

theorem mem_rebuiltErased : page ∈ rebuiltErased scan ↔ (page, .erased) ∈ scan := by
  simp [rebuiltErased]

theorem mem_rebuiltEraseList {live : List Nat} {k : Option Key} : (page, k) ∈ rebuiltEraseList scan live ↔
    ∃ x, (page, x) ∈ scan ∧ x ≠ .erased ∧ page ∉ live ∧ k = x.key := by
  simp only [rebuiltEraseList, List.mem_map, List.mem_filter, Bool.and_eq_true, Bool.not_eq_true',
    List.contains_eq_mem, decide_eq_false_iff_not, Prod.exists, Prod.mk.injEq, beq_eq_false_iff_ne]
  constructor
  · rintro ⟨n, x, ⟨mem, whole, dead⟩, rfl, rfl⟩
    exact ⟨x, mem, whole, dead, rfl⟩
  · rintro ⟨x, mem, whole, dead, rfl⟩
    exact ⟨page, x, ⟨mem, whole, dead⟩, rfl, rfl⟩

/-- A page has one scan record. -/
theorem scan_unique (rising : (scan.map Prod.fst).Pairwise (· < ·)) {x y : ScanRecord} (first : (page, x) ∈ scan)
    (second : (page, y) ∈ scan) : x = y := by
  have once : (scan.map Prod.fst).Nodup := rising.imp fun h => Nat.ne_of_lt h
  exact congrArg Prod.snd (List.inj_on_of_nodup_map once first second rfl)

end Rebuilt

end Sys2Proof.Machine

/-! What RESOLVE leaves at entry to READY (R154 to R157). -/

namespace Sys2Proof.Machine

/-! ## The state at entry to READY -/

section Resolved
variable {s : State} {scan : List (Nat × ScanRecord)} {highest : Nat}

/-- The state at entry to READY, after a scan. -/
def resolved (s : State) (scan : List (Nat × ScanRecord)) (highest : Nat) : State :=
  enterReady (accounted s scan highest)

theorem resolved_directory : (resolved s scan highest).directory = rebuiltDirectory (resolutions scan) := rfl

theorem resolved_retirementList :
    (resolved s scan highest).retirementList = rebuiltRetirements (resolutions scan) := rfl

theorem resolved_live : (resolved s scan highest).live =
    rebuiltLive (rebuiltDirectory (resolutions scan)) (rebuiltRetirements (resolutions scan)) := rfl

theorem resolved_erased : (resolved s scan highest).erased = rebuiltErased scan := rfl

theorem resolved_eraseList :
    (resolved s scan highest).eraseList = rebuiltEraseList scan (resolved s scan highest).live := rfl

theorem resolved_repairList :
    (resolved s scan highest).repairList = rebuiltRepairs (rebuiltDirectory (resolutions scan)) := rfl

theorem resolved_ordered : DirectoryOrdered (resolved s scan highest) :=
  ⟨rebuiltDirectory_ordered scan, rebuiltDirectory_length _⟩

/-- The pages of a whole scan, in order. -/
theorem scan_pages {records : List (Nat × ScanRecord)} {x : ScanRecord}
    (pages : records.map Prod.fst = List.range' 8 4087) :
    (records ++ [(4095, x)]).map Prod.fst = List.range' 8 4088 := by
  rw [List.map_append, pages]
  exact (List.range'_append_1 : List.range' 8 4087 ++ List.range' (8 + 4087) 1 = List.range' 8 (4087 + 1))

theorem scan_rising (pages : scan.map Prod.fst = List.range' 8 4088) : (scan.map Prod.fst).Pairwise (· < ·) := by
  rw [pages]
  exact List.pairwise_lt_range'

theorem live_not_erased (rising : (scan.map Prod.fst).Pairwise (· < ·)) {page : Nat}
    (live : page ∈ (resolved s scan highest).live) : page ∉ (resolved s scan highest).erased := by
  obtain ⟨tag, corrected, payload, mem⟩ := rebuiltLive_record rising live
  intro erased
  cases scan_unique rising mem (mem_rebuiltErased.mp erased)

/-- Each page of the record area is in exactly one of ERASED, LIVE and DIRTY (R108, R157). -/
theorem resolved_pools (pages : scan.map Prod.fst = List.range' 8 4088) {page : Nat} (low : 8 ≤ page)
    (high : page < 4096) {t : State} (ht : t = resolved s scan highest) :
    (page ∈ t.erased ∧ page ∉ t.live ∧ page ∉ t.eraseList.map Prod.fst) ∨
      (page ∉ t.erased ∧ page ∈ t.live ∧ page ∉ t.eraseList.map Prod.fst) ∨
      (page ∉ t.erased ∧ page ∉ t.live ∧ page ∈ t.eraseList.map Prod.fst) := by
  subst ht
  have rising := scan_rising pages
  obtain ⟨⟨n, x⟩, mem, rfl⟩ : ∃ y ∈ scan, y.1 = page := by
    have here : page ∈ scan.map Prod.fst := by
      rw [pages, List.mem_range'_1]
      omega
    simpa [eq_comm] using here
  have dirty : n ∈ (resolved s scan highest).eraseList.map Prod.fst ↔
      x ≠ .erased ∧ n ∉ (resolved s scan highest).live := by
    rw [List.mem_map]
    constructor
    · rintro ⟨⟨m, k⟩, listed, rfl⟩
      obtain ⟨y, found, whole, dead, -⟩ := mem_rebuiltEraseList.mp listed
      exact ⟨scan_unique rising found mem ▸ whole, dead⟩
    · rintro ⟨whole, dead⟩
      exact ⟨(n, x.key), mem_rebuiltEraseList.mpr ⟨x, mem, whole, dead, rfl⟩, rfl⟩
  have erased : n ∈ (resolved s scan highest).erased ↔ x = .erased :=
    mem_rebuiltErased.trans ⟨fun found => scan_unique rising mem found, fun same => same ▸ mem⟩
  have apart := live_not_erased (s := s) (highest := highest) (page := n) rising
  show (n ∈ _ ∧ _) ∨ _
  rw [dirty, erased] at *
  by_cases same : x = .erased <;> by_cases live : n ∈ (resolved s scan highest).live
  · exact absurd same (apart live)
  · exact .inl ⟨same, live, fun both => both.1 same⟩
  · exact .inr (.inl ⟨same, live, fun both => both.2 live⟩)
  · exact .inr (.inr ⟨same, live, same, live⟩)

end Resolved

/-! ## Every entry (R156) -/

section Entries
variable {scan : List (Nat × ScanRecord)} {e : Entry} {k : Key} {pages : List Found}

theorem headerEntry_lifecycle : (headerEntry k pages).lifecycle = .live := by
  rcases headerEntry_cases k pages with ⟨x, -, ⟨-, same⟩ | ⟨-, same⟩⟩ | ⟨x, -, -, -, same⟩ | ⟨-, -, same⟩ <;>
    rw [same] <;> rfl

theorem invalidDescriptor_invalid {c : CopyNo} : (invalidDescriptor pages c).any (·.valid) = false := by
  unfold invalidDescriptor
  cases named (candidates pages c) <;> rfl

theorem headerEntry_integrity :
    (headerEntry k pages).integrity = integrityOf (headerEntry k pages).cls (headerEntry k pages).validCopies := by
  rcases headerEntry_cases k pages with ⟨x, -, ⟨-, same⟩ | ⟨-, same⟩⟩ | ⟨x, -, -, -, same⟩ | ⟨-, -, same⟩
  · rw [same]; rfl
  · rw [same]; rfl
  · rw [same]; rfl
  · rw [same]
    have none' : (damagedEntry k pages).validCopies = 0 := by
      simp only [Entry.validCopies, damagedEntry, invalidDescriptor_invalid]
      rfl
    rw [none']
    rfl

/-- A record rebuilt DEGRADED lacks the copy that its LOST entry is for. -/
theorem headerEntry_degraded (degraded : (headerEntry k pages).integrity = .degraded) :
    (headerEntry k pages).copy (if (headerEntry k pages).copy1.isNone then .one else .two) = none := by
  rcases headerEntry_cases k pages with ⟨x, -, ⟨single, same⟩ | ⟨mirrored, same⟩⟩ | ⟨x, -, -, -, same⟩ | ⟨-, -, same⟩
  · rw [same]
    rfl
  · rw [same] at degraded ⊢
    cases two : choose pages .two x.pages with
    | none => rfl
    | some y =>
      rw [two] at degraded
      simp [rebuiltEntry, Entry.judged, Entry.validCopies, chosenDescriptor, mirrored, integrityOf] at degraded
  · rw [same]
    rfl
  · rw [same] at degraded
    cases degraded

theorem mem_rebuiltRepairs {directory : List Entry} {x : RepairEntry} : x ∈ rebuiltRepairs directory ↔
    ∃ e ∈ directory, e.integrity = .degraded ∧
      x = ⟨e.key, e.version, if e.copy1.isNone then .one else .two, .lost, false, false⟩ := by
  simp only [rebuiltRepairs, List.mem_map, List.mem_filter, beq_iff_eq, and_assoc, eq_comm (a := x)]

/-! ## The keys that are not records (R154, R157) -/

/-- The entries left out of a full directory stand after those in it. -/
theorem rebuiltDirectory_full (heads : headPages (pagesOfKey scan k) ≠ [])
    (top : topIsHeader (pagesOfKey scan k) = true)
    (out : headerEntry k (pagesOfKey scan k) ∉ rebuiltDirectory (resolutions scan)) :
    (rebuiltDirectory (resolutions scan)).length = 512 ∧
      ∀ e ∈ rebuiltDirectory (resolutions scan), e.key.before k = true := by
  have full : ¬(rebuiltDirectory (resolutions scan)).length < 512 := fun room =>
    out (rebuiltDirectory_record heads top room)
  refine ⟨Nat.le_antisymm (rebuiltDirectory_length _) (Nat.not_lt.mp full), ?_⟩
  obtain ⟨x, here⟩ := List.exists_mem_of_ne_nil _ heads
  obtain ⟨found, key⟩ := mem_pagesOfKey.mp (mem_headPages.mp here).1
  have resolves : Resolution.record (headerEntry k (pagesOfKey scan k)) ∈ resolutions scan :=
    mem_resolutions.mpr ⟨k, ⟨x, mem_foundPages.mpr found, key⟩, by simp [resolveKey, heads, top]⟩
  obtain ⟨all, first, ordered, listed⟩ : ∃ all : List Entry,
      rebuiltDirectory (resolutions scan) = all.take 512 ∧
        all.Pairwise (fun a b => a.key.before b.key = true) ∧ headerEntry k (pagesOfKey scan k) ∈ all := by
    refine ⟨_, rfl, ?_, List.mem_filterMap.mpr ⟨_, resolves, rfl⟩⟩
    rw [List.pairwise_filterMap]
    refine (resolutions_ordered scan).imp fun {a b} ordered e he e' he' => ?_
    cases a <;> cases he
    cases b <;> cases he'
    exact ordered _ rfl _ rfl
  rw [first] at out ⊢
  rw [← List.take_append_drop 512 all] at ordered listed
  have later := (List.mem_append.mp listed).resolve_left out
  intro e member
  have before := (List.pairwise_append.mp ordered).2.2 e member _ later
  rwa [headerEntry_key] at before

/-- The count of a key's pages but one, by their scan records (R154). -/
theorem length_otherPages (scan : List (Nat × ScanRecord)) (k : Key) (header : Nat) :
    ((pagesOfKey scan k).filter fun y => y.page != header).length =
      (scan.filter fun y => y.1 ≠ header && y.2.key == some k).length := by
  unfold pagesOfKey foundPages
  induction scan with
  | nil => rfl
  | cons x scan ih =>
    obtain ⟨page, record⟩ := x
    cases record with
    | tagged tag corrected payload =>
      by_cases key : tag.key = k <;> by_cases same : page = header <;>
        simp [key, same, ScanRecord.key] at ih ⊢ <;> exact ih
    | _ => simpa [List.filterMap_cons, ScanRecord.key] using ih

end Entries

/-- Settles O12. -/
theorem rebuiltPoolsAndEntries : Obligations.RebuiltPoolsAndEntries := by
  refine ⟨?_, ?_, ?_⟩
  · intro s o records highest starting phase reads pages
    obtain ⟨scan, hscan⟩ : ∃ scan, scan = records ++ [(4095, scanRecordOf (readCell (s.page 4095) o))] := ⟨_, rfl⟩
    have run := exec_scanPageRead_last (o := o) starting phase reads
    rw [← hscan] at run
    have whole : scan.map Prod.fst = List.range' 8 4088 := hscan ▸ scan_pages pages
    refine ⟨_, run, fun page low high => resolved_pools whole low high rfl, fun page => mem_rebuiltLive, ⟨?_, ?_⟩,
      fun scan' same => ?_⟩
    · exact (List.pairwise_map.mp (scan_rising whole)).filter _ |> List.pairwise_map.mpr
    · show (List.map Prod.fst (List.map _ (List.filter _ scan))).Pairwise (· < ·)
      rw [List.map_map]
      exact List.pairwise_map.mpr ((List.pairwise_map.mp (scan_rising whole)).filter _)
    · cases same.trans hscan.symm
      exact ⟨fun page => mem_rebuiltErased, fun page k => mem_rebuiltEraseList⟩
  · intro s o records highest starting phase reads
    obtain ⟨scan, hscan⟩ : ∃ scan, scan = records ++ [(4095, scanRecordOf (readCell (s.page 4095) o))] := ⟨_, rfl⟩
    have run := exec_scanPageRead_last (o := o) starting phase reads
    rw [← hscan] at run
    refine ⟨_, run, fun e member => ?_, fun x member => ?_, rebuiltDirectory_ordered scan, ?_⟩
    · obtain ⟨-, -, same⟩ := mem_rebuiltDirectory member
      refine ⟨same ▸ headerEntry_lifecycle, rebuiltDirectory_claim member, ?_, fun degraded => ?_⟩
      · rw [same]
        exact headerEntry_integrity
      · refine ⟨if e.copy1.isNone then .one else .two, ?_, mem_rebuiltRepairs.mpr ⟨e, member, degraded, rfl⟩⟩
        rw [same] at degraded ⊢
        exact headerEntry_degraded degraded
    · obtain ⟨e, here, degraded, rfl⟩ := mem_rebuiltRepairs.mp member
      exact ⟨rfl, rfl, rfl, e, here, rfl, rfl, degraded⟩
    · exact List.pairwise_map.mpr ((rebuiltDirectory_ordered scan).filter _)
  · intro s o records scan highest starting phase reads pages hscan
    have run := exec_scanPageRead_last (o := o) starting phase reads
    rw [← hscan] at run
    have whole : scan.map Prod.fst = List.range' 8 4088 := hscan ▸ scan_pages pages
    have rising := scan_rising whole
    have once : (scan.map Prod.fst).Nodup := rising.imp fun h => Nat.ne_of_lt h
    have ordered := resolved_ordered (s := s) (scan := scan)
      (highest := max highest (scanRecordOf (readCell (s.page 4095) o)).sequence)
    have absent : ∀ k, topIsHeader (pagesOfKey scan k) = false → (resolved s scan
        (max highest (scanRecordOf (readCell (s.page 4095) o)).sequence)).entry k = none := fun k retired => by
      rw [State.entry_none]
      rintro e member rfl
      rw [(mem_rebuiltDirectory member).2.1] at retired
      cases retired
    refine ⟨_, run, fun e member => ?_, fun k v highest' record => ?_, fun k v highest' retired => ?_,
      fun x member => ?_⟩
    · obtain ⟨heads, top, same⟩ := mem_rebuiltDirectory member
      have version : e.version = topVersion (pagesOfKey scan e.key) := by
        rw [same, headerEntry_version, headerEntry_key]
      obtain ⟨x, topHead, kind⟩ := header_of_topIsHeader (topHeads_ne_nil heads) top
      rw [version]
      refine ⟨highestVersion_topVersion heads,
        ⟨x.page, x.sequence, (headAt_topHeads (.inl rfl)).mpr ⟨x, topHead, kind, rfl, rfl⟩⟩,
        rebuiltDirectory_copies rising member, fun damaged => ?_⟩
      have entry : e = damagedEntry e.key (pagesOfKey scan e.key) := by
        rw [same] at damaged
        exact same.trans (headerEntry_damaged damaged)
      refine ⟨fun c page tag h candidate best => ?_, fun unreadable => ?_⟩
      · rw [entry]
        exact damagedEntry_attributes once candidate best
      · rw [entry]
        exact damagedEntry_unreadable unreadable
    · obtain ⟨heads, rfl⟩ := highest'.eq
      have top := topIsHeader_record record
      by_cases here : headerEntry k (pagesOfKey scan k) ∈ rebuiltDirectory (resolutions scan)
      · refine .inl ⟨headerEntry k (pagesOfKey scan k), ?_⟩
        have found := DirectoryOrdered.entry_eq ordered here
        rwa [headerEntry_key] at found
      · exact .inr (rebuiltDirectory_full heads top here)
    · obtain ⟨heads, rfl⟩ := highest'.eq
      have top := topIsHeader_retired retired
      obtain ⟨x, made⟩ := retiredEntry_exists top
      obtain ⟨kept, topHead, kind, best, first, same⟩ := retiredEntry_spec made
      have key : x.key = k := by rw [same]
      have header : x.header = kept.page := by rw [same]
      have others := length_otherPages scan k kept.page
      refine ⟨absent k top, x, mem_rebuiltRetirements.mpr (key.symm ▸ ⟨heads, top, made⟩), key, by rw [same],
        ⟨kept.sequence, ?_, fun page m at' => ?_, fun unreadable page m at' => ?_⟩, _, rfl, ?_, ?_⟩
      · exact (headAt_topHeads (.inr rfl)).mpr ⟨kept, topHead, kind, header.symm, rfl⟩
      · obtain ⟨y, there, yKind, -, sequence⟩ := (headAt_topHeads (.inr rfl)).mp at'
        exact best y there yKind m sequence.symm
      · obtain ⟨y, there, yKind, rfl, -⟩ := (headAt_topHeads (.inr rfl)).mp at'
        rw [header]
        have listed : y ∈ (topHeads (pagesOfKey scan k)).filter fun x => x.tag.kind == .retire :=
          List.mem_filter.mpr ⟨there, by simpa using yKind⟩
        have rises : ((topHeads (pagesOfKey scan k)).filter fun x => x.tag.kind == .retire).Pairwise
            fun a b => a.page < b.page := (((pagesOfKey_rising rising k).filter _).filter _).filter _
        obtain ⟨later, list⟩ := List.head?_eq_some_iff.mp (first unreadable)
        rw [list] at listed rises
        rcases List.mem_cons.mp listed with rfl | after
        · exact le_rfl
        · exact ((List.pairwise_cons.mp rises).1 y after).le
      · rw [header, ← others, same]
      · rw [header, ← others, same]
        exact beq_iff_eq
    · obtain ⟨heads, top, made⟩ := mem_rebuiltRetirements.mp member
      obtain ⟨kept, topHead, kind, -, -, same⟩ := retiredEntry_spec made
      have version : x.version = topVersion (pagesOfKey scan x.key) := by rw [same]
      have header : x.header = kept.page := by rw [same]
      rw [version]
      exact ⟨highestVersion_topVersion heads, absent x.key top, kept.sequence,
        (headAt_topHeads (.inr rfl)).mpr ⟨kept, topHead, kind, header.symm, rfl⟩⟩

end Sys2Proof.Machine

/-! The law of pools through the moves of pages and entries (R108, R109, R115): the pages as a whole, and the pages
that descriptors and retirement headers name. -/

namespace Sys2Proof.Machine

/-- The law of pools, but for the running job: the keys of the directory stand once, every page of the record area
is in one pool, and the named pages are LIVE, each named once (R21, R108). -/
structure Stocked (s : State) : Prop where
  keys : (s.directory.map (·.key)).Nodup
  pools : (poolPages s).Perm (List.range' 8 4088)
  named : (namedPages s).Nodup
  live : ∀ page ∈ namedPages s, page ∈ s.live

theorem Stocked.pools_nodup {s : State} (stocked : Stocked s) : (poolPages s).Nodup :=
  stocked.pools.nodup_iff.mpr List.nodup_range'

/-- The headers of the Retirement List entries that are not released. -/
def keptHeaders (l : List RetirementEntry) : List Nat := (l.filter fun x => !x.released).map (·.header)

/-- The headers the Retirement List names (R108). -/
def headerPages (s : State) : List Nat := keptHeaders s.retirementList

/-- A change of counts alone. -/
theorem keptHeaders_map {f : RetirementEntry → RetirementEntry}
    (same : ∀ x, (f x).released = x.released ∧ (f x).header = x.header) (l : List RetirementEntry) :
    keptHeaders (l.map f) = keptHeaders l := by
  have agree : ((fun x : RetirementEntry => !x.released) ∘ f) = fun x => !x.released := by
    funext x
    simp only [Function.comp_apply, (same x).1]
  rw [keptHeaders, List.filter_map, agree, List.map_map]
  exact List.map_congr_left fun x _ => (same x).2

theorem namedPages_eq (s : State) : namedPages s = s.directory.flatMap entryPages ++ headerPages s := rfl

/-! ## Steps that move no page -/

/-- The pools and the Retirement List stand, and the directory keeps or loses named pages and keys. -/
structure Shrinks (s t : State) : Prop where
  pools : PoolsKept s t
  pages : (t.directory.flatMap entryPages).Sublist (s.directory.flatMap entryPages)
  keys : (t.directory.map (·.key)).Sublist (s.directory.map (·.key))

section Shrinking
variable {s t u : State}

theorem Shrinks.of_directory (pools : PoolsKept s t) (same : t.directory = s.directory) : Shrinks s t :=
  ⟨pools, same ▸ .refl _, same ▸ .refl _⟩

theorem Shrinks.refl (s : State) : Shrinks s s := .of_directory (.refl s) rfl

theorem Shrinks.trans (first : Shrinks s t) (second : Shrinks t u) : Shrinks s u :=
  ⟨first.pools.trans second.pools, second.pages.trans first.pages, second.keys.trans first.keys⟩

theorem PoolsKept.pages (kept : PoolsKept s t) : poolPages t = poolPages s := by
  simp only [poolPages, kept.erased, kept.inWrite, kept.live, kept.dirty, kept.bad]

theorem PoolsKept.headers (kept : PoolsKept s t) : headerPages t = headerPages s := by
  simp only [headerPages, kept.retirements]

theorem Shrinks.named (shrinks : Shrinks s t) : (namedPages t).Sublist (namedPages s) := by
  rw [namedPages_eq, namedPages_eq, shrinks.pools.headers]
  exact shrinks.pages.append (.refl _)

theorem Stocked.shrinks (stocked : Stocked s) (shrinks : Shrinks s t) : Stocked t where
  keys := stocked.keys.sublist shrinks.keys
  pools := shrinks.pools.pages ▸ stocked.pools
  named := stocked.named.sublist shrinks.named
  live := fun page member => shrinks.pools.live ▸ stocked.live page (shrinks.named.subset member)

/-! ### The directory's changes -/

theorem map_key_modifyEntry {k : Key} {f : Entry → Entry} (key : ∀ e, e.key = k → (f e).key = k) :
    (s.modifyEntry k f).directory.map (·.key) = s.directory.map (·.key) := by
  show (s.directory.map _).map _ = _
  rw [List.map_map]
  refine List.map_congr_left fun e _ => ?_
  simp only [Function.comp_apply]
  split
  · next same => rw [key e same, same]
  · rfl

theorem shrinks_modifyEntry {k : Key} {f : Entry → Entry} (key : ∀ e, e.key = k → (f e).key = k)
    (pages : ∀ e ∈ s.directory, e.key = k → entryPages (f e) = entryPages e) : Shrinks s (s.modifyEntry k f) :=
  ⟨⟨rfl, rfl, rfl, rfl, rfl, rfl⟩, by rw [entryPages_modifyEntry pages], by rw [map_key_modifyEntry key]⟩

theorem shrinks_removeEntry (k : Key) : Shrinks s (s.removeEntry k) :=
  ⟨⟨rfl, rfl, rfl, rfl, rfl, rfl⟩, entryPages_removeEntry, List.filter_sublist.map _⟩

/-- A release clears a claim field or removes a FORMING entry (R87). -/
theorem shrinks_releaseEntry (k : Key) (hd : Handle) (kind : Option ClaimKind) (cause : ReleaseCause) :
    Shrinks s (releaseEntry s k hd kind cause) := by
  unfold releaseEntry
  split
  · exact .refl s
  · split
    · exact .refl s
    · split
      · exact shrinks_removeEntry k
      · exact shrinks_modifyEntry (fun _ same => same) fun _ _ _ => rfl

theorem shrinks_releaseSlot (i : SlotNo) (cause : ReleaseCause) : Shrinks s (releaseSlot s i cause) := by
  have slot : PoolsKept s (s.setSlot i (releasedSlot (s.slot i) cause)) := ⟨rfl, rfl, rfl, rfl, rfl, rfl⟩
  unfold releaseSlot
  simp only
  split
  · split
    · refine Shrinks.trans (.of_directory ?_ ?_) (shrinks_releaseEntry _ _ _ _)
      · exact ⟨rfl, rfl, rfl, rfl, rfl, rfl⟩
      · rfl
    · exact (Shrinks.of_directory slot rfl).trans (shrinks_releaseEntry _ _ _ _)
  · split
    · exact .of_directory ⟨rfl, rfl, rfl, rfl, rfl, rfl⟩ rfl
    · exact .of_directory slot rfl

theorem shrinks_releaseJobSlot (r : RunningJob) (cause : ReleaseCause) : Shrinks s (releaseJobSlot s r cause) := by
  unfold releaseJobSlot
  split
  · exact shrinks_releaseSlot _ _
  · exact .refl s

theorem shrinks_completeJob (r : RunningJob) (code : Completion) (res : Result) (data : Option (List Byte)) :
    Shrinks s (completeJob s r code res data) := by
  rw [completeJob_frame]
  exact .of_directory ⟨rfl, rfl, rfl, rfl, rfl, rfl⟩ rfl

theorem shrinks_backToLive (k : Key) : Shrinks s (backToLive s k) :=
  shrinks_modifyEntry (fun _ same => same) fun _ _ _ => rfl

theorem shrinks_repairRequest (k : Key) (version : Nat) (c : CopyNo) (cause : RepairCause) :
    Shrinks s (repairRequest s k version c cause) := by
  rw [repairRequest_frame]
  exact .of_directory ⟨rfl, rfl, rfl, rfl, rfl, rfl⟩ rfl

theorem shrinks_replaceLost (k : Key) (version : Nat) : Shrinks s (replaceLost s k version) := by
  rw [replaceLost_frame]
  exact .of_directory ⟨rfl, rfl, rfl, rfl, rfl, rfl⟩ rfl

end Shrinking

/-! ## Steps that move pages into and out of LIVE -/

section Moving
variable {s t : State} {k : Key} {e : Entry}

/-- LIVE loses the pages `out` and takes the pages `into` of IN_WRITE, and the named pages with it. -/
theorem Stocked.replace {out into rest : List Nat} (stocked : Stocked s) (keys : (t.directory.map (·.key)).Nodup)
    (pools : (poolPages t).Perm (poolPages s)) (before : (namedPages s).Perm (out ++ rest))
    (after : (namedPages t).Subperm (into ++ rest)) (once : into.Nodup) (held : ∀ n ∈ into, n ∈ s.inWrite)
    (live : ∀ page, page ∈ t.live ↔ page ∈ into ∨ page ∈ s.live ∧ page ∉ out) : Stocked t := by
  obtain ⟨-, outRest, apart⟩ := List.nodup_append.mp (before.nodup_iff.mp stocked.named)
  have restLive : ∀ n ∈ rest, n ∈ s.live ∧ n ∉ out := fun n member =>
    ⟨stocked.live n (before.mem_iff.mpr (List.mem_append_right _ member)),
      fun both => apart n both n member rfl⟩
  refine ⟨keys, pools.trans stocked.pools, ?_, fun page member => (live page).mpr ?_⟩
  · obtain ⟨l, same, sub⟩ := after
    refine same.nodup_iff.mp (List.Nodup.sublist sub (once.append outRest fun n first second => ?_))
    exact (pools_disjoint stocked.pools_nodup).2.2.1 n (held n first) (restLive n second).1
  · exact (List.mem_append.mp (after.subset member)).imp_right fun here => restLive page here

/-- The moves of a commit point: pages of LIVE to the Erase List, pages of IN_WRITE to LIVE (R109). -/
theorem Stocked.exchange {out into rest : List Nat} (stocked : Stocked s) (keys : (t.directory.map (·.key)).Nodup)
    (erased : t.erased = s.erased) (inWrite : t.inWrite = without s.inWrite into)
    (lives : t.live = insertAll into (without s.live out))
    (dirty : t.eraseList = s.eraseList ++ out.map fun n => (n, some k)) (bad : t.bad = s.bad)
    (before : (namedPages s).Perm (out ++ rest)) (after : (namedPages t).Subperm (into ++ rest)) (once : into.Nodup)
    (held : ∀ n ∈ into, n ∈ s.inWrite) : Stocked t := by
  have outOnce : out.Nodup := (List.nodup_append.mp (before.nodup_iff.mp stocked.named)).1
  have outLive : ∀ n ∈ out, n ∈ s.live := fun n member =>
    stocked.live n (before.mem_iff.mpr (List.mem_append_left _ member))
  have same : poolPages t = poolPages (inWriteToLive (liveToDirty s out k) into) := by
    simp only [poolPages, erased, inWrite, lives, dirty, bad]
    rfl
  have removed := poolPages_liveToDirty (k := k) stocked.pools_nodup outOnce outLive
  have pools : (poolPages t).Perm (poolPages s) := by
    rw [same]
    exact (poolPages_inWriteToLive (removed.nodup_iff.mpr stocked.pools_nodup) once held).trans removed
  refine stocked.replace keys pools before after once held fun page => ?_
  rw [lives, mem_insertAll, mem_without]

theorem without_nil (l : List Nat) : without l [] = l := List.filter_eq_self.mpr fun _ _ => rfl

/-- Pages of LIVE go to the Erase List as the entries that name them go. -/
theorem Stocked.withdraw {out : List Nat} (stocked : Stocked s) (keys : (t.directory.map (·.key)).Nodup)
    (erased : t.erased = s.erased) (inWrite : t.inWrite = s.inWrite) (lives : t.live = without s.live out)
    (dirty : t.eraseList = s.eraseList ++ out.map fun n => (n, some k)) (bad : t.bad = s.bad)
    (named : (namedPages s).Perm (out ++ namedPages t)) : Stocked t :=
  stocked.exchange (into := []) keys erased (by rw [inWrite, without_nil]) lives dirty bad named (.refl _)
    List.nodup_nil nofun

/-- The named pages of the other keys, and of the Retirement List. -/
def otherPages (s : State) (k : Key) : List Nat :=
  (s.directory.filter fun e => decide (e.key ≠ k)).flatMap entryPages ++ headerPages s

theorem namedPages_removeEntry : namedPages (s.removeEntry k) = otherPages s k := rfl

theorem namedPages_of_entry (keys : (s.directory.map (·.key)).Nodup) (entry : s.entry k = some e) :
    (namedPages s).Perm (entryPages e ++ otherPages s k) := by
  obtain ⟨here, key⟩ := State.entry_some entry
  have split : s.directory.Perm (e :: s.directory.filter fun x => decide (x.key ≠ k)) := by
    have once : s.directory.Nodup := keys.of_map _
    refine (List.perm_ext_iff_of_nodup once ?_).mpr fun x => ?_
    · refine List.nodup_cons.mpr ⟨fun member => ?_, once.filter _⟩
      exact absurd key (by simpa using (List.mem_filter.mp member).2)
    · rw [List.mem_cons, List.mem_filter, decide_eq_true_iff]
      refine ⟨fun member => ?_, ?_⟩
      · by_cases same : x.key = k
        · exact .inl (List.inj_on_of_nodup_map keys member here (same.trans key.symm))
        · exact .inr ⟨member, same⟩
      · rintro (rfl | ⟨member, -⟩)
        · exact here
        · exact member
  rw [namedPages_eq, otherPages, ← List.append_assoc]
  exact (split.flatMap fun _ _ => .refl _).append (.refl _)

theorem namedPages_modifyEntry {f : Entry → Entry} (keys : (s.directory.map (·.key)).Nodup)
    (entry : s.entry k = some e) (key : ∀ e, e.key = k → (f e).key = k) :
    (namedPages (s.modifyEntry k f)).Perm (entryPages (f e) ++ otherPages s k) := by
  have others : otherPages (s.modifyEntry k f) k = otherPages s k := by
    have same : (s.modifyEntry k f).directory.filter (fun x => decide (x.key ≠ k)) =
        s.directory.filter fun x => decide (x.key ≠ k) := by
      show (s.directory.map _).filter _ = _
      rw [List.filter_map]
      have agree : ((fun x : Entry => decide (x.key ≠ k)) ∘ fun x => if x.key = k then f x else x) =
          fun x => decide (x.key ≠ k) := by
        funext x
        by_cases same : x.key = k
        · simp [same, key x same]
        · simp [same]
      rw [agree]
      refine (List.map_congr_left fun x member => ?_).trans (List.map_id _)
      exact if_neg (by simpa using (List.mem_filter.mp member).2)
    rw [otherPages, same]
    rfl
  rw [← others]
  refine namedPages_of_entry ((map_key_modifyEntry key).symm ▸ keys)
    (State.entry_modifyEntry_self entry (key e (State.entry_some entry).2))

/-! ### The moves through the pools -/

theorem headerPages_modifyRetirement {f : RetirementEntry → RetirementEntry}
    (same : ∀ x, (f x).released = x.released ∧ (f x).header = x.header) :
    headerPages (s.modifyRetirement k f) = headerPages s :=
  keptHeaders_map (fun x => by
    split
    · exact same x
    · exact ⟨rfl, rfl⟩) s.retirementList

theorem headerPages_addDirty (pages : List Nat) : headerPages (addDirty s pages k) = headerPages s :=
  headerPages_modifyRetirement (s := s) (f := fun x => { x with outstanding := x.outstanding + pages.length })
    fun _ => ⟨rfl, rfl⟩

theorem namedPages_addDirty (pages : List Nat) : namedPages (addDirty s pages k) = namedPages s := by
  rw [namedPages_eq, namedPages_eq, headerPages_addDirty]
  rfl

theorem namedPages_liveToDirty (pages : List Nat) : namedPages (liveToDirty s pages k) = namedPages s :=
  namedPages_addDirty (s := { s with live := without s.live pages }) pages

/-- Pages leave IN_WRITE for the Erase List (R112). -/
theorem Stocked.inWriteToDirty (stocked : Stocked s) : Stocked (inWriteToDirty s k) where
  keys := stocked.keys
  pools := (poolPages_inWriteToDirty s k).trans stocked.pools
  named := (namedPages_addDirty (s := { s with inWrite := [] }) s.inWrite).symm ▸ stocked.named
  live := fun page member => stocked.live page
    ((namedPages_addDirty (s := { s with inWrite := [] }) (k := k) s.inWrite) ▸ member)

theorem Stocked.inWritePageToDirty {page : Nat} (stocked : Stocked s) (held : page ∈ s.inWrite) :
    Stocked (inWritePageToDirty s page k) where
  keys := stocked.keys
  pools := (poolPages_inWritePageToDirty stocked.pools_nodup held).trans stocked.pools
  named := (namedPages_addDirty (s := { s with inWrite := without s.inWrite [page] }) [page]).symm ▸ stocked.named
  live := fun n member => stocked.live n
    ((namedPages_addDirty (s := { s with inWrite := without s.inWrite [page] }) (k := k) [page]) ▸ member)

/-- Pages leave ERASED for IN_WRITE (R111). -/
theorem Stocked.draw (stocked : Stocked s) (count : Nat) : Stocked { s with
    erased := s.erased.drop count
    inWrite := insertAll (s.erased.take count) s.inWrite } where
  keys := stocked.keys
  pools := (poolPages_draw count stocked.pools_nodup).trans stocked.pools
  named := stocked.named
  live := stocked.live

/-- The erase of the head of the Erase List ends (R113). -/
theorem Stocked.eraseHeadDone (stocked : Stocked s) (success : Bool) : Stocked (eraseHeadDone s success) := by
  have pools := (poolPages_eraseHeadDone s success).trans stocked.pools
  cases dirty : s.eraseList with
  | nil =>
    simp only [Machine.eraseHeadDone, dirty]
    exact stocked
  | cons x rest =>
    obtain ⟨page, k⟩ := x
    cases success with
    | false =>
      rw [eraseHeadDone_failure dirty] at pools ⊢
      exact ⟨stocked.keys, pools, stocked.named, stocked.live⟩
    | true =>
      rw [eraseHeadDone_success dirty] at pools ⊢
      have headers : keptHeaders (loweredFor k s.retirementList) = headerPages s :=
        keptHeaders_map (fun x => by split <;> exact ⟨rfl, rfl⟩) s.retirementList
      have named : namedPages { s.setPage page PageCell.blank with
          eraseList := rest
          erased := s.erased ++ [page]
          retirementList := loweredFor k s.retirementList } = namedPages s := by
        rw [namedPages_eq, namedPages_eq, ← headers]
        rfl
      exact ⟨stocked.keys, pools, named ▸ stocked.named, fun n member => stocked.live n (named ▸ member)⟩

/-- An unreleased header is due for release, or it stays. -/
theorem keptHeaders_settled (l : List RetirementEntry) :
    (keptHeaders l).Perm
      ((l.filter fun x => x.outstanding == 0 && !x.released).map (·.header) ++
        keptHeaders (l.filterMap fun x =>
          if x.outstanding = 0 then
            if x.released then none else some { x with released := true, outstanding := 1 }
          else some x)) := by
  unfold keptHeaders
  induction l with
  | nil => exact .refl _
  | cons x rest ih =>
    by_cases due : x.outstanding = 0 <;> cases released : x.released
    · simpa [due, released] using ih
    · simpa [due, released] using ih
    · simp only [due, released, List.filter_cons, List.filterMap_cons, List.map_cons, if_false, Bool.not_false,
        if_true, Bool.and_true, beq_iff_eq]
      exact (ih.cons _).trans List.perm_middle.symm
    · simpa [due, released] using ih

/-- The end of a job settles the Retirement List (R115). -/
theorem Stocked.settleRetirements (stocked : Stocked s) : Stocked (settleRetirements s) := by
  have settled := settled_settleRetirements s
  have headers := keptHeaders_settled s.retirementList
  rw [← settled.list] at headers
  obtain ⟨-, headersOnce, -⟩ := List.nodup_append.mp (namedPages_eq s ▸ stocked.named)
  refine stocked.replace (t := Machine.settleRetirements s) (into := [])
    (out := (s.retirementList.filter fun x => x.outstanding == 0 && !x.released).map (·.header))
    (rest := s.directory.flatMap entryPages ++ headerPages (Machine.settleRetirements s))
    stocked.keys (poolPages_settleRetirements stocked.pools_nodup headersOnce fun x member kept => ?_) ?_ (.refl _)
    List.nodup_nil nofun fun page => ?_
  · exact stocked.live _ (List.mem_append_right _
      (List.mem_map.mpr ⟨x, List.mem_filter.mpr ⟨member, by simp [kept]⟩, rfl⟩))
  · rw [namedPages_eq]
    refine (List.Perm.append_left _ headers).trans ?_
    rw [← List.append_assoc, ← List.append_assoc]
    exact List.perm_append_comm.append (.refl _)
  · rw [settled.live, List.mem_filter]
    simp only [List.not_mem_nil, false_or, Bool.not_eq_true', List.any_eq_false, List.mem_map, List.mem_filter,
      Bool.and_eq_true, beq_iff_eq, not_exists, not_and, and_imp]

theorem Stocked.finishJob (stocked : Stocked s) : Stocked (finishJob s) :=
  Stocked.settleRetirements (s := { s with running := none, operation := none, engine := .free })
    (stocked.shrinks (.of_directory ⟨rfl, rfl, rfl, rfl, rfl, rfl⟩ rfl))

end Moving

end Sys2Proof.Machine

/-! The pages of the running job (R108, R111, R122, R130): what a draw, a failed program, a programmed page and a commit
point make of them. -/

namespace Sys2Proof.Machine

/-! ## The roles of an allocation are distinct (R126) -/

section Roles
variable {r : RunningJob} {c : CopyNo} {length : Nat} {role : PageRole}

theorem mem_copyRoles : role ∈ copyRoles c length ↔
    role = .header c ∨ ∃ i, i < dataPageCount length ∧ role = .data c i := by
  simp only [copyRoles, List.mem_append, List.mem_map, List.mem_range, List.mem_singleton]
  constructor
  · rintro (⟨i, inside, rfl⟩ | rfl)
    · exact .inr ⟨i, inside, rfl⟩
    · exact .inl rfl
  · rintro (rfl | ⟨i, inside, rfl⟩)
    · exact .inr rfl
    · exact .inl ⟨i, inside, rfl⟩

theorem copyNo_copyRoles (member : role ∈ copyRoles c length) : role.copyNo = some c := by
  rcases mem_copyRoles.mp member with rfl | ⟨i, -, rfl⟩ <;> rfl

theorem nodup_copyRoles (c : CopyNo) (length : Nat) : (copyRoles c length).Nodup := by
  rw [copyRoles]
  refine (List.nodup_range.map fun i j same => ?_).append (List.nodup_singleton _) fun role first second => ?_
  · cases same
    rfl
  · obtain ⟨i, -, rfl⟩ := List.mem_map.mp first
    cases List.mem_singleton.mp second

/-- The roles of a job that draws the copies of its record's class. -/
theorem allocationRoles_cases (r : RunningJob) :
    allocationRoles r = [.retirement] ∨ (∃ c, allocationRoles r = copyRoles c r.job.params.length) ∨
      allocationRoles r = copyRoles .one r.job.params.length ++ copyRoles .two r.job.params.length := by
  unfold allocationRoles
  split
  · exact .inl rfl
  · exact .inr (.inl ⟨_, rfl⟩)
  · split
    · exact .inr (.inl ⟨_, rfl⟩)
    · exact .inr (.inr rfl)

theorem nodup_allocationRoles (r : RunningJob) : (allocationRoles r).Nodup := by
  rcases allocationRoles_cases r with same | ⟨c, same⟩ | same
  · rw [same]
    exact List.nodup_singleton _
  · rw [same]
    exact nodup_copyRoles c _
  · rw [same]
    refine (nodup_copyRoles .one _).append (nodup_copyRoles .two _) fun role first second => ?_
    cases (copyNo_copyRoles first).symm.trans (copyNo_copyRoles second)

theorem allocationRoles_ne_nil (r : RunningJob) : allocationRoles r ≠ [] := by
  rcases allocationRoles_cases r with same | ⟨c, same⟩ | same <;> rw [same] <;> simp [copyRoles]

/-- Copy 1's roles come first, and its header last of them (R126, R127). -/
theorem allocationRoles_copyOne (kind : r.job.kind = .writeCopy) : ∃ before after,
    allocationRoles r = before ++ .header .one :: after ∧ .header .one ∉ before ∧
      ∀ role ∈ after, role.copyNo ≠ some .one := by
  have split : copyRoles .one r.job.params.length =
      (List.range (dataPageCount r.job.params.length)).map (PageRole.data .one) ++ [.header .one] := rfl
  have fresh : PageRole.header .one ∉ (List.range (dataPageCount r.job.params.length)).map (PageRole.data .one) := by
    simp
  cases cls : r.cls with
  | single => exact ⟨_, [], by rw [allocationRoles_single kind cls, split], fresh, nofun⟩
  | mirrored =>
    refine ⟨_, copyRoles .two r.job.params.length, ?_, fresh, fun role member same => ?_⟩
    · rw [allocationRoles_mirrored kind cls, split, List.append_assoc]
      rfl
    · cases (copyNo_copyRoles member).symm.trans same

end Roles

/-! ## The cases of a job's place in its sequence -/

section Stages
variable {s t : State} {r : RunningJob} {d : DrawnPage}

theorem jobPages_programming (stage : r.stage = .programming) :
    JobPages s r ↔ HasDrawn r ∧ InWritePages s (heldPages r) := by
  simp only [JobPages, stage]

theorem jobPages_replacing {count : Nat} {role : PageRole} (stage : r.stage = .drawing count (some role)) :
    JobPages s r ↔ count = 1 ∧ HasDrawn r ∧
      InWritePages s ((heldPages r).filter fun d => d.role ≠ role) := by
  simp only [JobPages, stage]

theorem jobPages_allocating {count : Nat} (stage : r.stage = .drawing count none) :
    JobPages s r ↔ count = (allocationRoles r).length ∧ r.phase = .beforeCommit := by
  simp only [JobPages, stage]

/-- A job that neither programs nor draws has no page. -/
def Stage.pageless : Stage → Bool
  | .programming | .drawing _ _ => false
  | _ => true

theorem jobPages_pageless (quiet : r.stage.pageless = true) : JobPages s r ↔ r.phase = .beforeCommit := by
  unfold JobPages
  cases stage : r.stage with
  | programming => rw [stage] at quiet; cases quiet
  | drawing count role => rw [stage] at quiet; cases quiet
  | _ => exact Iff.rfl

theorem InWritePages.congr (inWrite : t.inWrite = s.inWrite) {l : List DrawnPage} (pages : InWritePages s l) :
    InWritePages t l := ⟨pages.1, inWrite.symm ▸ pages.2⟩

theorem JobPages.congr (inWrite : t.inWrite = s.inWrite) (pages : JobPages s r) : JobPages t r := by
  unfold JobPages InWritePages at *
  rwa [inWrite]

theorem InWritePages.sublist {l l' : List DrawnPage} (sub : l'.Sublist l) (pages : InWritePages s l) :
    InWritePages s l' :=
  ⟨pages.1.sublist (sub.map _), fun d member => pages.2 d (sub.subset member)⟩

/-- The pages alone decide. -/
theorem InWritePages.of_pages {l l' : List DrawnPage} (same : l'.map (·.page) = l.map (·.page))
    (pages : InWritePages s l) : InWritePages s l' := by
  refine ⟨same ▸ pages.1, fun d member => ?_⟩
  have here : d.page ∈ l.map (·.page) := same ▸ List.mem_map.mpr ⟨d, member, rfl⟩
  obtain ⟨d', there, page⟩ := List.mem_map.mp here
  exact page ▸ pages.2 d' there

theorem heldPages_sublist (r : RunningJob) : (heldPages r).Sublist r.drawn := List.filter_sublist

theorem heldPages_before (before : r.phase = .beforeCommit) : heldPages r = r.drawn :=
  List.filter_eq_self.mpr fun d _ => by simp [before]

theorem mem_heldPages : d ∈ heldPages r ↔
    d ∈ r.drawn ∧ ¬(r.phase = .afterCommit ∧ d.role.copyNo = some .one) := by
  simp only [heldPages, List.mem_filter, Bool.not_eq_true', Bool.and_eq_false_iff, beq_eq_false_iff_ne,
    not_and_or, ne_eq]

theorem HasDrawn.stage (drawn : HasDrawn r) (stage : Stage) : HasDrawn { r with stage := stage } :=
  ⟨drawn.roles, drawn.installed⟩

/-- A job that programs its pages goes on to program them. -/
theorem jobPages_programs (drawn : HasDrawn r) (pages : InWritePages s (heldPages r)) :
    JobPages s { r with stage := .programming } :=
  (jobPages_programming rfl).mpr ⟨drawn.stage _, pages⟩

/-- The page that is programmed next is one the job holds. -/
theorem currentPage_held (drawn : HasDrawn r) (current : currentPage r = some d) : d ∈ heldPages r := by
  have member : d ∈ r.drawn := List.mem_of_find?_eq_some current
  have open' : d.programmed = false := by simpa using List.find?_some current
  refine mem_heldPages.mpr ⟨member, fun ⟨after, one⟩ => ?_⟩
  rw [drawn.installed after d member one] at open'
  cases open'

end Stages

/-! ## Draws (R111, R130) -/

section Draws
variable {s t : State} {r : RunningJob} {d : DrawnPage} {role : PageRole} {count fresh : Nat} {rest : List Nat}

/-- The pages of an allocation (R111). -/
theorem allocated_pages (stocked : Stocked s) (need : count = (allocationRoles r).length)
    (before : r.phase = .beforeCommit) (enough : count ≤ s.erased.length)
    (inWrite : t.inWrite = insertAll (s.erased.take count) s.inWrite) :
    HasDrawn (allocated s r count) ∧ InWritePages t (heldPages (allocated s r count)) := by
  have same : (s.erased.take count).length = (allocationRoles r).length := by
    rw [List.length_take, Nat.min_eq_left enough, need]
  have pages : (allocated s r count).drawn.map (·.page) = s.erased.take count := withRoles_pages same
  refine ⟨⟨withRoles_roles same, fun after => ?_⟩, InWritePages.sublist (heldPages_sublist _) ⟨?_, fun d member => ?_⟩⟩
  · rw [show (allocated s r count).phase = .beforeCommit from before] at after
    cases after
  · rw [pages]
    exact (pools_disjoint stocked.pools_nodup).2.2.2.2.sublist (List.take_sublist _ _)
  · rw [inWrite, mem_insertAll, ← pages]
    exact .inl (List.mem_map.mpr ⟨d, member, rfl⟩)

/-- The first page of an allocation is to be programmed. -/
theorem currentPage_allocated_ne (need : count = (allocationRoles r).length) (enough : count ≤ s.erased.length) :
    currentPage (allocated s r count) ≠ none := by
  obtain ⟨role, later, roles⟩ := List.exists_cons_of_ne_nil (allocationRoles_ne_nil r)
  obtain ⟨first, others, pages⟩ : ∃ first others, s.erased.take count = first :: others :=
    List.exists_cons_of_length_pos (by
      rw [List.length_take, Nat.min_eq_left enough, need, roles]
      exact Nat.succ_pos _)
  rw [currentPage_allocated pages roles]
  simp

theorem hasDrawn_replaced (drawn : HasDrawn r) : HasDrawn (replaced r role fresh) := by
  refine ⟨?_, fun after d member one => ?_⟩
  · refine Eq.trans ?_ drawn.roles
    show (r.drawn.map _).map _ = _
    rw [List.map_map]
    refine List.map_congr_left fun d _ => ?_
    simp only [Function.comp_apply]
    split <;> rfl
  · obtain ⟨d', there, rfl⟩ := List.mem_map.mp member
    split at one
    · next same =>
      rw [if_pos same]
      exact drawn.installed after d' there one
    · next other =>
      rw [if_neg other]
      exact drawn.installed after d' there one

theorem heldPages_replaced : heldPages (replaced r role fresh) =
    (heldPages r).map fun d => if d.role = role then { d with page := fresh } else d := by
  rw [heldPages, heldPages, replaced, List.filter_map]
  congr 2
  funext d
  simp only [Function.comp_apply]
  split <;> rfl

/-- The pages after a replacement is drawn (R130). -/
theorem replaced_pages (drawn : HasDrawn r)
    (pages : InWritePages s ((heldPages r).filter fun d => d.role ≠ role)) (new : fresh ∉ s.inWrite)
    (inWrite : t.inWrite = insertNat fresh s.inWrite) : InWritePages t (heldPages (replaced r role fresh)) := by
  have roles : ((heldPages r).map (·.role)).Nodup :=
    (drawn.roles ▸ nodup_allocationRoles r).sublist ((heldPages_sublist r).map _)
  have held : ∀ d ∈ heldPages r, d.role ≠ role → d.page ∈ s.inWrite := fun d member other =>
    pages.2 d (List.mem_filter.mpr ⟨member, by simpa using other⟩)
  rw [heldPages_replaced]
  refine ⟨?_, fun d member => ?_⟩
  · have apart := pages.1
    rw [List.Nodup, List.map_map, List.pairwise_map]
    rw [List.Nodup, List.pairwise_map, List.pairwise_filter] at apart
    rw [List.Nodup, List.pairwise_map] at roles
    refine (roles.and apart).imp_of_mem fun {a b} here there both => ?_
    obtain ⟨differ, pagesDiffer⟩ := both
    simp only [Function.comp_apply]
    by_cases first : a.role = role <;> by_cases second : b.role = role
    · exact absurd (first.trans second.symm) differ
    · rw [if_pos first, if_neg second]
      exact fun same => new ((show fresh = b.page from same) ▸ held b there second)
    · rw [if_neg first, if_pos second]
      exact fun same => new ((show a.page = fresh from same) ▸ held a here first)
    · rw [if_neg first, if_neg second]
      exact pagesDiffer (by simpa using first) (by simpa using second)
  · obtain ⟨d', here, rfl⟩ := List.mem_map.mp member
    rw [inWrite]
    split
    · exact mem_insertNat.mpr (.inl rfl)
    · next other => exact mem_insertNat.mpr (.inr (held d' here other))

/-- The pages after a program has failed (R130). -/
theorem failed_pages (drawn : HasDrawn r) (pages : InWritePages s (heldPages r)) (current : currentPage r = some d)
    (inWrite : t.inWrite = without s.inWrite [d.page]) :
    InWritePages t ((heldPages r).filter fun x => x.role ≠ d.role) := by
  refine ⟨(pages.sublist List.filter_sublist).1, fun x member => ?_⟩
  obtain ⟨here, other⟩ := List.mem_filter.mp member
  rw [inWrite]
  refine mem_without.mpr ⟨pages.2 x here, fun same => ?_⟩
  have equal := List.inj_on_of_nodup_map pages.1 here (currentPage_held drawn current) (List.mem_singleton.mp same)
  simp [equal] at other

end Draws

/-! ## A programmed page -/

section Marked
variable {s : State} {r : RunningJob} {d : DrawnPage}

theorem hasDrawn_markProgrammed (drawn : HasDrawn r) : HasDrawn (markProgrammed r d) := by
  refine ⟨?_, fun after x member one => ?_⟩
  · refine Eq.trans ?_ drawn.roles
    show (r.drawn.map _).map _ = _
    rw [List.map_map]
    refine List.map_congr_left fun x _ => ?_
    simp only [Function.comp_apply]
    split <;> rfl
  · obtain ⟨x', there, rfl⟩ := List.mem_map.mp member
    split at one
    · next same =>
      rw [if_pos same]
    · next other =>
      rw [if_neg other]
      exact drawn.installed after x' there one

theorem heldPages_markProgrammed :
    (heldPages (markProgrammed r d)).map (·.page) = (heldPages r).map (·.page) := by
  have same : heldPages (markProgrammed r d) =
      (heldPages r).map fun x => if x.role = d.role then { x with programmed := true } else x := by
    rw [heldPages, heldPages, markProgrammed, List.filter_map]
    congr 2
    funext x
    simp only [Function.comp_apply]
    split <;> rfl
  rw [same, List.map_map]
  refine List.map_congr_left fun x _ => ?_
  simp only [Function.comp_apply]
  split <;> rfl

theorem marked_pages (pages : InWritePages s (heldPages r)) : InWritePages s (heldPages (markProgrammed r d)) :=
  pages.of_pages heldPages_markProgrammed

end Marked

/-! ## The pages of a programmed copy (R29, R31) -/

section Copies
variable {s t : State} {r : RunningJob} {d : DrawnPage} {c : CopyNo} {n : Nat}

theorem copyNo_of_isDataOf {role : PageRole} (data : role.isDataOf c = true) : role.copyNo = some c := by
  cases role with
  | data c' i => exact congrArg some (by simpa [PageRole.isDataOf] using data)
  | header c' => simp [PageRole.isDataOf] at data
  | retirement => simp [PageRole.isDataOf] at data

/-- A copy whose header is drawn has the pages of its roles. -/
theorem mem_copyPages (header : ∃ d ∈ r.drawn, d.role = .header c) :
    n ∈ headerPageOf r c :: dataPagesOf r c → ∃ d ∈ r.drawn, d.role.copyNo = some c ∧ d.page = n := by
  intro member
  rcases List.mem_cons.mp member with rfl | data
  · obtain ⟨d, here, role⟩ := header
    obtain ⟨x, found⟩ := Option.isSome_iff_exists.mp
      (List.find?_isSome.mpr ⟨d, here, beq_iff_eq.mpr role⟩ :
        (r.drawn.find? fun d => d.role == .header c).isSome = true)
    have headerRole : x.role = .header c := by simpa using List.find?_some found
    exact ⟨x, List.mem_of_find?_eq_some found, by rw [headerRole]; rfl, by rw [headerPageOf, found]; rfl⟩
  · obtain ⟨x, there, rfl⟩ := List.mem_map.mp data
    obtain ⟨here, role⟩ := List.mem_filter.mp there
    exact ⟨x, here, copyNo_of_isDataOf role, rfl⟩

/-- They are pages of IN_WRITE, none twice, where the job still holds them. -/
theorem copyPages_held (pages : InWritePages s (heldPages r)) (header : ∃ d ∈ r.drawn, d.role = .header c)
    (holds : ∀ d ∈ r.drawn, d.role.copyNo = some c → d ∈ heldPages r) :
    (headerPageOf r c :: dataPagesOf r c).Nodup ∧ ∀ n ∈ headerPageOf r c :: dataPagesOf r c, n ∈ s.inWrite := by
  refine ⟨List.nodup_cons.mpr ⟨fun data => ?_, ?_⟩, fun n member => ?_⟩
  · obtain ⟨d, here, role⟩ := header
    obtain ⟨x, found⟩ := Option.isSome_iff_exists.mp
      (List.find?_isSome.mpr ⟨d, here, beq_iff_eq.mpr role⟩ :
        (r.drawn.find? fun d => d.role == .header c).isSome = true)
    have headerRole : x.role = .header c := by simpa using List.find?_some found
    obtain ⟨y, there, same⟩ := List.mem_map.mp data
    obtain ⟨yHere, dataRole⟩ := List.mem_filter.mp there
    have yCopy : y.role.copyNo = some c := copyNo_of_isDataOf dataRole
    have page : y.page = x.page := by rw [same, headerPageOf, found]; rfl
    have equal := List.inj_on_of_nodup_map pages.1 (holds y yHere yCopy)
      (holds x (List.mem_of_find?_eq_some found) (by rw [headerRole]; rfl)) page
    rw [equal, headerRole] at dataRole
    cases dataRole
  · have sub : (r.drawn.filter fun d => d.role.isDataOf c).Sublist (heldPages r) := by
      have inner : (r.drawn.filter fun d => d.role.isDataOf c) = (heldPages r).filter fun d => d.role.isDataOf c := by
        rw [heldPages, List.filter_filter]
        refine List.filter_congr fun x here => ?_
        cases data : x.role.isDataOf c with
        | false => rfl
        | true =>
          have copy : x.role.copyNo = some c := copyNo_of_isDataOf data
          have held := (List.mem_filter.mp (holds x here copy)).2
          rw [held]
          rfl
      rw [inner]
      exact List.filter_sublist
    exact pages.1.sublist (sub.map _)
  · obtain ⟨d, here, copy, rfl⟩ := mem_copyPages header member
    exact pages.2 d (holds d here copy)

/-- Copy 1 is programmed when its header is the page in progress (R127, R128). -/
theorem hasDrawn_committed (drawn : HasDrawn r) (kind : r.job.kind = .writeCopy) (current : currentPage r = some d)
    (role : d.role = .header .one) : HasDrawn (committedRun r d) := by
  have marked := hasDrawn_markProgrammed (d := d) drawn
  refine ⟨marked.roles, fun _ x member one => ?_⟩
  obtain ⟨y, here, rfl⟩ := List.mem_map.mp member
  by_cases same : y.role = d.role
  · rw [if_pos same]
  · rw [if_neg same] at one ⊢
    obtain ⟨-, first, later, list, programmed⟩ := List.find?_eq_some_iff_append.mp current
    obtain ⟨before, after, roles, fresh, others⟩ := allocationRoles_copyOne kind
    have order := drawn.roles
    rw [list, roles, List.map_append, List.map_cons, role] at order
    have once : (first.map (·.role) ++ PageRole.header .one :: later.map (·.role)).Nodup := by
      rw [order, ← roles]
      exact nodup_allocationRoles r
    have firstFresh : PageRole.header .one ∉ first.map (·.role) := fun both =>
      (List.nodup_append.mp once).2.2 _ both _ List.mem_cons_self rfl
    have laterFresh : PageRole.header .one ∉ later.map (·.role) :=
      (List.nodup_cons.mp (List.nodup_append.mp once).2.1).1
    obtain ⟨-, -, tails⟩ := (List.append_cons_inj_of_notMem firstFresh laterFresh).mp order
    rw [list] at here
    rcases List.mem_append.mp here with earlier | rest
    · simpa using programmed y earlier
    · rcases List.mem_cons.mp rest with rfl | rest
      · exact absurd rfl same
      · exact absurd one (others _ (tails ▸ List.mem_map.mpr ⟨y, rest, rfl⟩))

/-- After the commit point the job holds the other copy's pages, which stay in IN_WRITE. -/
theorem committed_pages (before : r.phase = .beforeCommit) (pages : InWritePages s (heldPages r))
    (header : ∃ d ∈ r.drawn, d.role = .header .one)
    (inWrite : ∀ n ∈ s.inWrite, n ∉ headerPageOf r .one :: dataPagesOf r .one → n ∈ t.inWrite) :
    InWritePages t (heldPages (committedRun r d)) := by
  rw [heldPages_before before] at pages
  have held : ((heldPages (committedRun r d)).map (·.page)) =
      (r.drawn.filter fun x => x.role.copyNo ≠ some .one).map (·.page) := by
    show ((r.drawn.map _).filter _).map _ = _
    rw [List.filter_map, List.map_map]
    have agree : ((fun x : DrawnPage => !((committedRun r d).phase == .afterCommit && x.role.copyNo == some .one)) ∘
        fun x => if x.role = d.role then { x with programmed := true } else x) =
        fun x => decide (x.role.copyNo ≠ some .one) := by
      funext x
      have role : (if x.role = d.role then { x with programmed := true } else x : DrawnPage).role = x.role := by
        split <;> rfl
      have phase : (committedRun r d).phase = .afterCommit := rfl
      simp only [Function.comp_apply, role, phase]
      by_cases one : x.role.copyNo = some .one <;> simp [one]
    rw [agree]
    refine List.map_congr_left fun x _ => ?_
    simp only [Function.comp_apply]
    split <;> rfl
  refine InWritePages.of_pages held ⟨(pages.sublist List.filter_sublist).1, fun x member => ?_⟩
  obtain ⟨here, other⟩ := List.mem_filter.mp member
  refine inWrite _ (pages.2 x here) fun copy => ?_
  obtain ⟨y, there, one, page⟩ := mem_copyPages header copy
  have equal := List.inj_on_of_nodup_map pages.1 there here page
  subst equal
  simp [one] at other

end Copies

end Sys2Proof.Machine

/-! The law of pools through the moves and the ends of the Array Engine's jobs (R108, R109, R115, R117, R129 to R132,
R144, R145). -/

namespace Sys2Proof.Machine

/-- The law of pools in READY. -/
structure PoolsFit (s : State) : Prop where
  stocked : Stocked s
  job : ∀ r, s.running = some r → JobPages s r

section Ends
variable {s t : State} {r : RunningJob} {k : Key} {e : Entry}

theorem Stocked.elsewhere (stocked : Stocked s) (pools : PoolsKept s t) (same : t.directory = s.directory) :
    Stocked t := stocked.shrinks (.of_directory pools same)

/-- After the end of a job no job runs. -/
theorem Stocked.ended (stocked : Stocked s) : PoolsFit (Machine.finishJob s) where
  stocked := stocked.finishJob
  job := fun r here => by rw [(finishJob_ended s).running] at here; cases here

/-- A job goes on without a page. -/
theorem Stocked.runs (stocked : Stocked s) (pools : PoolsKept s t) (same : t.directory = s.directory)
    (running : t.running = some r) (quiet : r.stage.pageless = true) (before : r.phase = .beforeCommit) :
    PoolsFit t where
  stocked := stocked.elsewhere pools same
  job := fun r' here => by
    obtain rfl : r = r' := Option.some.inj (running.symm.trans here)
    exact (jobPages_pageless quiet).mpr before

theorem Stocked.answered (stocked : Stocked s) (r : RunningJob) (code : Completion) (res : Result)
    (data : Option (List Byte)) : PoolsFit (Machine.finishJob (completeJob s r code res data)) :=
  (stocked.shrinks (shrinks_completeJob r code res data)).ended

theorem Stocked.released (stocked : Stocked s) (r : RunningJob) (cause : ReleaseCause) :
    Stocked (releaseJobSlot s r cause) := stocked.shrinks (shrinks_releaseJobSlot r cause)

/-! ### The ends of writes, retirements and repairs -/

theorem Stocked.writeDone (stocked : Stocked s) : PoolsFit (endWriteDone s r) :=
  ((stocked.shrinks (shrinks_backToLive r.key)).released r .committed).answered r _ _ _

theorem Stocked.copyPending (stocked : Stocked s) : PoolsFit (endCopyPending s r) := by
  have degraded : Shrinks (Machine.inWriteToDirty s r.key) ((Machine.inWriteToDirty s r.key).modifyEntry r.key fun e =>
      { e with lifecycle := .live, integrity := .degraded }) :=
    shrinks_modifyEntry (fun _ same => same) fun _ _ _ => rfl
  exact (((stocked.inWriteToDirty.shrinks degraded).shrinks
    (shrinks_repairRequest r.key _ .two .lost)).released r .committed).answered r _ _ _

/-- The entry of a first write goes, with the pages it names; another returns to LIVE (R15, R28). -/
theorem Stocked.undone (stocked : Stocked s) : Stocked (undoEntry s r) := by
  unfold undoEntry
  split
  · exact stocked
  · next e entry =>
    split
    · refine stocked.withdraw (out := entryPages e) (k := r.key) (stocked.keys.sublist (List.filter_sublist.map _))
        rfl rfl rfl rfl rfl ?_
      rw [namedPages_liveToDirty, namedPages_removeEntry]
      exact namedPages_of_entry stocked.keys entry
    · exact stocked.shrinks (shrinks_backToLive r.key)

theorem Stocked.beforeCommit (stocked : Stocked s) (code : Completion) : PoolsFit (endBeforeCommit s r code) :=
  (stocked.inWriteToDirty.undone.released r .failed).answered r _ _ _

theorem Stocked.repairClosed (stocked : Stocked s) : PoolsFit (closeRepair s r) := by
  have dropped : Stocked (dropRepair s r.key r.job.params.copy) :=
    stocked.elsewhere ⟨rfl, rfl, rfl, rfl, rfl, rfl⟩ rfl
  exact (dropped.shrinks (shrinks_replaceLost r.key _)).ended

theorem Stocked.repairWithout (stocked : Stocked s) : PoolsFit (endRepairWithout s r) :=
  stocked.inWriteToDirty.repairClosed

theorem Stocked.jobFails (stocked : Stocked s) (code : Completion) : PoolsFit (failJob s r code) := by
  unfold failJob
  split
  · exact stocked.repairWithout
  · exact stocked.beforeCommit code
  · exact stocked.copyPending

theorem Stocked.configEnds (stocked : Stocked s) (code : Completion) (committed : Bool) :
    PoolsFit (endConfig s r code committed) :=
  (stocked.released r _).answered r _ _ _

theorem Stocked.readEnds (stocked : Stocked s) (code : Completion) (res : Result) (data : List Byte) :
    PoolsFit (endRead s r code res data) := stocked.answered r _ _ _

theorem Stocked.preloadDamaged (stocked : Stocked s) : PoolsFit (endPreloadDamaged s r) :=
  (stocked.released r .failed).answered r _ _ _

theorem Stocked.raiseDamaged (stocked : Stocked s) : PoolsFit (endRaiseDamaged s r) :=
  Stocked.beforeCommit (s := { s with reservation := s.reservation - r.job.need })
    (stocked.elsewhere ⟨rfl, rfl, rfl, rfl, rfl, rfl⟩ rfl) .damaged

end Ends

/-! ## Commit points -/

section Commits
variable {s : State} {r : RunningJob} {e : Entry} {k : Key} {c : CopyNo} {page : Nat}

/-- The pages of a copy are pages of IN_WRITE, none twice. -/
def CopyHeld (s : State) (r : RunningJob) (c : CopyNo) : Prop :=
  (headerPageOf r c :: dataPagesOf r c).Nodup ∧ ∀ n ∈ headerPageOf r c :: dataPagesOf r c, n ∈ s.inWrite

/-- Copy 1's pages take the place of the record's old pages (R128). -/
theorem Stocked.committed (stocked : Stocked s) (entry : s.entry r.key = some e) (held : CopyHeld s r .one) :
    Stocked (commitMoved s r e) := by
  have key : (committedEntry e r).key = r.key := (State.entry_some entry).2
  refine stocked.exchange (out := entryPages e) (into := headerPageOf r .one :: dataPagesOf r .one) (k := r.key)
    (rest := otherPages s r.key) ?_ rfl rfl rfl rfl rfl (namedPages_of_entry stocked.keys entry) ?_ held.1 held.2
  · exact (map_key_modifyEntry (s := s) (f := fun _ => committedEntry e r) fun _ _ => key) ▸ stocked.keys
  · have moved : namedPages (commitMoved s r e) = namedPages (s.modifyEntry r.key fun _ => committedEntry e r) :=
      namedPages_liveToDirty (s := s.modifyEntry r.key fun _ => committedEntry e r) _
    rw [moved]
    have pages : entryPages (committedEntry e r) = headerPageOf r .one :: dataPagesOf r .one := List.append_nil _
    rw [← pages]
    exact (namedPages_modifyEntry stocked.keys entry fun _ _ => key).subperm

/-- The Retirement List loses the entries of a key, and LIVE the header of the first of them (R115). -/
theorem Stocked.retirementDropped (stocked : Stocked s) (k : Key) : Stocked (dropRetirement s k) := by
  cases found : s.retirement k with
  | none => rwa [dropRetirement_none found]
  | some x =>
    obtain ⟨key, before, after, list, -⟩ := List.find?_eq_some_iff_append.mp found
    have rest : (s.retirementList.filter fun y => decide (y.key ≠ k)).Sublist (before ++ after) := by
      rw [list, List.filter_append, List.filter_cons_of_neg (by simpa using key), ← List.filter_append]
      exact List.filter_sublist
    have shorter : (keptHeaders (s.retirementList.filter fun y => decide (y.key ≠ k))).Sublist
        (keptHeaders (before ++ after)) := (rest.filter _).map _
    cases released : x.released with
    | true =>
      rw [dropRetirement_released found released]
      have named : (namedPages { s with
          retirementList := s.retirementList.filter fun y => decide (y.key ≠ k) }).Sublist (namedPages s) :=
        (List.Sublist.refl _).append ((List.filter_sublist.filter _).map _)
      exact ⟨stocked.keys, stocked.pools, stocked.named.sublist named,
        fun n member => stocked.live n (named.subset member)⟩
    | false =>
      rw [dropRetirement_kept found released]
      have headers : (headerPages s).Perm (x.header :: keptHeaders (before ++ after)) := by
        rw [headerPages, list]
        simp only [keptHeaders, List.filter_append, List.map_append]
        rw [List.filter_cons_of_pos (by simp [released])]
        exact List.perm_middle
      refine stocked.exchange (out := [x.header]) (into := []) (k := k)
        (rest := s.directory.flatMap entryPages ++ keptHeaders (before ++ after)) stocked.keys rfl
        (without_nil _).symm rfl rfl rfl ?_ ?_ List.nodup_nil nofun
      · rw [namedPages_eq]
        exact (headers.append_left _).trans List.perm_middle
      · rw [namedPages_liveToDirty]
        exact ((List.Sublist.refl _).append shorter).subperm

/-- The report of a commit point (R128). -/
theorem Stocked.commitApplied (stocked : Stocked s) (held : CopyHeld s r .one) : Stocked (applyCommit s r) := by
  cases entry : s.entry r.key with
  | none =>
    simp only [applyCommit, entry]
    exact stocked
  | some e =>
    have moved := stocked.committed entry held
    by_cases first : e.version = 0
    · rw [applyCommit_first entry first, notify_frame]
      exact (moved.retirementDropped r.key).elsewhere ⟨rfl, rfl, rfl, rfl, rfl, rfl⟩ rfl
    · rw [applyCommit_later entry first, notify_frame]
      exact moved.elsewhere ⟨rfl, rfl, rfl, rfl, rfl, rfl⟩ rfl

/-- Pages of IN_WRITE that descriptors come to name, as others go (R109). -/
theorem Stocked.installs {t : State} {into : List Nat} (stocked : Stocked s)
    (keys : (t.directory.map (·.key)).Nodup) (erased : t.erased = s.erased)
    (inWrite : t.inWrite = without s.inWrite into) (lives : t.live = insertAll into s.live)
    (dirty : t.eraseList = s.eraseList) (bad : t.bad = s.bad)
    (named : (namedPages t).Subperm (into ++ namedPages s)) (once : into.Nodup) (held : ∀ n ∈ into, n ∈ s.inWrite) :
    Stocked t :=
  stocked.exchange (out := []) (k := ⟨0, 0⟩) keys erased inWrite (by rw [lives, without_nil])
    (by rw [dirty]; exact (List.append_nil _).symm) bad (.refl _) named once held

/-- The report "copy 2 installed" (R129). -/
theorem Stocked.copyTwoApplied (stocked : Stocked s) (held : CopyHeld s r .two) : Stocked (applyCopy2 s r) := by
  have key : ∀ e : Entry, e.key = r.key → ({ e with copy2 := some (descriptorOf r .two) } : Entry).key = r.key :=
    fun _ same => same
  refine stocked.installs (into := headerPageOf r .two :: dataPagesOf r .two)
    (map_key_modifyEntry (s := s) key ▸ stocked.keys) rfl rfl rfl rfl rfl ?_ held.1 held.2
  show (namedPages (s.modifyEntry r.key fun e => { e with copy2 := some (descriptorOf r .two) })).Subperm _
  cases entry : s.entry r.key with
  | none =>
    have same : (s.modifyEntry r.key fun e => { e with copy2 := some (descriptorOf r .two) }).directory.flatMap
        entryPages = s.directory.flatMap entryPages :=
      entryPages_modifyEntry fun e here key => absurd key (by simpa using List.find?_eq_none.mp entry e here)
    rw [namedPages_eq, same]
    exact (List.sublist_append_right _ _).subperm
  | some e =>
    refine (namedPages_modifyEntry stocked.keys entry key).subperm.trans ?_
    refine List.Subperm.trans ?_ ((namedPages_of_entry stocked.keys entry).symm.append_left _).subperm
    refine List.subperm_iff_count.mpr fun n => ?_
    show (descriptorPages e.copy1 ++ (headerPageOf r .two :: dataPagesOf r .two) ++ otherPages s r.key).count n ≤
      (headerPageOf r .two :: dataPagesOf r .two ++
        (descriptorPages e.copy1 ++ descriptorPages e.copy2 ++ otherPages s r.key)).count n
    simp only [List.count_append]
    omega


/-- A retirement's header takes the place of the record's pages (R132). -/
theorem Stocked.retired (stocked : Stocked s) (entry : s.entry r.key = some e) (held : page ∈ s.inWrite) :
    Stocked (retiredState s r e page) := by
  have inWrite : (retiredState s r e page).inWrite = without s.inWrite [page] := by
    rw [retiredState, retirementMade]
    rfl
  refine stocked.exchange (out := entryPages e) (into := [page]) (k := r.key) (rest := otherPages s r.key)
    (stocked.keys.sublist (List.filter_sublist.map _)) (by rw [pageFrame_retiredState]) inWrite rfl rfl
    (by rw [pageFrame_retiredState]) (namedPages_of_entry stocked.keys entry) ?_ (List.nodup_singleton _)
    (by simpa using held)
  have headers : headerPages (liveToDirty (s.removeEntry r.key) (entryPages e) r.key) = headerPages s :=
    headerPages_addDirty (s := { s.removeEntry r.key with live := without s.live (entryPages e) }) _
  have made : headerPages (retiredState s r e page) = headerPages s ++ [page] := by
    have list : (retiredState s r e page).retirementList =
        (liveToDirty (s.removeEntry r.key) (entryPages e) r.key).retirementList ++ [⟨r.key, page,
          r.versionWritten.getD 0, pagesBearing (liveToDirty (s.removeEntry r.key) (entryPages e) r.key) r.key,
          false⟩] := rfl
    rw [headerPages, list, keptHeaders, List.filter_append, List.map_append, ← headers]
    simp only [headerPages, keptHeaders, List.filter_cons, Bool.not_false, if_true, List.filter_nil, List.map_cons,
      List.map_nil]
  rw [namedPages_eq, made]
  refine (List.Perm.trans ?_ List.perm_append_comm).subperm
  rw [← List.append_assoc]
  exact .refl _

theorem Stocked.retirementApplied (stocked : Stocked s) (held : page ∈ s.inWrite) :
    Stocked (applyRetirement s r page) := by
  cases entry : s.entry r.key with
  | none =>
    simp only [applyRetirement, entry]
    exact stocked
  | some e =>
    rw [applyRetirement_eq entry, notify_frame]
    exact (stocked.retired entry held).elsewhere ⟨rfl, rfl, rfl, rfl, rfl, rfl⟩ rfl

theorem entryPages_copies (e : Entry) (c : CopyNo) :
    (entryPages e).Perm (descriptorPages (e.copy c) ++ descriptorPages (e.copy c.other)) := by
  cases c with
  | one => exact .refl _
  | two => exact List.perm_append_comm

/-- A repaired copy takes the place of the one it replaces (R31). -/
theorem Stocked.repaired (stocked : Stocked s) (entry : s.entry r.key = some e) (held : CopyHeld s r c) :
    Stocked (repairedState s r e c) := by
  obtain ⟨e', made⟩ : ∃ e', e' = (e.setCopy c (some (descriptorOf r c))).judged := ⟨_, rfl⟩
  have key : e'.key = r.key := by
    rw [made, Entry.judged_key, Entry.setCopy_key]
    exact (State.entry_some entry).2
  have pages : (entryPages e').Perm
      (headerPageOf r c :: dataPagesOf r c ++ descriptorPages (e.copy c.other)) := by
    rw [made]
    cases c with
    | one => exact .refl _
    | two => exact List.perm_append_comm
  refine stocked.exchange (out := descriptorPages (e.copy c)) (into := headerPageOf r c :: dataPagesOf r c)
    (k := r.key) (rest := descriptorPages (e.copy c.other) ++ otherPages s r.key) ?_ rfl rfl rfl rfl rfl ?_ ?_
    held.1 held.2
  · rw [repairedState, ← made]
    exact (map_key_modifyEntry (s := s) (f := fun _ => e') fun _ _ => key) ▸ stocked.keys
  · rw [← List.append_assoc]
    exact (namedPages_of_entry stocked.keys entry).trans ((entryPages_copies e c).append_right _)
  · have moved : namedPages (repairedState s r e c) = namedPages (s.modifyEntry r.key fun _ => e') := by
      rw [repairedState, ← made]
      exact namedPages_liveToDirty (s := s.modifyEntry r.key fun _ => e') _
    rw [moved, ← List.append_assoc]
    exact ((namedPages_modifyEntry stocked.keys entry fun _ _ => key).trans (pages.append_right _)).subperm

theorem Stocked.repairInstalled (stocked : Stocked s) (held : CopyHeld s r r.job.params.copy) :
    PoolsFit (endRepairInstalled s r) := by
  refine Stocked.repairClosed ?_
  cases entry : s.entry r.key with
  | none =>
    simp only [installRepair, entry]
    exact stocked
  | some e =>
    rw [installRepair_eq entry rfl]
    exact (stocked.repaired entry held).elsewhere ⟨rfl, rfl, rfl, rfl, rfl, rfl⟩ rfl

end Commits

end Sys2Proof.Machine

/-! The law of pools through the programs, draws and erases of a job (R108, R111, R126 to R132, R144). -/

namespace Sys2Proof.Machine

section Programs
variable {s t : State} {r : RunningJob} {d : DrawnPage} {tag : Tag} {payload : Payload} {count page : Nat}
  {role : PageRole}

/-! ## The next page -/

theorem PoolsFit.of_running (stocked : Stocked t) (running : t.running = some r) (pages : JobPages t r) :
    PoolsFit t where
  stocked := stocked
  job := fun r' here => by
    obtain rfl : r = r' := Option.some.inj (running.symm.trans here)
    exact pages

theorem beginProgram_fits (stocked : Stocked s) (drawn : HasDrawn r) (pages : InWritePages s (heldPages r))
    (page : Nat) (tag : Tag) (payload : Payload) : PoolsFit (beginProgram s r page tag payload) :=
  .of_running (stocked.elsewhere ⟨rfl, rfl, rfl, rfl, rfl, rfl⟩ rfl) rfl
    (JobPages.congr (s := s) rfl (jobPages_programs drawn pages))

theorem beginHeader_fits (stocked : Stocked s) (drawn : HasDrawn r) (pages : InWritePages s (heldPages r))
    (page : Nat) (tag : Tag) (payload : Nat → Payload) : PoolsFit (beginHeader s r page tag payload) := by
  unfold beginHeader
  split
  · exact stocked.jobFails _
  · next n _ =>
    exact beginProgram_fits (s := { s with sequenceCounter := nextSequence n })
      (stocked.elsewhere ⟨rfl, rfl, rfl, rfl, rfl, rfl⟩ rfl) drawn pages _ _ _

/-- A job with no page left to program stays at its place. -/
theorem programNext_fits (stocked : Stocked s) (drawn : HasDrawn r) (pages : InWritePages s (heldPages r))
    (stays : currentPage r = none → JobPages s r) : PoolsFit (programNext s r) := by
  unfold programNext
  split
  · next last =>
    exact .of_running (stocked.elsewhere ⟨rfl, rfl, rfl, rfl, rfl, rfl⟩ rfl) rfl
      (JobPages.congr (s := s) rfl (stays last))
  · split
    · exact beginProgram_fits stocked drawn pages _ _ _
    · exact beginHeader_fits stocked drawn pages _ _ _
    · exact beginHeader_fits stocked drawn pages _ _ _

/-! ## Draws (R111) -/

theorem drawNow_allocation_fits (stocked : Stocked s) (need : count = (allocationRoles r).length)
    (before : r.phase = .beforeCommit) (enough : count ≤ s.erased.length) : PoolsFit (drawNow s r count none) := by
  rw [drawNow_allocation]
  obtain ⟨drawn, pages⟩ := allocated_pages (t := { s with
    erased := s.erased.drop count
    inWrite := insertAll (s.erased.take count) s.inWrite
    reservation := s.reservation - r.job.need }) stocked need before enough rfl
  refine programNext_fits ?_ drawn pages fun none => absurd none (currentPage_allocated_ne need enough)
  exact (stocked.draw count).elsewhere ⟨rfl, rfl, rfl, rfl, rfl, rfl⟩ rfl

theorem drawNow_replacement_fits (stocked : Stocked s) (drawn : HasDrawn r)
    (pages : InWritePages s ((heldPages r).filter fun d => d.role ≠ role)) (enough : 1 ≤ s.erased.length)
    (place : r.stage = .programming ∨ r.stage = .drawing 1 (some role)) :
    PoolsFit (drawNow s r 1 (some role)) := by
  obtain ⟨fresh, rest, erased⟩ := List.exists_cons_of_length_pos enough
  have new : fresh ∉ s.inWrite := (pools_disjoint stocked.pools_nodup).2.2.2.1 fresh (erased ▸ List.mem_cons_self)
  have stockedNow : Stocked { s with erased := rest, inWrite := insertNat fresh s.inWrite } := by
    have draw := stocked.draw 1
    rw [erased] at draw
    exact draw
  have drawnNow := hasDrawn_replaced (role := role) (fresh := fresh) drawn
  have pagesNow := replaced_pages (t := { s with erased := rest, inWrite := insertNat fresh s.inWrite })
    drawn pages new rfl
  rw [drawNow_replacement erased]
  refine programNext_fits stockedNow drawnNow pagesNow fun _ => ?_
  rcases place with stage | stage
  · exact (jobPages_programming (r := replaced r role fresh) stage).mpr ⟨drawnNow, pagesNow⟩
  · exact (jobPages_replacing (r := replaced r role fresh) stage).mpr
      ⟨rfl, drawnNow, pagesNow.sublist List.filter_sublist⟩

/-- A draw is made, waits for an erase, or fails (R111, R117). -/
theorem continueDraw_fits {role : Option PageRole} (stocked : Stocked s)
    (pages : JobPages s { r with stage := .drawing count role })
    (place : ∀ x, role = some x → r.stage = .programming ∨ r.stage = .drawing 1 (some x)) :
    PoolsFit (continueDraw s r count role) := by
  unfold continueDraw
  split
  · next enough =>
    cases role with
    | none =>
      obtain ⟨need, before⟩ := (jobPages_allocating (r := { r with stage := .drawing count none }) rfl).mp pages
      exact drawNow_allocation_fits stocked need before enough
    | some x =>
      obtain ⟨rfl, drawn, held⟩ :=
        (jobPages_replacing (r := { r with stage := .drawing count (some x) }) rfl).mp pages
      exact drawNow_replacement_fits stocked (drawn.stage r.stage) held enough (place x rfl)
  · split
    · exact .of_running (stocked.elsewhere ⟨rfl, rfl, rfl, rfl, rfl, rfl⟩ rfl) rfl (JobPages.congr (s := s) rfl pages)
    · split
      · exact Stocked.jobFails (s := { s with reservation := s.reservation - r.job.need })
          (stocked.elsewhere ⟨rfl, rfl, rfl, rfl, rfl, rfl⟩ rfl) _
      · exact stocked.jobFails _

theorem beginDraw_fits (stocked : Stocked s) (before : r.phase = .beforeCommit) : PoolsFit (beginDraw s r) :=
  continueDraw_fits stocked
    ((jobPages_allocating (r := { r with stage := .drawing (allocationRoles r).length none }) rfl).mpr ⟨rfl, before⟩)
    nofun

/-! ## The end of a program -/

/-- The job programs its current page. -/
structure AtPage (s : State) (r : RunningJob) (d : DrawnPage) : Prop where
  current : currentPage r = some d
  stage : r.stage = .programming
  drawn : HasDrawn r
  pages : InWritePages s (heldPages r)

theorem AtPage.of_program (pages : JobPages s r) (program : currentProgram s r = some (d, tag, payload)) :
    AtPage s r d := by
  obtain ⟨current, stage⟩ : currentPage r = some d ∧ r.stage = .programming := by
    unfold currentProgram at program
    split at program
    · next d' page tag' payload' current op =>
      split at program
      · next here =>
        cases program
        exact ⟨current, by simpa using (Bool.and_eq_true_iff.mp here).2⟩
      · cases program
    · cases program
  obtain ⟨drawn, held⟩ := (jobPages_programming stage).mp pages
  exact ⟨current, stage, drawn, held⟩

theorem AtPage.held (at' : AtPage s r d) : d.page ∈ s.inWrite := at'.pages.2 d (currentPage_held at'.drawn at'.current)

theorem Stocked.programmed (stocked : Stocked s) (n : Nat) (cell : PageCell) : Stocked (s.setPage n cell) :=
  stocked.elsewhere ⟨rfl, rfl, rfl, rfl, rfl, rfl⟩ rfl

theorem Stocked.spoiled (stocked : Stocked s) (n : Nat) : Stocked (s.spoilPage n) :=
  stocked.elsewhere ⟨rfl, rfl, rfl, rfl, rfl, rfl⟩ rfl

/-- A program fails (R130). -/
theorem programFailed_fits (stocked : Stocked s) (at' : AtPage s r d) : PoolsFit (programFailed s r d) := by
  have failed : Stocked (failedState s r d) :=
    Stocked.inWritePageToDirty (s := s.spoilPage d.page) (stocked.spoiled d.page) at'.held
  have drawn : HasDrawn (failedRun r) := ⟨at'.drawn.roles, at'.drawn.installed⟩
  have left : InWritePages (failedState s r d) ((heldPages (failedRun r)).filter fun x => x.role ≠ d.role) :=
    failed_pages (r := r) (t := failedState s r d) at'.drawn at'.pages at'.current (by rw [failedState_frame])
  by_cases third : 3 ≤ r.failures + 1
  · simp only [programFailed, third, if_true]
    exact failed.jobFails (r := failedRun r) _
  · simp only [programFailed, third, if_false]
    refine continueDraw_fits (r := failedRun r) failed ?_ fun _ _ => .inl at'.stage
    exact (jobPages_replacing (r := { failedRun r with stage := .drawing 1 (some d.role) }) rfl).mpr
      ⟨rfl, drawn.stage _, left⟩

/-- A page is programmed, and the next one begins (R127). -/
theorem programmed_fits (stocked : Stocked s) (at' : AtPage s r d) :
    PoolsFit (programNext (pageProgrammed s d tag payload) (markProgrammed r d)) := by
  have drawn := hasDrawn_markProgrammed (d := d) at'.drawn
  have pages := marked_pages (d := d) at'.pages
  exact programNext_fits (s := pageProgrammed s d tag payload) (stocked.programmed _ _) drawn pages fun _ =>
    (jobPages_programming (r := markProgrammed r d) at'.stage).mpr ⟨drawn, pages⟩

theorem dataPageDone_fits (fits : PoolsFit s) (running : s.running = some r) (success : Bool) :
    PoolsFit (dataPageDone success s r) := by
  unfold dataPageDone
  split
  · next page c i done tag payload kind program =>
    have at' := AtPage.of_program (fits.job r running) program
    cases success with
    | true => exact programmed_fits fits.stocked at'
    | false => exact programFailed_fits fits.stocked at'
  · exact fits

theorem headerFailed_fits (fits : PoolsFit s) (running : s.running = some r) : PoolsFit (headerFailed s r) := by
  have failed : PoolsFit (match currentProgram s r with
      | some (d, _, _) => if d.role.isHeader then programFailed s r d else s
      | none => s) := by
    split
    · next d tag payload program =>
      split
      · exact programFailed_fits fits.stocked (AtPage.of_program (fits.job r running) program)
      · exact fits
    · exact fits
  unfold headerFailed
  split
  · exact (fits.stocked.spoiled _).configEnds _ _
  · exact failed
  · exact failed
  · exact fits

end Programs

/-! ## Commit points -/

section Commits
variable {s t : State} {r r' : RunningJob} {d : DrawnPage} {tag : Tag} {payload : Payload} {c : CopyNo}

theorem CopyHeld.congr (same : descriptorOf r' c = descriptorOf r c) (held : CopyHeld s r c) : CopyHeld s r' c := by
  have header : headerPageOf r' c = headerPageOf r c := congrArg CopyDescriptor.header same
  have data : dataPagesOf r' c = dataPagesOf r c := congrArg CopyDescriptor.dataPages same
  rw [CopyHeld, header, data]
  exact held

/-- The page in progress is not programmed, so that its job is before its commit point if it is of copy 1. -/
theorem AtPage.before (at' : AtPage s r d) (one : d.role.copyNo = some .one) : r.phase = .beforeCommit := by
  cases phase : r.phase with
  | beforeCommit => rfl
  | afterCommit =>
    have done := at'.drawn.installed phase d (List.mem_of_find?_eq_some at'.current) one
    have open' : d.programmed = false := by simpa using List.find?_some at'.current
    rw [done] at open'
    cases open'

/-- The job holds the pages of the copy it programs. -/
theorem AtPage.copyHeld (at' : AtPage s r d) (own : d.role.copyNo = some c)
    (header : ∃ d ∈ r.drawn, d.role = .header c) :
    CopyHeld s r c := by
  refine copyPages_held at'.pages header fun x member copy => mem_heldPages.mpr ⟨member, fun ⟨after, one⟩ => ?_⟩
  rw [at'.before (own.trans (copy.symm.trans one))] at after
  cases after

theorem AtPage.header (at' : AtPage s r d) (role : d.role = .header c) : ∃ d ∈ r.drawn, d.role = .header c :=
  ⟨d, List.mem_of_find?_eq_some at'.current, role⟩

/-- The commit point of a write (R128). -/
theorem commitPoint_fits (stocked : Stocked s) (at' : AtPage s r d) (kind : r.job.kind = .writeCopy)
    (role : d.role = .header .one) :
    Stocked (applyCommit s (committedRun r d)) ∧
      PoolsFit (programNext (applyCommit s (committedRun r d)) (committedRun r d)) := by
  have copy : d.role.copyNo = some .one := by rw [role]; rfl
  have before := at'.before copy
  have held := at'.copyHeld copy (at'.header role)
  have applied : Stocked (applyCommit s (committedRun r d)) :=
    stocked.commitApplied (held.congr (committedRun_descriptor .one))
  have inWrite : ∀ n ∈ s.inWrite, n ∉ headerPageOf r .one :: dataPagesOf r .one →
      n ∈ (applyCommit s (committedRun r d)).inWrite := fun n here other => by
    cases entry : s.entry (committedRun r d).key with
    | none =>
      simp only [applyCommit, entry]
      exact here
    | some e =>
      have same := committedRun_descriptor (r := r) (d := d) .one
      rw [applyCommit_inWrite entry, show headerPageOf (committedRun r d) .one = headerPageOf r .one from
        congrArg CopyDescriptor.header same, show dataPagesOf (committedRun r d) .one = dataPagesOf r .one from
        congrArg CopyDescriptor.dataPages same]
      exact mem_without.mpr ⟨here, other⟩
  have drawn := hasDrawn_committed at'.drawn kind at'.current role
  have pages := committed_pages (d := d) before at'.pages (at'.header role) inWrite
  exact ⟨applied, programNext_fits applied drawn pages fun _ =>
    (jobPages_programming (r := committedRun r d) at'.stage).mpr ⟨drawn, pages⟩⟩

theorem AtPage.of_state (at' : AtPage s r d) (inWrite : t.inWrite = s.inWrite) : AtPage t r d :=
  ⟨at'.current, at'.stage, at'.drawn, at'.pages.congr inWrite⟩

theorem commitPointDone_fits (fits : PoolsFit s) (running : s.running = some r) : PoolsFit (commitPointDone s r) := by
  unfold commitPointDone
  split
  · next page done tag payload kind program =>
    have at' := AtPage.of_program (fits.job r running) program
    obtain ⟨applied, next⟩ := commitPoint_fits
      (fits.stocked.programmed page (programmedCell tag payload)) (at'.of_state rfl) kind rfl
    simp only
    split
    · exact applied.writeDone
    · exact next
  · exact fits

theorem copy2Done_fits (fits : PoolsFit s) (running : s.running = some r) : PoolsFit (copy2Done s r) := by
  unfold copy2Done
  split
  · next page done tag payload kind program =>
    have at' := AtPage.of_program (fits.job r running) program
    have held := (at'.copyHeld rfl (at'.header rfl)).congr
      (markProgrammed_descriptorOf r ⟨page, .header .two, done⟩ .two)
    have programmed := fits.stocked.programmed page (programmedCell tag payload)
    exact (Stocked.copyTwoApplied programmed held).writeDone
  · exact fits

theorem retirementDone_fits (fits : PoolsFit s) (running : s.running = some r) : PoolsFit (retirementDone s r) := by
  unfold retirementDone
  split
  · next d tag payload kind program =>
    have at' := AtPage.of_program (fits.job r running) program
    have programmed := fits.stocked.programmed d.page (programmedCell tag payload)
    exact (Stocked.retirementApplied programmed at'.held).answered _ _ _ _
  · exact fits

/-- The last page of a REPAIR job is programmed (R144). -/
theorem repaired_fits (stocked : Stocked s) (at' : AtPage s r d) (kind : r.job.kind = .repair) :
    PoolsFit (endRepairInstalled s (markProgrammed r d)) := by
  have roles : r.drawn.map (·.role) = copyRoles r.job.params.copy r.job.params.length := by
    rw [at'.drawn.roles, allocationRoles_repair kind]
  have own : d.role.copyNo = some r.job.params.copy :=
    copyNo_copyRoles (roles ▸ List.mem_map.mpr ⟨d, List.mem_of_find?_eq_some at'.current, rfl⟩)
  have header : PageRole.header r.job.params.copy ∈ r.drawn.map (·.role) :=
    roles ▸ mem_copyRoles.mpr (.inl rfl)
  obtain ⟨x, here, role⟩ := List.mem_map.mp header
  exact stocked.repairInstalled ((at'.copyHeld own ⟨x, here, role⟩).congr (markProgrammed_descriptorOf r d _))

theorem repairPageDone_fits (fits : PoolsFit s) (running : s.running = some r) (success : Bool) :
    PoolsFit (repairPageDone success s r) := by
  unfold repairPageDone
  split
  · next d tag payload kind program =>
    have at' := AtPage.of_program (fits.job r running) program
    split
    · have programmed := fits.stocked.programmed d.page (programmedCell tag payload)
      simp only
      split
      · exact repaired_fits programmed (at'.of_state rfl) kind
      · exact programmed_fits fits.stocked at'
    · exact programFailed_fits fits.stocked at'
  · exact fits

end Commits

/-! ## Erases and the configuration write -/

section Erases
variable {s : State} {r : RunningJob}

theorem eraseHeadDone_inWrite (s : State) (success : Bool) : (eraseHeadDone s success).inWrite = s.inWrite := by
  cases dirty : s.eraseList with
  | nil => simp only [eraseHeadDone, dirty]
  | cons x rest =>
    obtain ⟨page, k⟩ := x
    cases success
    · rw [eraseHeadDone_failure_frame dirty]
    · rw [eraseHeadDone_success_frame dirty]

theorem eraseDone_fits (fits : PoolsFit s) (running : s.running = some r) (success : Bool) :
    PoolsFit (eraseDone success s r) := by
  have erased := fits.stocked.eraseHeadDone success
  unfold eraseDone
  split
  · exact erased.ended
  · next page count role op stage =>
    have pages := fits.job r running
    have place : ∀ x, role = some x → r.stage = .programming ∨ r.stage = .drawing 1 (some x) := by
      rintro x rfl
      obtain ⟨rfl, -⟩ := (jobPages_replacing stage).mp pages
      exact .inr stage
    refine continueDraw_fits erased (JobPages.congr (eraseHeadDone_inWrite s success) ?_) place
    rw [RunningJob.with_stage stage]
    exact pages
  · exact fits

theorem setCopyState_fits (stocked : Stocked s) (c : CopyNo) (x : CopyState) : Stocked (setCopyState s c x) := by
  cases c <;> exact stocked.elsewhere ⟨rfl, rfl, rfl, rfl, rfl, rfl⟩ rfl

/-- A step of a CONFIG WRITE (R56). -/
theorem beginConfigStep_fits (stocked : Stocked s) (before : r.phase = .beforeCommit) (step : Nat) :
    PoolsFit (beginConfigStep s r step) := by
  have goesOn : ∀ {t : State}, PoolsKept s t → t.directory = s.directory →
      t.running = some { r with stage := .config step } → PoolsFit t := fun kept same running =>
    stocked.runs kept same running rfl before
  unfold beginConfigStep
  simp only
  split
  · exact goesOn ⟨rfl, rfl, rfl, rfl, rfl, rfl⟩ rfl rfl
  · exact goesOn ⟨rfl, rfl, rfl, rfl, rfl, rfl⟩ rfl rfl
  · split
    · exact stocked.configEnds _ _
    · exact goesOn ⟨rfl, rfl, rfl, rfl, rfl, rfl⟩ rfl rfl
  · exact goesOn ⟨rfl, rfl, rfl, rfl, rfl, rfl⟩ rfl rfl

theorem configPageDone_fits (fits : PoolsFit s) (running : s.running = some r) (success : Bool) :
    PoolsFit (configPageDone success s r) := by
  unfold configPageDone
  split
  · next step op kind stage operation =>
    have before : r.phase = .beforeCommit :=
      (jobPages_pageless (by rw [stage]; rfl)).mp (fits.job r running)
    split
    · exact fits
    · split
      · exact beginConfigStep_fits (fits.stocked.programmed _ _) before _
      · exact (fits.stocked.spoiled _).configEnds _ _
  · exact fits

theorem configCommitDone_fits (fits : PoolsFit s) : PoolsFit (configCommitDone s r) := by
  unfold configCommitDone
  split
  · next page tag n sequence crc kind stage operation =>
    have stored := setCopyState_fits (fits.stocked.programmed page (programmedCell tag (.config n sequence crc)))
      r.job.params.copy (.valid sequence)
    exact Stocked.configEnds (s := applyConfigCommit _ r sequence)
      (stored.elsewhere ⟨rfl, rfl, rfl, rfl, rfl, rfl⟩ rfl) _ _
  · exact fits

end Erases

end Sys2Proof.Machine

/-! The law of pools through the starts of jobs and the page reads (R68, R79, R92, R121, R125, R143, R148), and so
through every event of the Array Engine. -/

namespace Sys2Proof.Machine

/-! ## Page reads -/

section Reports
variable {s : State} {k : Key} {c : CopyNo} {e : Entry} {d : CopyDescriptor}

/-- A descriptor with the pages of the one it replaces. -/
theorem entryPages_setCopy {d' : CopyDescriptor} (copy : e.copy c = some d) (header : d'.header = d.header)
    (data : d'.dataPages = d.dataPages) : entryPages (e.setCopy c (some d')) = entryPages e := by
  have pages : descriptorPages (some d') = descriptorPages (e.copy c) := by
    rw [copy, descriptorPages, descriptorPages, header, data]
  cases c with
  | one => exact congrArg (· ++ descriptorPages e.copy2) pages
  | two => exact congrArg (descriptorPages e.copy1 ++ ·) pages

/-- The entry of a key is the only one of it. -/
theorem Stocked.entry_eq (stocked : Stocked s) (entry : s.entry k = some e) {x : Entry} (here : x ∈ s.directory)
    (key : x.key = k) : x = e :=
  List.inj_on_of_nodup_map stocked.keys here (State.entry_some entry).1 (key.trans (State.entry_some entry).2.symm)

theorem Stocked.charged (stocked : Stocked s) (faulty : Bool) : Stocked (chargeCorrection s k c faulty) := by
  unfold chargeCorrection
  split
  · exact stocked
  · next e entry =>
    split
    · exact stocked
    · next d copy =>
      have charged : Stocked (s.modifyEntry k fun e =>
          e.setCopy c (some { d with corrections := min 255 (d.corrections + 1) })) := by
        refine stocked.shrinks (shrinks_modifyEntry (fun x key => (Entry.setCopy_key x c _).trans key)
          fun x here key => ?_)
        rw [stocked.entry_eq entry here key]
        exact entryPages_setCopy copy rfl rfl
      split
      · exact stocked
      · simp only
        split
        · exact charged.shrinks (shrinks_repairRequest _ _ _ _)
        · exact charged

theorem Stocked.faulted (stocked : Stocked s) : Stocked (copyFault s k c) := by
  unfold copyFault
  split
  · exact stocked
  · next e entry =>
    split
    · exact stocked
    · next d copy =>
      have judged : Stocked (s.modifyEntry k fun _ => (e.setCopy c (some { d with valid := false })).judged) := by
        refine stocked.shrinks (shrinks_modifyEntry (fun _ _ => ?_) fun x here key => ?_)
        · rw [Entry.judged_key, Entry.setCopy_key]
          exact (State.entry_some entry).2
        · rw [stocked.entry_eq entry here key]
          exact entryPages_setCopy copy rfl rfl
      split
      · exact stocked
      · simp only
        split
        · exact judged
        · exact judged.shrinks (shrinks_repairRequest _ _ _ _)
        · split
          · exact judged
          · rw [notify_frame]
            exact judged.elsewhere ⟨rfl, rfl, rfl, rfl, rfl, rfl⟩ rfl

/-- The report of a page read (R18, R26). -/
theorem Stocked.reported (stocked : Stocked s) (report : PageReport) (pageFaulty copyFaulty : Bool) :
    Stocked (reportPage s k c report pageFaulty copyFaulty) := by
  have charged : Stocked (if report.corrected then chargeCorrection s k c pageFaulty else s) := by
    split
    · exact stocked.charged _
    · exact stocked
  unfold reportPage
  simp only
  split
  · exact charged.faulted
  · exact charged

end Reports

section Reads
variable {s : State} {r : RunningJob} {e : Entry} {c : CopyNo}

theorem beginRead_fits (stocked : Stocked s) (before : r.phase = .beforeCommit) (e : Entry) (c : CopyNo) :
    PoolsFit (beginRead s r e c) := by
  unfold beginRead
  split
  · next page rest _ =>
    exact stocked.runs (r := { r with stage := .reading c (page :: rest) [] }) ⟨rfl, rfl, rfl, rfl, rfl, rfl⟩ rfl rfl
      rfl before
  · exact stocked.readEnds _ _ _

theorem beginSource_fits (stocked : Stocked s) (before : r.phase = .beforeCommit) (c : CopyNo)
    (d : CopyDescriptor) : PoolsFit (beginSource s r c d) :=
  stocked.runs (r := { r with stage := .source c none (d.header :: d.dataPages) [] })
    ⟨rfl, rfl, rfl, rfl, rfl, rfl⟩ rfl rfl rfl before

theorem readFaulty_fits (stocked : Stocked s) (before : r.phase = .beforeCommit) (c : CopyNo) :
    PoolsFit (readFaulty s r c) := by
  unfold readFaulty
  split
  · exact beginRead_fits stocked before _ _
  · exact stocked.readEnds _ _ _

theorem readPageDone_fits (fits : PoolsFit s) (running : s.running = some r) (o : ReadOutcome) :
    PoolsFit (readPageDone o s r) := by
  unfold readPageDone
  split
  · next c page left got e kind stage entry =>
    have before : r.phase = .beforeCommit :=
      (jobPages_pageless (by rw [stage]; rfl)).mp (fits.job r running)
    split
    · simp only
      generalize (readCell (s.page page) o).dataBytes.isNone = faulty
      have reported := fits.stocked.reported (k := r.key) (c := c) (readCell (s.page page) o) faulty faulty
      split
      · exact readFaulty_fits reported before _
      · exact reported.readEnds _ _ _
      · next bytes next rest _ =>
        exact reported.runs (r := { r with stage := .reading c (next :: rest) (got ++ bytes) })
          ⟨rfl, rfl, rfl, rfl, rfl, rfl⟩ rfl rfl rfl before
    · exact fits
  · exact fits

/-! ## Whole copies -/

/-- A whole-copy read that goes on is at a page of its copy. -/
theorem sourceAdvance_more {e : Entry} {d : CopyDescriptor} {header : Option HeaderPayload} {left : List Nat}
    {got : List Byte} {report : PageReport} {stage : Stage}
    (more : sourceAdvance e d c header left got report = .more stage) : stage.pageless = true := by
  have next : ∀ {h left got}, sourceNext e c h left got = .more stage → stage.pageless = true := by
    intro h left got more
    unfold sourceNext at more
    split at more
    · simp only at more
      split at more <;> cases more
    · cases more
      rfl
  unfold sourceAdvance at more
  split at more
  · split at more
    · exact next more
    · cases more
  · exact next more
  · cases more

theorem sourcePageDone_fits (fits : PoolsFit s) (running : s.running = some r) (o : ReadOutcome)
    {next : State → CopyNo → SourceStep → State}
    (goesOn : r.phase = .beforeCommit → ∀ u c step, Stocked u →
      (∀ stage, step = .more stage → stage.pageless = true) → PoolsFit (next u c step)) :
    PoolsFit (sourcePageDone o s r next) := by
  unfold sourcePageDone
  split
  · next c header page left got e stage entry =>
    have before : r.phase = .beforeCommit :=
      (jobPages_pageless (by rw [stage]; rfl)).mp (fits.job r running)
    split
    · exact fits
    · split
      · exact goesOn before _ _ _ (fits.stocked.reported _ _ _) fun stage more => sourceAdvance_more more
      · exact fits
  · exact fits

section Steps
variable (stocked : Stocked s) (before : r.phase = .beforeCommit)
include stocked before

theorem continueSource_fits {stage : Stage} (quiet : stage.pageless = true) : PoolsFit (continueSource s r stage) :=
  stocked.runs (r := { r with stage := stage }) ⟨rfl, rfl, rfl, rfl, rfl, rfl⟩ rfl rfl quiet before

theorem sourceFaulty_fits (c : CopyNo) {failed : State} (ends : PoolsFit failed) :
    PoolsFit (sourceFaulty s r c failed) := by
  unfold sourceFaulty
  split
  · exact ends
  · split
    · exact beginSource_fits stocked before _ _
    · exact ends

omit before in
theorem endPreloadDone_fits (e : Entry) (bytes : List Byte) : PoolsFit (endPreloadDone s r e bytes) := by
  unfold endPreloadDone
  split
  · simp only
    rw [post_eq]
    exact Stocked.ended (stocked.elsewhere ⟨rfl, rfl, rfl, rfl, rfl, rfl⟩ rfl)
  · exact stocked.ended

theorem preloadStep_fits (c : CopyNo) {step : SourceStep}
    (quiet : ∀ stage, step = .more stage → stage.pageless = true) : PoolsFit (preloadStep r s c step) := by
  unfold preloadStep
  split
  · exact continueSource_fits stocked before (quiet _ rfl)
  · exact sourceFaulty_fits stocked before c stocked.preloadDamaged
  · split
    · exact endPreloadDone_fits stocked _ _
    · exact stocked.preloadDamaged

theorem raiseStep_fits (c : CopyNo) {step : SourceStep}
    (quiet : ∀ stage, step = .more stage → stage.pageless = true) : PoolsFit (raiseStep r s c step) := by
  unfold raiseStep
  split
  · exact continueSource_fits stocked before (quiet _ rfl)
  · exact sourceFaulty_fits stocked before c stocked.raiseDamaged
  · exact beginDraw_fits stocked before

theorem repairStep_fits (c : CopyNo) {step : SourceStep}
    (quiet : ∀ stage, step = .more stage → stage.pageless = true) : PoolsFit (repairStep r s c step) := by
  unfold repairStep
  split
  · exact continueSource_fits stocked before (quiet _ rfl)
  · exact stocked.repairWithout
  · exact beginDraw_fits stocked before

theorem patrolFrom_fits (copies : List CopyNo) : PoolsFit (patrolFrom s r copies) := by
  induction copies with
  | nil => exact stocked.ended
  | cons c rest ih =>
    unfold patrolFrom
    split
    · split
      · exact beginSource_fits stocked before _ _
      · exact ih
    · exact ih

theorem patrolStep_fits (c : CopyNo) {step : SourceStep}
    (quiet : ∀ stage, step = .more stage → stage.pageless = true) : PoolsFit (patrolStep r s c step) := by
  unfold patrolStep
  split
  · exact continueSource_fits stocked before (quiet _ rfl)
  · exact patrolFrom_fits stocked before _
  · exact patrolFrom_fits stocked before _

end Steps

theorem copySourcePageDone_fits (fits : PoolsFit s) (running : s.running = some r) (o : ReadOutcome) :
    PoolsFit (copySourcePageDone o s r) := by
  unfold copySourcePageDone
  split
  · exact sourcePageDone_fits fits running o fun before u c _ stocked quiet => preloadStep_fits stocked before c quiet
  · exact sourcePageDone_fits fits running o fun before u c _ stocked quiet => raiseStep_fits stocked before c quiet
  · exact fits

theorem repairSourcePageDone_fits (fits : PoolsFit s) (running : s.running = some r) (o : ReadOutcome) :
    PoolsFit (repairSourcePageDone o s r) := by
  unfold repairSourcePageDone
  split
  · exact sourcePageDone_fits fits running o fun before u c _ stocked quiet => repairStep_fits stocked before c quiet
  · exact fits

theorem patrolPageDone_fits (fits : PoolsFit s) (running : s.running = some r) (o : ReadOutcome) :
    PoolsFit (patrolPageDone o s r) := by
  unfold patrolPageDone
  split
  · exact sourcePageDone_fits fits running o fun before u c _ stocked quiet => patrolStep_fits stocked before c quiet
  · exact fits

end Reads

/-! ## Selection (R121) -/

section Selection
variable {s : State}

theorem startRead_fits (stocked : Stocked s) (j : Job) (k : Key) : PoolsFit (startRead s j k) := by
  unfold startRead
  simp only
  split
  · exact stocked.readEnds _ _ _
  · split
    · exact stocked.readEnds _ _ _
    · split
      · exact stocked.readEnds _ _ _
      · split
        · exact stocked.readEnds _ _ _
        · split
          · exact beginRead_fits stocked rfl _ _
          · exact stocked.readEnds _ _ _

theorem beginChosenSource_fits {r : RunningJob} (stocked : Stocked s) (before : r.phase = .beforeCommit) (e : Entry)
    {failed : State} (ends : PoolsFit failed) : PoolsFit (beginChosenSource s r e failed) := by
  unfold beginChosenSource
  split
  · exact ends
  · split
    · exact ends
    · exact beginSource_fits stocked before _ _

theorem startPreload_fits (stocked : Stocked s) (j : Job) (k : Key) : PoolsFit (startPreload s j k) := by
  unfold startPreload
  simp only
  split
  · exact stocked.preloadDamaged
  · split
    · exact stocked.preloadDamaged
    · exact beginChosenSource_fits stocked rfl _ stocked.preloadDamaged

theorem startWriteCopy_fits (stocked : Stocked s) (j : Job) (k : Key) : PoolsFit (startWriteCopy s j k) := by
  unfold startWriteCopy
  split
  · exact stocked.beforeCommit _
  · simp only
    split
    · exact beginChosenSource_fits stocked rfl _ stocked.raiseDamaged
    · exact beginDraw_fits stocked rfl

theorem startRetire_fits (stocked : Stocked s) (j : Job) (k : Key) : PoolsFit (startRetire s j k) := by
  unfold startRetire
  split
  · exact stocked.beforeCommit _
  · exact beginDraw_fits stocked rfl

theorem startJob_fits (stocked : Stocked s) (j : Job) : PoolsFit (startJob s j) := by
  unfold startJob
  split
  · exact beginConfigStep_fits (setCopyState_fits stocked _ _) rfl 0
  · exact startRead_fits stocked j _
  · exact startPreload_fits stocked j _
  · exact startWriteCopy_fits stocked j _
  · exact startRetire_fits stocked j _
  · exact stocked.ended

theorem startRepair_fits (stocked : Stocked s) (x : RepairEntry) : PoolsFit (startRepair s x) := by
  have marked : Stocked { markRunning s x.key x.copy with engine := .running } :=
    stocked.elsewhere ⟨rfl, rfl, rfl, rfl, rfl, rfl⟩ rfl
  unfold startRepair
  simp only
  split
  · exact marked.repairWithout
  · split
    · exact marked.repairWithout
    · split
      · exact marked.repairWithout
      · exact beginSource_fits marked rfl _ _

theorem startErase_fits (stocked : Stocked s) (page : Nat) (k : Option Key) : PoolsFit (startErase s page k) :=
  stocked.runs (r := { newRun (backgroundJob .erase (k.map Target.record)) none with stage := .erasing })
    ⟨rfl, rfl, rfl, rfl, rfl, rfl⟩ rfl rfl rfl rfl

theorem startPatrol_fits (stocked : Stocked s) : PoolsFit (startPatrol s) := by
  unfold startPatrol
  simp only
  split
  · exact Stocked.ended (s := { s with engine := .running, patrolDue := false })
      (stocked.elsewhere ⟨rfl, rfl, rfl, rfl, rfl, rfl⟩ rfl)
  · next e _ =>
    exact patrolFrom_fits
      (s := { s with engine := .running, patrolDue := false, patrolCursor := some e.key })
      (stocked.elsewhere ⟨rfl, rfl, rfl, rfl, rfl, rfl⟩ rfl) rfl _

theorem selectEraseOrPatrol_fits (fits : PoolsFit s) : PoolsFit (selectEraseOrPatrol s) := by
  unfold selectEraseOrPatrol
  split
  · exact startErase_fits fits.stocked _ _
  · split
    · exact startPatrol_fits fits.stocked
    · exact fits

theorem selectJob_fits (fits : PoolsFit s) : PoolsFit (selectJob s) := by
  unfold selectJob
  split
  · next j rest _ =>
    exact startJob_fits (s := { s with jobQueue := rest, engine := .running })
      (fits.stocked.elsewhere ⟨rfl, rfl, rfl, rfl, rfl, rfl⟩ rfl) j
  · split
    · exact fits
    · unfold selectBackground
      split
      · split
        · exact startRepair_fits fits.stocked _
        · exact selectEraseOrPatrol_fits fits
      · exact selectEraseOrPatrol_fits fits

end Selection

/-! ## Every event of the engine -/

section Events
variable {s t : State} {c : Instr}

theorem jobEvent_fits {body : RunningJob → State} (fits : PoolsFit s)
    (event : ∀ r, s.running = some r → PoolsFit (body r)) : PoolsFit (jobEvent s body) := by
  rcases jobEvent_cases s body with same | ⟨r, -, running, same⟩
  · rwa [same]
  · rw [same]
    exact event r running

theorem exec_engine_fits (engine : isEngineEvent c = true) (next : exec c s = .next t) (fits : PoolsFit s) :
    PoolsFit t := by
  cases c <;> first
    | exact absurd engine Bool.false_ne_true
    | (injection next with next; subst next)
  case jobSelect =>
    split
    · exact selectJob_fits fits
    · exact fits
  case readJobPageRead o => exact jobEvent_fits fits fun _ running => readPageDone_fits fits running o
  case copySourcePageRead o => exact jobEvent_fits fits fun _ running => copySourcePageDone_fits fits running o
  case repairSourcePageRead o => exact jobEvent_fits fits fun _ running => repairSourcePageDone_fits fits running o
  case patrolPageRead o => exact jobEvent_fits fits fun _ running => patrolPageDone_fits fits running o
  case dataPageProgramDone b => exact jobEvent_fits fits fun _ running => dataPageDone_fits fits running b
  case commitPoint => exact jobEvent_fits fits fun _ running => commitPointDone_fits fits running
  case copy2Installed => exact jobEvent_fits fits fun _ running => copy2Done_fits fits running
  case retirementCommitPoint => exact jobEvent_fits fits fun _ running => retirementDone_fits fits running
  case repairPageProgramDone b => exact jobEvent_fits fits fun _ running => repairPageDone_fits fits running b
  case eraseComplete b => exact jobEvent_fits fits fun _ running => eraseDone_fits fits running b
  case configPageOperationDone b => exact jobEvent_fits fits fun _ running => configPageDone_fits fits running b
  case configurationCommitPoint => exact jobEvent_fits fits fun _ _ => configCommitDone_fits fits
  case headerProgramFailure => exact jobEvent_fits fits fun _ running => headerFailed_fits fits running

end Events

end Sys2Proof.Machine

/-! The pages that RESOLVE leaves named (R155 to R157): each one once. -/

namespace Sys2Proof.Machine

section Lists
variable {scan : List (Nat × ScanRecord)} {k : Key} {c : CopyNo} {e : Entry} {d : CopyDescriptor} {x : Found}
  {page : Nat}

/-! ## The pages of a descriptor -/

/-- A page found at two places of a copy would bear two data indices. -/
theorem invalidList_nodup (once : (scan.map Prod.fst).Nodup) : (invalidList (pagesOfKey scan k) x).Nodup := by
  have unique : ∀ {y z : Found} {i j : Nat}, y ∈ pagesOfKey scan k → z ∈ pagesOfKey scan k → y.page = z.page →
      y.tag.dataIndex = some i → z.tag.dataIndex = some j → i = j := by
    intro y z i j here there page first second
    rw [found_unique once here there page, second] at first
    exact (Option.some.inj first).symm
  unfold invalidList
  split
  · next h payload =>
    have places : (h.dataPages.zipIdx).Nodup := by
      refine List.Nodup.of_map Prod.snd ?_
      rw [List.zipIdx_map_snd]
      exact List.nodup_range'
    refine places.filterMap fun ⟨p, i⟩ ⟨q, j⟩ n first second => ?_
    obtain ⟨y, foundY, rfl⟩ := Option.map_eq_some_iff.mp first
    obtain ⟨z, foundZ, same⟩ := Option.map_eq_some_iff.mp second
    have testY := List.find?_some foundY
    have testZ := List.find?_some foundZ
    simp only [Bool.and_eq_true, beq_iff_eq] at testY testZ
    have index := unique (List.mem_of_find?_eq_some foundY) (List.mem_of_find?_eq_some foundZ) same.symm
      testY.2 testZ.2
    rw [← testY.1.1.1.1.1, ← testZ.1.1.1.1.1, same, index]
  · refine List.nodup_range.filterMap fun i j n first second => ?_
    obtain ⟨y, foundY, rfl⟩ := Option.map_eq_some_iff.mp first
    obtain ⟨z, foundZ, same⟩ := Option.map_eq_some_iff.mp second
    have testY := List.find?_some foundY
    have testZ := List.find?_some foundZ
    simp only [Bool.and_eq_true, beq_iff_eq] at testY testZ
    exact unique (List.mem_of_find?_eq_some foundY) (List.mem_of_find?_eq_some foundZ) same.symm testY.2 testZ.2

theorem dataPages_nodup (rising : (scan.map Prod.fst).Pairwise (· < ·))
    (member : e ∈ rebuiltDirectory (resolutions scan)) (copy : e.copy c = some d) : d.dataPages.Nodup := by
  rcases (rebuiltDirectory_copies rising member).copy_cases copy with ⟨-, h, candidate, list⟩ | ⟨damaged, -⟩
  · exact list ▸ candidate.once
  · have made := (mem_rebuiltDirectory member).2.2
    rw [made] at damaged
    have same := headerEntry_damaged damaged
    rw [made, same] at copy
    have described : invalidDescriptor (pagesOfKey scan e.key) c = some d := by
      cases c <;> exact copy
    obtain ⟨y, -, rfl⟩ := Option.map_eq_some_iff.mp described
    exact invalidList_nodup (rising.imp fun h => Nat.ne_of_lt h)

/-- The tag of a page of a copy, as a HEADER or a DATA one. -/
theorem TaggedCopy.header_fresh (rising : (scan.map Prod.fst).Pairwise (· < ·)) (tagged : TaggedCopy scan e c d) :
    d.header ∉ d.dataPages := by
  intro data
  obtain ⟨tag, payload, -, -, kind, -, corrected, mem⟩ := tagged.header
  obtain ⟨index, tag', corrected', payload', mem', kind', -⟩ := tagged.data _ data
  cases scan_unique rising mem mem'
  rw [kind] at kind'
  cases kind'

theorem entryPages_nodup (rising : (scan.map Prod.fst).Pairwise (· < ·))
    (member : e ∈ rebuiltDirectory (resolutions scan)) : (entryPages e).Nodup := by
  have copies := rebuiltDirectory_copies rising member
  have copyPages : ∀ c, (descriptorPages (e.copy c)).Nodup := fun c => by
    cases copy : e.copy c with
    | none => exact List.nodup_nil
    | some d =>
      exact List.nodup_cons.mpr ⟨(copies.tagged copy).header_fresh rising, dataPages_nodup rising member copy⟩
  have record : ∀ {c page}, page ∈ descriptorPages (e.copy c) →
      ∃ tag corrected payload, (page, .tagged tag corrected payload) ∈ scan ∧ tag.copyNumber = copyNumber c := by
    intro c page here
    cases copy : e.copy c with
    | none => rw [copy] at here; cases here
    | some d =>
      rw [copy] at here
      obtain ⟨tag, corrected, payload, mem, -, number, -⟩ := (copies.tagged copy).record here
      exact ⟨tag, corrected, payload, mem, number⟩
  refine (copyPages .one).append (copyPages .two) fun page first second => ?_
  obtain ⟨tag, corrected, payload, mem, number⟩ := record (c := .one) first
  obtain ⟨tag', corrected', payload', mem', number'⟩ := record (c := .two) second
  cases scan_unique rising mem mem'
  rw [number] at number'
  cases number'

end Lists

/-! ## The named pages as a whole -/

section Whole
variable {scan : List (Nat × ScanRecord)} {s : State} {highest : Nat}

theorem rebuiltRetirements_ordered (scan : List (Nat × ScanRecord)) :
    (rebuiltRetirements (resolutions scan)).Pairwise fun a b => a.key.before b.key = true := by
  unfold rebuiltRetirements
  rw [List.pairwise_filterMap]
  refine (resolutions_ordered scan).imp fun {a b} ordered x made y made' => ?_
  cases a <;> cases made
  cases b <;> cases made'
  exact ordered _ rfl _ rfl

theorem Key.ne_of_before {a b : Key} (before : a.before b = true) : a ≠ b := by
  rintro rfl
  rw [Key.before_irrefl] at before
  cases before

theorem directoryPages_nodup (rising : (scan.map Prod.fst).Pairwise (· < ·)) :
    ((rebuiltDirectory (resolutions scan)).flatMap entryPages).Nodup := by
  refine List.nodup_flatMap.mpr ⟨fun e member => entryPages_nodup rising member, ?_⟩
  refine (rebuiltDirectory_ordered scan).imp_of_mem fun {a b} here there before page first second => ?_
  obtain ⟨tag, corrected, payload, mem, key, -⟩ := entryPages_record rising here first
  obtain ⟨tag', corrected', payload', mem', key', -⟩ := entryPages_record rising there second
  cases scan_unique rising mem mem'
  exact Key.ne_of_before before (key.symm.trans key')

theorem retirementHeaders_nodup (rising : (scan.map Prod.fst).Pairwise (· < ·)) :
    (keptHeaders (rebuiltRetirements (resolutions scan))).Nodup := by
  refine List.Nodup.sublist (List.filter_sublist.map _) ?_
  rw [List.Nodup, List.pairwise_map]
  refine (rebuiltRetirements_ordered scan).imp_of_mem fun {a b} here there before same => ?_
  obtain ⟨tag, corrected, payload, mem, key, -⟩ := retirementHeader_record here
  obtain ⟨tag', corrected', payload', mem', key', -⟩ := retirementHeader_record there
  rw [same] at mem
  cases scan_unique rising mem mem'
  exact Key.ne_of_before before (key.symm.trans key')

theorem resolved_named (rising : (scan.map Prod.fst).Pairwise (· < ·)) :
    (namedPages (resolved s scan highest)).Nodup := by
  rw [namedPages_eq]
  refine (directoryPages_nodup rising).append (retirementHeaders_nodup rising) fun page first second => ?_
  obtain ⟨e, member, named⟩ := List.mem_flatMap.mp first
  obtain ⟨tag, corrected, payload, mem, -, kind⟩ := entryPages_record rising member named
  obtain ⟨x, kept, rfl⟩ := List.mem_map.mp second
  obtain ⟨tag', corrected', payload', mem', -, kind'⟩ := retirementHeader_record (List.mem_filter.mp kept).1
  cases scan_unique rising mem mem'
  exact kind kind'

/-- LIVE has the named pages (R157). -/
theorem resolved_live_perm (rising : (scan.map Prod.fst).Pairwise (· < ·)) :
    ((resolved s scan highest).live).Perm (namedPages (resolved s scan highest)) := by
  have made : (resolved s scan highest).live = insertAll (namedPages (resolved s scan highest)) [] := rfl
  rw [made]
  exact (perm_insertAll (resolved_named rising) fun _ _ => List.not_mem_nil).trans (by rw [List.append_nil])

theorem resolved_stocked (pages : scan.map Prod.fst = List.range' 8 4088) : Stocked (resolved s scan highest) := by
  have rising := scan_rising pages
  have once : (scan.map Prod.fst).Nodup := rising.imp fun h => Nat.ne_of_lt h
  have live := resolved_live_perm (s := s) (highest := highest) rising
  have erasedSub : (resolved s scan highest).erased.Sublist (scan.map Prod.fst) := List.filter_sublist.map _
  have dirtySub : ((resolved s scan highest).eraseList.map Prod.fst).Sublist (scan.map Prod.fst) := by
    rw [resolved_eraseList, rebuiltEraseList, List.map_map]
    exact List.filter_sublist.map _
  have range : ∀ {page}, page ∈ scan.map Prod.fst → 8 ≤ page ∧ page < 4096 := by
    intro page here
    rw [pages, List.mem_range'_1] at here
    omega
  have split : poolPages (resolved s scan highest) = (resolved s scan highest).erased ++
      (resolved s scan highest).live ++ (resolved s scan highest).eraseList.map Prod.fst := by
    show _ ++ [] ++ _ ++ _ ++ [] = _
    rw [List.append_nil, List.append_nil]
  have one : ∀ {page}, 8 ≤ page ∧ page < 4096 → _ := fun inside =>
    resolved_pools (s := s) (highest := highest) pages inside.1 inside.2 rfl
  have liveRange : ∀ {page}, page ∈ (resolved s scan highest).live → page ∈ scan.map Prod.fst := by
    intro page here
    obtain ⟨tag, corrected, payload, mem⟩ := rebuiltLive_record rising here
    exact List.mem_map.mpr ⟨_, mem, rfl⟩
  have first : ((resolved s scan highest).erased ++ (resolved s scan highest).live).Nodup :=
    (once.sublist erasedSub).append (live.nodup_iff.mpr (resolved_named rising)) fun page erased here =>
      live_not_erased rising here erased
  have nodup : (poolPages (resolved s scan highest)).Nodup := by
    rw [split]
    refine first.append (once.sublist dirtySub) fun page both dirty => ?_
    rcases one (range (dirtySub.subset dirty)) with ⟨-, -, no⟩ | ⟨-, -, no⟩ | ⟨noErased, noLive, -⟩
    · exact no dirty
    · exact no dirty
    · exact (List.mem_append.mp both).elim noErased noLive
  refine ⟨resolved_ordered.keys_nodup, ?_, resolved_named rising, fun page here => live.mem_iff.mpr here⟩
  refine (List.perm_ext_iff_of_nodup nodup List.nodup_range').mpr fun page => ?_
  rw [split, List.mem_append, List.mem_append, ← pages]
  constructor
  · rintro ((erased | here) | dirty)
    · exact erasedSub.subset erased
    · exact liveRange here
    · exact dirtySub.subset dirty
  · intro here
    rcases one (range here) with ⟨erased, -⟩ | ⟨-, here, -⟩ | ⟨-, -, dirty⟩
    · exact .inl (.inl erased)
    · exact .inl (.inr here)
    · exact .inr dirty

end Whole

end Sys2Proof.Machine

/-! The law of pools through every command (R108), and the obligation. -/

namespace Sys2Proof.Machine

section Law
variable {s t u : State}

theorem PoolLaw.fits (law : PoolLaw s) (ordered : DirectoryOrdered s) (ready : s.isReady = true) : PoolsFit s where
  stocked := ⟨ordered.keys_nodup, law.pools ready, (law.named ready).1, (law.named ready).2⟩
  job := law.job ready

theorem PoolsFit.law (fits : PoolsFit s) (ready : s.isReady = true) : PoolLaw s where
  scanning := fun starting => absurd ready (by simp [isStarting_not_isReady starting])
  pools := fun _ => fits.stocked.pools
  named := fun _ => ⟨fits.stocked.named, fits.stocked.live⟩
  job := fun _ => fits.job

/-- Outside READY and STARTING the law says nothing. -/
theorem PoolLaw.of_stopped (ready : s.isReady = false) (starting : s.isStarting = false) : PoolLaw s where
  scanning := fun h => absurd h (by simp [starting])
  pools := fun h => absurd h (by simp [ready])
  named := fun h => absurd h (by simp [ready])
  job := fun h => absurd h (by simp [ready])

/-- In STARTING the law is one of the scan. -/
theorem PoolLaw.of_starting (starting : s.isStarting = true) (idle : s.running = none)
    (scan : ∀ records highest, s.startup = .scan records highest →
      records.length < 4088 ∧ records.map Prod.fst = List.range' 8 records.length ∧
        s.operation = some (.read (8 + records.length))) : PoolLaw s where
  scanning := fun _ => ⟨idle, scan⟩
  pools := fun h => absurd h (by simp [isStarting_not_isReady starting])
  named := fun h => absurd h (by simp [isStarting_not_isReady starting])
  job := fun h => absurd h (by simp [isStarting_not_isReady starting])

/-! ## Commands that move no page -/

/-- The pools, the jobs and the start-up stand, and no page is named that was not. -/
structure PoolsStand (s t : State) : Prop where
  pools : PoolsKept s t
  pages : (t.directory.flatMap entryPages).Sublist (s.directory.flatMap entryPages)
  ready : t.isReady = s.isReady
  starting : t.isStarting = s.isStarting
  running : t.running = s.running
  startup : t.startup = s.startup
  operation : t.operation = s.operation

theorem PoolsStand.refl (s : State) : PoolsStand s s := ⟨.refl s, .refl _, rfl, rfl, rfl, rfl, rfl⟩

theorem PoolsStand.trans (first : PoolsStand s t) (second : PoolsStand t u) : PoolsStand s u :=
  ⟨first.pools.trans second.pools, second.pages.trans first.pages, second.ready.trans first.ready,
    second.starting.trans first.starting, second.running.trans first.running, second.startup.trans first.startup,
    second.operation.trans first.operation⟩

theorem PoolLaw.stands (law : PoolLaw s) (stand : PoolsStand s t) : PoolLaw t := by
  have named : (namedPages t).Sublist (namedPages s) := by
    rw [namedPages_eq, namedPages_eq, stand.pools.headers]
    exact stand.pages.append (.refl _)
  refine ⟨fun starting => ?_, fun ready => ?_, fun ready => ?_, fun ready r running => ?_⟩
  · rw [stand.running, stand.startup, stand.operation]
    exact law.scanning (stand.starting ▸ starting)
  · exact stand.pools.pages ▸ law.pools (stand.ready ▸ ready)
  · obtain ⟨once, live⟩ := law.named (stand.ready ▸ ready)
    exact ⟨once.sublist named, fun page member => stand.pools.live ▸ live page (named.subset member)⟩
  · exact (law.job (stand.ready ▸ ready) r (stand.running ▸ running)).congr stand.pools.inWrite

/-! ### Takings -/

theorem RestrictFrame.stands {p : Port} (frame : RestrictFrame p s t) : PoolsStand s t := by
  have rest := frame.rest
  refine ⟨⟨?_, ?_, ?_, ?_, ?_, ?_⟩, frame.pages, ?_, ?_, ?_, ?_, ?_⟩
  all_goals rw [rest]
  all_goals rfl

theorem Judged.stands {p : Port} (judged : Judged RestrictFrame p s t) : PoolsStand s t := by
  cases judged with
  | unanswered touches => exact (touches.frame (RestrictFrame.refl p) RestrictFrame.trans).stands
  | answered code res data touches =>
    refine (touches.frame (RestrictFrame.refl p) RestrictFrame.trans).stands.trans ?_
    rw [post_eq]
    exact ⟨⟨rfl, rfl, rfl, rfl, rfl, rfl⟩, .refl _, rfl, rfl, rfl, rfl, rfl⟩
  | queued j port touches =>
    exact (touches.frame (RestrictFrame.refl p) RestrictFrame.trans).stands.trans
      ⟨⟨rfl, rfl, rfl, rfl, rfl, rfl⟩, .refl _, rfl, rfl, rfl, rfl, rfl⟩

theorem takeHead_stands (s : State) (p : Port) (rest : List Port) : PoolsStand s (takeHead s p rest) :=
  ⟨⟨rfl, rfl, rfl, rfl, rfl, rfl⟩, .refl _, rfl, rfl, rfl, rfl, rfl⟩

theorem TakenAndJudged.stands (taken : TakenAndJudged RestrictFrame s t) : PoolsStand s t := by
  rcases taken with rfl | ⟨p, rest, -, -, -, judged⟩
  · exact .refl t
  · exact (takeHead_stands s p rest).trans judged.stands

/-! ### The link and the timers -/

theorem LinkFrame.stands {p : Port} (frame : LinkFrame p s t) : PoolsStand s t := by
  have rest := frame.rest
  refine ⟨⟨?_, ?_, ?_, ?_, ?_, ?_⟩, ?_, ?_, ?_, ?_, ?_, ?_⟩
  all_goals rw [rest]
  all_goals rfl

theorem releaseSlot_stands (s : State) (i : SlotNo) (cause : ReleaseCause) :
    PoolsStand s (releaseSlot s i cause) := by
  refine ⟨(shrinks_releaseSlot i cause).pools, entryPages_releaseSlot, ?_, ?_, ?_, ?_, ?_⟩
  all_goals rw [releaseSlot_frame]
  all_goals rfl

theorem patrolExpires_stands (s : State) : PoolsStand s (expirePatrol s) :=
  ⟨⟨rfl, rfl, rfl, rfl, rfl, rfl⟩, .refl _, rfl, rfl, rfl, rfl, rfl⟩

theorem idle_stands (s : State) : PoolsStand s (idle s) := by
  have passes : PoolsStand s { s with now := s.now + 1 } :=
    ⟨⟨rfl, rfl, rfl, rfl, rfl, rfl⟩, .refl _, rfl, rfl, rfl, rfl, rfl⟩
  unfold idle
  split
  · split
    · exact releaseSlot_stands s _ .lapsed
    · split
      · exact patrolExpires_stands s
      · exact passes
  · exact passes

/-! ## Start-up, resets and halts -/

theorem enterStarting_poolLaw (s : State) (cause : ResetCause) : PoolLaw (enterStarting s cause) := by
  unfold enterStarting
  split
  · exact .of_stopped rfl rfl
  · exact .of_starting rfl rfl nofun

theorem inactive_poolLaw (off : s.active = false) : PoolLaw s :=
  .of_stopped (by rw [State.isReady, off]; rfl) (by rw [State.isStarting, off]; rfl)

theorem halted_poolLaw (halted : s.device = .halted) : PoolLaw s :=
  .of_stopped (by simp [State.isReady, halted]) (by simp [State.isStarting, halted])

theorem configLoadRead_poolLaw (law : PoolLaw s) (starting : s.isStarting = true) (o : ReadOutcome) :
    PoolLaw (configLoadRead s o) := by
  obtain ⟨idle, -⟩ := law.scanning starting
  unfold configLoadRead
  split
  · simp only
    split
    · exact .of_starting starting idle nofun
    · refine .of_starting starting idle fun records highest phase => ?_
      cases phase
      exact ⟨by decide, rfl, rfl⟩
  · exact law

theorem range'_snoc (n : Nat) : List.range' 8 n ++ [8 + n] = List.range' 8 (n + 1) :=
  List.range'_append_1 (s := 8) (m := n) (n := 1)

theorem scanRead_poolLaw (law : PoolLaw s) (starting : s.isStarting = true) (o : ReadOutcome) :
    PoolLaw (scanRead s o) := by
  obtain ⟨idle, scan⟩ := law.scanning starting
  unfold scanRead
  split
  · next records highest page phase reads =>
    obtain ⟨short, pages, read⟩ := scan records highest phase
    obtain rfl : page = 8 + records.length := by
      rw [reads] at read
      cases read
      rfl
    obtain ⟨x, hx⟩ : ∃ x, x = scanRecordOf (readCell (s.page (8 + records.length)) o) := ⟨_, rfl⟩
    simp only [← hx]
    have rises : (records ++ [(8 + records.length, x)]).map Prod.fst = List.range' 8 (records.length + 1) := by
      rw [List.map_append, pages, ← range'_snoc]
      rfl
    have longer : (records ++ [(8 + records.length, x)]).length = records.length + 1 := List.length_append
    split
    · next more =>
      have more' : records.length + 1 < 4088 := by
        have : 8 + records.length + 1 < 4096 := more
        omega
      refine .of_starting starting idle fun records' highest' phase' => ?_
      cases phase'
      rw [longer]
      exact ⟨more', rises, rfl⟩
    · next last =>
      have whole : records.length + 1 = 4088 := by
        have : ¬8 + records.length + 1 < 4096 := last
        omega
      rw [whole] at rises
      refine PoolsFit.law ⟨resolved_stocked rises, fun r running => ?_⟩ ?_
      · rw [show s.running = some r from running] at idle
        cases idle
      · show (s.active && _) = true
        rw [isStarting_active starting]
        rfl
  · exact law

theorem pfwNAssert_poolLaw {success : Bool} (law : PoolLaw s) (next : exec (.pfwNAssert success) s = .next t) :
    PoolLaw t := by
  cases next
  dsimp only
  split
  · exact halted_poolLaw rfl
  · split
    · exact halted_poolLaw rfl
    · exact law.stands ⟨⟨rfl, rfl, rfl, rfl, rfl, rfl⟩, .refl _, rfl, rfl, rfl, rfl, rfl⟩

theorem powerOn_poolLaw (law : PoolLaw s) (next : exec .powerOn s = .next t) : PoolLaw t := by
  cases next
  dsimp only
  split
  · exact law
  · split
    · next asserted => exact inactive_poolLaw (by simp [State.active, asserted])
    · exact enterStarting_poolLaw _ _

theorem resetNAssert_poolLaw (law : PoolLaw s) (next : exec .resetNAssert s = .next t) : PoolLaw t := by
  cases next
  split
  · exact law
  · split
    · exact inactive_poolLaw (by simp [State.active, heldInReset])
    · next off => exact inactive_poolLaw (by simp [State.active])

theorem resetNDeassert_poolLaw (law : PoolLaw s) (next : exec .resetNDeassert s = .next t) : PoolLaw t := by
  cases next
  dsimp only
  split
  · split
    · exact enterStarting_poolLaw _ _
    · next off => exact inactive_poolLaw (by simp [State.active, off])
  · exact law

/-! ## Every command -/

theorem exec_restart_poolLaw (law : PoolLaw s) (next : exec .restart s = .next t) : PoolLaw t := by
  rcases exec_restart_cases next with rfl | ⟨p, rest, -, -, -, ⟨code, rfl⟩ | rfl | rfl⟩
  · exact law
  · refine (law.stands (takeHead_stands s p rest)).stands ?_
    rw [post_eq]
    exact ⟨⟨rfl, rfl, rfl, rfl, rfl, rfl⟩, .refl _, rfl, rfl, rfl, rfl, rfl⟩
  · exact enterStarting_poolLaw _ _
  · exact (law.stands (takeHead_stands s p rest)).stands
      ⟨⟨rfl, rfl, rfl, rfl, rfl, rfl⟩, .refl _, rfl, rfl, rfl, rfl, rfl⟩

/-- An event of the engine, which only READY has. -/
theorem exec_engine_poolLaw {c : Instr} (ordered : DirectoryOrdered s) (law : PoolLaw s)
    (engine : isEngineEvent c = true) (next : exec c s = .next t) : PoolLaw t := by
  have same := (exec_engine_frame engine next).isReady_eq
  cases ready : s.isReady with
  | true => exact (exec_engine_fits engine next (law.fits ordered ready)).law (same.trans ready)
  | false =>
    rcases exec_engine_cases engine next with rfl | ⟨r, runs, -⟩ | ⟨runs, -⟩
    · exact law
    · rw [runs] at ready
      cases ready
    · rw [runs] at ready
      cases ready

theorem exec_poolLaw {c : Instr} (ordered : DirectoryOrdered s) (law : PoolLaw s) (next : exec c s = .next t) :
    PoolLaw t := by
  by_cases engine : isEngineEvent c = true
  · exact exec_engine_poolLaw ordered law engine next
  by_cases taking : isTaking c = true
  · exact law.stands ((exec_taking_judged taking next).mono fun _ _ _ => JudgedFrame.restrict).stands
  cases link : linkPort c with
  | some p => exact law.stands (exec_link_frame link next).stands
  | none =>
    cases c <;> first
      | exact absurd rfl engine
      | exact absurd rfl taking
      | exact absurd link (Option.some_ne_none _)
      | skip
    case restrict => exact law.stands (exec_restrict_judged next).stands
    case restart => exact exec_restart_poolLaw law next
    case powerOn => exact powerOn_poolLaw law next
    case resetNAssert => exact resetNAssert_poolLaw law next
    case resetNDeassert => exact resetNDeassert_poolLaw law next
    case pfwNAssert b => exact pfwNAssert_poolLaw law next
    all_goals injection next with next; subst next
    case powerLoss =>
      split
      · exact inactive_poolLaw rfl
      · exact law
    case pfwNDeassert => exact law.stands ⟨⟨rfl, rfl, rfl, rfl, rfl, rfl⟩, .refl _, rfl, rfl, rfl, rfl, rfl⟩
    case configLoadPageRead o =>
      split
      · next starting => exact configLoadRead_poolLaw law starting o
      · exact law
    case scanPageRead o =>
      split
      · next starting => exact scanRead_poolLaw law starting o
      · exact law
    case leaseExpiry i =>
      split
      · exact law.stands (releaseSlot_stands s i .lapsed)
      · exact law
    case patrolTimerExpiry =>
      split
      · exact law.stands (patrolExpires_stands s)
      · exact law
    case restartDrainEnd =>
      split
      · exact enterStarting_poolLaw s _
      · exact law

end Law

/-- Settles O60: the engine's events move pages from pool to pool as they move what names them, every other command
leaves the pools, and the end of SCAN builds them from one record for each page. -/
theorem stepKeepsPoolLaw : Obligations.StepKeepsPoolLaw := by
  intro s t ordered law next
  unfold step at next
  split at next
  · injection next with next
    subst next
    exact law.stands (idle_stands s)
  · next c rest _ =>
    exact exec_poolLaw (s := { s with pending := rest }) ⟨ordered.ordered, ordered.bounded⟩
      (law.stands ⟨⟨rfl, rfl, rfl, rfl, rfl, rfl⟩, .refl _, rfl, rfl, rfl, rfl, rfl⟩) next

end Sys2Proof.Machine
